-- ==== Sys2Proof/Word.lean ====
section
/-!
DEFINITION. The words of the X620: 64-bit words, bytes, and the operand fields of instruction words.
-/
namespace Sys2Proof

/-- A 64-bit word: a scalar register, a program counter, an instruction word (R26, R105). -/
abbrev Word := BitVec 64

/-- One byte of memory (R6). -/
abbrev Byte := BitVec 8

/-- An operand field of an instruction word: six bits (R107, R110). -/
abbrev Field := BitVec 6

end Sys2Proof
end

