-- ==== Sys2Proof/Machine/Bits.lean ====
section
/-!
DEFINITION. Bit fields, sign extension and byte order (R6, R108): the helpers every layout of the spec is read with.
-/
namespace Sys2Proof.Machine

/-- Bits [lo+n-1:lo] of a value. -/
def bits (v lo n : Nat) : Nat := v / 2 ^ lo % 2 ^ n

/-- Bit i of a value. -/
def bit (v i : Nat) : Bool := v / 2 ^ i % 2 = 1

/-- 1 for true, 0 for false. -/
def ofBool (b : Bool) : Nat := if b then 1 else 0

/-- The value with bits [lo+n-1:lo] replaced by f. -/
def setBits (v lo n f : Nat) : Nat :=
  v - v / 2 ^ lo % 2 ^ n * 2 ^ lo + f % 2 ^ n * 2 ^ lo

/-- The value with bit i set to b. -/
def setBit (v i : Nat) (b : Bool) : Nat := setBits v i 1 (ofBool b)

/-- The signed reading of the low n bits of v. -/
def signed (n v : Nat) : Int :=
  let u := v % 2 ^ n
  if u < 2 ^ (n - 1) then (u : Int) else (u : Int) - (2 ^ n : Nat)

/-- The n-bit pattern of an integer, modulo 2^n (R50). -/
def wrap (n : Nat) (i : Int) : Nat := (i % (2 ^ n : Nat)).toNat

/-- The value of n bytes, least significant first (R6). -/
def ofBytes : List Byte → Nat
  | [] => 0
  | b :: bs => b.toNat + 256 * ofBytes bs

/-- The low n bytes of a value, least significant first (R6). -/
def toBytes : Nat → Nat → List Byte
  | 0, _ => []
  | n + 1, v => BitVec.ofNat 8 v :: toBytes n (v / 256)

/-- The 64-bit word that holds the low 64 bits of a number. -/
def word (v : Nat) : Word := BitVec.ofNat 64 v

/-- A 32-bit immediate sign-extended to 64 bits (R108). -/
def sext32 (i : BitVec 32) : Word := i.signExtend 64

/-- floor(log2 n), 0 for n = 0. -/
def log2 (n : Nat) : Nat := n.log2

/-- ceil(a / b). -/
def ceilDiv (a b : Nat) : Nat := (a + b - 1) / b

/-- The number of set bits among the low n bits. -/
def popCount : Nat → Nat → Nat
  | 0, _ => 0
  | n + 1, v => v % 2 + popCount n (v / 2)

/-- The number of zero bits above the highest set bit of an n-bit value. -/
def clz (n v : Nat) : Nat := if v % 2 ^ n = 0 then n else n - 1 - (v % 2 ^ n).log2

/-- The number of zero bits below the lowest set bit of an n-bit value. -/
def ctz : Nat → Nat → Nat
  | 0, _ => 0
  | n + 1, v => if v % 2 = 1 then 0 else 1 + ctz n (v / 2)

/-- A virtual address is canonical when bits [63:57] all equal bit 56 (R79). -/
def canonical (v : Nat) : Bool := bits v 56 8 = 0 || bits v 56 8 = 255

/-- The canonical value a 57-bit address field stands for (R79). -/
def canon57 (v : Nat) : Nat := wrap 64 (signed 57 v)

end Sys2Proof.Machine
end

