-- ==== Sys2Proof/Syntax.lean ====
section
/-!
DEFINITION. The instructions: one constructor for each row of the opcode table. Full instructions and halves carry the
fields of their words as they stand (R107, R110, R113), since a field's value decides which cause a bad use raises; the
rules of Bindweed carry theirs (R311); the device's own steps act on the things State.input names (log entry 1). The steps
of instruction streams come first, the device's own steps after them, each in the order of the table.
-/
namespace Sys2Proof

/-- Format FI (R107). -/
structure FI where
  d : Field
  a : Field
  f : BitVec 10
  imm : BitVec 32
  deriving DecidableEq, Repr

/-- Format FM (R107). -/
structure FM where
  d : Field
  a : Field
  b : Field
  sc : BitVec 2
  sp : BitVec 2
  ofs : BitVec 32
  deriving DecidableEq, Repr

/-- Format FB (R107). -/
structure FB where
  a : Field
  b : Field
  ofs : BitVec 42
  deriving DecidableEq, Repr

/-- Format FX (R107). -/
structure FX where
  d : Field
  a : Field
  b : Field
  c : Field
  m : BitVec 3
  z : BitVec 1
  f : BitVec 10
  imm : BitVec 16
  deriving DecidableEq, Repr

/-- Format FS (R107). -/
structure FS where
  d : Field
  a : Field
  f : BitVec 10
  csr : BitVec 16
  imm : BitVec 16
  deriving DecidableEq, Repr

/-- A half instruction without its HOP (R110). -/
structure Half where
  d : Field
  a : Field
  b : Field
  c : Field
  deriving DecidableEq, Repr

/-- The prefix of a prefixed word (R113); bits [11:0] are zero in every word that is an instruction. -/
structure Pfx where
  mr : BitVec 3
  mi : BitVec 1
  zm : BitVec 1
  rm : BitVec 3
  e : Field
  ev : BitVec 1
  ty : BitVec 4
  deriving DecidableEq, Repr

/-- A vector half with its prefix, where it has one (R112, R113). -/
structure VHalf where
  d : Field
  a : Field
  b : Field
  c : Field
  pfx : Option Pfx
  deriving DecidableEq, Repr

/-- The instructions, one constructor for each row of the opcode table. -/
inductive Instr where
  /-- ADD (R143). -/
  | add (o : Half)
  /-- SUB (R143). -/
  | sub (o : Half)
  /-- MUL (R143). -/
  | mul (o : Half)
  /-- MULH (R143). -/
  | mulh (o : Half)
  /-- MULHZ (R143). -/
  | mulhz (o : Half)
  /-- DIV (R144). -/
  | div (o : Half)
  /-- DIVZ (R144). -/
  | divz (o : Half)
  /-- REM (R144). -/
  | rem (o : Half)
  /-- REMZ (R144). -/
  | remz (o : Half)
  /-- AND (R143). -/
  | and (o : Half)
  /-- OR (R143). -/
  | or (o : Half)
  /-- XOR (R143). -/
  | xor (o : Half)
  /-- SHL (R143). -/
  | shl (o : Half)
  /-- SHR (R143). -/
  | shr (o : Half)
  /-- SRA (R143). -/
  | sra (o : Half)
  /-- CLZ (R143). -/
  | clz (o : Half)
  /-- CTZ (R143). -/
  | ctz (o : Half)
  /-- POPC (R143). -/
  | popc (o : Half)
  /-- MIN (R143). -/
  | min (o : Half)
  /-- MAX (R143). -/
  | max (o : Half)
  /-- MINZ (R143). -/
  | minz (o : Half)
  /-- MAXZ (R143). -/
  | maxz (o : Half)
  /-- SLT (R143). -/
  | slt (o : Half)
  /-- SLTZ (R143). -/
  | sltz (o : Half)
  /-- SEL (R143). -/
  | sel (o : Half)
  /-- NOP (R121). -/
  | nop
  /-- ADDI (R145). -/
  | addi (o : FI)
  /-- ANDI (R145). -/
  | andi (o : FI)
  /-- ORI (R145). -/
  | ori (o : FI)
  /-- XORI (R145). -/
  | xori (o : FI)
  /-- SHLI (R145). -/
  | shli (o : FI)
  /-- SHRI (R145). -/
  | shri (o : FI)
  /-- SRAI (R145). -/
  | srai (o : FI)
  /-- SLTI (R145). -/
  | slti (o : FI)
  /-- LI (R145). -/
  | li (o : FI)
  /-- LIH (R145). -/
  | lih (o : FI)
  /-- ADDPC (R145). -/
  | addpc (o : FI)
  /-- LDB (R146). -/
  | ldb (o : FM)
  /-- LDBZ (R146). -/
  | ldbz (o : FM)
  /-- LDH (R146). -/
  | ldh (o : FM)
  /-- LDHZ (R146). -/
  | ldhz (o : FM)
  /-- LDW (R146). -/
  | ldw (o : FM)
  /-- LDWZ (R146). -/
  | ldwz (o : FM)
  /-- LDD (R146). -/
  | ldd (o : FM)
  /-- STB (R146). -/
  | stb (o : FM)
  /-- STH (R146). -/
  | sth (o : FM)
  /-- STW (R146). -/
  | stw (o : FM)
  /-- STD (R146). -/
  | std (o : FM)
  /-- LDA (R148). -/
  | lda (o : FM)
  /-- STL (R148). -/
  | stl (o : FM)
  /-- PREF (R149). -/
  | pref (o : FM)
  /-- FENCE (R151). -/
  | fence (o : FI)
  /-- IFENCE (R152). -/
  | ifence (o : FI)
  /-- BEQ (R153). -/
  | beq (o : FB)
  /-- BNE (R153). -/
  | bne (o : FB)
  /-- BLT (R153). -/
  | blt (o : FB)
  /-- BGE (R153). -/
  | bge (o : FB)
  /-- BLO (R153). -/
  | blo (o : FB)
  /-- BHS (R153). -/
  | bhs (o : FB)
  /-- JMP (R153). -/
  | jmp (o : FB)
  /-- JAL (R153). -/
  | jal (o : FB)
  /-- JALR (R153). -/
  | jalr (o : FI)
  /-- CALL (R155). -/
  | call (o : FB)
  /-- CALLR (R155). -/
  | callr (o : FI)
  /-- RET (R156). -/
  | ret (o : FI)
  /-- GATE (R160). -/
  | gate (o : FI)
  /-- GRET (R161). -/
  | gret (o : FI)
  /-- END (R162). -/
  | endStrip (o : FI)
  /-- RELEASE (R42). -/
  | release (o : FI)
  /-- LAUNCH (R163). -/
  | launch (o : FI)
  /-- YIELD (R164). -/
  | yield (o : FI)
  /-- CSRR (R166). -/
  | csrr (o : FS)
  /-- CSRW (R166). -/
  | csrw (o : FS)
  /-- CSRS (R166). -/
  | csrs (o : FS)
  /-- CSRC (R166). -/
  | csrc (o : FS)
  /-- TRAP (R170). -/
  | trap (o : FI)
  /-- XRET (R174). -/
  | xret (o : FI)
  /-- WFI (R165). -/
  | wfi (o : FI)
  /-- VCFG (R179). -/
  | vcfg (o : FI)
  /-- VSETL (R180). -/
  | vsetl (o : FI)
  /-- VSETT (R181). -/
  | vsett (o : FI)
  /-- VLD (R204). -/
  | vld (o : FM)
  /-- VLDS (R204). -/
  | vlds (o : FM)
  /-- VLDTR (R204). -/
  | vldtr (o : FM)
  /-- VST (R204). -/
  | vst (o : FM)
  /-- VSTS (R204). -/
  | vsts (o : FM)
  /-- VLDX (R206). -/
  | vldx (o : FX)
  /-- VSTX (R206). -/
  | vstx (o : FX)
  /-- VSTXA (R206). -/
  | vstxa (o : FX)
  /-- VLDK (R207). -/
  | vldk (o : FX)
  /-- VSTK (R207). -/
  | vstk (o : FX)
  /-- TSET (R208). -/
  | tset (o : FI)
  /-- TGET (R208). -/
  | tget (o : FI)
  /-- VADD (R184). -/
  | vadd (o : VHalf)
  /-- VSUB (R184). -/
  | vsub (o : VHalf)
  /-- VMUL (R184). -/
  | vmul (o : VHalf)
  /-- VMA (R184). -/
  | vma (o : VHalf)
  /-- VMS (R184). -/
  | vms (o : VHalf)
  /-- VNMA (R184). -/
  | vnma (o : VHalf)
  /-- VDIV (R184). -/
  | vdiv (o : VHalf)
  /-- VSQRT (R184). -/
  | vsqrt (o : VHalf)
  /-- VMIN (R186). -/
  | vmin (o : VHalf)
  /-- VMAX (R186). -/
  | vmax (o : VHalf)
  /-- VABS (R184). -/
  | vabs (o : VHalf)
  /-- VNEG (R184). -/
  | vneg (o : VHalf)
  /-- VCLAMP (R186). -/
  | vclamp (o : VHalf)
  /-- VRCP (R185). -/
  | vrcp (o : VHalf)
  /-- VRSQ (R185). -/
  | vrsq (o : VHalf)
  /-- VEXP2 (R185). -/
  | vexp2 (o : VHalf)
  /-- VLOG2 (R185). -/
  | vlog2 (o : VHalf)
  /-- VTANH (R185). -/
  | vtanh (o : VHalf)
  /-- VSIGM (R185). -/
  | vsigm (o : VHalf)
  /-- VAND (R188). -/
  | vand (o : VHalf)
  /-- VOR (R188). -/
  | vor (o : VHalf)
  /-- VXOR (R188). -/
  | vxor (o : VHalf)
  /-- VNOT (R188). -/
  | vnot (o : VHalf)
  /-- VSHL (R188). -/
  | vshl (o : VHalf)
  /-- VSHR (R188). -/
  | vshr (o : VHalf)
  /-- VSRA (R188). -/
  | vsra (o : VHalf)
  /-- VWADD (R189). -/
  | vwadd (o : VHalf)
  /-- VWMUL (R189). -/
  | vwmul (o : VHalf)
  /-- VWMAC (R189). -/
  | vwmac (o : VHalf)
  /-- VSATN (R190). -/
  | vsatn (o : VHalf)
  /-- VCMP (R191). -/
  | vcmp (o : VHalf)
  /-- VCLASS (R192). -/
  | vclass (o : VHalf)
  /-- VCVT (R193). -/
  | vcvt (o : VHalf)
  /-- VQNT (R194). -/
  | vqnt (o : FX)
  /-- VDQNT (R195). -/
  | vdqnt (o : FX)
  /-- VRSUM (R196). -/
  | vrsum (o : VHalf)
  /-- VRMAX (R196). -/
  | vrmax (o : VHalf)
  /-- VRMIN (R196). -/
  | vrmin (o : VHalf)
  /-- VSCAN (R197). -/
  | vscan (o : VHalf)
  /-- VSPLAT (R198). -/
  | vsplat (o : VHalf)
  /-- VMV (R198). -/
  | vmv (o : VHalf)
  /-- VMVX (R198). -/
  | vmvx (o : VHalf)
  /-- VINS (R198). -/
  | vins (o : VHalf)
  /-- VSLUP (R199). -/
  | vslup (o : VHalf)
  /-- VSLDN (R199). -/
  | vsldn (o : VHalf)
  /-- VPERM (R200). -/
  | vperm (o : VHalf)
  /-- VCMPR (R201). -/
  | vcmpr (o : VHalf)
  /-- VXPND (R201). -/
  | vxpnd (o : VHalf)
  /-- MAND (R202). -/
  | mand (o : VHalf)
  /-- MOR (R202). -/
  | mor (o : VHalf)
  /-- MXOR (R202). -/
  | mxor (o : VHalf)
  /-- MNOT (R202). -/
  | mnot (o : VHalf)
  /-- MPOP (R202). -/
  | mpop (o : VHalf)
  /-- MFRST (R202). -/
  | mfrst (o : VHalf)
  /-- MSET (R202). -/
  | mset (o : VHalf)
  /-- MCLR (R202). -/
  | mclr (o : VHalf)
  /-- MCFG (R216). -/
  | mcfg (o : FX)
  /-- MJOIN (R226). -/
  | mjoin (o : FX)
  /-- MLDB (R217). -/
  | mldb (o : FX)
  /-- MLDBS (R218). -/
  | mldbs (o : FX)
  /-- MSCL (R219). -/
  | mscl (o : FX)
  /-- MROW (R220). -/
  | mrow (o : VHalf)
  /-- MROWSL (R221). -/
  | mrowsl (o : VHalf)
  /-- MZERO (R222). -/
  | mzero (o : VHalf)
  /-- MRD (R224). -/
  | mrd (o : FX)
  /-- MWR (R224). -/
  | mwr (o : FX)
  /-- MSTAT (R225). -/
  | mstat (o : FX)
  /-- CHCFG (R232). -/
  | chcfg (o : FX)
  /-- CHRUN (R236). -/
  | chrun (o : FI)
  /-- CHWAIT (R249). -/
  | chwait (o : FI)
  /-- CHEND (R250). -/
  | chend (o : FI)
  /-- CHLNK (R255). -/
  | chlnk (o : FI)
  /-- QRD (R243). -/
  | qrd (o : VHalf)
  /-- QWR (R243). -/
  | qwr (o : VHalf)
  /-- ENGQ (R268). -/
  | engq (o : FX)
  /-- ECP (R269). -/
  | ecp (o : FX)
  /-- TCOPY (R269). -/
  | tcopy (o : FX)
  /-- TROT (R270). -/
  | trot (o : FX)
  /-- AWSET (R271). -/
  | awset (o : FI)
  /-- AWADD (R271). -/
  | awadd (o : FI)
  /-- AWAIT (R272). -/
  | await (o : FI)
  /-- BINIT (R274). -/
  | binit (o : FI)
  /-- BARV (R274). -/
  | barv (o : FI)
  /-- BDROP (R274). -/
  | bdrop (o : FI)
  /-- BWAIT (R274). -/
  | bwait (o : FI)
  /-- SYTAS (R277). -/
  | sytas (o : FX)
  /-- SYFAD (R277). -/
  | syfad (o : FX)
  /-- SYCAS (R277). -/
  | sycas (o : FX)
  /-- SYRD (R277). -/
  | syrd (o : FX)
  /-- SYWT (R277). -/
  | sywt (o : FX)
  /-- AMOADD (R279). -/
  | amoadd (o : FX)
  /-- AMOMIN (R279). -/
  | amomin (o : FX)
  /-- AMOMAX (R279). -/
  | amomax (o : FX)
  /-- AMOMINZ (R279). -/
  | amominz (o : FX)
  /-- AMOMAXZ (R279). -/
  | amomaxz (o : FX)
  /-- AMOAND (R279). -/
  | amoand (o : FX)
  /-- AMOOR (R279). -/
  | amoor (o : FX)
  /-- AMOXOR (R279). -/
  | amoxor (o : FX)
  /-- AMOSWP (R279). -/
  | amoswp (o : FX)
  /-- AMOCAS (R279). -/
  | amocas (o : FX)
  /-- AMOCASQ (R280). -/
  | amocasq (o : FX)
  /-- VWAIT (R281). -/
  | vwait (o : FX)
  /-- MGCFG (R296). -/
  | mgcfg (o : FX)
  /-- MGFEED (R297). -/
  | mgfeed (o : FX)
  /-- MGPUSH (R298). -/
  | mgpush (o : FX)
  /-- MGPULL (R299). -/
  | mgpull (o : FX)
  /-- MGCLOSE (R300). -/
  | mgclose (o : FX)
  /-- MGSTAT (R301). -/
  | mgstat (o : FX)
  /-- TVLD (R318). -/
  | tvld (o : FX)
  /-- TVSTAT (R319). -/
  | tvstat (o : FX)
  /-- WALK_LDF (R312). -/
  | walkLdf (d a : BitVec 3) (z : BitVec 2) (x : BitVec 1) (o : BitVec 15)
  /-- WALK_CMP (R312). -/
  | walkCmp (a b c : BitVec 3)
  /-- WALK_CMPI (R312). -/
  | walkCmpi (a c : BitVec 3) (i : BitVec 15)
  /-- WALK_HASH (R312). -/
  | walkHash (d a : BitVec 3) (n : BitVec 6)
  /-- WALK_ADD (R312). -/
  | walkAdd (d a b : BitVec 3)
  /-- WALK_ADDI (R312). -/
  | walkAddi (d a : BitVec 3) (i : BitVec 18)
  /-- WALK_SHADD (R312). -/
  | walkShadd (d a b : BitVec 3) (s : BitVec 6)
  /-- WALK_LI (R312). -/
  | walkLi (d : BitVec 3) (i : BitVec 25)
  /-- WALK_SEL (R312). -/
  | walkSel (d a b : BitVec 3)
  /-- WALK_TNUL (R312). -/
  | walkTnul (a : BitVec 3)
  /-- WALK_JT (R312). -/
  | walkJt (t : BitVec 5)
  /-- WALK_JF (R312). -/
  | walkJf (t : BitVec 5)
  /-- WALK_JMP (R312). -/
  | walkJmp (t : BitVec 5)
  /-- WALK_STEP (R313). -/
  | walkStep (a : BitVec 3)
  /-- WALK_EMITF (R312). -/
  | walkEmitf (a : BitVec 3)
  /-- WALK_EMITR (R312). -/
  | walkEmitr (a : BitVec 3) (n : BitVec 2) (o : BitVec 15)
  /-- WALK_MISS (R314). -/
  | walkMiss
  /-- WALK_END_RULE (R314). -/
  | walkEndRule
  /-- VDOT (R126). -/
  | vdot (o : FX)
  /-- CHRUNX (R127). -/
  | chrunx (o : FI)
  /-- ILLEGAL_WORD (R408). -/
  | illegalWord (sub : Nat) (slot : Option Bool) (w : Word)
  /-- MATRIX_UNIT_GRANT (R211). -/
  | matrixUnitGrant
  /-- JOIN_COMPLETE (R226). -/
  | joinComplete
  /-- JOIN_ROW_COMMIT (R227). -/
  | joinRowCommit
  /-- CHAIN_BEAT (R244). -/
  | chainBeat
  /-- CHAIN_RUN_COMPLETE (R246). -/
  | chainRunComplete
  /-- TEMPORAL_STRIP (R261). -/
  | temporalStrip
  /-- LINK_PORT_GRANT (R255). -/
  | linkPortGrant
  /-- LINK_RECORD_RECEIVE (R357). -/
  | linkRecordReceive
  /-- ENGINE_NONE (R266). -/
  | engineNone
  /-- COPY (R266). -/
  | copy
  /-- TENSOR_COPY (R269). -/
  | tensorCopy
  /-- ROTATION (R101). -/
  | rotation
  /-- WALK (R308). -/
  | walk
  /-- ENGINE_BLOCK_LAND (R267). -/
  | engineBlockLand
  /-- ENGINE_COMMAND_COMPLETE (R267). -/
  | engineCommandComplete
  /-- COPY_FAIL (R446). -/
  | copyFail
  /-- AWAIT_WAKE (R272). -/
  | awaitWake
  /-- BWAIT_WAKE (R274). -/
  | bwaitWake
  /-- SYWT_WAKE (R277). -/
  | sywtWake
  /-- VWAIT_END (R281). -/
  | vwaitEnd
  /-- WFI_WAKE (R165). -/
  | wfiWake
  /-- CHWAIT_WAKE (R249). -/
  | chwaitWake
  /-- WAIT_TIMEOUT (R272). -/
  | waitTimeout
  /-- MERGE_NETWORK_GRANT (R283). -/
  | mergeNetworkGrant
  /-- MGFEED_ACCEPT (R297). -/
  | mgfeedAccept
  /-- MERGE_FEED_READ (R297). -/
  | mergeFeedRead
  /-- MERGE_TOKEN_ENTER (R293). -/
  | mergeTokenEnter
  /-- MERGE_PASS (R295). -/
  | mergePass
  /-- MGCLOSE_COMPLETE (R300). -/
  | mgcloseComplete
  /-- MERGE_FAIL (R448). -/
  | mergeFail
  /-- WALK_ABNORMAL_END (R449). -/
  | walkAbnormalEnd
  /-- IMPRECISE_TRAP (R395). -/
  | impreciseTrap
  /-- FREEZE (R396). -/
  | freeze
  /-- CHAIN_STREAM_BREAK (R432). -/
  | chainStreamBreak
  /-- LINK_PORT_TIMEOUT (R438). -/
  | linkPortTimeout
  /-- PEER_PARKED_BREAK (R439). -/
  | peerParkedBreak
  /-- BODY_ERROR_BREAK (R442). -/
  | bodyErrorBreak
  /-- WATCHDOG_STALL (R400). -/
  | watchdogStall
  /-- RING_ENTRY_ARRIVAL (R338). -/
  | ringEntryArrival
  /-- SIDE_BUFFER_TAKE (R339). -/
  | sideBufferTake
  /-- PREDECESSORS_SATISFIED (R340). -/
  | predecessorsSatisfied
  /-- PRED_READ_FAIL (R38). -/
  | predReadFail
  /-- STRIP_PLACE (R344). -/
  | stripPlace
  /-- PREEMPT_VICTIM (R343). -/
  | preemptVictim
  /-- SWAP_OUT (R349). -/
  | swapOut
  /-- STRIP_RESUME (R353). -/
  | stripResume
  /-- FEATURE_REQUEUE (R347). -/
  | featureRequeue
  /-- LAUNCH_RETIRE (R341). -/
  | launchRetire
  /-- LAUNCH_SUSPEND (R399). -/
  | launchSuspend
  /-- LAUNCH_RESUME (R399). -/
  | launchResume
  /-- LAUNCH_ABORT (R399). -/
  | launchAbort
  /-- PSPLIT_WRITE (R31). -/
  | psplitWrite
  /-- VMINV_WRITE (R84). -/
  | vminvWrite
  /-- HTSYNC_WRITE (R93). -/
  | htsyncWrite
  /-- RTSYNC_SYNC (R359). -/
  | rtsyncSync
  /-- QUEUE_CONFIG_WRITE (R337). -/
  | queueConfigWrite
  /-- FAULT_RING_CONFIG_WRITE (R393). -/
  | faultRingConfigWrite
  /-- REGION_TABLE_COMMIT (R359). -/
  | regionTableCommit
  /-- CEIL_WRITE (R372). -/
  | ceilWrite
  /-- DIE_PARK (R373). -/
  | diePark
  /-- DIE_PARKED (R373). -/
  | dieParked
  /-- DIE_UNPARK (R375). -/
  | dieUnpark
  /-- KEY_COMMIT (R378). -/
  | keyCommit
  /-- KEY_CLEAR (R378). -/
  | keyClear
  /-- HOST_PORT_UNFREEZE (R397). -/
  | hostPortUnfreeze
  /-- DIE_RESET (R458). -/
  | dieReset
  /-- EMERGENCY_SAVE_TIMEOUT (R458). -/
  | emergencySaveTimeout
  /-- DIE_RESET_DONE (R458). -/
  | dieResetDone
  /-- DIE_FIRMWARE_WATCHDOG (R457). -/
  | dieFirmwareWatchdog
  /-- HUB_REGISTER_WRITE (R7). -/
  | hubRegisterWrite
  /-- HOST_ACCESS (R364). -/
  | hostAccess
  /-- LINK_STANDBY (R366). -/
  | linkStandby
  /-- FLIT_RECEIVE (R453). -/
  | flitReceive
  /-- FLIT_REPLAY (R453). -/
  | flitReplay
  /-- LINK_RETRAIN (R454). -/
  | linkRetrain
  /-- LINK_MODULE_DOWN (R455). -/
  | linkModuleDown
  /-- PERMIT_STARVATION (R456). -/
  | permitStarvation
  /-- GOVERNOR_WINDOW (R370). -/
  | governorWindow
  /-- GOVERNOR_INTERVAL (R370). -/
  | governorInterval
  /-- PSTATE_TRANSITION_END (R368). -/
  | pstateTransitionEnd
  /-- THERMAL_STEP (R459). -/
  | thermalStep
  /-- THERMAL_RECOVER (R459). -/
  | thermalRecover
  /-- POWER_ON_BOOT (R379). -/
  | powerOnBoot
  /-- GET_VERSION (R380). -/
  | getVersion
  /-- GET_CAPABILITIES (R380). -/
  | getCapabilities
  /-- NEGOTIATE_ALGORITHMS (R380). -/
  | negotiateAlgorithms
  /-- GET_DIGESTS (R380). -/
  | getDigests
  /-- GET_CERTIFICATE (R380). -/
  | getCertificate
  /-- CHALLENGE (R380). -/
  | challenge
  /-- GET_MEASUREMENTS (R380). -/
  | getMeasurements
  /-- SIDEBAND_FIRMWARE_LOAD (R381). -/
  | sidebandFirmwareLoad
  /-- SIDEBAND_WRITE (R381). -/
  | sidebandWrite
  /-- DIE_UNPARKED (R375). -/
  | dieUnparked
  /-- HOST_SNOOP (R364). -/
  | hostSnoop
  /-- GATED_UNIT_RESUME (R258). -/
  | gatedUnitResume
  /-- FETCH_FAULT (R429). -/
  | fetchFault
  deriving DecidableEq, Repr

end Sys2Proof
end

