-- ==== Sys2Proof/Machine/Illegal.lean ====
section
/-!
DEFINITION. Which field values make a word no instruction (R119, R142 to R175, R408): the scalar register fields of each
instruction, the control registers of R168, and the fields that must be zero.
-/
namespace Sys2Proof.Machine

/-- The scalar register fields of a scalar half with two operands (R111). -/
def halfRegs (o : Half) : List Field := if o.c.toNat < 32 then [o.d, o.a, o.b] else [o.d, o.a]

/-- The base and index fields that name scalar registers in an FM word (R88): A names an identifier when SP is 0b11. -/
def fmRegs (o : FM) : List Field := if o.sp = 3 then [o.b] else [o.a, o.b]

/-- The fields of an instruction that name scalar registers (R119). -/
def scalarFields : Instr → List Field
  | .add o | .sub o | .mul o | .mulh o | .mulhz o | .div o | .divz o | .rem o | .remz o | .and o | .or o | .xor o
  | .shl o | .shr o | .sra o | .min o | .max o | .minz o | .maxz o | .slt o | .sltz o | .sel o => halfRegs o
  | .clz o | .ctz o | .popc o => [o.d, o.a]
  | .addi o | .andi o | .ori o | .xori o | .shli o | .shri o | .srai o | .slti o | .lih o | .jalr o
  | .launch o => [o.d, o.a]
  | .li o | .addpc o | .wfi o | .chwait o => [o.d]
  | .callr o | .chrunx o => [o.a]
  | .ldb o | .ldbz o | .ldh o | .ldhz o | .ldw o | .ldwz o | .ldd o | .stb o | .sth o | .stw o | .std o => o.d :: fmRegs o
  | .lda o | .stl o => if o.sp = 3 then [o.d] else [o.d, o.a]
  | .pref o | .vld o | .vlds o | .vldtr o | .vst o | .vsts o => fmRegs o
  | .beq o | .bne o | .blt o | .bge o | .blo o | .bhs o => [o.a, o.b]
  | .jal o => [o.a]
  | .csrr o => [o.d]
  | .csrw o | .csrs o | .csrc o => if o.f = 0 then [o.d, o.a] else [o.d]
  | .vsetl o | .vsett o => if o.f = 0 then [o.d, o.a] else [o.d]
  | .tset o | .tget o => [o.a]
  | .vldx o | .vstx o | .vstxa o => [o.a]
  | .vldk o | .vstk o => [o.b, o.c]
  | .vsplat o => [o.a]
  | .vmvx o => [o.d, o.b]
  | .vins o => [o.a, o.b]
  | .vslup o | .vsldn o => [o.b]
  | .mpop o | .mfrst o => [o.d]
  | .mrow o => [o.d]
  | .mrowsl o => [o.d, o.b]
  | .mzero o => [o.d, o.a]
  | .mrd o | .mwr o => [o.a, o.b]
  | .mstat o | .tvstat o => [o.d]
  | .chrun o => if o.f = 0 then [o.a] else []
  | .qrd o => [o.d]
  | .qwr o => [o.a, o.b]
  | .engq o => [o.b]
  | .ecp o => [o.d, o.a]
  | .tcopy o => if o.f.toNat / 8 % 2 = 1 then [o.b] else []
  | .trot o => [o.a, o.b, o.c]
  | .awset o | .awadd o | .await o => [o.d, o.a]
  | .binit o => if o.f = 0 then [o.d] else []
  | .barv o | .bdrop o | .bwait o => [o.d]
  | .sytas o | .syrd o => [o.d, o.a]
  | .syfad o => [o.d, o.a, o.b]
  | .sycas o | .sywt o => [o.d, o.a, o.b, o.c]
  | .vwait o => [o.c]
  | .amoadd o | .amomin o | .amomax o | .amominz o | .amomaxz o | .amoand o | .amoor o | .amoxor o
  | .amoswp o => [o.d, o.a, o.b]
  | .amocas o | .amocasq o => [o.d, o.a, o.b, o.c]
  | .mgcfg o | .mgclose o | .mgstat o => [o.d, o.a]
  | .mgfeed o => if o.f.toNat / 32 % 2 = 1 then [o.a] else [o.d, o.a]
  | .mgpush o => [o.a]
  | .mgpull o => [o.a, o.b]
  | .tvld o => [o.a]
  | _ => []

/-- The control register number an instruction names, with whether it writes it (R166). -/
def csrOf : Instr → Option (Nat × Bool)
  | .csrr o => some (o.csr.toNat, false)
  | .csrw o | .csrs o | .csrc o => some (o.csr.toNat, true)
  | _ => none

/-- The listing of R168 for a control register: its Read and Write levels (0 app, 1 lib, 2 exec); none in the second
place is the dash of the Write column. -/
def csrLevels : Nat → Option (Nat × Option Nat)
  | 0x000 | 0x001 | 0x002 | 0x003 => some (0, some 0)
  | 0x008 | 0x009 | 0x00A | 0x00B | 0x00C | 0x00D => some (0, some 0)
  | 0x010 | 0x011 | 0x012 | 0x013 => some (0, none)
  | 0x014 => some (0, some 0)
  | 0x020 | 0x021 | 0x023 => some (0, none)
  | 0x022 => some (0, some 0)
  | 0x030 => some (0, none)
  | 0x040 | 0x041 | 0x042 | 0x043 | 0x044 | 0x045 => some (0, none)
  | 0x050 => some (0, some 2)
  | 0x051 => some (0, some 0)
  | 0x100 | 0x101 => some (1, some 1)
  | 0x200 | 0x201 | 0x202 | 0x203 | 0x204 => some (2, some 2)
  | 0x205 | 0x206 => some (0, some 2)
  | 0x210 => some (0, some 2)
  | 0x211 => some (2, some 2)
  | 0x212 => some (0, some 2)
  | 0x213 => some (2, some 2)
  | 0x214 => some (0, some 2)
  | 0x215 | 0x216 => some (2, some 2)
  | _ => none

/-- Every field that an instruction of the scalar chapter does not use, or that R142 to R175 require to be zero, is zero
(R408, SUB 0x0C). -/
def unusedZero : Instr → Bool
  | .add o | .sub o | .mul o | .mulh o | .mulhz o | .div o | .divz o | .rem o | .remz o | .and o | .or o | .xor o
  | .shl o | .shr o | .sra o | .min o | .max o | .minz o | .maxz o | .slt o | .sltz o => o.c.toNat % 32 = 0
  | .clz o | .ctz o | .popc o => o.b = 0 && o.c = 0
  | .addi o | .andi o | .ori o | .xori o | .slti o | .lih o | .jalr o | .launch o => o.f = 0
  | .shli o | .shri o | .srai o => o.f = 0 && o.imm.toNat < 64
  | .li o | .addpc o | .wfi o => o.a = 0 && o.f = 0
  | .ifence o | .ret o | .gret o | .endStrip o | .release o | .yield o | .xret o =>
    o.d = 0 && o.a = 0 && o.f = 0 && o.imm = 0
  | .fence o => o.d = 0 && o.a = 0
  | .jmp o | .call o => o.a = 0 && o.b = 0
  | .jal o => o.b = 0
  | .callr o | .chrunx o => o.d = 0 && o.f = 0
  | .gate o | .trap o => o.d = 0 && o.a = 0 && o.f = 0
  | .csrr o => o.a = 0 && o.f = 0 && o.imm = 0
  | .csrw o | .csrs o | .csrc o => if o.f = 0 then o.imm = 0 else o.f = 1 && o.a = 0
  | _ => true

/-- The SUB of ILLEGAL that the field values of an instruction raise, none where they raise none (R408). -/
def illegalSub (i : Instr) : Option Nat :=
  if (scalarFields i).any fun r => decide (32 ≤ r.toNat) then some 0x08
  else
    let csr : Option Nat := match csrOf i with
      | none => none
      | some (n, wr) => match csrLevels n with
        | none => some 0x09
        | some (_, w) => if wr && w.isNone then some 0x0A else none
    match csr with
    | some n => some n
    | none => if unusedZero i then none else some 0x0C

end Sys2Proof.Machine
end

