-- ==== Sys2Proof/WellFormed.lean ====
section
/-!
DEFINITION. Well-formed instructions: the field values that make a word an instruction (R119, R123, R408).
-/
namespace Sys2Proof

open Sys2Proof.Machine

/-- Bits that a prefix holds in a word that is an instruction: RM = 7 is no mode (R113, R123). -/
def pfxOk : Option Pfx → Bool
  | none => true
  | some p => p.rm != 7

/-- The prefix of a vector half, none for every other instruction. -/
def pfxOfInstr : Instr → Option Pfx
  | .vadd o => o.pfx
  | .vsub o => o.pfx
  | .vmul o => o.pfx
  | .vma o => o.pfx
  | .vms o => o.pfx
  | .vnma o => o.pfx
  | .vdiv o => o.pfx
  | .vsqrt o => o.pfx
  | .vmin o => o.pfx
  | .vmax o => o.pfx
  | .vabs o => o.pfx
  | .vneg o => o.pfx
  | .vclamp o => o.pfx
  | .vrcp o => o.pfx
  | .vrsq o => o.pfx
  | .vexp2 o => o.pfx
  | .vlog2 o => o.pfx
  | .vtanh o => o.pfx
  | .vsigm o => o.pfx
  | .vand o => o.pfx
  | .vor o => o.pfx
  | .vxor o => o.pfx
  | .vnot o => o.pfx
  | .vshl o => o.pfx
  | .vshr o => o.pfx
  | .vsra o => o.pfx
  | .vwadd o => o.pfx
  | .vwmul o => o.pfx
  | .vwmac o => o.pfx
  | .vsatn o => o.pfx
  | .vcmp o => o.pfx
  | .vclass o => o.pfx
  | .vcvt o => o.pfx
  | .vrsum o => o.pfx
  | .vrmax o => o.pfx
  | .vrmin o => o.pfx
  | .vscan o => o.pfx
  | .vsplat o => o.pfx
  | .vmv o => o.pfx
  | .vmvx o => o.pfx
  | .vins o => o.pfx
  | .vslup o => o.pfx
  | .vsldn o => o.pfx
  | .vperm o => o.pfx
  | .vcmpr o => o.pfx
  | .vxpnd o => o.pfx
  | .mand o => o.pfx
  | .mor o => o.pfx
  | .mxor o => o.pfx
  | .mnot o => o.pfx
  | .mpop o => o.pfx
  | .mfrst o => o.pfx
  | .mset o => o.pfx
  | .mclr o => o.pfx
  | .mrow o => o.pfx
  | .mrowsl o => o.pfx
  | .mzero o => o.pfx
  | .qrd o => o.pfx
  | .qwr o => o.pfx
  | _ => none

/-- A well-formed instruction. -/
def WellFormed (i : Instr) : Bool := (illegalSub i).isNone && pfxOk (pfxOfInstr i)

end Sys2Proof
end

