-- ==== Sys2Proof/Decode.lean ====
section
/-!
DEFINITION. The decoder of issue units (R105 to R123, R311) and, after it, the encoder written from the same maps.
-/
namespace Sys2Proof

open Sys2Proof.Machine

/-- A word that is no instruction: the SUB of ILLEGAL (R408), the slot of the half at fault (none for a full word,
some false for A, some true for B), and whether the half lies in the second word of a joined pair. -/
structure DecodeError where
  sub : Nat
  slot : Option Bool
  second : Bool
  deriving DecidableEq, Repr

/-- An issue unit (R106). -/
inductive IssueUnit where
  | full (i : Instr)
  | pair (a b : Instr)
  | prefixed (i : Instr)
  | joined (p b : Instr)
  deriving DecidableEq, Repr

/-- The fields of an FI word (R107). -/
def fiOf (w : Word) : FI := ⟨w.extractLsb' 48 6, w.extractLsb' 42 6, w.extractLsb' 32 10, w.extractLsb' 0 32⟩
/-- The fields of an FM word (R107). -/
def fmOf (w : Word) : FM :=
  ⟨w.extractLsb' 48 6, w.extractLsb' 42 6, w.extractLsb' 36 6, w.extractLsb' 34 2, w.extractLsb' 32 2, w.extractLsb' 0 32⟩
/-- The fields of an FB word (R107). -/
def fbOf (w : Word) : FB := ⟨w.extractLsb' 48 6, w.extractLsb' 42 6, w.extractLsb' 0 42⟩
/-- The fields of an FX word (R107). -/
def fxOf (w : Word) : FX :=
  ⟨w.extractLsb' 48 6, w.extractLsb' 42 6, w.extractLsb' 36 6, w.extractLsb' 30 6, w.extractLsb' 27 3, w.extractLsb' 26 1,
    w.extractLsb' 16 10, w.extractLsb' 0 16⟩
/-- The fields of an FS word (R107). -/
def fsOf (w : Word) : FS :=
  ⟨w.extractLsb' 48 6, w.extractLsb' 42 6, w.extractLsb' 32 10, w.extractLsb' 16 16, w.extractLsb' 0 16⟩
/-- The fields of a half (R110). -/
def halfOf (h : BitVec 31) : Half := ⟨h.extractLsb' 18 6, h.extractLsb' 12 6, h.extractLsb' 6 6, h.extractLsb' 0 6⟩
/-- The fields of a prefix (R113). -/
def pfxOf (p : BitVec 31) : Pfx :=
  ⟨p.extractLsb' 28 3, p.extractLsb' 27 1, p.extractLsb' 26 1, p.extractLsb' 23 3, p.extractLsb' 17 6, p.extractLsb' 16 1,
    p.extractLsb' 12 4⟩

/-- The vector half of a half's fields under a prefix. -/
def Half.vec (h : Half) (p : Option Pfx) : VHalf := ⟨h.d, h.a, h.b, h.c, p⟩

/-- The full instruction of a MAJ value with the fields of the word (R122); none for the values that are none. -/
def fullOf (maj : Nat) (w : Word) : Option Instr :=
  match maj with
  | 0x00 => some (.addi (fiOf w))
  | 0x01 => some (.andi (fiOf w))
  | 0x02 => some (.ori (fiOf w))
  | 0x03 => some (.xori (fiOf w))
  | 0x04 => some (.shli (fiOf w))
  | 0x05 => some (.shri (fiOf w))
  | 0x06 => some (.srai (fiOf w))
  | 0x07 => some (.slti (fiOf w))
  | 0x08 => some (.li (fiOf w))
  | 0x09 => some (.lih (fiOf w))
  | 0x0A => some (.addpc (fiOf w))
  | 0x10 => some (.ldb (fmOf w))
  | 0x11 => some (.ldbz (fmOf w))
  | 0x12 => some (.ldh (fmOf w))
  | 0x13 => some (.ldhz (fmOf w))
  | 0x14 => some (.ldw (fmOf w))
  | 0x15 => some (.ldwz (fmOf w))
  | 0x16 => some (.ldd (fmOf w))
  | 0x17 => some (.stb (fmOf w))
  | 0x18 => some (.sth (fmOf w))
  | 0x19 => some (.stw (fmOf w))
  | 0x1A => some (.std (fmOf w))
  | 0x1B => some (.lda (fmOf w))
  | 0x1C => some (.stl (fmOf w))
  | 0x1D => some (.pref (fmOf w))
  | 0x20 => some (.beq (fbOf w))
  | 0x21 => some (.bne (fbOf w))
  | 0x22 => some (.blt (fbOf w))
  | 0x23 => some (.bge (fbOf w))
  | 0x24 => some (.blo (fbOf w))
  | 0x25 => some (.bhs (fbOf w))
  | 0x26 => some (.jmp (fbOf w))
  | 0x27 => some (.jal (fbOf w))
  | 0x28 => some (.jalr (fiOf w))
  | 0x29 => some (.call (fbOf w))
  | 0x2A => some (.callr (fiOf w))
  | 0x2B => some (.ret (fiOf w))
  | 0x2C => some (.gate (fiOf w))
  | 0x2D => some (.gret (fiOf w))
  | 0x2E => some (.endStrip (fiOf w))
  | 0x2F => some (.release (fiOf w))
  | 0x30 => some (.launch (fiOf w))
  | 0x31 => some (.yield (fiOf w))
  | 0x32 => some (.csrr (fsOf w))
  | 0x33 => some (.csrw (fsOf w))
  | 0x34 => some (.csrs (fsOf w))
  | 0x35 => some (.csrc (fsOf w))
  | 0x36 => some (.trap (fiOf w))
  | 0x37 => some (.xret (fiOf w))
  | 0x38 => some (.ifence (fiOf w))
  | 0x39 => some (.fence (fiOf w))
  | 0x3A => some (.wfi (fiOf w))
  | 0x40 => some (.vcfg (fiOf w))
  | 0x41 => some (.vsetl (fiOf w))
  | 0x42 => some (.vsett (fiOf w))
  | 0x43 => some (.vld (fmOf w))
  | 0x44 => some (.vlds (fmOf w))
  | 0x45 => some (.vldx (fxOf w))
  | 0x46 => some (.vldtr (fmOf w))
  | 0x47 => some (.vldk (fxOf w))
  | 0x48 => some (.vst (fmOf w))
  | 0x49 => some (.vsts (fmOf w))
  | 0x4A => some (.vstx (fxOf w))
  | 0x4B => some (.vstxa (fxOf w))
  | 0x4C => some (.vstk (fxOf w))
  | 0x4D => some (.tset (fiOf w))
  | 0x4E => some (.tget (fiOf w))
  | 0x50 => some (.vqnt (fxOf w))
  | 0x51 => some (.vdqnt (fxOf w))
  | 0x58 => some (.mcfg (fxOf w))
  | 0x59 => some (.mjoin (fxOf w))
  | 0x5A => some (.mldb (fxOf w))
  | 0x5B => some (.mldbs (fxOf w))
  | 0x5C => some (.mrd (fxOf w))
  | 0x5D => some (.mwr (fxOf w))
  | 0x5E => some (.mscl (fxOf w))
  | 0x5F => some (.mstat (fxOf w))
  | 0x60 => some (.chcfg (fxOf w))
  | 0x61 => some (.chrun (fiOf w))
  | 0x62 => some (.chend (fiOf w))
  | 0x63 => some (.chwait (fiOf w))
  | 0x64 => some (.chlnk (fiOf w))
  | 0x68 => some (.engq (fxOf w))
  | 0x69 => some (.ecp (fxOf w))
  | 0x6A => some (.tcopy (fxOf w))
  | 0x6B => some (.trot (fxOf w))
  | 0x6C => some (.awset (fiOf w))
  | 0x6D => some (.awadd (fiOf w))
  | 0x6E => some (.await (fiOf w))
  | 0x70 => some (.binit (fiOf w))
  | 0x71 => some (.barv (fiOf w))
  | 0x72 => some (.bdrop (fiOf w))
  | 0x73 => some (.bwait (fiOf w))
  | 0x74 => some (.sytas (fxOf w))
  | 0x75 => some (.syfad (fxOf w))
  | 0x76 => some (.sycas (fxOf w))
  | 0x77 => some (.syrd (fxOf w))
  | 0x78 => some (.sywt (fxOf w))
  | 0x79 => some (.vwait (fxOf w))
  | 0x80 => some (.amoadd (fxOf w))
  | 0x81 => some (.amomin (fxOf w))
  | 0x82 => some (.amomax (fxOf w))
  | 0x83 => some (.amominz (fxOf w))
  | 0x84 => some (.amomaxz (fxOf w))
  | 0x85 => some (.amoand (fxOf w))
  | 0x86 => some (.amoor (fxOf w))
  | 0x87 => some (.amoxor (fxOf w))
  | 0x88 => some (.amoswp (fxOf w))
  | 0x89 => some (.amocas (fxOf w))
  | 0x8A => some (.amocasq (fxOf w))
  | 0x90 => some (.mgcfg (fxOf w))
  | 0x91 => some (.mgfeed (fxOf w))
  | 0x92 => some (.mgpush (fxOf w))
  | 0x93 => some (.mgpull (fxOf w))
  | 0x94 => some (.mgclose (fxOf w))
  | 0x95 => some (.mgstat (fxOf w))
  | 0x98 => some (.tvld (fxOf w))
  | 0x99 => some (.tvstat (fxOf w))
  | 0xF0 => some (.vdot (fxOf w))
  | 0xF1 => some (.chrunx (fiOf w))
  | _ => none

/-- The half instruction of a HOP value with the fields of the half (R121); none for the values that are none. -/
def halfInstr (hop : Nat) (h : Half) (p : Option Pfx) : Option Instr :=
  match hop with
  | 0x00 => some (.add h)
  | 0x01 => some (.sub h)
  | 0x02 => some (.mul h)
  | 0x03 => some (.mulh h)
  | 0x04 => some (.mulhz h)
  | 0x05 => some (.div h)
  | 0x06 => some (.divz h)
  | 0x07 => some (.rem h)
  | 0x08 => some (.remz h)
  | 0x09 => some (.and h)
  | 0x0A => some (.or h)
  | 0x0B => some (.xor h)
  | 0x0C => some (.shl h)
  | 0x0D => some (.shr h)
  | 0x0E => some (.sra h)
  | 0x0F => some (.clz h)
  | 0x10 => some (.ctz h)
  | 0x11 => some (.popc h)
  | 0x12 => some (.min h)
  | 0x13 => some (.max h)
  | 0x14 => some (.minz h)
  | 0x15 => some (.maxz h)
  | 0x16 => some (.slt h)
  | 0x17 => some (.sltz h)
  | 0x18 => some (.sel h)
  | 0x19 => some .nop
  | 0x20 => some (.vadd (h.vec p))
  | 0x21 => some (.vsub (h.vec p))
  | 0x22 => some (.vmul (h.vec p))
  | 0x23 => some (.vma (h.vec p))
  | 0x24 => some (.vms (h.vec p))
  | 0x25 => some (.vnma (h.vec p))
  | 0x26 => some (.vdiv (h.vec p))
  | 0x27 => some (.vsqrt (h.vec p))
  | 0x28 => some (.vmin (h.vec p))
  | 0x29 => some (.vmax (h.vec p))
  | 0x2A => some (.vabs (h.vec p))
  | 0x2B => some (.vneg (h.vec p))
  | 0x2C => some (.vclamp (h.vec p))
  | 0x2D => some (.vrcp (h.vec p))
  | 0x2E => some (.vrsq (h.vec p))
  | 0x2F => some (.vexp2 (h.vec p))
  | 0x30 => some (.vlog2 (h.vec p))
  | 0x31 => some (.vtanh (h.vec p))
  | 0x32 => some (.vsigm (h.vec p))
  | 0x33 => some (.vand (h.vec p))
  | 0x34 => some (.vor (h.vec p))
  | 0x35 => some (.vxor (h.vec p))
  | 0x36 => some (.vnot (h.vec p))
  | 0x37 => some (.vshl (h.vec p))
  | 0x38 => some (.vshr (h.vec p))
  | 0x39 => some (.vsra (h.vec p))
  | 0x3A => some (.vwadd (h.vec p))
  | 0x3B => some (.vwmul (h.vec p))
  | 0x3C => some (.vwmac (h.vec p))
  | 0x3D => some (.vsatn (h.vec p))
  | 0x3E => some (.vcmp (h.vec p))
  | 0x3F => some (.vclass (h.vec p))
  | 0x40 => some (.vcvt (h.vec p))
  | 0x41 => some (.vrsum (h.vec p))
  | 0x42 => some (.vrmax (h.vec p))
  | 0x43 => some (.vrmin (h.vec p))
  | 0x44 => some (.vscan (h.vec p))
  | 0x45 => some (.vsplat (h.vec p))
  | 0x46 => some (.vmv (h.vec p))
  | 0x47 => some (.vmvx (h.vec p))
  | 0x48 => some (.vins (h.vec p))
  | 0x49 => some (.vslup (h.vec p))
  | 0x4A => some (.vsldn (h.vec p))
  | 0x4B => some (.vperm (h.vec p))
  | 0x4C => some (.vcmpr (h.vec p))
  | 0x4D => some (.vxpnd (h.vec p))
  | 0x4E => some (.mand (h.vec p))
  | 0x4F => some (.mor (h.vec p))
  | 0x50 => some (.mxor (h.vec p))
  | 0x51 => some (.mnot (h.vec p))
  | 0x52 => some (.mpop (h.vec p))
  | 0x53 => some (.mfrst (h.vec p))
  | 0x54 => some (.mset (h.vec p))
  | 0x55 => some (.mclr (h.vec p))
  | 0x60 => some (.mrow (h.vec p))
  | 0x61 => some (.mrowsl (h.vec p))
  | 0x62 => some (.mzero (h.vec p))
  | 0x63 => some (.qrd (h.vec p))
  | 0x64 => some (.qwr (h.vec p))
  | _ => none

/-- The join marker, or a plain NOP (R118, R121). -/
def nopFields (h : Half) : Bool := (h.d = 0 || h.d = 63) && h.a = 0 && h.b = 0 && h.c = 0

/-- A full word (R122): its instruction, or the SUB of ILLEGAL. -/
def decodeFull (w : Word) : Except Nat Instr :=
  match fullOf (w.extractLsb' 54 8).toNat w with
  | none => .error (if (w.extractLsb' 54 8).toNat = 0xF2 then 0x04 else 0x03)
  | some i => match illegalSub i with
    | some sub => .error sub
    | none => .ok i

/-- A half instruction under an optional prefix (R121, R113): its instruction, or the SUB of ILLEGAL. -/
def decodeHalf (h : BitVec 31) (p : Option (BitVec 31)) : Except Nat Instr :=
  let hop := (h.extractLsb' 24 7).toNat
  match halfInstr hop (halfOf h) (p.map pfxOf) with
  | none => .error 0x02
  | some i =>
    let px : Option Nat := match p with
      | none => none
      | some p =>
        if p.extractLsb' 0 12 ≠ 0 then some 0x05
        else if p.extractLsb' 23 3 = 7 then some 0x06
        else if hop < 0x20 then some 0x07
        else none
    match px with
    | some sub => .error sub
    | none =>
      if hop = 0x19 && !nopFields (halfOf h) then .error 0x0B
      else match illegalSub i with
        | some sub => .error sub
        | none => .ok i

/-- Slot A of a pair word (R105). -/
def slotA (w : Word) : BitVec 31 := w.extractLsb' 31 31
/-- Slot B of a pair or prefixed word (R105). -/
def slotB (w : Word) : BitVec 31 := w.extractLsb' 0 31

/-- The join marker as a half (R118). -/
def joinMarker : BitVec 31 := 0x19FC0000#31

/-- A pair word that begins with a join marker. -/
def startsJoined (w : Word) : Bool := w.extractLsb' 62 2 = 1#2 && slotA w = joinMarker

/-- The issue unit that begins with word w; next is the word after it, where it can be fetched (R105, R106, R118). -/
def decodeUnit (w : Word) (next : Option Word) : Except DecodeError IssueUnit :=
  if w.extractLsb' 62 2 = 0#2 then
    match decodeFull w with
    | .error sub => .error ⟨sub, none, false⟩
    | .ok i => .ok (.full i)
  else if w.extractLsb' 62 2 = 1#2 then
    match decodeHalf (slotA w) none with
    | .error sub => .error ⟨sub, some false, false⟩
    | .ok a => match decodeHalf (slotB w) none with
      | .error sub => .error ⟨sub, some true, false⟩
      | .ok b => .ok (.pair a b)
  else if w.extractLsb' 62 2 = 2#2 then
    match decodeHalf (slotB w) (some (slotA w)) with
    | .error sub =>
      let joined : Bool := match next with | some n => startsJoined n | none => false
      .error ⟨sub, some (!joined), false⟩
    | .ok p => match next with
      | none => .ok (.prefixed p)
      | some n =>
        if startsJoined n then
          match decodeHalf (slotB n) none with
          | .error sub => .error ⟨sub, some true, true⟩
          | .ok b => .ok (.joined p b)
        else .ok (.prefixed p)
  else .error ⟨0x01, none, false⟩

/-- The rule word of R311 and R312; none where a field the operation does not use is nonzero. -/
def decodeRule (w : BitVec 32) : Option Instr :=
  let d := w.extractLsb' 25 3
  let a := w.extractLsb' 22 3
  let b := w.extractLsb' 19 3
  let i := w.extractLsb' 18 1
  let lo15 := w.extractLsb' 0 15
  match (w.extractLsb' 28 4).toNat with
  | 0x0 => if b = 0 ∧ i = 0 then some (.walkLdf d a (w.extractLsb' 16 2) (w.extractLsb' 15 1) lo15) else none
  | 0x1 =>
    if d ≠ 0 then none
    else if i = 0 then (if lo15 = 0 then some (.walkCmp a b (w.extractLsb' 15 3)) else none)
    else if b = 0 then some (.walkCmpi a (w.extractLsb' 15 3) lo15) else none
  | 0x2 => if b = 0 ∧ i = 0 ∧ w.extractLsb' 6 12 = 0 then some (.walkHash d a (w.extractLsb' 0 6)) else none
  | 0x3 =>
    if i = 0 then (if w.extractLsb' 0 18 = 0 then some (.walkAdd d a b) else none)
    else if b = 0 then some (.walkAddi d a (w.extractLsb' 0 18)) else none
  | 0x4 => if i = 0 ∧ w.extractLsb' 6 12 = 0 then some (.walkShadd d a b (w.extractLsb' 0 6)) else none
  | 0x5 => some (.walkLi d (w.extractLsb' 0 25))
  | 0x6 => if w.extractLsb' 0 19 = 0 then some (.walkSel d a b) else none
  | 0x7 => if d = 0 ∧ w.extractLsb' 0 22 = 0 then some (.walkTnul a) else none
  | 0x8 => if w.extractLsb' 5 23 = 0 then some (.walkJt (w.extractLsb' 0 5)) else none
  | 0x9 => if w.extractLsb' 5 23 = 0 then some (.walkJf (w.extractLsb' 0 5)) else none
  | 0xA => if w.extractLsb' 5 23 = 0 then some (.walkJmp (w.extractLsb' 0 5)) else none
  | 0xB => if d = 0 ∧ w.extractLsb' 0 22 = 0 then some (.walkStep a) else none
  | 0xC => if d = 0 ∧ w.extractLsb' 0 22 = 0 then some (.walkEmitf a) else none
  | 0xD =>
    if d = 0 ∧ b = 0 ∧ i = 0 ∧ w.extractLsb' 15 1 = 0 then some (.walkEmitr a (w.extractLsb' 16 2) lo15) else none
  | 0xE => if w.extractLsb' 0 28 = 0 then some .walkMiss else none
  | _ => if w.extractLsb' 0 28 = 0 then some .walkEndRule else none

/-- The instruction of an issue unit that holds one instruction alone: a full word, a prefixed word, or a half beside a
NOP. -/
def IssueUnit.lone : IssueUnit → Option Instr
  | .full i => some i
  | .prefixed i => some i
  | .pair a b => if b = .nop then some a else if a = .nop then some b else none
  | .joined p b => if b = .nop then some p else none

/-- The instruction the decoder reads from the low nbits of w: a rule word of 32 bits, an instruction word of 64 bits, or
a joined pair of 128. -/
def decodeTableWord (nbits w : Nat) : Option Instr :=
  if nbits ≤ 32 then decodeRule (BitVec.ofNat 32 w)
  else match decodeUnit (BitVec.ofNat 64 w) (some (BitVec.ofNat 64 (w / 2 ^ 64))) with
    | .ok u => u.lone
    | .error _ => none

/-! ## The encoder -/

/-- An FI word (R107). -/
def encFI (maj : BitVec 8) (o : FI) : Word := (0#2 ++ maj ++ o.d ++ o.a ++ o.f ++ o.imm : BitVec 64)
/-- An FM word (R107). -/
def encFM (maj : BitVec 8) (o : FM) : Word := (0#2 ++ maj ++ o.d ++ o.a ++ o.b ++ o.sc ++ o.sp ++ o.ofs : BitVec 64)
/-- An FB word (R107). -/
def encFB (maj : BitVec 8) (o : FB) : Word := (0#2 ++ maj ++ o.a ++ o.b ++ o.ofs : BitVec 64)
/-- An FX word (R107). -/
def encFX (maj : BitVec 8) (o : FX) : Word :=
  (0#2 ++ maj ++ o.d ++ o.a ++ o.b ++ o.c ++ o.m ++ o.z ++ o.f ++ o.imm : BitVec 64)
/-- An FS word (R107). -/
def encFS (maj : BitVec 8) (o : FS) : Word := (0#2 ++ maj ++ o.d ++ o.a ++ o.f ++ o.csr ++ o.imm : BitVec 64)
/-- A half (R110). -/
def encHalf (hop : BitVec 7) (d a b c : Field) : BitVec 31 := (hop ++ d ++ a ++ b ++ c : BitVec 31)
/-- A prefix (R113). -/
def encPfx (p : Pfx) : BitVec 31 := (p.mr ++ p.mi ++ p.zm ++ p.rm ++ p.e ++ p.ev ++ p.ty ++ 0#12 : BitVec 31)
/-- The half NOP (R121). -/
def nopHalf : BitVec 31 := 0x19000000#31
/-- A pair word (R105). -/
def encPair (a b : BitVec 31) : Word := (1#2 ++ a ++ b : BitVec 64)
/-- A prefixed word (R105). -/
def encPrefixed (p b : BitVec 31) : Word := (2#2 ++ p ++ b : BitVec 64)
/-- A scalar half alone: in slot A of a pair word with NOP in slot B (R136). -/
def encSH (hop : BitVec 7) (o : Half) : Word := encPair (encHalf hop o.d o.a o.b o.c) nopHalf
/-- A vector half alone: a prefixed word, or slot A of a pair word with NOP in slot B (R136). -/
def encVH (hop : BitVec 7) (o : VHalf) : Word :=
  match o.pfx with
  | some p => encPrefixed (encPfx p) (encHalf hop o.d o.a o.b o.c)
  | none => encPair (encHalf hop o.d o.a o.b o.c) nopHalf
/-- A rule word (R311). -/
def encRule (op : BitVec 4) (d a b : BitVec 3) (i : BitVec 1) (x : BitVec 18) : BitVec 32 :=
  (op ++ d ++ a ++ b ++ i ++ x : BitVec 32)

/-- The rule word of a rule instruction (R312); none for the other instructions. -/
def encodeRule : Instr → Option (BitVec 32)
  | .walkLdf d a z x o => some (encRule 0x0 d a 0 0 (z ++ x ++ o : BitVec 18))
  | .walkCmp a b c => some (encRule 0x1 0 a b 0 (c ++ 0#15 : BitVec 18))
  | .walkCmpi a c i => some (encRule 0x1 0 a 0 1 (c ++ i : BitVec 18))
  | .walkHash d a n => some (encRule 0x2 d a 0 0 (0#12 ++ n : BitVec 18))
  | .walkAdd d a b => some (encRule 0x3 d a b 0 0)
  | .walkAddi d a i => some (encRule 0x3 d a 0 1 i)
  | .walkShadd d a b s => some (encRule 0x4 d a b 0 (0#12 ++ s : BitVec 18))
  | .walkLi d i => some (0x5#4 ++ d ++ i : BitVec 32)
  | .walkSel d a b => some (encRule 0x6 d a b 0 0)
  | .walkTnul a => some (encRule 0x7 0 a 0 0 0)
  | .walkJt t => some (encRule 0x8 0 0 0 0 (0#13 ++ t : BitVec 18))
  | .walkJf t => some (encRule 0x9 0 0 0 0 (0#13 ++ t : BitVec 18))
  | .walkJmp t => some (encRule 0xA 0 0 0 0 (0#13 ++ t : BitVec 18))
  | .walkStep a => some (encRule 0xB 0 a 0 0 0)
  | .walkEmitf a => some (encRule 0xC 0 a 0 0 0)
  | .walkEmitr a n o => some (encRule 0xD 0 a 0 0 (n ++ 0#1 ++ o : BitVec 18))
  | .walkMiss => some (encRule 0xE 0 0 0 0 0)
  | .walkEndRule => some (encRule 0xF 0 0 0 0 0)
  | _ => none

/-- The instruction word of an instruction (R121, R122); none for the rules of Bindweed and the device's own steps. -/
def encode : Instr → Option Word
  | .add o => some (encSH 0x00 o)
  | .sub o => some (encSH 0x01 o)
  | .mul o => some (encSH 0x02 o)
  | .mulh o => some (encSH 0x03 o)
  | .mulhz o => some (encSH 0x04 o)
  | .div o => some (encSH 0x05 o)
  | .divz o => some (encSH 0x06 o)
  | .rem o => some (encSH 0x07 o)
  | .remz o => some (encSH 0x08 o)
  | .and o => some (encSH 0x09 o)
  | .or o => some (encSH 0x0A o)
  | .xor o => some (encSH 0x0B o)
  | .shl o => some (encSH 0x0C o)
  | .shr o => some (encSH 0x0D o)
  | .sra o => some (encSH 0x0E o)
  | .clz o => some (encSH 0x0F o)
  | .ctz o => some (encSH 0x10 o)
  | .popc o => some (encSH 0x11 o)
  | .min o => some (encSH 0x12 o)
  | .max o => some (encSH 0x13 o)
  | .minz o => some (encSH 0x14 o)
  | .maxz o => some (encSH 0x15 o)
  | .slt o => some (encSH 0x16 o)
  | .sltz o => some (encSH 0x17 o)
  | .sel o => some (encSH 0x18 o)
  | .nop => some (encPair nopHalf nopHalf)
  | .addi o => some (encFI 0x00 o)
  | .andi o => some (encFI 0x01 o)
  | .ori o => some (encFI 0x02 o)
  | .xori o => some (encFI 0x03 o)
  | .shli o => some (encFI 0x04 o)
  | .shri o => some (encFI 0x05 o)
  | .srai o => some (encFI 0x06 o)
  | .slti o => some (encFI 0x07 o)
  | .li o => some (encFI 0x08 o)
  | .lih o => some (encFI 0x09 o)
  | .addpc o => some (encFI 0x0A o)
  | .ldb o => some (encFM 0x10 o)
  | .ldbz o => some (encFM 0x11 o)
  | .ldh o => some (encFM 0x12 o)
  | .ldhz o => some (encFM 0x13 o)
  | .ldw o => some (encFM 0x14 o)
  | .ldwz o => some (encFM 0x15 o)
  | .ldd o => some (encFM 0x16 o)
  | .stb o => some (encFM 0x17 o)
  | .sth o => some (encFM 0x18 o)
  | .stw o => some (encFM 0x19 o)
  | .std o => some (encFM 0x1A o)
  | .lda o => some (encFM 0x1B o)
  | .stl o => some (encFM 0x1C o)
  | .pref o => some (encFM 0x1D o)
  | .fence o => some (encFI 0x39 o)
  | .ifence o => some (encFI 0x38 o)
  | .beq o => some (encFB 0x20 o)
  | .bne o => some (encFB 0x21 o)
  | .blt o => some (encFB 0x22 o)
  | .bge o => some (encFB 0x23 o)
  | .blo o => some (encFB 0x24 o)
  | .bhs o => some (encFB 0x25 o)
  | .jmp o => some (encFB 0x26 o)
  | .jal o => some (encFB 0x27 o)
  | .jalr o => some (encFI 0x28 o)
  | .call o => some (encFB 0x29 o)
  | .callr o => some (encFI 0x2A o)
  | .ret o => some (encFI 0x2B o)
  | .gate o => some (encFI 0x2C o)
  | .gret o => some (encFI 0x2D o)
  | .endStrip o => some (encFI 0x2E o)
  | .release o => some (encFI 0x2F o)
  | .launch o => some (encFI 0x30 o)
  | .yield o => some (encFI 0x31 o)
  | .csrr o => some (encFS 0x32 o)
  | .csrw o => some (encFS 0x33 o)
  | .csrs o => some (encFS 0x34 o)
  | .csrc o => some (encFS 0x35 o)
  | .trap o => some (encFI 0x36 o)
  | .xret o => some (encFI 0x37 o)
  | .wfi o => some (encFI 0x3A o)
  | .vcfg o => some (encFI 0x40 o)
  | .vsetl o => some (encFI 0x41 o)
  | .vsett o => some (encFI 0x42 o)
  | .vld o => some (encFM 0x43 o)
  | .vlds o => some (encFM 0x44 o)
  | .vldtr o => some (encFM 0x46 o)
  | .vst o => some (encFM 0x48 o)
  | .vsts o => some (encFM 0x49 o)
  | .vldx o => some (encFX 0x45 o)
  | .vstx o => some (encFX 0x4A o)
  | .vstxa o => some (encFX 0x4B o)
  | .vldk o => some (encFX 0x47 o)
  | .vstk o => some (encFX 0x4C o)
  | .tset o => some (encFI 0x4D o)
  | .tget o => some (encFI 0x4E o)
  | .vadd o => some (encVH 0x20 o)
  | .vsub o => some (encVH 0x21 o)
  | .vmul o => some (encVH 0x22 o)
  | .vma o => some (encVH 0x23 o)
  | .vms o => some (encVH 0x24 o)
  | .vnma o => some (encVH 0x25 o)
  | .vdiv o => some (encVH 0x26 o)
  | .vsqrt o => some (encVH 0x27 o)
  | .vmin o => some (encVH 0x28 o)
  | .vmax o => some (encVH 0x29 o)
  | .vabs o => some (encVH 0x2A o)
  | .vneg o => some (encVH 0x2B o)
  | .vclamp o => some (encVH 0x2C o)
  | .vrcp o => some (encVH 0x2D o)
  | .vrsq o => some (encVH 0x2E o)
  | .vexp2 o => some (encVH 0x2F o)
  | .vlog2 o => some (encVH 0x30 o)
  | .vtanh o => some (encVH 0x31 o)
  | .vsigm o => some (encVH 0x32 o)
  | .vand o => some (encVH 0x33 o)
  | .vor o => some (encVH 0x34 o)
  | .vxor o => some (encVH 0x35 o)
  | .vnot o => some (encVH 0x36 o)
  | .vshl o => some (encVH 0x37 o)
  | .vshr o => some (encVH 0x38 o)
  | .vsra o => some (encVH 0x39 o)
  | .vwadd o => some (encVH 0x3A o)
  | .vwmul o => some (encVH 0x3B o)
  | .vwmac o => some (encVH 0x3C o)
  | .vsatn o => some (encVH 0x3D o)
  | .vcmp o => some (encVH 0x3E o)
  | .vclass o => some (encVH 0x3F o)
  | .vcvt o => some (encVH 0x40 o)
  | .vqnt o => some (encFX 0x50 o)
  | .vdqnt o => some (encFX 0x51 o)
  | .vrsum o => some (encVH 0x41 o)
  | .vrmax o => some (encVH 0x42 o)
  | .vrmin o => some (encVH 0x43 o)
  | .vscan o => some (encVH 0x44 o)
  | .vsplat o => some (encVH 0x45 o)
  | .vmv o => some (encVH 0x46 o)
  | .vmvx o => some (encVH 0x47 o)
  | .vins o => some (encVH 0x48 o)
  | .vslup o => some (encVH 0x49 o)
  | .vsldn o => some (encVH 0x4A o)
  | .vperm o => some (encVH 0x4B o)
  | .vcmpr o => some (encVH 0x4C o)
  | .vxpnd o => some (encVH 0x4D o)
  | .mand o => some (encVH 0x4E o)
  | .mor o => some (encVH 0x4F o)
  | .mxor o => some (encVH 0x50 o)
  | .mnot o => some (encVH 0x51 o)
  | .mpop o => some (encVH 0x52 o)
  | .mfrst o => some (encVH 0x53 o)
  | .mset o => some (encVH 0x54 o)
  | .mclr o => some (encVH 0x55 o)
  | .mcfg o => some (encFX 0x58 o)
  | .mjoin o => some (encFX 0x59 o)
  | .mldb o => some (encFX 0x5A o)
  | .mldbs o => some (encFX 0x5B o)
  | .mscl o => some (encFX 0x5E o)
  | .mrow o => some (encVH 0x60 o)
  | .mrowsl o => some (encVH 0x61 o)
  | .mzero o => some (encVH 0x62 o)
  | .mrd o => some (encFX 0x5C o)
  | .mwr o => some (encFX 0x5D o)
  | .mstat o => some (encFX 0x5F o)
  | .chcfg o => some (encFX 0x60 o)
  | .chrun o => some (encFI 0x61 o)
  | .chwait o => some (encFI 0x63 o)
  | .chend o => some (encFI 0x62 o)
  | .chlnk o => some (encFI 0x64 o)
  | .qrd o => some (encVH 0x63 o)
  | .qwr o => some (encVH 0x64 o)
  | .engq o => some (encFX 0x68 o)
  | .ecp o => some (encFX 0x69 o)
  | .tcopy o => some (encFX 0x6A o)
  | .trot o => some (encFX 0x6B o)
  | .awset o => some (encFI 0x6C o)
  | .awadd o => some (encFI 0x6D o)
  | .await o => some (encFI 0x6E o)
  | .binit o => some (encFI 0x70 o)
  | .barv o => some (encFI 0x71 o)
  | .bdrop o => some (encFI 0x72 o)
  | .bwait o => some (encFI 0x73 o)
  | .sytas o => some (encFX 0x74 o)
  | .syfad o => some (encFX 0x75 o)
  | .sycas o => some (encFX 0x76 o)
  | .syrd o => some (encFX 0x77 o)
  | .sywt o => some (encFX 0x78 o)
  | .amoadd o => some (encFX 0x80 o)
  | .amomin o => some (encFX 0x81 o)
  | .amomax o => some (encFX 0x82 o)
  | .amominz o => some (encFX 0x83 o)
  | .amomaxz o => some (encFX 0x84 o)
  | .amoand o => some (encFX 0x85 o)
  | .amoor o => some (encFX 0x86 o)
  | .amoxor o => some (encFX 0x87 o)
  | .amoswp o => some (encFX 0x88 o)
  | .amocas o => some (encFX 0x89 o)
  | .amocasq o => some (encFX 0x8A o)
  | .vwait o => some (encFX 0x79 o)
  | .mgcfg o => some (encFX 0x90 o)
  | .mgfeed o => some (encFX 0x91 o)
  | .mgpush o => some (encFX 0x92 o)
  | .mgpull o => some (encFX 0x93 o)
  | .mgclose o => some (encFX 0x94 o)
  | .mgstat o => some (encFX 0x95 o)
  | .tvld o => some (encFX 0x98 o)
  | .tvstat o => some (encFX 0x99 o)
  | .vdot o => some (encFX 0xF0 o)
  | .chrunx o => some (encFI 0xF1 o)
  | _ => none

/-- The bytes of an issue word as the hardware stores them: little-endian (R105). -/
def wordBytes (w : Word) : List Byte := toBytes 8 w.toNat

end Sys2Proof
end

