-- ==== Sys2Proof/Config.lean ====
section
/-!
DEFINITION. What the spec leaves to the part or leaves open: constants without a body, so that no proof can use a value
of theirs.
-/
namespace Sys2Proof

/-- The key the security controller draws at boot for key slot 0: data key and tweak key (R378, log entry 7). -/
opaque Config.slot0Key : BitVec 256 × BitVec 256

/-- CYCLE of a die as a function of the model's clock, less its value when counting began (R169, log entry 6). -/
opaque Config.cycles : Nat → Nat → BitVec 64

/-- Whether a race with 2^16 or more synchronisation events between its accesses is detected (R335, log entry 9). -/
opaque Config.lateRace : Nat → Bool

/-- Whether an image's ECDSA P-256 signature verifies against the fused key, and its security version meets the fused
minimum (R379, log entry 11). -/
opaque Config.imageAccepted : List (BitVec 8) → Bool

/-- The digest of the boot ROM, extended into measurement register 1 (R379, log entry 11). -/
opaque Config.romDigest : BitVec 256

/-- The ECDSA P-256 signature of the controller over a digest, and its certificate chain (R380, log entry 11). -/
opaque Config.sign : BitVec 256 → Nat → List (BitVec 8)

/-- The certificate chain of the controller (R380, log entry 11). -/
opaque Config.certificate : List (BitVec 8)

/-- The nonces of the controller, by a reading of the model's clock (R380, log entry 11). -/
opaque Config.nonce : Nat → BitVec 256

/-- What a node reads from a queue whose elements have another width than its operand: the two widths and the element
(R244; log entry 35). -/
opaque Config.mixedElement : Nat → Nat → Nat → Nat

/-- Units of 100 us between two readings of the model's clock (R342, log entry 6). -/
opaque Config.elapsed : Nat → Nat → Nat

/-- Whether the scheduler swaps out, at a reading of the clock, a strip that yields while another waits (R164, log
entry 39). -/
opaque Config.yields : Nat → Bool

/-- The bytes of the parts of a save slot whose format is the part's own, by the model's clock and the offset (R351, log entry
40). -/
opaque Config.savedByte : Nat → Nat → BitVec 8

/-- The bytes of a message in its slot, whose layout is the part's own, by the message's number and the byte (R354; log entry
42). -/
opaque Config.messageByte : Nat → Nat → BitVec 8

end Sys2Proof
end

