-- ==== Sys2Proof/Machine/Crypto.lean ====
section
/-!
DEFINITION. AES-XTS-256 over one 32-byte sector (R377): AES-256 of FIPS 197, the tweak of IEEE 1619 with the sector number
as the data unit number. The key's byte 0 is the lowest byte of its word 0x00 (log entry 13).
-/
namespace Sys2Proof.Machine

/-- Multiplication in GF(2^8) modulo x^8 + x^4 + x^3 + x + 1. -/
def gfMul : Nat → Nat → Nat → Nat
  | 0, _, _ => 0
  | n + 1, a, b =>
    let r := gfMul n (if a < 128 then 2 * a else (2 * a - 256) ^^^ 0x1B) (b / 2)
    if b % 2 = 1 then a ^^^ r else r

/-- The product of two bytes in GF(2^8). -/
def gf (a b : Nat) : Nat := gfMul 8 a b

/-- a^254: the inverse in GF(2^8), 0 for 0. -/
def gfInv (a : Nat) : Nat :=
  let a2 := gf a a
  let a3 := gf a2 a
  let a6 := gf a3 a3
  let a12 := gf a6 a6
  let a15 := gf a12 a3
  let a30 := gf a15 a15
  let a60 := gf a30 a30
  let a120 := gf a60 a60
  let a126 := gf a120 a6
  let a127 := gf a126 a
  gf a127 a127

/-- An 8-bit rotation to the left. -/
def rotl8 (v n : Nat) : Nat := v * 2 ^ n % 256 + v / 2 ^ (8 - n)

/-- The S-box of AES. -/
def sbox (v : Nat) : Nat :=
  let i := gfInv v
  i ^^^ rotl8 i 1 ^^^ rotl8 i 2 ^^^ rotl8 i 3 ^^^ rotl8 i 4 ^^^ 0x63

/-- The inverse S-box of AES. -/
def invSbox (v : Nat) : Nat := gfInv (rotl8 v 1 ^^^ rotl8 v 3 ^^^ rotl8 v 6 ^^^ 0x05)

/-- Bytewise exclusive-or. -/
def xorBytes (a b : List Nat) : List Nat := List.zipWith (· ^^^ ·) a b

/-- The key schedule of AES-256: i is the index of the next word, ws the words so far, newest first. -/
def expandGo : Nat → Nat → Nat → List (List Nat) → List (List Nat)
  | 0, _, _, ws => ws
  | n + 1, i, rcon, ws =>
    let prev := ws.getD 0 []
    let old := ws.getD 7 []
    let t :=
      if i % 8 = 0 then
        match (prev.drop 1 ++ prev.take 1).map sbox with
        | b :: r => (b ^^^ rcon) :: r
        | [] => []
      else if i % 8 = 4 then prev.map sbox
      else prev
    expandGo n (i + 1) (if i % 8 = 0 then gf rcon 2 else rcon) (xorBytes old t :: ws)

/-- The words of a byte list, four bytes each. -/
def words4 : Nat → List Nat → List (List Nat)
  | 0, _ => []
  | n + 1, bs => bs.take 4 :: words4 n (bs.drop 4)

/-- The fifteen round keys of a 32-byte key. -/
def roundKeys (key : List Nat) : List (List Nat) :=
  let ws := (expandGo 52 8 1 (words4 8 key).reverse).reverse
  (List.range 15).map fun r => ((ws.drop (4 * r)).take 4).flatten

/-- ShiftRows: byte r + 4c comes from column c + r. -/
def shiftRows (s : List Nat) : List Nat :=
  (List.range 16).map fun i => s.getD ((i % 4) + 4 * ((i / 4 + i % 4) % 4)) 0

/-- The inverse of ShiftRows. -/
def invShiftRows (s : List Nat) : List Nat :=
  (List.range 16).map fun i => s.getD ((i % 4) + 4 * ((i / 4 + 4 - i % 4) % 4)) 0

/-- MixColumns with the coefficients of one row, rotated. -/
def mixCols (c : List Nat) (s : List Nat) : List Nat :=
  (List.range 16).map fun i =>
    (List.range 4).foldl (fun acc j => acc ^^^ gf (s.getD (4 * (i / 4) + j) 0) (c.getD ((j + 4 - i % 4) % 4) 0)) 0

/-- AES-256 encryption of a 16-byte block. -/
def aesEnc (rk : List (List Nat)) (s : List Nat) : List Nat :=
  let s := xorBytes s (rk.getD 0 [])
  let s := (List.range 13).foldl
    (fun s r => xorBytes (mixCols [2, 3, 1, 1] (shiftRows (s.map sbox))) (rk.getD (r + 1) [])) s
  xorBytes (shiftRows (s.map sbox)) (rk.getD 14 [])

/-- AES-256 decryption of a 16-byte block. -/
def aesDec (rk : List (List Nat)) (s : List Nat) : List Nat :=
  let s := xorBytes s (rk.getD 14 [])
  let s := (List.range 13).foldl
    (fun s r => mixCols [14, 11, 13, 9] (xorBytes ((invShiftRows s).map invSbox) (rk.getD (13 - r) []))) s
  xorBytes ((invShiftRows s).map invSbox) (rk.getD 0 [])

/-- The low n bytes of a number, least significant first. -/
def natBytes (n v : Nat) : List Nat := (toBytes n v).map (·.toNat)

/-- The number of a byte list, least significant first. -/
def bytesNat : List Nat → Nat
  | [] => 0
  | b :: r => b + 256 * bytesNat r

/-- One 16-byte block of XTS: the cipher applied under the tweak. -/
def xtsBlock (f : List Nat → List Nat) (t : Nat) (b : List Nat) : List Nat :=
  let tb := natBytes 16 t
  xorBytes (f (xorBytes b tb)) tb

/-- A tweak multiplied by x (IEEE 1619). -/
def xtsNext (t : Nat) : Nat := (2 * t % 2 ^ 128) ^^^ (if t / 2 ^ 127 % 2 = 1 then 0x87 else 0)

/-- A 32-byte sector under a block function. -/
def xtsSector (f : List Nat → List Nat) (kt : BitVec 256) (sector : Nat) (bs : List Nat) : List Nat :=
  let t := bytesNat (aesEnc (roundKeys (natBytes 32 kt.toNat)) (natBytes 16 sector))
  xtsBlock f t (bs.take 16) ++ xtsBlock f (xtsNext t) (bs.drop 16)

/-- A sector's plaintext enciphered under a key pair (R377). -/
def encipher (k : BitVec 256 × BitVec 256) (sector : Nat) (bs : List Byte) : List Byte :=
  (xtsSector (aesEnc (roundKeys (natBytes 32 k.1.toNat))) k.2 sector (bs.map (·.toNat))).map (BitVec.ofNat 8 ·)

/-- A sector's ciphertext deciphered under a key pair (R377). -/
def decipher (k : BitVec 256 × BitVec 256) (sector : Nat) (bs : List Byte) : List Byte :=
  (xtsSector (aesDec (roundKeys (natBytes 32 k.1.toNat))) k.2 sector (bs.map (·.toNat))).map (BitVec.ofNat 8 ·)

/-- A sector's plaintext written under one key pair as it reads under another (R377). -/
def rekey (wkey rkey : BitVec 256 × BitVec 256) (sector : Nat) (bs : List Byte) : List Byte :=
  if wkey = rkey then bs else decipher rkey sector (encipher wkey sector bs)

end Sys2Proof.Machine
end

