-- ==== Sys2Proof/Machine/Format.lean ====
section
/-!
DEFINITION. Element formats, rounding modes and arithmetic flags (R49 to R56, R59, R67).
-/
namespace Sys2Proof.Machine

/-- The element formats of R49. -/
inductive Fmt where
  | s8 | s16 | s32 | s64 | z8 | z16 | z32 | z64 | f32 | bf16 | f16 | e4m3 | e5m2 | e2m1 | k8
  deriving DecidableEq, Repr

/-- The rounding modes of R59. -/
inductive RMode where
  | rne | rtz | rdn | rup | rna | srn
  deriving DecidableEq, Repr

/-- A set of the flags of FFLAGS (R67): NX 0, OF 1, UF 2, NV 3, DZ 4, SA 5. -/
abbrev Flags := BitVec 6

namespace Flag
/-- Inexact result (R67). -/
def nx : Flags := 0x01#6
/-- Overflow (R67). -/
def of : Flags := 0x02#6
/-- Tiny and inexact result (R67). -/
def uf : Flags := 0x04#6
/-- Invalid operation (R67). -/
def nv : Flags := 0x08#6
/-- Division by zero, or a function at its pole (R67). -/
def dz : Flags := 0x10#6
/-- Integer saturation (R67). -/
def sa : Flags := 0x20#6
end Flag

/-- The format of a code of R49. -/
def Fmt.ofCode : Nat → Option Fmt
  | 1 => some .s8 | 2 => some .s16 | 3 => some .s32 | 4 => some .s64
  | 5 => some .z8 | 6 => some .z16 | 7 => some .z32 | 8 => some .z64
  | 9 => some .f32 | 10 => some .bf16 | 11 => some .f16
  | 12 => some .e4m3 | 13 => some .e5m2 | 14 => some .e2m1 | 15 => some .k8
  | _ => none

/-- The code of a format (R49). -/
def Fmt.code : Fmt → Nat
  | .s8 => 1 | .s16 => 2 | .s32 => 3 | .s64 => 4
  | .z8 => 5 | .z16 => 6 | .z32 => 7 | .z64 => 8
  | .f32 => 9 | .bf16 => 10 | .f16 => 11
  | .e4m3 => 12 | .e5m2 => 13 | .e2m1 => 14 | .k8 => 15

/-- The width of an element in bits (R49). -/
def Fmt.width : Fmt → Nat
  | .s8 | .z8 | .e4m3 | .e5m2 | .k8 => 8
  | .s16 | .z16 | .bf16 | .f16 => 16
  | .s32 | .z32 | .f32 => 32
  | .s64 | .z64 => 64
  | .e2m1 => 4

/-- Signed integer formats (R49). -/
def Fmt.isSigned : Fmt → Bool
  | .s8 | .s16 | .s32 | .s64 => true
  | _ => false

/-- Integer formats (R49). -/
def Fmt.isInt : Fmt → Bool
  | .s8 | .s16 | .s32 | .s64 | .z8 | .z16 | .z32 | .z64 => true
  | _ => false

/-- The arithmetic floating-point formats: "float" of R184. -/
def Fmt.isFloat : Fmt → Bool
  | .f32 | .bf16 | .f16 => true
  | _ => false

/-- The formats of R66 that arithmetic does not accept. -/
def Fmt.isSmall : Fmt → Bool
  | .e4m3 | .e5m2 | .e2m1 | .k8 => true
  | _ => false

/-- The wide partner of R189. -/
def Fmt.wide : Fmt → Option Fmt
  | .s8 => some .s16 | .s16 => some .s32 | .s32 => some .s64
  | .z8 => some .z16 | .z16 => some .z32 | .z32 => some .z64
  | .bf16 => some .f32 | .f16 => some .f32
  | _ => none

/-- The mode of a code of R59. -/
def RMode.ofCode : Nat → Option RMode
  | 1 => some .rne | 2 => some .rtz | 3 => some .rdn | 4 => some .rup | 5 => some .rna | 6 => some .srn
  | _ => none

/-- The code of a mode (R59). -/
def RMode.code : RMode → Nat
  | .rne => 1 | .rtz => 2 | .rdn => 3 | .rup => 4 | .rna => 5 | .srn => 6

/-- The fields of a binary floating-point format (R51): fraction bits, bias, magnitude code of the largest finite value. -/
structure FParam where
  frac : Nat
  bias : Nat
  maxMag : Nat
  deriving DecidableEq, Repr

/-- The parameters of R51; the last row serves the formats that have none. -/
def Fmt.param : Fmt → FParam
  | .f32 => ⟨23, 127, 0x7F7FFFFF⟩
  | .bf16 => ⟨7, 127, 0x7F7F⟩
  | .f16 => ⟨10, 15, 0x7BFF⟩
  | .e4m3 => ⟨3, 7, 0x7E⟩
  | .e5m2 => ⟨2, 15, 0x7B⟩
  | .e2m1 => ⟨1, 1, 0x7⟩
  | _ => ⟨0, 0, 0⟩

/-- The code of the default NaN (R51, R64); NaR for k8 and the z and s formats' 0. -/
def Fmt.defaultNaN : Fmt → Nat
  | .f32 => 0x7FC00000 | .bf16 => 0x7FC0 | .f16 => 0x7E00
  | .e4m3 => 0x7F | .e5m2 => 0x7E | .k8 => 0x80
  | _ => 0

/-- The code of +infinity (R51), 0 where the format has none. -/
def Fmt.infMag : Fmt → Nat
  | .f32 => 0x7F800000 | .bf16 => 0x7F80 | .f16 => 0x7C00 | .e5m2 => 0x7C
  | _ => 0

/-- The smallest value of an integer format. -/
def Fmt.minInt (f : Fmt) : Int := if f.isSigned then -((2 ^ (f.width - 1) : Nat) : Int) else 0

/-- The largest value of an integer format. -/
def Fmt.maxInt (f : Fmt) : Int :=
  if f.isSigned then ((2 ^ (f.width - 1) : Nat) : Int) - 1 else ((2 ^ f.width : Nat) : Int) - 1

/-- The integer an element pattern of an integer format stands for (R50). -/
def Fmt.toInt (f : Fmt) (v : Nat) : Int :=
  if f.isSigned then signed f.width v else ((v % 2 ^ f.width : Nat) : Int)

/-- The pattern of an integer, wrapped to the format's width (R50). -/
def Fmt.ofInt (f : Fmt) (i : Int) : Nat := wrap f.width i

/-- SatS or SatZ of the format's width (R50): the clamped integer. -/
def Fmt.clamp (f : Fmt) (i : Int) : Int :=
  if i < f.minInt then f.minInt else if f.maxInt < i then f.maxInt else i

end Sys2Proof.Machine
end

