-- ==== Sys2Proof/Machine/Sparse.lean ====
section
/-!
DEFINITION. Sparse data by key: a list of key and value pairs in one canonical form, keys strictly rising and no entry
equal to the default an unlisted key reads as.
-/
namespace Sys2Proof.Machine

/-- Sparse data: key and value pairs. -/
abbrev Sparse (α : Type) := List (Nat × α)

/-- The value at key k; d where k is not listed. -/
def Sparse.get {α : Type} (d : α) : Sparse α → Nat → α
  | [], _ => d
  | (j, v) :: m, k => if k = j then v else Sparse.get d m k

/-- An entry put at its place in the order of keys. -/
def Sparse.put {α : Type} : Sparse α → Nat → α → Sparse α
  | [], k, v => [(k, v)]
  | (j, u) :: m, k, v => if k < j then (k, v) :: (j, u) :: m else (j, u) :: Sparse.put m k v

/-- The data without key k. -/
def Sparse.drop {α : Type} : Sparse α → Nat → Sparse α
  | [], _ => []
  | (j, u) :: m, k => if k = j then Sparse.drop m k else (j, u) :: Sparse.drop m k

/-- The data with the value at key k replaced, in canonical form. -/
def Sparse.set {α : Type} [DecidableEq α] (d : α) (m : Sparse α) (k : Nat) (v : α) : Sparse α :=
  if v = d then Sparse.drop m k else Sparse.put (Sparse.drop m k) k v

/-- The data with the value at key k changed by f. -/
def Sparse.upd {α : Type} [DecidableEq α] (d : α) (m : Sparse α) (k : Nat) (f : α → α) : Sparse α :=
  Sparse.set d m k (f (Sparse.get d m k))

/-- Every key of the data is at least n. -/
def Sparse.above {α : Type} : Nat → Sparse α → Bool
  | _, [] => true
  | n, (j, _) :: _ => n ≤ j

/-- The canonical form: keys strictly rising, no entry equal to the default. -/
def Sparse.wf {α : Type} [DecidableEq α] (d : α) : Sparse α → Bool
  | [] => true
  | (j, v) :: m => decide (v ≠ d) && Sparse.above (j + 1) m && Sparse.wf d m

end Sys2Proof.Machine
end

