-- ==== Sys2Proof/Machine/State.lean ====
section
/-!
DEFINITION. The state of the package as plain data: the harts, the cores, the dies, the hub, memory, and the work in
progress. Every field's docstring names the rule of the spec that gives the machine that state.
-/
namespace Sys2Proof.Machine

/-! ## Names -/

/-- The privilege levels of R158. -/
inductive Priv where
  | app | lib | exec
  deriving DecidableEq, Repr

/-- The operand of a device step: which thing it acts on and what the outside world brings (log entry 1). -/
structure Input where
  /-- A hart, core, die, queue, launch, session or walk, by number. -/
  who : Nat := 0
  /-- An entry, port, node, stream, feed, strip, slot or link, by number. -/
  which : Nat := 0
  /-- A place: a tile-window start, a level, a temperature, a SUB. -/
  at_ : Nat := 0
  /-- An address. -/
  addr : Nat := 0
  /-- A value written or measured. -/
  value : Nat := 0
  /-- Bytes brought from outside. -/
  data : List Byte := []
  /-- A yes or no of the outside world. -/
  flag : Bool := false
  /-- Sectors of 32 bytes, by number. -/
  sectors : List Nat := []
  deriving DecidableEq, Repr

/-- Who moves next (log entry 1): a hart by its key, a hart within the cycle of the turn before (R275), where the harts of a cycle act
in ascending order of their keys (R211), a walk by its number, or a step of the device. -/
inductive Turn where
  | hart (key : Nat)
  | same (key : Nat)
  | walk (k : Nat)
  | event (i : Instr) (inp : Input)
  deriving DecidableEq, Repr

/-! ## Fault records and causes -/

/-- The fields of a fault record (R392). -/
structure FaultRec where
  code : Nat
  sub : Nat := 0
  pre : Bool := false
  frz : Bool := false
  ovf : Bool := false
  master : Nat := 0
  strip : Nat := 0
  entry : Nat := 0xFF
  die : Nat := 0
  core : Nat := 0
  slot : Nat := 0
  recAddr : Nat := 0
  pc : Nat := 0
  addr : Nat := 0
  asp : Nat := 3
  wr : Bool := false
  rd : Bool := false
  ex : Bool := false
  scope : Nat := 0
  index : Nat := 0
  done : Nat := 0
  time : Nat := 0
  deriving DecidableEq, Repr

/-! ## A hart -/

/-- The vector and mask registers (R176, R177) with what the device tracks of them (R352, R427). Images and masks are
numbers whose bit i is bit i of the image. -/
structure VecFile where
  /-- v0 to v63: register images (R176). -/
  v : Sparse Nat := []
  /-- m0 to m7 (R177). -/
  m : Sparse Nat := []
  /-- VHW.n: high-water marks in bytes (R352). -/
  vhw : Sparse Nat := []
  /-- Mask registers written since they were last zeroed (R352). -/
  mset : Sparse Bool := []
  /-- Vector registers that hold an uncorrectable error (R425, R427). -/
  verr : Sparse Bool := []
  /-- Mask registers that hold an uncorrectable error (R425, R427). -/
  merr : Sparse Bool := []
  deriving DecidableEq, Repr

/-- The control registers of vector state (R27, R28, R49, R115). -/
structure VecCfg where
  vl : Nat := 0
  vrows : Nat := 1
  vtype : Fmt := .f32
  /-- VNR: 8, 16, 32 or 64 (R30). -/
  vnr : Nat := 8
  /-- VMSK: EN, ZM, MI, MR (R115). -/
  vmsk : BitVec 6 := 0
  deriving DecidableEq, Repr

/-- Rounding, flags and their counters (R62, R67, R68, R423). -/
structure Arith where
  frm : RMode := .rne
  srseed : BitVec 32 := 0
  fflags : Flags := 0
  fcnt : Vector (BitVec 64) 6 := Vector.replicate 6 0
  ftrap : BitVec 6 := 0
  deriving DecidableEq, Repr

/-- The gate linkage, trap and context registers (R83, R92, R128, R159 to R163, R171, R334, R391). -/
structure SysRegs where
  retcnt : Word := 0
  rchk : Bool := false
  gepc : Word := 0
  /-- GSTAT.PLV: both of its bits are written and read (R7, R161). -/
  gstatPlv : BitVec 2 := 0
  gstatMsk : BitVec 6 := 0
  tvec : Word := 0
  tcause : Word := 0
  tval : Word := 0
  tpc : Word := 0
  tsp : Word := 0
  gtbase : Word := 0
  lqmask : Word := 0
  vmroot : Word := 0
  htbase : Word := 0
  frarea : Word := 0
  deriving DecidableEq, Repr

/-- Chain registers (R251 to R254); the fields of CHSTAT one by one. -/
structure ChainRegs where
  chcur : Word := 0
  brk : Nat := 0
  nn : Nat := 0
  wn : Nat := 0
  le : Bool := false
  lw : Bool := false
  res : Bool := false
  tmp : Bool := false
  deg : Bool := false
  rowMode : Bool := false
  run : Bool := false
  inst : Bool := false
  noch : Bool := false
  pol : Bool := false
  qstat : Word := 0
  deriving DecidableEq, Repr

/-- The walk counters of a strip (R319). -/
structure WalkCnt where
  outst : Word := 0
  found : Word := 0
  missed : Word := 0
  other : Word := 0
  steps : Word := 0
  deriving DecidableEq, Repr

/-- An installed chain body (R232): its nodes in order, the issue unit each lies in, and the CHCFG fields. -/
structure Body where
  nodes : List Instr := []
  units : List Nat := []
  sb : Nat := 0
  rowMode : Bool := false
  wnc : Nat := 0
  deriving DecidableEq, Repr

/-- A binding of a queue to a lane link (R255). -/
structure LinkBind where
  queue : Nat
  west : Bool
  inbound : Bool
  deriving DecidableEq, Repr

/-- What travels in a chaining queue (R244): a beat of active elements from index start, the mark of a row, or the
end-of-stream token. In row mode row is the beat's row. -/
inductive Tok where
  | beat (row start : Nat) (vals : List Nat)
  | mark (row : Nat)
  | eos
  | checkpoint
  deriving DecidableEq, Repr

/-- A chaining queue: its tokens, oldest first, and for each reader how many of them it has taken (R244). An inbound queue
holds what its link delivered short of a beat, with the row and the index of its first element, the row length once a
mark has arrived, and the elements or rows that have begun to arrive (R256, R257). -/
structure Queue where
  toks : List Tok := []
  taken : List (Nat × Nat) := []
  part : List Nat := []
  row : Nat := 0
  next : Nat := 0
  rl : Nat := 0
  fed : Nat := 0
  deriving DecidableEq, Repr

/-- A store that a chain store port holds until release (R245): the element or row it is released with, its flat index, its
node, its place, its element, when the unused sub-element beside it is written (0 never, 1 at the run's last element, 2
always: R247), and the operation of VSTXA. -/
structure HeldStore where
  unit : Nat
  g : Nat
  node : Nat
  addr : Nat
  upper : Bool
  tile : Bool
  value : Nat
  fmt : Fmt
  fin : Nat
  op : Option Nat
  deriving DecidableEq, Repr

/-- The progress of one node of a run: the next position of a node that reads no queue, or the next position of a result it
emits; the elements or rows a sink holds; whether the end-of-stream token has passed it; the elements of an unfinished
row, and MROW's scale bytes; the last element QRD took. -/
structure NodeSt where
  row : Nat := 0
  col : Nat := 0
  held : Nat := 0
  ended : Bool := false
  staged : List (Option Nat) := []
  staged2 : List Nat := []
  /-- The flat index of the first staged element of MROWSL. -/
  base : Nat := 0
  last : Nat := 0
  deriving DecidableEq, Repr

/-- How an open run is being executed (R244, R261, R433). -/
inductive RunMode where
  | chained | temporal | parked
  deriving DecidableEq, Repr

/-- A leader row that waits to be committed at a member of a join (R227): the leader's count of tile loads as its tag, accumulator
row, positions. -/
structure JoinRow where
  tag : Nat
  row : Nat
  /-- For each position: none, or the A element and its scale byte. -/
  els : List (Option (Nat × Nat))
  leader : Nat
  deriving DecidableEq, Repr

/-- A fault that a stream port found (R432): its CODE, the element or row, and the fields of its record. -/
structure Break where
  code : Nat
  g : Nat
  addr : Nat
  asp : Nat
  rd : Bool
  wr : Bool
  scope : Nat
  deriving DecidableEq, Repr

/-- An open chain run with the values read by R237. -/
structure Run where
  /-- The run's number, and the place of its CHRUN in program order (R327, R437). -/
  id : Nat := 0
  po : Nat := 0
  /-- The pc of the CHRUN, and the level it issued at (log entry 38). -/
  pc : Word
  plv : Priv
  /-- The count N; none in a resident segment whose stream has not ended (R256). -/
  n : Option Nat
  res : Bool
  body : Body
  xs : Vector Word 32
  vs : Sparse Nat
  ms : Sparse Nat
  cfg : VecCfg
  frm : RMode
  srseed : BitVec 32
  tensors : Sparse (BitVec 512)
  /-- The node width WN (R235). -/
  wn : Nat
  mode : RunMode
  cur : Nat
  jdone : Nat
  queues : List Queue
  nodes : List NodeSt
  stores : List HeldStore
  /-- Rows that MROW, or MROWSL in the temporal remainder, commits at release, with the row of the run (R248, R436). -/
  rows : List (Nat × JoinRow)
  /-- Tokens that MGPUSH holds at the merge port: element, node, coordinate and value (R298). -/
  pushes : List (Nat × Nat × Nat × Nat)
  /-- The elements for which MGPULL holds a token of the output (R299). -/
  pulled : List Nat
  /-- Flags of elements not yet released: element or row, and flags (R241). -/
  flags : List (Nat × Flags)
  breaks : List Break
  deriving DecidableEq, Repr

/-- The chain state of a hart. -/
structure ChainSt where
  body : Option Body := none
  links : List LinkBind := []
  run : Option Run := none
  deriving DecidableEq, Repr

/-- An instruction of the vector queue that waits on another agent, with the operand values it read (R348, R349). -/
structure Pending where
  instr : Instr
  pc : Word
  /-- Scalar operands read, in the order the instruction names them. -/
  xs : List Word
  /-- Vector operands read. -/
  vs : List Nat
  mask : Nat
  /-- Satisfied elements of VWAIT. -/
  sat : Nat
  /-- The tile shape in force: VL, VROWS. -/
  vl : Nat
  vrows : Nat
  /-- The level at which the instruction issued (R89, R158), and its place in program order (R327). -/
  plv : Priv
  po : Nat
  deriving DecidableEq, Repr

/-- The matrix unit of a core (R210, R212, R226). -/
structure MatrixUnit where
  owner : Option Nat := none
  /-- Harts that wait for the unit, in issue order (R211). -/
  waiters : List Nat := []
  /-- acc[0] to acc[255]: row images of 128 f32 elements. -/
  acc : Sparse Nat := []
  /-- The stationary tile: B(k,n) at element index k * 128 + n of BFMT (R217). -/
  tile : Nat := 0
  /-- The positions that a sparse tile keeps: bit k * 128 + n (R218). -/
  kept : Nat := 0
  /-- B block scales: byte b * 128 + n (R219). -/
  scales : Nat := 0
  joined : Bool := false
  jn : Nat := 0
  jp : Nat := 0
  dirty : BitVec 16 := 0
  /-- Tiles loaded since the last MCFG or join; STEP is this modulo 256 (R212, R227). -/
  step : Nat := 0
  k : Nat := 0
  sv : Bool := false
  tv : Bool := false
  bsc : Bool := false
  asc : Bool := false
  spar : Nat := 0
  bfmt : Nat := 0
  afmt : Nat := 0
  rowcnt : Word := 0
  accErr : Sparse Bool := []
  tileErr : Bool := false
  /-- A join asked for: SIZE and POS; a leave asked for (R226). -/
  joinReq : Option (Nat × Nat) := none
  leaveReq : Bool := false
  /-- Leader rows that have arrived and are not committed (R227, R228). -/
  rows : List JoinRow := []
  deriving DecidableEq, Repr

/-- A wait of the scalar sequencer in progress, with the instruction that waits (R93, R165, R249, R274, R277, R349); a
write of HTSYNC waits for commands and sessions by number. -/
inductive Wait where
  | wfi (o : FI)
  | chwait (o : FI)
  | bwait (o : FI)
  | sywt (o : FX)
  | htsync (d : Field) (ids : List Nat)
  deriving DecidableEq, Repr

/-- A FENCE whose pred classes are still in the vector queue: pred, succ and scope, and its place in program order (R151). -/
structure FenceHold where
  pred : Nat
  succ : Nat
  scope : Nat
  po : Nat
  deriving DecidableEq, Repr

/-- A hart (R26) with the strip it runs (R40 to R42). -/
structure Hart where
  /-- Die, core and slot: R14, R100, R31. -/
  die : Nat := 0
  core : Nat := 0
  slot : Nat := 0
  /-- The launch whose strip the hart runs, by number. -/
  launch : Option Nat := none
  stripId : BitVec 32 := 0
  /-- Tile window: first 4 KiB page in the core's tile memory, and pages (R94). -/
  winStart : Nat := 0
  winPages : Nat := 0
  /-- Window pages written since the strip's start (R352). -/
  winSet : Sparse Bool := []
  released : Bool := false
  frozen : Bool := false
  /-- A pre-emption request is pending (R349, R403). -/
  preempt : Bool := false
  /-- The die whose parking alone has made that request, which is withdrawn with it (R373, R375). -/
  forPark : Option Nat := none
  /-- The PSPLIT entry in force for the hart: EN, WC, BASE (R31, R32). -/
  part : BitVec 8 := 0xE0
  /-- Bound to its core by a named barrier (BC, R273). -/
  bound : Bool := false
  pc : Word := 0
  x : Vector Word 32 := Vector.replicate 32 0
  plv : Priv := .app
  vec : VecFile := {}
  cfg : VecCfg := {}
  ar : Arith := {}
  sys : SysRegs := {}
  chr : ChainRegs := {}
  chain : ChainSt := {}
  /-- k0 to k63 (R73, R74). -/
  tensors : Sparse (BitVec 512) := []
  walks : WalkCnt := {}
  /-- The instruction of the vector queue that waits (R348). -/
  vq : Option Pending := none
  wait : Option Wait := none
  /-- The watchdog has raised STALL for the wait in progress (R400). -/
  stalled : Bool := false
  /-- Held imprecise records, oldest first (R395), and whether a record went to a ring. -/
  held : List FaultRec := []
  ovf : Bool := false
  /-- FENCEs that hold back their succ classes until the vector queue has performed its accesses of their pred classes, in
  program order (R151). -/
  fences : List FenceHold := []
  /-- The place in program order of the unit that issues: the turns the hart has taken (R327). -/
  po : Nat := 0
  /-- The hart has given up its lane groups at a VSETL, and waits for those of its entry (R32). -/
  groupless : Bool := false
  /-- The matrix state of a resumed strip that waits for a unit (R229). -/
  muSaved : Option MatrixUnit := none
  /-- The strip has stopped before an instruction that its die class lacks: the class needed, 1 matrix or 2 bandwidth, and
  the SUB of R414 that the instruction itself gives, 0 for none (R347, R413). -/
  lacks : Option (Nat × Nat) := none
  /-- The control words of the save slot, by their place, that hold an uncorrectable error (R443). -/
  ctlErr : Sparse Bool := []
  /-- The CODE of the trap whose entry has met a fault, which stopped the strip (R391). -/
  doubleCause : Option Nat := none
  deriving DecidableEq, Repr

/-! ## A core -/

/-- What one hart does to a named barrier within a cycle, by its slot (R275): BINIT with its count and launch, BDROP, BARV. -/
inductive BarAct where
  | init (slot count : Nat) (launch : Option Nat)
  | drop (slot : Nat)
  | arrive (slot : Nat)
  deriving DecidableEq, Repr

/-- A named barrier (R273), with the actions of the cycle in progress (R275). -/
structure Barrier where
  exp : Nat := 0
  arr : Nat := 0
  ph : BitVec 16 := 0
  holder : Option Nat := none
  acts : List BarAct := []
  deriving DecidableEq, Repr

/-- A location resolved to memory: a physical address and the key slot it is reached under (R264, R376). -/
structure Loc where
  pa : Nat := 0
  key : Nat := 0
  deriving DecidableEq, Repr

/-- Who issued an accepted command, as its fault records name it (R392, R446): hart by key, entry, launch, strip, pc of the
issuing unit, and SCOPE. -/
structure Issuer where
  hart : Nat
  entry : Nat
  launch : Nat
  strip : Nat
  pc : Nat
  scope : Nat
  deriving DecidableEq, Repr

/-- Why an accepted command fails (R446, R447): the fields of its record, and the issuer that holds it. -/
structure CmdFault where
  code : Nat
  sub : Nat
  addr : Nat
  asp : Nat := 2
  rd : Bool := false
  wr : Bool := false
  by_ : Issuer
  deriving DecidableEq, Repr

/-- An accepted engine command (R263, R265): the words, what was read at acceptance, and its progress. -/
structure Cmd where
  /-- The number of the command in the order of acceptance of the package. -/
  id : Nat
  op : Nat
  /-- The hart it was issued from by key, its launch and its strip, and the pc of the issuing unit. -/
  hart : Nat
  launch : Nat
  strip : Nat
  pc : Nat
  scope : Nat
  dst : Loc
  src : Loc
  /-- The location words of the destination, the source and the arrival word, for records (R446). -/
  dstWord : Nat
  srcWord : Nat
  awWord : Nat := 0
  /-- The byte count (R267). -/
  len : Nat
  /-- The arrival word's physical address. -/
  aw : Option Nat := none
  /-- Tensor entries read at acceptance (OP 2): destination and source. -/
  dstT : BitVec 512 := 0
  srcT : BitVec 512 := 0
  /-- The places of the scale bytes of the two tensors. -/
  dstSc : Loc := {}
  srcSc : Loc := {}
  /-- The issuing strip's window: base and length (R333, R447); and the sender once the rotation runs (OP 3). -/
  win : Nat × Nat := (0, 0)
  peer : Option Issuer := none
  /-- The handle table the command read, for HTSYNC (R93). -/
  htbase : Option Nat := none
  /-- Physical ranges the command names: base and length (R94, R265). -/
  ranges : List (Nat × Nat) := []
  /-- RCHK of the issuer at acceptance (R334). -/
  rchk : Bool := false
  /-- The source has been read, wholly or up to a fault (R266). -/
  readDone : Bool := false
  /-- The bytes read so far. -/
  bytes : List Byte := []
  /-- Bytes delivered. -/
  done : Nat := 0
  /-- The block in progress: how many of its granules have been read or have landed, and the bytes read of it, by their place in
  the block (R266, R324). -/
  part : Nat := 0
  stage : Sparse Byte := []
  /-- The outgoing block of a rotation has been read, wholly or up to a fault (R101, R270). -/
  sent : Bool := false
  fault : Option CmdFault := none
  frozen : Bool := false
  /-- The command's eight words (R307). -/
  words : List Nat := []
  /-- The structure region of a walk: physical base, length and RD (R308, R309). -/
  region : Nat × Nat × Bool := (0, 0, false)
  /-- The program a walk runs (R318), and the walk's number once it runs. -/
  rules : List (BitVec 32) := []
  walk : Option Nat := none
  deriving DecidableEq, Repr

/-- A chain link record in flight towards a port (R357). -/
structure LinkRec where
  tok : Tok
  ew : Nat
  deriving DecidableEq, Repr

/-- A lane-link port of a core: direction and role (R255). Ports 0 to 3: east out, west out, east in, west in. -/
structure LinkPort where
  holder : Option Nat := none
  waiters : List Nat := []
  fifo : List LinkRec := []
  deriving DecidableEq, Repr

/-- A core (R26, R31). -/
structure Core where
  psplit : BitVec 64 := 0xE0
  mu : MatrixUnit := {}
  bars : Sparse Barrier := []
  /-- Engine queue entries 0 to 127 (R265). -/
  eng : Sparse (Option Cmd) := []
  /-- Entries of rotations in order of acceptance (R270). -/
  rots : List Nat := []
  ports : Sparse LinkPort := []
  /-- Tile-window ranges that are granted or not yet given up: first page, pages, and the hart that holds the range, none
  once its strip has ended (R94). -/
  windows : List (Nat × Nat × Option Nat) := []
  deriving DecidableEq, Repr

/-! ## Merge sessions and walks -/

/-- A token of a session: coordinate, value and stream (R287). -/
structure MTok where
  c : Nat
  v : Nat
  s : Nat
  deriving DecidableEq, Repr

/-- Work that enters a stream in order (R287, R297, R298): a feed with its entries and how far it has read, or the tokens of
a push, which has nothing to read. -/
structure Feed where
  stream : Nat
  /-- The launch and strip that issued it. -/
  launch : Nat
  strip : Nat
  /-- The feed's number; none for a push. -/
  id : Option Nat := none
  cr : Bool := false
  scope : Nat := 0
  closes : Bool := false
  /-- First element and count (CR = 0). -/
  f : Nat := 0
  n : Nat := 0
  /-- Location words and elements of the tensors kB, kC and kD, where they begin, and the tile memory they name (R94). -/
  wb : Nat := 0
  wc : Nat := 0
  wd : Nat := 0
  nb : Nat := 0
  nc : Nat := 0
  nd : Nat := 0
  lb : Loc := {}
  lc : Loc := {}
  ld : Loc := {}
  ranges : List (Nat × Nat) := []
  /-- Tokens read; and for CR = 1 the row, its columns still to come once its count is read, one more than the previous
  column, the columns left of a run code, and the next DR8 byte. -/
  pos : Nat := 0
  row : Nat := 0
  left : Option Nat := none
  prev : Nat := 0
  run : Nat := 0
  byte : Nat := 0
  finished : Bool := false
  /-- Tokens read that have not entered the stream. -/
  staged : List (Nat × Nat) := []
  /-- The pc of the instruction that issued it. -/
  pc : Nat := 0
  /-- The granule of each source, 0 kB, 1 kC and 2 kD, that was read last: its address and its bytes (R324). -/
  grans : List (Nat × Nat × List Byte) := []
  deriving DecidableEq, Repr

/-- A fault of a session (R448): the fields of its record. -/
structure SesFault where
  code : Nat
  sub : Nat
  index : Nat := 0
  addr : Nat := 0
  asp : Nat := 3
  rd : Bool := false
  wr : Bool := false
  /-- The pc of the instruction that issued the work, and the scope of the access. -/
  pc : Nat
  scope : Nat
  deriving DecidableEq, Repr

/-- What a session has written into an output area, the bytes that wait for their granule to fill (R291, R324), and whether a
write of the area has faulted. -/
structure OutArea where
  done : Nat := 0
  pend : List Byte := []
  bad : Bool := false
  deriving DecidableEq, Repr

/-- A merge session (R283 to R301). -/
structure Session where
  id : Nat
  die : Nat
  net : Nat
  /-- The owner's launch and strip, and the hart that it stands on, or stood on last (R323). -/
  launch : Nat
  strip : Nat
  hart : Nat
  /-- The pc of its MGCFG. -/
  pc : Nat := 0
  /-- The control word and the other fields of the descriptor (R285, R286). -/
  ctl : Nat
  outc : Loc
  outv : Loc
  outr : Loc
  spill : Loc
  /-- The location words of OUTC, OUTV, OUTR and SPILL. -/
  locs : List Nat
  nrows : Nat
  kmax : Nat
  outmax : Nat
  splen : Nat
  /-- The handle tables that the session and its feeds read (R93). -/
  tables : List Nat
  /-- Ranges of memory the areas name (R94). -/
  ranges : List (Nat × Nat)
  /-- Streams that take no further feed or push, as a bit set. -/
  ending : Nat := 0
  /-- The hart that feeds each stream, by launch and strip (R287). -/
  bound : Sparse (Option (Nat × Nat)) := []
  feeds : List Feed := []
  /-- One more than the last coordinate of each stream. -/
  last : Sparse Nat := []
  buf : List MTok := []
  inCount : Nat := 0
  outCount : Nat := 0
  runCount : Nat := 0
  nans : Nat := 0
  flags : Flags := 0
  fcnt : Vector Nat 6 := Vector.replicate 6 0
  spilled : Bool := false
  /-- Runs of the current pass: offset, tokens, pass that wrote it (R294). -/
  runs : List (Nat × Nat × Nat) := []
  pass : Nat := 0
  /-- Bytes of run data in the half that is being written. -/
  halfUsed : Nat := 0
  /-- The selection of top-k mode: results (R292). -/
  sel : List (Nat × Nat) := []
  /-- Emitted tokens that wait for MGPULL (R291). -/
  outq : List (Nat × Nat) := []
  /-- Compressed output: the row in progress, below which every count is written, with its columns and values. -/
  crow : Nat := 0
  ccols : List (Nat × Nat) := []
  /-- The areas OUTC, OUTV and OUTR; the ends in OUTC and OUTV of the emitted tokens that are not written yet; and the row
  counts to come, each with the ends that its tokens need written first (R448). -/
  areas : List OutArea := [{}, {}, {}]
  marks : List (Nat × Nat) := []
  rowq : List (Nat × Nat × Nat) := []
  /-- MGCLOSE or the owner's END has begun (R300, R305). -/
  closing : Bool := false
  /-- Every result has been emitted. -/
  merged : Bool := false
  credited : Bool := false
  held : Bool := false
  frozen : Bool := false
  /-- A fault found and not yet reported (R448), whether the session has failed, and the number of work accepted from then
  on. -/
  fault : Option SesFault := none
  failed : Bool := false
  failNo : Nat := 0
  deriving DecidableEq, Repr

/-- A merge network (R283, R284). -/
structure Net where
  seq : Nat := 0
  sess : Option Session := none
  deriving DecidableEq, Repr

/-- How a walk ended abnormally (R449): OUTC, and CODE, SUB, ADDR and ASP of its record. -/
structure WalkEnd where
  outc : Nat
  code : Nat
  sub : Nat
  addr : Nat := 0
  asp : Nat := 3
  deriving DecidableEq, Repr

/-- A walk in progress (R308 to R314). -/
structure Walk where
  active : Bool := false
  /-- The core and the engine queue entry of its command, and its home engine: die * 4 + stack. -/
  core : Nat := 0
  entry : Nat := 0
  engine : Nat := 0
  /-- The command it carries out, by number. -/
  cmd : Nat := 0
  launch : Nat := 0
  strip : Nat := 0
  /-- The structure region: physical base, length, RD and key slot (R309). -/
  base : Nat := 0
  len : Nat := 0
  rd : Bool := false
  key : Nat := 0
  scope : Nat := 0
  fg : Bool := false
  fpol : Nat := 0
  limit : Nat := 64
  prog : List (BitVec 32) := []
  w : Vector Word 8 := Vector.replicate 8 0
  c : Bool := false
  rpc : Nat := 0
  steps : Nat := 0
  np : Nat := 0
  pay : Vector Word 3 := Vector.replicate 3 0
  executed : Nat := 0
  /-- The walk has met an ending of R449 that is not yet carried out. -/
  ended : Option WalkEnd := none
  /-- The first granule of the result record has been written (R315). -/
  half : Bool := false
  frozen : Bool := false
  deriving DecidableEq, Repr

/-! ## Launches -/

/-- The states of R37 and R398. -/
inductive LState where
  | submitted | waiting | ready | running | released | retired | suspended | faulted | rejected | aborted
  deriving DecidableEq, Repr

/-- Where a strip stands: not yet placed, running on a hart, swapped out (context by number), ended, or lost (R458). -/
inductive StripSt where
  | unplaced
  | onHart (key : Nat)
  | swapped (context : Nat)
  | ended
  | lost
  deriving DecidableEq, Repr

/-- A strip of a launch (R40 to R42, R342). -/
structure Strip where
  st : StripSt := .unplaced
  /-- The time at which it became eligible, and at which it was last placed (R342, R343). -/
  eligible : Nat := 0
  placed : Nat := 0
  deriving DecidableEq, Repr

/-- A launch the hub tracks (R33, R340), by the record it read. -/
structure Launch where
  /-- Address of the record, and the queue it arrived through. -/
  recAddr : Nat
  queue : Nat
  code : Nat
  entry : Nat
  nstrip : Nat
  stksz : Nat
  tmem : Nat
  nrc : Nat
  pw : Nat
  keyid : Nat
  tenant : Nat
  pcls : Nat
  erl : Bool
  gang : Bool
  dcr : Bool
  dcp : Nat
  prio : Nat
  preds : List Nat
  argx : Nat
  stkb : Nat
  /-- The data-placement map: BASE, NPG, WT, WR, SPLIT of each entry (R35). -/
  map : List (Nat × Nat × Nat × Bool × Bool)
  /-- The context of the placing queue or strip (R40, R83). -/
  vmroot : Word
  htbase : Word
  gtbase : Word
  lqmask : Word
  state : LState
  /-- The state a suspended launch held (R398). -/
  before : LState
  nexit : Nat
  /-- The class a re-queue requires (R347): 1 matrix, 2 bandwidth. -/
  needClass : Option Nat := none
  /-- The time at which it entered READY (R342). -/
  readyAt : Nat := 0
  /-- Strips that have been placed and not ended, and those that wait swapped out. -/
  strips : Sparse Strip := []
  /-- Strips placed so far, in ascending STRIPID; strips released so far. -/
  placedCount : Nat := 0
  releasedCount : Nat := 0
  /-- Events of the record of races: those its strips' first instructions synchronise with, and its releases (R43, R328). -/
  syncs : List Nat := []
  rels : List Nat := []
  /-- Program slots 0 to 15: rule words (R318). -/
  slots : Sparse (List (BitVec 32)) := []
  /-- Time at which the launch was last placed (R342). -/
  lastPlaced : Option Nat := none
  /-- Strips per core of a GANG farm as it was placed (R346). -/
  perCore : Nat := 0
  deriving DecidableEq, Repr

/-- A swapped-out context: its save slot and what the opaque sections of the slot hold (R349 to R353). -/
structure Context where
  hart : Hart
  mu : Option MatrixUnit
  die : Nat
  slotNo : Nat
  launch : Nat
  strip : Nat
  /-- Barriers of its core saved with a GANG farm (R273). -/
  bars : List (Nat × Barrier)
  /-- The die class required at resumption where it is not the former one: 1 matrix, 2 bandwidth (R347). -/
  cls : Nat
  /-- The physical base of its slot. -/
  base : Nat
  /-- The slot holds the context; and the strip is swapped out: once it is resumed the slot stays held only while its matrix state
  waits for a unit (R229, R350). -/
  live : Bool := true
  out : Bool := true
  deriving DecidableEq, Repr

/-! ## The hub -/

/-- A record that LAUNCH submitted: its address, the hart and its strip, the strip's launch, and what the record takes from
them (R36, R40, R163); the event of the LAUNCH in the record of races. -/
structure SideRec where
  addr : Nat
  hart : Nat
  strip : Nat
  vmroot : Word
  htbase : Word
  gtbase : Word
  lqmask : Word
  tenant : Nat
  keyid : Nat
  syncs : List Nat
  deriving DecidableEq, Repr

/-- A hub launch queue (R337, R338) with its side buffer (R339). -/
structure LQueue where
  logn : Nat := 0
  qbase : Nat := 0
  en : Bool := false
  qroot : Word := 0
  tenant : Nat := 0
  keyid : Nat := 0
  pmax : Nat := 7
  head : Nat := 0
  qhtb : Word := 0
  qgtb : Word := 0
  qlqm : Word := 0
  /-- Records LAUNCH submitted, oldest first (R163, R339). -/
  side : List SideRec := []
  deriving DecidableEq, Repr

/-- A fault ring (R393). -/
structure FaultRing where
  logn : Nat := 0
  base : Nat := 0
  en : Bool := false
  head : Nat := 0
  tail : Nat := 0
  lost : Nat := 0
  deriving DecidableEq, Repr

/-- A key slot (R378): the keys written and not committed, and the number of the installed key in State.keys. -/
structure KeySlot where
  kd : BitVec 256 := 0
  kt : BitVec 256 := 0
  key : Option Nat := none
  deriving DecidableEq, Repr

/-- Power registers and the governor (R370, R371). -/
structure Power where
  ceil : Nat := 350
  /-- The ceiling in effect: CEIL as it stood at the last window boundary (R372). -/
  ceilNow : Nat := 350
  pw : Nat := 0
  pa : Nat := 0
  g : Nat := 0
  gl : Nat := 0
  thr : Nat := 0
  /-- E in units of 0.25 W times 100 us. -/
  e : Nat := 0
  /-- The fast loop stepped in this interval. -/
  stepped : Bool := false
  /-- The windows of this interval so far, and the sum of their averages. -/
  wins : Nat := 0
  sum : Nat := 0
  /-- Windows since the last write of CEIL, up to 10; and this interval began at least 1 ms after that write (R372). -/
  sinceCeil : Nat := 10
  calm : Bool := true
  deriving DecidableEq, Repr

/-- An action that a register write starts and a device step carries out. -/
inductive Request where
  | suspend (queue rec : Nat)
  | resume (queue rec : Nat)
  | abort (queue rec : Nat)
  | keyCommit (slot : Nat)
  | keyClear (slot : Nat)
  | dieReset (die : Nat)
  deriving DecidableEq, Repr

/-- A message on the links between dies, to the hub or to the host (R354, R355): its class, REQ 1 to SYS 6, the number that
its bytes go by, the ring edges that lie ahead of it, and the direction of a link whose receive buffer it still occupies. -/
structure LinkMsg where
  cls : Nat
  no : Nat
  hops : Nat := 0
  buf : Option Nat := none
  deriving DecidableEq, Repr

/-- A flit as its sender holds it (R354, R357, R453): SEQ, the permits it returns, the messages of its four slots, and, on a
chain-lane module, the bytes of records that it carries. -/
structure Flit where
  seq : BitVec 16
  rets : List Nat := []
  slots : List (Option LinkMsg) := []
  fill : List Byte := []
  deriving DecidableEq, Repr

/-- One direction of a module: its sender and its receiver (R354 to R357, R453). -/
structure LinkDir where
  /-- The sender: SEQ of the next flit, of which the first carries 1 (log entry 42), the flits not acknowledged, oldest first, and
  how many of the youngest of them are to be sent again. -/
  seq : BitVec 16 := 1
  held : List Flit := []
  resend : Nat := 0
  /-- Replays since ACK last advanced. -/
  replays : Nat := 0
  /-- The ACK that the sender has sent last. -/
  told : BitVec 16 := 0
  /-- Flits since REQ and since ENG last had a slot while they could have had one (R356). -/
  reqAge : Nat := 0
  engAge : Nat := 0
  /-- The bytes of chain records that no flit has taken yet (R357). -/
  stream : List Byte := []
  /-- The receiver: the SEQ that it expects, and the bytes of a chain record that has come in part. -/
  expect : BitVec 16 := 1
  rbuf : List Byte := []
  deriving DecidableEq, Repr

/-- One direction of a ring edge, of a hub link, of the Skoah Link or of the chain lanes of an edge (R355, R357, R363): by class,
REQ to SYS, the permits that the sender has spent and those that the receiver has yet to return; and the messages that wait for a
slot. Chain lanes count beat permits, in the first place. -/
structure LinkPool where
  used : Vector Nat 6 := Vector.replicate 6 0
  owed : Vector Nat 6 := Vector.replicate 6 0
  waiting : List LinkMsg := []
  deriving DecidableEq, Repr

/-- A module of a link between dies, to the hub or to the host, with its directions away from the lower end and towards it
(R17, R354, R453 to R456). -/
structure Link where
  up : Bool := true
  out : LinkDir := {}
  back : LinkDir := {}
  /-- A retrain has been forced (R456). -/
  forced : Bool := false
  /-- The Skoah Link runs at 16 lanes (R454). -/
  half : Bool := false
  deriving DecidableEq, Repr

/-- The security controller (R379 to R381). -/
structure Security where
  /-- Images accepted so far: 0 to 3; and whether the ROM has been measured (R379). -/
  stage : Nat := 0
  rom : Bool := false
  /-- Waiting for firmware over the sideband (R460). -/
  recovery : Bool := false
  meas : Vector (BitVec 256) 4 := Vector.replicate 4 0
  /-- The requests that the SPDM connection has answered, in their order (R380). -/
  version : Bool := false
  caps : Bool := false
  algs : Bool := false
  /-- The last response. -/
  response : List Byte := []
  /-- The messages that signatures cover: those of the negotiation, those on certificates, those on measurements. -/
  msgA : List Byte := []
  msgB : List Byte := []
  msgL : List Byte := []
  /-- The last sideband write was answered with an error completion (R460); the answer to the last sideband read (R381). -/
  refused : Bool := false
  reply : Option Word := none
  deriving DecidableEq, Repr

/-- A host access in progress (R324, R364): where it lies, its bytes in all, and those still to be written, or those read so
far; whether it writes, and whether it is the host's own store to its memory. -/
structure HostJob where
  pa : Nat
  len : Nat
  at_ : Nat
  bytes : List Byte
  wr : Bool
  own : Bool
  deriving DecidableEq, Repr

/-- The hub die. -/
structure Hub where
  queues : Sparse LQueue := []
  rings : Sparse FaultRing := []
  /-- REC of launch control (R399) and WDOG (R400). -/
  ctlRec : Nat := 0
  wdog : Nat := 0
  /-- Host window (R365), host port frozen (R397), filter of host lines (R364): line and core. -/
  hbar : Nat := 0
  hen : Bool := false
  hkey : Nat := 0
  hostFrozen : Bool := false
  filter : List (Nat × Nat) := []
  /-- Answer to the last host access: bytes, or none for a completer abort. -/
  hostReply : Option (List Byte) := none
  hostJob : Option HostJob := none
  /-- Standby of each direction of the Skoah Link (R366). -/
  standby : Vector Bool 2 := Vector.replicate 2 false
  power : Power := {}
  keys : Sparse KeySlot := []
  links : Sparse Link := []
  /-- The directions of the links, twice the link's number and 1 for the direction back; and the messages numbered so far. -/
  pools : Sparse LinkPool := []
  msgNo : Nat := 0
  requests : List Request := []
  sec : Security := {}
  deriving DecidableEq, Repr

/-! ## A compute die -/

/-- A region-table entry (R358). -/
structure Region where
  v : Bool := false
  base : Nat := 0
  chmask : Nat := 0
  ilv : Nat := 0
  npg : Nat := 0
  deriving DecidableEq, Repr

/-- A compute die: region table, save-slot pool, tenant bindings, power (R345, R350, R358, R371, R457, R459). -/
structure Die where
  active : Sparse Region := []
  shadow : Sparse Region := []
  ver : BitVec 16 := 0
  poolBase : Nat := 0
  nslot : Nat := 0
  tenants : Sparse Nat := []
  park : Bool := false
  pkd : Bool := false
  /-- An unpark has begun (R375). -/
  unparking : Bool := false
  trn : Bool := false
  cur : Nat := 7
  /-- The state the transition ends in, and a later target (R368). -/
  target : Nat := 7
  latest : Option Nat := none
  fast : Nat := 0
  slow : Nat := 7
  /-- Thermal steps taken, the range of R459 that the temperature is in (1 from 100 °C, 2 from 110 °C), and its own throttle
  (R459). -/
  thermal : Nat := 0
  heat : Nat := 0
  thr : Nat := 0
  /-- The reset word (R457). -/
  busy : Bool := false
  nsv : Nat := 0
  /-- Out of reset (R379). -/
  up : Bool := false
  /-- The content of the die's memory has been lost: every sector holds poison but those listed (R458). -/
  wiped : Bool := false
  /-- CYCLE as it stood when counting last began, and the time at which it began (R169, R374). -/
  cycleOff : Word := 0
  cycleStart : Nat := 0
  deriving DecidableEq, Repr

/-! ## Memory and translation -/

/-- A cached translation entry (R84): ASID unless global, level, the index bits it serves, and the entry. -/
structure TlbEntry where
  asid : Nat
  global : Bool
  level : Nat
  vpn : Nat
  entry : Nat
  deriving DecidableEq, Repr

/-- Who performs an access in the memory model (R322): a strip on its hart, one of its engine commands or merge
sessions by number, the hub, or the host. -/
inductive Agent where
  | strip (launch index : Nat)
  | command (launch index id : Nat)
  | session (launch index id : Nat)
  | hub
  | host
  deriving DecidableEq, Repr

/-- The class of an access in preserved program order (R151, R327). -/
inductive AccClass where
  | scalar | vector | engine | other
  deriving DecidableEq, Repr

/-- One event of the record that race checking reads (R328 to R335): an access to bytes lo to hi - 1, or a
synchronisation. -/
structure Ev where
  agent : Agent
  /-- The core on which the agent is placed (R323). -/
  place : Nat
  cls : AccClass := .other
  rd : Bool := false
  wr : Bool := false
  atomic : Bool := false
  tile : Bool := false
  checked : Bool := false
  reported : Bool := false
  lo : Nat := 0
  hi : Nat := 0
  /-- An acquire, a release, and the scope they name. -/
  acq : Bool := false
  rel : Bool := false
  scope : Nat := 0
  /-- A wait for the vector queue (R327). -/
  vqWait : Bool := false
  /-- A fence: its pred and succ classes (R151). -/
  fence : Option (Nat × Nat) := none
  /-- The place in program order of the unit it belongs to, and the waits of its agent for the vector queue up to it (R327). -/
  po : Nat := 0
  waits : Nat := 0
  /-- An access of a chain stream port: the run and the element or row (R247, R437). -/
  port : Option (Nat × Nat) := none
  /-- An update of an arrival word or an arrival at a barrier, and whether it completed a generation or phase; a read of AWAIT or
  BWAIT, which observes those alone (R328). -/
  advance : Option Bool := none
  /-- The completion of a command, with the handle table it read (R93, R267). -/
  table : Option Nat := none
  /-- The writes this access reads from, and the events this one synchronises with, by number. -/
  rf : List Nat := []
  sync : List Nat := []
  deriving DecidableEq, Repr

/-! ## The package -/

/-- The machine stops for none of the causes the spec gives: each has an effect. -/
inductive Fault where
  /-- Raised by nothing the spec describes; held so that the outcome type is closed. Safe. -/
  | none_
  deriving DecidableEq, Repr

/-- Why a step has no meaning. -/
inductive Refusal where
  /-- Raised by Machine/Dispatch.lean alone, for an instruction that has no meaning yet. Safe: nothing is claimed. -/
  | notModelled (mnemonic : String)
  deriving DecidableEq, Repr

/-- The state of the package. -/
structure State where
  /-- The hart that issues (log entry 1); the others by key die * 512 + core * 8 + slot. -/
  h : Hart := {}
  harts : Sparse Hart := []
  /-- Cores by key die * 64 + core. -/
  cores : Sparse Core := []
  dies : Sparse Die := []
  hub : Hub := {}
  /-- Physical memory by byte (R85): HBM4E, GDDR-7, tile memory, host memory. -/
  mem : List Host.Cell := []
  /-- 32-byte sectors that hold poison (R427); in the memory of a die whose content was lost, those that hold none. -/
  poison : Sparse Bool := []
  /-- The key a sector was last written under: 0 none, n + 1 the key n of State.keys (R377). -/
  sectorKey : Sparse Nat := []
  /-- Every key ever installed: data key and tweak key (R378). Key 0 is the random key of slot 0. -/
  keys : List (BitVec 256 × BitVec 256) := []
  sorrel : Sparse (BitVec 64) := []
  tlb : List TlbEntry := []
  launches : List Launch := []
  contexts : List Context := []
  /-- The record of race checking, newest first, once a checked access exists (R333, R335). -/
  trace : List Ev := []
  /-- Merge networks by key die * 4 + number, and the harts that wait for one on each die, in order (R283). -/
  nets : Sparse Net := []
  netWait : Sparse (List Nat) := []
  /-- The walk whose rule runs, its number, and the others by number (R307, R310). -/
  wk : Walk := {}
  wkNo : Nat := 0
  walks : Sparse Walk := []
  /-- The number that the next command, feed, session or walk takes. -/
  serial : Nat := 0
  input : Input := {}
  turns : List Turn := []
  /-- The model's own clock that free values of time are read at. -/
  time : Nat := 0
  deriving DecidableEq, Repr

/-- The machine right after power-on (R379): nothing booted, every die in reset, no strip placed. -/
def State.reset : State := { hub := { keys := [(0, { key := some 0 })] } }

end Sys2Proof.Machine
end

