-- ==== Sys2Proof/Machine/HubRegs.lean ====
section
/-!
DEFINITION. The registers of the hub window (R85, R337, R350, R358, R365, R371, R378, R393, R397, R399, R400, R457), by
64-bit word. A write sets the fields; where it starts an action that a device step carries out, it leaves a request.
-/
namespace Sys2Proof.Machine

/-- The base of the hub window (R85). -/
def hubBase : Nat := 0x060000000000

/-- A bandwidth die (R14): BD0 and BD1 are 4 and 5. -/
def isBandwidth (die : Nat) : Bool := decide (4 ≤ die)

/-- Bytes of a die's attached memory (R85). -/
def dramBytes (die : Nat) : Nat := if isBandwidth die then 0x3000000000 else 0x600000000

/-- An address lies in the attached memory of a die (R85). -/
def inDram (d pa : Nat) : Bool := pa / 0x10000000000 = d && decide (pa % 0x10000000000 < dramBytes d)

/-- Queue q of the hub. -/
def State.queue (s : State) (q : Nat) : LQueue := Sparse.get {} s.hub.queues q
/-- Fault ring n of the hub. -/
def State.ring (s : State) (n : Nat) : FaultRing := Sparse.get {} s.hub.rings n
/-- Key slot n. -/
def State.keySlot (s : State) (n : Nat) : KeySlot := Sparse.get {} s.hub.keys n
/-- Die d. -/
def State.dieAt (s : State) (d : Nat) : Die := Sparse.get {} s.dies d
/-- The state with queue q changed. -/
def State.updQueue (s : State) (q : Nat) (f : LQueue → LQueue) : State :=
  { s with hub := { s.hub with queues := Sparse.upd {} s.hub.queues q f } }
/-- The state with fault ring n changed. -/
def State.updRing (s : State) (n : Nat) (f : FaultRing → FaultRing) : State :=
  { s with hub := { s.hub with rings := Sparse.upd {} s.hub.rings n f } }
/-- The state with key slot n changed. -/
def State.updKey (s : State) (n : Nat) (f : KeySlot → KeySlot) : State :=
  { s with hub := { s.hub with keys := Sparse.upd {} s.hub.keys n f } }
/-- The state with die d changed. -/
def State.updDie (s : State) (d : Nat) (f : Die → Die) : State := { s with dies := Sparse.upd {} s.dies d f }
/-- The state with a request added. -/
def State.request (s : State) (r : Request) : State :=
  { s with hub := { s.hub with requests := s.hub.requests ++ [r] } }

/-- The entry of a region table that is written as two words (R358). -/
def regionWord (r : Region) (hi : Bool) : Nat :=
  if hi then r.chmask * 2 ^ 32 + r.ilv * 2 ^ 30 + r.npg else ofBool r.v * 2 ^ 63 + r.base

/-- A region-table entry after the write of one of its words (R358). -/
def setRegionWord (r : Region) (hi : Bool) (v : Nat) : Region :=
  if hi then { r with chmask := bits v 32 32, ilv := bits v 30 2, npg := bits v 0 30 }
  else { r with v := bit v 63, base := bits v 14 38 * 2 ^ 14 }

/-! ## Channels (R358, R359) -/

/-- The place of the j-th set bit of a mask among n bits, counted from 0. -/
def nthBit : Nat → Nat → Nat → Nat → Nat
  | 0, at_, _, _ => at_
  | n + 1, at_, mask, j =>
    if mask % 2 = 1 then (if j = 0 then at_ else nthBit n (at_ + 1) (mask / 2) (j - 1)) else nthBit n (at_ + 1) (mask / 2) j

/-- A region-table entry places an address: it is valid, holds the address, and names a channel (R358). -/
def Region.holds (r : Region) (pa : Nat) : Bool :=
  r.v && decide (r.base ≤ pa) && decide (pa < r.base + r.npg * 0x4000) && bits r.chmask 0 32 != 0

/-- The channel of its stack, or of its die's GDDR-7, that an address lies in under a region table (R358). -/
def channelOf (t : Sparse Region) (pa : Nat) : Nat :=
  match t.find? fun e => e.1 < 16 && e.2.holds pa with
  | some (_, r) => nthBit 32 0 r.chmask ((pa - r.base) / (256 * 4 ^ r.ilv) % popCount 32 r.chmask)
  | none => pa / 256 % 32

/-- The active region table of a die replaced: an address that comes to lie in another channel loses what it held, and reads as
memory that nothing has written (R358, R359; log entry 4). -/
def State.placeRegions (s : State) (d : Nat) (t : Sparse Region) : State :=
  let old := (s.dieAt d).active
  let stays := fun (pa : Nat) => !inDram d pa || channelOf old pa = channelOf t pa
  { s.updDie d fun x => { x with active := t } with
    mem := s.mem.filter fun c => stays c.1
    sectorKey := s.sectorKey.filter fun c => stays (32 * c.1)
    poison := s.poison.filter fun c => stays (32 * c.1) }

/-- CYCLE of a die (R169, R374; log entry 6). -/
def State.cycle (s : State) (d : Nat) : Word :=
  let x := s.dieAt d
  if x.pkd then x.cycleOff else x.cycleOff + (Config.cycles d s.time - Config.cycles d x.cycleStart)

/-- A 256-bit key with one of its words replaced. -/
def setKeyWord (k : BitVec 256) (i v : Nat) : BitVec 256 := BitVec.ofNat 256 (setBits k.toNat (64 * i) 64 v)

/-- The word of power registers at offset 0x08 (R371). -/
def powerStatus (p : Power) : Nat :=
  bits p.pw 0 16 * 2 ^ 32 + bits p.pa 0 16 * 2 ^ 16 + p.thr * 2 ^ 8 + p.gl * 2 ^ 4 + p.g

/-- The power word of a die (R371). -/
def dieWord (d : Die) : Nat :=
  ofBool d.park * 2 ^ 63 + ofBool d.pkd * 2 ^ 62 + ofBool d.trn * 2 ^ 61 + d.cur * 2 ^ 8 + d.slow * 2 ^ 4 + d.fast

/-- CEIL as a write sets it (R371). -/
def clampCeil (v : Nat) : Nat := if v < 350 then 350 else if 1100 < v then 1100 else v

/-! ## P-states (R368, R369, R459) -/

/-- The launches of the strips that stand on a die. -/
def State.launchesOn (s : State) (d : Nat) : List Launch :=
  ((s.h :: s.harts.map (·.2)).filter fun h => h.launch.isSome && h.die = d).filterMap fun h =>
    h.launch.bind fun l => s.launches[l]?

/-- The P-state that a power class requests (R369). -/
def pclsState : Nat → Nat
  | 1 => 4
  | 3 => 7
  | _ => 0

/-- REQ(d): the fastest state requested, P7 where no strip stands on the die (R369). -/
def State.dieReq (s : State) (d : Nat) : Nat := (s.launchesOn d).foldl (fun m x => min m (pclsState x.pcls)) 7

/-- The state that a die is to run at (R369), slowed by its thermal steps (R459). -/
def State.dieState (s : State) (d : Nat) : Nat :=
  let x := s.dieAt d
  let base := min (max (s.dieReq d) x.fast) x.slow
  min 7 (max base (if (s.launchesOn d).any fun l => l.pcls == 2 then s.hub.power.gl else s.hub.power.g) + x.thermal)

/-- A die turns to the state it is to run at: a transition starts, or the latest target is kept (R368). -/
def Die.turnTo (x : Die) (p : Nat) : Die :=
  if x.trn then { x with latest := if p = x.target then none else some p }
  else if p = x.cur then x
  else { x with trn := true, target := p }

/-- The target of a die taken anew; a die in reset has none (R368, R369). -/
def State.retarget (s : State) (d : Nat) : State :=
  if (s.dieAt d).up then s.updDie d fun x => x.turnTo (s.dieState d) else s

/-- The requests to leave that the parking of a die has made are withdrawn (R375). -/
def State.unaskParked (s : State) (d : Nat) : State :=
  let f := fun (h : Hart) => if h.forPark = some d then { h with preempt := false, forPark := none } else h
  { s with h := f s.h, harts := s.harts.map fun p => (p.1, f p.2) }

/-- The write of a die's power word (R371): PARK = 0 on a parked die begins its unpark, and abandons at once a parking that has
not ended (R375). -/
def writeDieWord (s : State) (d v : Nat) : State :=
  let t := if bit v 63 || (s.dieAt d).pkd then s else s.unaskParked d
  (t.updDie d fun x =>
    { x with
      park := bit v 63, slow := bits v 4 3, fast := bits v 0 3, unparking := x.unparking || (x.pkd && !bit v 63) }).retarget d

/-- The word at offset off of the hub window: reserved and unused words read zero (R8, R85). -/
def hubRead (s : State) (off : Nat) : Nat :=
  if off < 0x1000 then
    let q := s.queue (off / 0x40)
    match off % 0x40 / 8 with
    | 0 => q.logn * 2 ^ 60 + q.qbase + ofBool q.en
    | 1 => q.qroot.toNat
    | 2 => q.tenant * 2 ^ 32 + q.keyid * 2 ^ 24 + q.pmax
    | 3 => q.head
    | 4 => q.qhtb.toNat
    | 5 => q.qgtb.toNat
    | 6 => q.qlqm.toNat
    | _ => 0
  else if 0x10000 ≤ off ∧ off < 0x10060 then
    let d := s.dieAt ((off - 0x10000) / 0x10)
    if off % 0x10 = 0 then d.poolBase else d.nslot
  else if 0x20000 ≤ off ∧ off < 0x21800 then
    let d := s.dieAt ((off - 0x20000) / 0x400)
    let o := (off - 0x20000) % 0x400
    if o < 0x100 then regionWord (Sparse.get {} d.active (o / 16)) (o % 16 = 8)
    else if 0x200 ≤ o ∧ o < 0x300 then regionWord (Sparse.get {} d.shadow ((o - 0x200) / 16)) (o % 16 = 8)
    else if o = 0x3F8 then d.ver.toNat * 2 ^ 16
    else 0
  else if 0x30000 ≤ off ∧ off < 0x30600 then
    let d := s.dieAt ((off - 0x30000) / 0x100)
    let c := (off - 0x30000) % 0x100 / 2
    if c < 64 then
      (List.range 4).foldr (fun i r => Sparse.get 0xFFFF d.tenants (c + i) + 2 ^ 16 * r) 0
    else 0
  else if off = 0x40000 then s.hub.power.ceil
  else if off = 0x40008 then powerStatus s.hub.power
  else if 0x40040 ≤ off ∧ off < 0x400A0 ∧ off % 0x10 = 0 then dieWord (s.dieAt ((off - 0x40040) / 0x10))
  else if 0x50000 ≤ off ∧ off < 0x52000 ∧ off % 0x80 = 0x40 then
    ofBool (s.keySlot ((off - 0x50000) / 0x80)).key.isSome * 2 ^ 63
  else if 0x60000 ≤ off ∧ off < 0x60820 then
    let r := s.ring ((off - 0x60000) / 0x20)
    match off % 0x20 / 8 with
    | 0 => r.logn * 2 ^ 60 + r.base + ofBool r.en
    | 1 => r.head
    | 2 => r.tail
    | _ => r.lost
  else if off = 0x70000 then s.hub.hbar * 2 ^ 44 + ofBool s.hub.hen * 2 ^ 6 + s.hub.hkey
  else if off = 0x80000 then s.hub.ctlRec
  else if off = 0x80010 then s.hub.wdog
  else if 0x80040 ≤ off ∧ off < 0x80070 then
    let d := s.dieAt ((off - 0x80040) / 8)
    ofBool d.busy * 2 ^ 62 + d.nsv * 2 ^ 61
  else 0

/-- The write of a queue's first word (R337): a change of LOGN, QBASE or EN sets HEAD to 0. -/
def writeQueueConfig (s : State) (q v : Nat) : State :=
  s.updQueue q fun x =>
    let y := { x with logn := bits v 60 4, qbase := bits v 6 46 * 64, en := bit v 0 }
    if x.logn = y.logn ∧ x.qbase = y.qbase ∧ x.en = y.en then y else { y with head := 0 }

/-- The write of a fault ring's first word (R393): a change of LOGN, BASE or EN sets HEAD and TAIL to 0. -/
def writeRingConfig (s : State) (n v : Nat) : State :=
  s.updRing n fun x =>
    let y := { x with logn := bits v 60 4, base := bits v 6 46 * 64, en := bit v 0 }
    if x.logn = y.logn ∧ x.base = y.base ∧ x.en = y.en then y else { y with head := 0, tail := 0 }

/-- The commit of a die's region table (R359). -/
def commitRegions (s : State) (d : Nat) : State :=
  (s.placeRegions d (s.dieAt d).shadow).updDie d fun x => { x with ver := x.ver + 1 }

/-- The write of CEIL (R371, R372). -/
def writeCeil (s : State) (v : Nat) : State :=
  { s with hub := { s.hub with power := { s.hub.power with ceil := clampCeil (bits v 0 11), sinceCeil := 0, calm := false } } }

/-- The write of HUNF (R397). -/
def unfreezeHost (s : State) : State := { s with hub := { s.hub with hostFrozen := false } }

/-- The write of a word of a queue other than its first (R337). -/
def writeQueueWord (s : State) (q i v : Nat) : State :=
  s.updQueue q fun x =>
    match i with
    | 1 => { x with qroot := BitVec.ofNat 64 (v / 2 ^ 14 * 2 ^ 14) }
    | 2 => { x with tenant := bits v 32 16, keyid := bits v 24 6, pmax := bits v 0 3 }
    | 4 => { x with qhtb := BitVec.ofNat 64 (bits v 60 4 * 2 ^ 60 + bits v 6 46 * 64) }
    | 5 => { x with qgtb := BitVec.ofNat 64 (v / 16 * 16) }
    | 6 => { x with qlqm := BitVec.ofNat 64 v }
    | _ => x

/-- The write of the word at offset off of the hub window; reserved and unused words ignore it (R8, R85). -/
def hubWrite (s : State) (off v : Nat) : State :=
  if off < 0x1000 then
    if off % 0x40 = 0 then writeQueueConfig s (off / 0x40) v else writeQueueWord s (off / 0x40) (off % 0x40 / 8) v
  else if 0x10000 ≤ off ∧ off < 0x10060 then
    s.updDie ((off - 0x10000) / 0x10) fun d =>
      if off % 0x10 = 0 then { d with poolBase := bits v 22 30 * 2 ^ 22 } else { d with nslot := bits v 0 32 }
  else if 0x20000 ≤ off ∧ off < 0x21800 then
    let k := (off - 0x20000) / 0x400
    let o := (off - 0x20000) % 0x400
    if o < 0x100 then
      s.placeRegions k (Sparse.upd {} (s.dieAt k).active (o / 16) fun r => setRegionWord r (o % 16 = 8) v)
    else if 0x200 ≤ o ∧ o < 0x300 then
      s.updDie k fun d =>
        { d with shadow := Sparse.upd {} d.shadow ((o - 0x200) / 16) fun r => setRegionWord r (o % 16 = 8) v }
    else if o = 0x3F8 ∧ bit v 0 then commitRegions s k
    else s
  else if 0x30000 ≤ off ∧ off < 0x30600 then
    let c := (off - 0x30000) % 0x100 / 2
    if c < 64 then
      s.updDie ((off - 0x30000) / 0x100) fun d =>
        { d with tenants := (List.range 4).foldl (fun t i => Sparse.set 0xFFFF t (c + i) (bits v (16 * i) 16)) d.tenants }
    else s
  else if off = 0x40000 then writeCeil s v
  else if 0x40040 ≤ off ∧ off < 0x400A0 ∧ off % 0x10 = 0 then writeDieWord s ((off - 0x40040) / 0x10) v
  else if 0x50000 ≤ off ∧ off < 0x52000 then
    let n := (off - 0x50000) / 0x80
    let o := (off - 0x50000) % 0x80
    if o < 0x20 then s.updKey n fun k => { k with kd := setKeyWord k.kd (o / 8) v }
    else if o < 0x40 then s.updKey n fun k => { k with kt := setKeyWord k.kt ((o - 0x20) / 8) v }
    else if o = 0x40 then
      if bit v 1 then s.request (.keyClear n) else if bit v 0 then s.request (.keyCommit n) else s
    else s
  else if 0x60000 ≤ off ∧ off < 0x60820 then
    let n := (off - 0x60000) / 0x20
    match off % 0x20 / 8 with
    | 0 => writeRingConfig s n v
    | 2 => s.updRing n fun r => { r with tail := bits v 0 32 }
    | 3 => s.updRing n fun r => { r with lost := bits v 0 32 }
    | _ => s
  else if off = 0x70000 then
    { s with hub := { s.hub with hbar := bits v 44 20, hen := bit v 6, hkey := bits v 0 6 } }
  else if off = 0x70008 then (if bit v 0 then unfreezeHost s else s)
  else if off = 0x80000 then { s with hub := { s.hub with ctlRec := bits v 0 57 } }
  else if off = 0x80008 then
    match bits v 62 2 with
    | 1 => s.request (.suspend (bits v 0 6) s.hub.ctlRec)
    | 2 => s.request (.resume (bits v 0 6) s.hub.ctlRec)
    | 3 => s.request (.abort (bits v 0 6) s.hub.ctlRec)
    | _ => s
  else if off = 0x80010 then { s with hub := { s.hub with wdog := bits v 0 16 } }
  else if 0x80040 ≤ off ∧ off < 0x80070 then
    let d := (off - 0x80040) / 8
    let s := s.updDie d fun x => { x with nsv := bits v 61 1 }
    if bit v 63 then s.request (.dieReset d) else s
  else s

end Sys2Proof.Machine
end

