-- ==== Sys2Proof/Machine/Race.lean ====
section
/-!
DEFINITION. Happens-before and race detection (R322, R323, R327 to R335). An event's number is its place in the record,
the oldest being 0; every edge of happens-before goes from a lower number to a higher one.
-/
namespace Sys2Proof.Machine

/-- The strip an agent is or acts for (R323). -/
def Agent.owner : Agent → Option (Nat × Nat)
  | .strip l i | .command l i _ | .session l i _ => some (l, i)
  | _ => none

/-- Two agents are one hart, or a hart and a command or session of its own (R323). -/
def sameHart (a b : Agent) : Bool :=
  a.owner.isSome && a.owner = b.owner
    && (a = b || (match a, b with | .strip _ _, _ => true | _, .strip _ _ => true | _, _ => false))

/-- Whether two agents at their places share a scope; each scope includes every narrower one (R323). -/
def sharesScope (a : Agent) (pa : Nat) (b : Agent) (pb scope : Nat) : Bool :=
  let dies := a.owner.isSome && b.owner.isSome
  decide (5 ≤ scope) || (decide (scope = 4) && a != .host && b != .host) || sameHart a b
    || (dies && match scope with
      | 0 => false
      | 1 => pa = pb
      | 2 => pa / 4 = pb / 4
      | _ => pa / 64 = pb / 64)

/-- Two events touch a common byte (R331). -/
def Ev.overlap (a b : Ev) : Bool := a.lo < b.hi && b.lo < a.hi

/-- An event that accesses memory. -/
def Ev.access (e : Ev) : Bool := e.rd || e.wr

/-- An event belongs to a set of the access classes of R151: a vector read-modify-write is a vector store (R206), and the class
engine is that of a command's acceptance. -/
def Ev.inClasses (e : Ev) (m : Nat) : Bool :=
  match e.cls with
  | .scalar => (e.rd && bit m 0) || (e.wr && bit m 1)
  | .vector => (e.rd && !e.wr && bit m 2) || (e.wr && bit m 3)
  | .engine => bit m 4
  | .other => false

/-- A load port and a store port of one run at different elements, which nothing orders (R247, R437). -/
def Ev.crosses (a b : Ev) : Bool :=
  match a.port, b.port with
  | some (r, g), some (q, k) => r = q && g != k && a.wr != b.wr
  | _, _ => false

/-- Preserved program order between two events of one agent, the first earlier in the record (R327): a FENCE is ordered with
accesses of its classes alone. The events of a command, of a session and of the host follow one another, and the hub's are ordered
by what they name alone (log entry 9). -/
def ppo (a b : Ev) : Bool :=
  a.agent = b.agent && decide (a.po ≤ b.po) &&
    match a.fence, b.fence with
    | some _, some _ => false
    | some (_, q), none => b.inClasses q
    | none, some (p, _) => a.inClasses p
    | none, none =>
      (a.cls = .scalar && b.cls = .scalar && a.overlap b)
        || (((a.cls = .vector && b.cls = .vector) || (a.tile && b.tile)) && a.overlap b && !a.crosses b)
        || a.acq || b.rel
        || (a.cls = .vector && a.access && decide (a.waits < b.waits))
        || (match a.agent with | .strip _ _ | .hub => false | _ => true)

/-- The events from which event b is reached by happens-before, each with its number, walking from newest to oldest;
reached holds the newer ones (R329). -/
def reachBack : List Ev → List (Nat × Ev) → List (Nat × Ev)
  | [], reached => reached
  | e :: older, reached =>
    let k := older.length
    if reached.any fun r => ppo e r.2 || r.2.sync.contains k then reachBack older ((k, e) :: reached)
    else reachBack older reached

/-- The synchronisation events an event counts as; a command has two alone, its acceptance and its completion (R335). -/
def Ev.syncCount (e : Ev) : Nat :=
  match e.fence, e.agent with
  | some (p, q), _ => if p ≠ 0 ∧ q ≠ 0 then 1 else 0
  | none, .command _ _ _ => if (e.acq || e.rel) && !e.access then 1 else 0
  | none, _ => if e.acq || e.rel then 1 else 0

/-- Synchronisation events of an agent among the newer events. -/
def syncsOf (a : Agent) (es : List Ev) : Nat :=
  es.foldl (fun n e => if e.agent = a then n + e.syncCount else n) 0

/-- Two accesses conflict (R331). -/
def conflict (a b : Ev) : Bool :=
  a.access && b.access && a.overlap b && (a.wr || b.wr) && !(a.atomic && b.atomic)

/-- The races detected at access b, walking the record from its newest event: the number of the earlier access and the
lowest byte in conflict (R335). newer holds the events already passed. -/
def racesAt (b : Ev) (reached : List (Nat × Ev)) : List Ev → List Ev → List (Nat × Nat × Ev)
  | [], _ => []
  | a :: older, newer =>
    let k := older.length
    let rest := racesAt b reached older (a :: newer)
    if a.checked && !a.reported && conflict a b && !(reached.any fun r => r.1 = k)
        && (decide (syncsOf a.agent newer < 2 ^ 16) || Config.lateRace k) then
      (k, max a.lo b.lo, a) :: rest
    else rest

/-! ## Synchronises-with -/

/-- The writes that an access reads from: for each of its bytes, the newest write (R325). -/
def readsFrom (es : List Ev) (lo hi : Nat) : List Nat :=
  match es with
  | [] => []
  | e :: older =>
    if lo < hi ∧ e.wr ∧ e.lo < hi ∧ lo < e.hi then
      older.length :: (readsFrom older lo (min hi e.lo) ++ readsFrom older (max lo e.hi) hi)
    else readsFrom older lo hi

/-- An earlier event and a later one share the scope of each (R328). -/
def Ev.shares (a b : Ev) : Bool :=
  sharesScope a.agent a.place b.agent b.place a.scope && sharesScope a.agent a.place b.agent b.place b.scope

/-- Two pieces lie in one coherence order, that of their granule (R325); a Sorrel register has its own (R278). -/
def Ev.coheres (a b : Ev) : Bool := a.lo / 16 = b.lo / 16 && (a.cls != .other || a.lo = b.lo)

/-- A write is one that the reads of the writes seen observe: it is read from, or a read-modify-write later in coherence order is
(R328). -/
def Ev.observed (r : Ev) (k : Nat) (seen : List (Ev × Nat)) : Bool :=
  r.wr && seen.any fun w => w.2 = k || (w.1.rd && w.1.wr && decide (k < w.2) && r.coheres w.1)

/-- An acquire touches the GEN word of an update of an arrival word, or the phase of an arrival at a barrier (R267, R328). -/
def Ev.seesGen (b r : Ev) : Bool := decide (b.lo < r.hi) && decide (r.lo + (r.hi - r.lo) / 2 < b.hi)

/-- The releases an acquire synchronises with (R328): those whose value it reads, or that of a read-modify-write later in
coherence order; and the updates of an arrival word and the arrivals at a barrier whose generation or phase is complete, which
alone AWAIT and BWAIT observe. -/
def releasesSeen (es : List Ev) (b : Ev) (ws : List Nat) : List Nat :=
  let rs := es.reverse.zipIdx
  let seen := rs.filter fun w => ws.contains w.2
  (rs.filter fun r => r.1.rel && r.1.fence.isNone && r.1.shares b && match r.1.advance with
    | none => b.advance.isNone && r.1.observed r.2 seen
    | some _ => b.seesGen r.1 && rs.any fun j => decide (r.2 ≤ j.2) && j.1.advance = some true && j.1.lo = r.1.lo).map (·.2)

/-- The fences an acquiring fence synchronises with: a write behind one of them was observed by a read before it (R328). -/
def fencesSeen (es : List Ev) (b : Ev) : List Nat :=
  let reads := es.filter fun e => e.agent = b.agent && e.rd && decide (e.po ≤ b.po)
  let ws := (reads.map (·.rf)).flatten
  let rs := es.reverse.zipIdx
  let seen := rs.filter fun w => ws.contains w.2
  (rs.filter fun f =>
    f.1.fence.isSome && f.1.shares b && rs.any fun w =>
      decide (f.2 < w.2) && w.1.agent = f.1.agent && decide (f.1.po ≤ w.1.po) && w.1.observed w.2 seen).map (·.2)

/-- The writes of an agent that a read of bytes returns, by number (R325). -/
def writesOf (es : List Ev) (a : Agent) (lo hi : Nat) : List Nat :=
  (readsFrom es lo hi).filter fun k => (es.reverse[k]?).any fun w => w.agent = a

/-- The completions of commands that read the handle table at a base, which HTSYNC observes (R93, R267, R328). -/
def completionsOf (es : List Ev) (b : Ev) (base : Nat) : List Nat :=
  (es.reverse.zipIdx.filter fun e =>
    e.1.table = some base && sharesScope e.1.agent e.1.place b.agent b.place e.1.scope).map (·.2)

/-- An event as the record would hold it: what it reads from, what it synchronises with, and the waits of its agent (R325,
R327, R328). -/
def State.seal (s : State) (e : Ev) : Ev :=
  let es := s.trace
  let rf := if e.rd then readsFrom es e.lo e.hi else []
  let waits := (match es.find? fun x => x.agent = e.agent with | some x => x.waits | none => 0) + ofBool e.vqWait
  let sync :=
    (if e.acq && e.fence.isNone && e.rd then releasesSeen es e rf else [])
      ++ (if e.fence.isSome then fencesSeen es e else [])
  { e with rf := rf, waits := waits, sync := e.sync ++ sync }

/-- The race an access meets, if it is checked: the number of the earlier access, the lowest byte of the access that
conflicts, and SUB (R335, R430). -/
def raceOf (s : State) (b : Ev) : Option (Nat × Nat × Nat) :=
  if !b.checked then none
  else
    let reached := reachBack s.trace [(s.trace.length, s.seal b)]
    match racesAt b reached s.trace [] with
    | [] => none
    | r :: rs =>
      let best := rs.foldl (fun m x => if x.2.1 < m.2.1 then x else m) r
      some (best.1, best.2.1, if best.2.2.wr then (if b.wr then 1 else 2) else 3)

/-- The record with an event added; kept only once a checked access exists (R333). -/
def State.record (s : State) (e : Ev) : State :=
  if s.trace = [] && !e.checked then s else { s with trace := s.seal e :: s.trace }

/-- The earlier access of a reported race is never detected again (R430). -/
def State.markReported (s : State) (k : Nat) : State :=
  let n := s.trace.length
  { s with trace := s.trace.modify (n - 1 - k) fun e => { e with reported := true } }

end Sys2Proof.Machine
end

