-- ==== Sys2Proof/Machine/Mem.lean ====
section
/-!
DEFINITION. Physical memory (R85, R376, R377, R425, R427): homes, key slots, poison, and the fault rings (R392, R393).
-/
namespace Sys2Proof.Machine

/-- What holds a physical address (R85). -/
inductive Home where
  | dram (die : Nat)
  | tile (die core : Nat)
  | hub
  | sorrel
  | host
  | unmapped
  deriving DecidableEq, Repr

/-- Cores of a die (R14). -/
def coreCount (die : Nat) : Nat := if isBandwidth die then 64 else 48

/-- Bytes of a core's tile memory (R94). -/
def tileBytes (die : Nat) : Nat := if isBandwidth die then 0x200000 else 0x100000

/-- The physical base of a core's tile memory (R85). -/
def tileBase (die core : Nat) : Nat := die * 0x10000000000 + 0xF000000000 + core * 0x200000

/-- The base of the Sorrel aperture (R276). -/
def sorrelBase : Nat := 0x06F000000000

/-- The home of a physical address (R85, R276). -/
def homeOf (pa : Nat) : Home :=
  if 0x8000000000000 ≤ pa then (if pa < 0x10000000000000 then .host else .unmapped)
  else
    let d := pa / 0x10000000000
    let o := pa % 0x10000000000
    if d < 6 then
      if o < dramBytes d then .dram d
      else if 0xF000000000 ≤ o then
        let c := (o - 0xF000000000) / 0x200000
        if c < coreCount d ∧ (o - 0xF000000000) % 0x200000 < tileBytes d then .tile d c else .unmapped
      else .unmapped
    else if d = 6 then (if sorrelBase ≤ pa ∧ pa < sorrelBase + 0x800000 then .sorrel else .hub)
    else .unmapped

/-- Homes whose bytes are encrypted under a key slot (R376, R377). R376 gives accesses to host memory a slot and R377 speaks of DRAM
data: the model encrypts host memory as it does DRAM (DESIGN CHOICE: log entry 13). -/
def Home.encrypted : Home → Bool
  | .dram _ => true
  | .host => true
  | _ => false

/-- Why a physical access cannot be performed. -/
inductive PFault where
  | unmapped | sorrel | key | poison
  deriving DecidableEq, Repr

/-- The byte at a physical address as stored. -/
def State.byteAt (s : State) (pa : Nat) : Byte := Sparse.get 0#8 s.mem pa

/-- The state with the byte at a physical address replaced. -/
def State.setByte (s : State) (pa : Nat) (b : Byte) : State := { s with mem := Sparse.set 0#8 s.mem pa b }

/-- The state with consecutive bytes replaced. -/
def State.setBytes (s : State) : Nat → List Byte → State
  | _, [] => s
  | pa, b :: bs => State.setBytes (s.setByte pa b) (pa + 1) bs

/-- Consecutive bytes as stored. -/
def State.bytesAt (s : State) (pa : Nat) : Nat → List Byte
  | 0 => []
  | n + 1 => s.byteAt pa :: s.bytesAt (pa + 1) n

/-- The key pair with a number (R378). -/
def State.keyPair (s : State) (n : Nat) : BitVec 256 × BitVec 256 :=
  if n = 0 then Config.slot0Key else s.keys.getD (n - 1) (0, 0)

/-- The tag of the key installed in a slot: 0 where the slot holds none (R378). -/
def State.slotTag (s : State) (slot : Nat) : Nat :=
  match (s.keySlot slot).key with
  | none => 0
  | some k => k + 1

/-- The tag of a sector that the host has written: it holds what lies in memory, and no key's plaintext (R364, R376). -/
def rawTag : Nat := 2 ^ 64

/-- A sector's bytes as they read under a key tag (R377); a sector never written reads the same under every key. -/
def State.sectorUnder (s : State) (sector tag : Nat) : List Byte :=
  let w := Sparse.get 0 s.sectorKey sector
  let bs := s.bytesAt (32 * sector) 32
  if w = 0 ∨ w = tag then bs
  else if w = rawTag then decipher (s.keyPair (tag - 1)) sector bs
  else rekey (s.keyPair (w - 1)) (s.keyPair (tag - 1)) sector bs

/-- A sector's bytes as they lie in memory, which is what the host sees of its own (R364, R376, R377). -/
def State.sectorRaw (s : State) (sector : Nat) : List Byte :=
  let w := Sparse.get 0 s.sectorKey sector
  let bs := s.bytesAt (32 * sector) 32
  if w = 0 ∨ w = rawTag then bs else encipher (s.keyPair (w - 1)) sector bs

/-- The number of the Skoah Link among the links of the hub. -/
def skoahLink : Nat := 100

/-- A link is up (R455). -/
def State.linkUp (s : State) (l : Nat) : Bool := (Sparse.get {} s.hub.links l).up

/-- Whether a sector holds poison where it is not listed: its die's memory has lost its content (R458). -/
def State.wipedAt (s : State) (pa : Nat) : Bool :=
  match homeOf pa with
  | .dram d => (s.dieAt d).wiped
  | _ => false

/-- Whether a sector holds poison; host memory reads as poison while the Skoah Link is down (R427, R455, R458). -/
def State.poisoned (s : State) (pa : Nat) : Bool :=
  (Sparse.get false s.poison (pa / 32) != s.wipedAt pa) || (decide (homeOf pa = .host) && !s.linkUp skoahLink)

/-- A sector is made to hold poison or none (R427). -/
def State.setPoisonAt (s : State) (sector : Nat) (b : Bool) : State :=
  { s with poison := Sparse.set false s.poison sector (b != s.wipedAt (32 * sector)) }

/-- No sector of the package holds poison. -/
def State.clean (s : State) : Bool := s.poison.isEmpty && !s.dies.any fun d => d.2.wiped

/-- Whether any byte of a range lies in a poisoned sector. -/
def State.rangePoisoned (s : State) (pa n : Nat) : Bool :=
  decide (0 < n) && ((List.range ((pa + n - 1) / 32 - pa / 32 + 1)).any fun i => s.poisoned (32 * (pa / 32 + i)))

/-- A byte as an access under a key slot reads it: hub registers by word, encrypted memory by sector. -/
def State.readByte (s : State) (slot pa : Nat) : Byte :=
  match homeOf pa with
  | .hub => BitVec.ofNat 8 (bits (hubRead s ((pa - hubBase) / 8 * 8)) (8 * (pa % 8)) 8)
  | .dram _ | .host =>
    let w := Sparse.get 0 s.sectorKey (pa / 32)
    if w = 0 ∨ w = s.slotTag slot then s.byteAt pa
    else (s.sectorUnder (pa / 32) (s.slotTag slot)).getD (pa % 32) 0
  | _ => s.byteAt pa

/-- n bytes as an access under a key slot reads them. -/
def State.readBytes (s : State) (slot pa : Nat) : Nat → List Byte
  | 0 => []
  | n + 1 => s.readByte slot pa :: s.readBytes slot (pa + 1) n

/-- Whether an access to a physical address under a key slot can be made: mapped, not the Sorrel aperture, and the slot
holds a key where the home is encrypted (R85, R276, R378). The tile memory of a parked die is reached as before; R24 and R373
do not say (DESIGN CHOICE: log entry 46). -/
def State.reach (s : State) (slot pa : Nat) : Option PFault :=
  match homeOf pa with
  | .unmapped => some .unmapped
  | .sorrel => some .sorrel
  | h => if h.encrypted && (s.keySlot slot).key.isNone then some .key else none

/-- The first fault of a range, address by address of its 16-byte granules. -/
def State.reachRange (s : State) (slot pa n : Nat) : Option PFault :=
  if n = 0 then none
  else (List.range ((pa + n - 1) / 16 - pa / 16 + 1)).findSome? fun i => s.reach slot (max pa (16 * (pa / 16 + i)))

/-- A physical read of n bytes (R425): the fault that stops it, or the bytes. -/
def State.readPhys (s : State) (slot pa n : Nat) : Except PFault (List Byte) :=
  match s.reachRange slot pa n with
  | some f => .error f
  | none => if s.rangePoisoned pa n then .error .poison else .ok (s.readBytes slot pa n)

/-- A sector made to hold its bytes under a slot's key, as a write under that slot does first (R377). -/
def State.adoptSector (s : State) (slot sector : Nat) : State :=
  let tag := s.slotTag slot
  if Sparse.get 0 s.sectorKey sector = tag then s
  else
    let bs := s.sectorUnder sector tag
    { s.setBytes (32 * sector) bs with sectorKey := Sparse.set 0 s.sectorKey sector tag }

/-- The write of one byte under a key slot, by what holds it. -/
def State.writeByte (s : State) (slot pa : Nat) (b : Byte) : State :=
  match homeOf pa with
  | .dram _ => (s.adoptSector slot (pa / 32)).setByte pa b
  | .host => if s.linkUp skoahLink then (s.adoptSector slot (pa / 32)).setByte pa b else s
  | .tile _ _ => s.setByte pa b
  | _ => s

/-- The write of bytes into the hub window: each 64-bit word touched is written once, its other bytes as they read, so that
those of a WO key word become 0; the spec gives no narrower write (DESIGN CHOICE: log entry 46). -/
def State.writeHub (s : State) (pa : Nat) (bs : List Byte) : State :=
  let first := (pa - hubBase) / 8
  let n := ceilDiv (pa % 8 + bs.length) 8
  (List.range n).foldl
    (fun t i =>
      let off := 8 * (first + i)
      let v := (List.range 8).foldl
        (fun v j =>
          let a := hubBase + off + j
          if pa ≤ a ∧ a < pa + bs.length then setBits v (8 * j) 8 (bs.getD (a - pa) 0).toNat else v)
        (hubRead t off)
      hubWrite t off v) s

/-- The write of consecutive bytes under a key slot; poison stays (R427). -/
def State.writeBytes (s : State) (slot : Nat) : Nat → List Byte → State
  | _, [] => s
  | pa, b :: bs => State.writeBytes (s.writeByte slot pa b) slot (pa + 1) bs

/-- The poison of every sector that a set of written addresses covers whole is cleared (R427). -/
def State.clearPoison (s : State) (addrs : List Nat) : State :=
  if s.clean then s
  else
    (((addrs.map (· / 32)).eraseDups).filter fun k => (List.range 32).all fun i => addrs.contains (32 * k + i)).foldl
      (fun s k => s.setPoisonAt k false) s

/-- The poison of every sector inside a range is cleared (R427). -/
def State.clearPoisonRange (s : State) (pa n : Nat) : State :=
  if s.clean then s
  else (List.range ((pa + n) / 32 - ceilDiv pa 32)).foldl (fun s i => s.setPoisonAt (ceilDiv pa 32 + i) false) s

/-- The words of a fault record (R392). -/
def FaultRec.words (r : FaultRec) : List Nat :=
  [ 0x01 * 2 ^ 56 + ofBool r.pre * 2 ^ 55 + ofBool r.frz * 2 ^ 54 + ofBool r.ovf * 2 ^ 53 + bits r.master 0 4 * 2 ^ 48
      + bits r.sub 0 8 * 2 ^ 8 + bits r.code 0 8,
    bits r.strip 0 32 * 2 ^ 32 + bits r.entry 0 8 * 2 ^ 16 + bits r.die 0 3 * 2 ^ 12 + bits r.core 0 6 * 2 ^ 6
      + bits r.slot 0 3 * 2 ^ 3,
    bits r.recAddr 0 57,
    bits r.pc 0 64,
    bits r.addr 0 64,
    bits r.asp 0 2 * 2 ^ 62 + ofBool r.wr * 2 ^ 61 + ofBool r.rd * 2 ^ 60 + ofBool r.ex * 2 ^ 59
      + bits r.scope 0 3 * 2 ^ 56 + bits r.index 0 32,
    bits r.done 0 64,
    bits r.time 0 64 ]

/-- The bytes of a list of 64-bit words (R6). -/
def wordsBytes (ws : List Nat) : List Byte := (ws.map (toBytes 8)).flatten

/-- A fault record's bytes (R392). -/
def FaultRec.bytes (r : FaultRec) : List Byte := wordsBytes r.words

/-- A record lost by a ring (R393). -/
def State.loseRecord (s : State) (n : Nat) : State :=
  s.updRing n fun r => { r with lost := if r.lost < 0xFFFFFFFF then r.lost + 1 else r.lost }

/-- The write of a record into fault ring n under key slot 0, and the advance of HEAD: one release at system scope (R393). The
ring is full when HEAD + 1 equals TAIL modulo its size. -/
def State.ringRecord (s : State) (n : Nat) (fr : FaultRec) : State :=
  let r := s.ring n
  let size := 8 * 2 ^ r.logn
  let pa := r.base + 64 * r.head
  let at_ := hubBase + 0x60008 + 0x20 * n
  let ev : Ev := { agent := .hub, place := 384, wr := true }
  if !r.en || (r.head + 1) % size = r.tail % size then s.loseRecord n
  else if (s.reachRange 0 pa 64).isSome || s.rangePoisoned pa 64 then s.loseRecord n
  else
    (((s.writeBytes 0 pa fr.bytes).record { ev with lo := pa, hi := pa + 64 }).record
        { ev with lo := at_, hi := at_ + 8, atomic := true, rel := true, scope := 5 }).updRing n
      fun r => { r with head := (r.head + 1) % size }

/-- The record of a device write to host memory that a down Skoah Link discards, with the hub as its master's die (R392, R455;
log entry 14). -/
def State.hostDiscard (s : State) (pa : Nat) : State :=
  s.ringRecord 64
    { code := 0x62, sub := 0x03, master := 5, addr := pa, asp := 1, wr := true, die := 6, time := (s.cycle 6).toNat }

/-- The one report of a write that a down Skoah Link discards: where the first of its bytes in host memory was to go (R455). -/
def State.reportDiscard (s : State) (pas : List Nat) : State :=
  match pas.find? fun pa => homeOf pa = .host && !s.linkUp skoahLink with
  | some pa => s.hostDiscard pa
  | none => s

/-- A physical write of bytes that lie in one home (R425, R427): the fault that stops it, or the state. The poison of a
sector it covers whole is cleared. What a down Skoah Link discards is reported by the write it belongs to (R455). -/
def State.writePhys (s : State) (slot pa : Nat) (bs : List Byte) : Except PFault State :=
  match s.reachRange slot pa bs.length with
  | some f => .error f
  | none =>
    match homeOf pa with
    | .hub => .ok (s.writeHub pa bs)
    | .host => if s.linkUp skoahLink then .ok ((s.writeBytes slot pa bs).clearPoisonRange pa bs.length) else .ok s
    | _ => .ok ((s.writeBytes slot pa bs).clearPoisonRange pa bs.length)

/-- The memory CODE and SUB of a physical fault met at a translated address (R422, R425). -/
def PFault.cause (f : PFault) (tile : Bool) : Nat × Nat :=
  match f with
  | .unmapped => (0x20, 0x06)
  | .sorrel => (0x51, 0x03)
  | .key => (0x72, 0x00)
  | .poison => (0x23, if tile then 0x02 else 0x01)

end Sys2Proof.Machine
end

