-- ==== Sys2Proof/Machine/Translate.lean ====
section
/-!
DEFINITION. Causes, and the translation of virtual addresses (R79 to R84, R425, R426).
-/
namespace Sys2Proof.Machine

/-- A cause with what its fault record holds (R388, R390, R392). -/
structure Cause where
  code : Nat
  sub : Nat := 0
  tval : Nat := 0
  addr : Nat := 0
  asp : Nat := 3
  rd : Bool := false
  wr : Bool := false
  ex : Bool := false
  scope : Nat := 0
  index : Nat := 0
  done : Nat := 0
  /-- The die the record names where it is not the hart's own (R439). -/
  die : Option Nat := none
  deriving DecidableEq, Repr

/-- The cause of the lowest CODE, the lowest SUB among equal codes, the first of a list among equals (R404, log 8). -/
def minCause : List Cause → Option Cause
  | [] => none
  | c :: r => match minCause r with
    | none => some c
    | some d => if d.code < c.code ∨ (d.code = c.code ∧ d.sub < c.sub) then some d else some c

/-- The kind of an access (R89, R426). -/
structure Acc where
  rd : Bool := false
  wr : Bool := false
  ex : Bool := false
  scope : Nat := 0
  cls : AccClass := .scalar
  /-- An atomic access of R331. -/
  atomic : Bool := false
  /-- A memory atomic of R279 (R422). -/
  amo : Bool := false
  acq : Bool := false
  rel : Bool := false
  /-- The instruction waits for the vector queue (R150, R327). -/
  vqWait : Bool := false
  /-- The run and the element or row of a chain stream port (R247, R437). -/
  port : Option (Nat × Nat) := none
  /-- An update of an arrival word, and whether it moves the generation on; of AWAIT, that it observes generations (R328). -/
  advance : Option Bool := none
  deriving DecidableEq, Repr

/-- The order of levels (R158). -/
def Priv.rank : Priv → Nat
  | .app => 0
  | .lib => 1
  | .exec => 2

/-- The lowest address bit that indexes the table of a level (R80). -/
def levelShift : Nat → Nat
  | 0 => 14
  | 1 => 25
  | 2 => 36
  | _ => 47

/-- The index into the table of a level (R80). -/
def levelIndex (level va : Nat) : Nat := if level = 3 then bits va 47 10 else bits va (levelShift level) 11

/-- A table entry that breaks R81 at its level (R425, SUB 0x05). -/
def brokenEntry (level e : Nat) : Bool :=
  if bit e 2 then
    decide (level = 3) || bits e 52 12 != 0 || bit e 1 || decide (2 ≤ bits e 12 2) || bits e 6 2 = 3
      || (decide (level = 1) && bits e 14 11 != 0) || (decide (level = 2) && bits e 14 22 != 0)
  else decide (level = 0) || bits e 52 12 != 0 || bits e 1 13 != 0

/-- A translation found: the physical address, the leaf, where it lies, and the entries the walk would cache. -/
structure Trans where
  pa : Nat
  leaf : Nat
  leafPa : Nat
  level : Nat
  trail : List TlbEntry
  deriving DecidableEq, Repr

/-- A cached entry for an address at a level (R84). -/
def tlbFind (tlb : List TlbEntry) (asid level va : Nat) : Option TlbEntry :=
  tlb.find? fun t => t.level = level && (t.global || t.asid = asid) && t.vpn = bits va 0 57 / 2 ^ levelShift level

/-- The walk from a table of a level down (R80, R81, R425): CODE, SUB and the address of an unreadable entry, or the
translation. The fuel is the level plus one. -/
def walkFrom (s : State) (tlb : List TlbEntry) (asid va : Nat) : Nat → Nat → Except (Nat × Nat × Nat) Trans
  | 0, _ => .error (0x20, 0x05, 0)
  | n + 1, table =>
    let epa := table + 8 * levelIndex n va
    let found : Except (Nat × Nat × Nat) Nat := match tlbFind tlb asid n va with
      | some t => .ok t.entry
      | none => match s.readPhys 0 epa 8 with
        | .error .poison => .error (0x20, 0x08, epa)
        | .error _ => .error (0x20, 0x07, epa)
        | .ok bs => .ok (ofBytes bs)
    match found with
    | .error f => .error f
    | .ok e =>
      if !bit e 0 then .error (0x20, n, 0)
      else if brokenEntry n e then .error (0x20, 0x05, 0)
      else
        let t : TlbEntry := ⟨asid, bit e 2 && bit e 8, n, bits va 0 57 / 2 ^ levelShift n, e⟩
        if bit e 2 then
          let off := bits va 0 (levelShift n)
          .ok ⟨bits e 14 38 * 2 ^ 14 + off, e, epa, n, [t]⟩
        else match walkFrom s tlb asid va n (bits e 14 38 * 2 ^ 14) with
          | .error f => .error f
          | .ok r => .ok { r with trail := t :: r.trail }

/-- The bits A and D an access needs set (R82). -/
def wantBits (wr : Bool) : Nat := if wr then 0x600 else 0x200

/-- The translation of a virtual address under a root at a level (R79 to R82, R425). A leaf that must gain A or D and no
longer stands in memory as it was cached is walked again. -/
def translate (s : State) (root : Word) (plv : Priv) (a : Acc) (va : Nat) : Except (Nat × Nat × Nat) Trans :=
  let asid := bits root.toNat 52 12
  let base := bits root.toNat 14 38 * 2 ^ 14
  if !canonical va then .error (0x20, 0x04, 0)
  else
    let r : Except (Nat × Nat × Nat) Trans := match walkFrom s s.tlb asid va 4 base with
      | .error f => .error f
      | .ok t =>
        if t.leaf &&& wantBits a.wr = wantBits a.wr then .ok t
        else if ofBytes (s.readBytes 0 t.leafPa 8) = t.leaf then .ok t
        else walkFrom s (s.tlb.filter fun e => e.level ≠ t.level || e.vpn ≠ bits va 0 57 / 2 ^ levelShift t.level) asid va 4 base
    match r with
    | .error f => .error f
    | .ok t =>
      if homeOf t.pa = .unmapped then .error (0x20, 0x06, 0)
      else if a.rd && !bit t.leaf 3 then .error (0x21, 0x01, 0)
      else if a.wr && !bit t.leaf 4 then .error (0x21, 0x02, 0)
      else if a.ex && !bit t.leaf 5 then .error (0x21, 0x03, 0)
      else if plv.rank < bits t.leaf 6 2 then .error (0x21, 0x04, 0)
      else .ok t

/-- The cached entries after an access through a translation: its trail, with the leaf as it now stands (R82, R84). -/
def cacheTrail (tlb : List TlbEntry) (t : Trans) (leaf : Nat) : List TlbEntry :=
  t.trail.foldl
    (fun tlb e =>
      let e := if e.level = t.level then { e with entry := leaf } else e
      e :: tlb.filter fun x => !(x.level = e.level && x.vpn = e.vpn && (x.global || x.asid = e.asid))) tlb

/-- The entry at its home as a walk by the hub's own reads finds it. -/
def Trans.entryNow (t : Trans) (s : State) : Nat := ofBytes (s.readBytes 0 t.leafPa 8)

/-- A translation still serves an access: its leaf needs no bit, or its entry holds what was walked but for A and D (R82). -/
def Trans.serves (t : Trans) (s : State) (wr : Bool) : Bool :=
  t.leaf &&& wantBits wr = wantBits wr || t.entryNow s ||| 0x600 = t.leaf ||| 0x600

/-- The state after an access through a translation: A and D set in the entry at its home while it holds what the walk read, and
the walk cached (R82). -/
def State.touch (s : State) (t : Trans) (wr : Bool) : State :=
  let s' := if t.leaf &&& wantBits wr = wantBits wr then s
    else if t.serves s wr then s.writeBytes 0 t.leafPa (toBytes 8 (t.entryNow s ||| wantBits wr))
    else s
  { s' with tlb := cacheTrail s.tlb t (t.leaf ||| wantBits wr) }

/-- Whether a cached entry is invalidated by a write of VMINV (R84). -/
def vminvHits (v : Nat) (e : TlbEntry) : Bool :=
  if bit v 57 then true
  else if bits v 12 2 = 3 then e.global || e.asid = bits v 0 12
  else
    let region := match bits v 12 2 with | 0 => 14 | 1 => 25 | _ => 36
    let lo := bits v 14 43 * 2 ^ 14 / 2 ^ region * 2 ^ region
    let sh := levelShift e.level
    (e.global || e.asid = bits v 0 12) && decide (e.vpn * 2 ^ sh < lo + 2 ^ region) && decide (lo < (e.vpn + 1) * 2 ^ sh)

/-- A write of VMINV (R84). -/
def State.invalidate (s : State) (v : Nat) : State := { s with tlb := s.tlb.filter fun e => !vminvHits v e }

end Sys2Proof.Machine
end

