-- ==== Sys2Proof/Machine/Access.lean ====
section
/-!
DEFINITION. The accesses of a hart to global virtual memory and to its tile window (R88, R89, R94, R146, R203, R422, R425
to R430). An access is a list of pieces, each inside one 16-byte granule; every piece is translated and checked before any
is performed.
-/
namespace Sys2Proof.Machine

/-- The key of a hart among State.harts: die * 512 + core * 8 + slot. -/
def Hart.key (h : Hart) : Nat := h.die * 512 + h.core * 8 + h.slot

/-- The key of a hart's core among State.cores: die * 64 + core. -/
def Hart.coreKey (h : Hart) : Nat := h.die * 64 + h.core

/-- The launch of a hart's strip. -/
def State.launchOf (s : State) (h : Hart) : Option Launch :=
  match h.launch with
  | none => none
  | some l => s.launches[l]?

/-- The key slot of a hart's accesses: KEYID of its launch (R376). -/
def State.keyOf (s : State) (h : Hart) : Nat :=
  match s.launchOf h with
  | none => 0
  | some l => l.keyid

/-- The hart as an agent: R322 names the hart, and does not say what becomes of it as strips follow one another on it or a strip
moves; the model takes the strip, by its launch and its index (DESIGN CHOICE: log entry 9). -/
def Hart.agent (h : Hart) : Agent := .strip (h.launch.getD 0) h.stripId.toNat

/-- The physical base of a hart's tile window (R94). -/
def Hart.winBase (h : Hart) : Nat := tileBase h.die h.core + 4096 * h.winStart

/-- The bytes of a hart's tile window (R94). -/
def Hart.winBytes (h : Hart) : Nat := 4096 * h.winPages

/-- Every hart of the package that holds a strip, with its key. -/
def State.running (s : State) : List (Nat × Hart) :=
  ((s.h.key, s.h) :: s.harts).filter fun p => p.2.launch.isSome

/-- Whether an address lies in tile memory. -/
def isTile (pa : Nat) : Bool := match homeOf pa with | .tile _ _ => true | _ => false

/-- A tile-memory address lies in the window of a strip whose accesses to it are checked (R333). -/
def State.windowChecked (s : State) (pa : Nat) : Bool :=
  match homeOf pa with
  | .tile d c => s.running.any fun p =>
    p.2.sys.rchk && p.2.die = d && p.2.core = c && decide (p.2.winBase ≤ pa) && decide (pa < p.2.winBase + p.2.winBytes)
  | _ => false

/-- The pieces of an access of n bytes at an address: at most 16 bytes each, inside one granule (R324). -/
def piecesOf (addr n : Nat) : List (Nat × Nat) :=
  let first := min n (16 - addr % 16)
  if n ≤ first then (if n = 0 then [] else [(addr % 2 ^ 64, n)])
  else (addr % 2 ^ 64, first) :: ((List.range (ceilDiv (n - first) 16)).map fun i =>
    ((addr + first + 16 * i) % 2 ^ 64, min 16 (n - first - 16 * i)))

/-- A piece that may be accessed: where it lies, and how it was reached. -/
structure PieceRef where
  addr : Nat
  pa : Nat
  len : Nat
  tile : Bool
  checked : Bool
  trans : Option Trans
  deriving DecidableEq, Repr

/-- The cause of an access fault at a virtual address or a tile offset (R409, R426). -/
def accCause (a : Acc) (tile : Bool) (addr code sub done : Nat) : Cause :=
  let ad := if tile then addr % 2 ^ 32 else addr
  { code := code, sub := sub, tval := ad, addr := ad, asp := if tile then 2 else 0, rd := a.rd, wr := a.wr, ex := a.ex,
    scope := a.scope, done := done }

/-- The check of one piece of the access at an address (R422, R425): the cause that stops it, or where it lies. A cause of the
walk's own read names the address being translated (R426). -/
def resolvePiece (s : State) (h : Hart) (plv : Priv) (a : Acc) (tile : Bool) (at_ : Nat) (p : Nat × Nat) :
    Except Cause PieceRef :=
  if tile then
    if h.winBytes < p.1 + p.2 then .error (accCause a true at_ 0x21 0x05 0)
    else .ok ⟨p.1, h.winBase + p.1, p.2, true, h.sys.rchk, none⟩
  else
    match translate s h.sys.vmroot plv a p.1 with
    | .error (c, sub, done) =>
      .error (accCause a false (if c = 0x20 ∧ (sub = 0x07 ∨ sub = 0x08) then p.1 else at_) c sub done)
    | .ok t =>
      match s.reach (s.keyOf h) t.pa with
      | some .sorrel => .error (accCause a false at_ 0x51 (if a.amo then 0x02 else 0x03) 0)
      | some .key => .error (accCause a false at_ 0x72 0x00 0)
      | _ => .ok ⟨p.1, t.pa, p.2, false, bit t.leaf 11 || s.windowChecked t.pa, some t⟩

/-- The event of a piece for the record of race checking (R333, R335). -/
def pieceEv (h : Hart) (a : Acc) (r : PieceRef) : Ev :=
  { agent := h.agent, place := h.coreKey, cls := a.cls, rd := a.rd, wr := a.wr, atomic := a.atomic, tile := isTile r.pa,
    checked := r.checked, lo := r.pa, hi := r.pa + r.len, acq := a.acq, rel := a.rel, scope := a.scope, vqWait := a.vqWait,
    po := h.po, port := a.port, advance := a.advance }

/-- The poison that a read of a piece of the access at an address consumes (R425, R427). -/
def poisonFault (s : State) (a : Acc) (at_ : Nat) (r : PieceRef) : Option Cause :=
  if (a.rd || a.ex) && s.rangePoisoned r.pa r.len then some (accCause a r.tile at_ 0x23 (if isTile r.pa then 0x02 else 0x01) 0)
  else none

/-- The causes found only when a piece of the access at an address is performed: poison for a read, and a race (R403,
R425, R430). -/
def performFault (s : State) (h : Hart) (a : Acc) (at_ : Nat) (r : PieceRef) : Option (Cause × State) :=
  if (poisonFault s a at_ r).isSome then (poisonFault s a at_ r).map fun c => (c, s)
  else if a.ex then none
  else match raceOf s (pieceEv h a r) with
    | some (k, lo, sub) => some (accCause a r.tile (r.addr + (lo - r.pa)) 0x24 sub 0, s.markReported k)
    | none => none

/-- The hub's filter after a core has come to hold the host line of an access through a leaf entry of memory type normal
(R80, R364). -/
def State.fillFilter (s : State) (h : Hart) (pa leaf : Nat) : State :=
  let e := (pa / 64, h.coreKey)
  if homeOf pa = .host ∧ bits leaf 12 2 = 0 ∧ !s.hub.filter.contains e then
    { s with hub := { s.hub with filter := s.hub.filter ++ [e] } }
  else s

/-- What a piece leaves beside its bytes: A and D set, the walk cached, the line of host memory noted. -/
def touchPiece (s : State) (h : Hart) (a : Acc) (r : PieceRef) : State :=
  match r.trans with | some t => (s.touch t a.wr).fillFilter h r.pa t.leaf | none => s

/-- A piece counted as performed, and recorded. -/
def performMark (s : State) (h : Hart) (a : Acc) (r : PieceRef) : State :=
  let s := touchPiece s h a r
  if a.ex then s else s.record (pieceEv h a r)

/-- The pages of the window that a write touches (R352). -/
def Hart.markWindow (h : Hart) (pa n : Nat) : Hart :=
  if n = 0 ∨ pa < h.winBase ∨ h.winBase + h.winBytes < pa + n then h
  else
    { h with
      winSet := (List.range ((pa + n - 1 - h.winBase) / 4096 - (pa - h.winBase) / 4096 + 1)).foldl
        (fun w i => Sparse.set false w ((pa - h.winBase) / 4096 + i) true) h.winSet }

/-- Every hart of a core marks the window pages that a write of its tile memory touches (R352). -/
def State.markWindows (s : State) (pa n : Nat) : State :=
  match homeOf pa with
  | .tile d c =>
    let f := fun (h : Hart) => if h.die = d ∧ h.core = c ∧ h.launch.isSome then h.markWindow pa n else h
    { s with h := f s.h, harts := s.harts.map fun p => (p.1, f p.2) }
  | _ => s

/-- A physical write with the windows it touches marked; what a down Skoah Link discards of it is not yet reported. -/
def State.put (s : State) (slot pa : Nat) (bs : List Byte) : State :=
  match s.writePhys slot pa bs with
  | .ok s' => s'.markWindows pa bs.length
  | .error _ => s

/-- A physical write that is a whole access, reported if a down Skoah Link discards it (R455). -/
def State.store (s : State) (slot pa : Nat) (bs : List Byte) : State := (s.put slot pa bs).reportDiscard [pa]

/-- The bytes of a piece. -/
def State.load (s : State) (slot : Nat) (r : PieceRef) : List Byte := s.readBytes slot r.pa r.len

/-- The results of a list, or its first error by CODE (R404). -/
def allOk {α : Type} : List (Except Cause α) → Except (List Cause) (List α)
  | [] => .ok []
  | .ok a :: r => match allOk r with | .ok as => .ok (a :: as) | .error cs => .error cs
  | .error c :: r => match allOk r with | .ok _ => .error [c] | .error cs => .error (c :: cs)

/-- Every piece of an access checked (R406): the lowest cause, or where the pieces lie. -/
def resolveAccess (s : State) (h : Hart) (plv : Priv) (a : Acc) (tile : Bool) (addr n : Nat) :
    Except (List Cause) (List PieceRef) :=
  allOk ((piecesOf addr n).map (resolvePiece s h plv a tile (addr % 2 ^ 64)))

/-- The first fault of performing a list of pieces. -/
def performFaults (s : State) (h : Hart) (a : Acc) (at_ : Nat) : List PieceRef → Option (Cause × State)
  | [] => none
  | r :: rs => match performFault s h a at_ r with
    | some f => some f
    | none => performFaults s h a at_ rs

/-- Every piece of an access counted as performed. -/
def markPieces (s : State) (h : Hart) (a : Acc) (ps : List PieceRef) : State := ps.foldl (fun s r => performMark s h a r) s

/-- The read of checked pieces in order. -/
def readPieces (s : State) (h : Hart) (a : Acc) (ps : List PieceRef) : List Byte × State :=
  let t := markPieces s h a ps
  ((ps.map (t.load (s.keyOf h))).flatten, t)

/-- A look at checked pieces that a wait repeats: the poison it consumes, or the bytes and the state; it is no access of R331
until the wait ends on it (log entry 52). -/
def lookPieces (s : State) (h : Hart) (a : Acc) (at_ : Nat) (ps : List PieceRef) : Except Cause (List Byte × State) :=
  match ps.findSome? (poisonFault s a at_) with
  | some c => .error c
  | none =>
    let t := ps.foldl (fun s r => touchPiece s h a r) s
    .ok ((ps.map (t.load (s.keyOf h))).flatten, t)

/-- The bytes of checked pieces written in order under a key slot. -/
def putPieces (s : State) (slot : Nat) : List PieceRef → List Byte → State
  | [], _ => s
  | r :: rs, bs => putPieces (s.put slot r.pa (bs.take r.len)) slot rs (bs.drop r.len)

/-- The addresses of pieces, byte by byte. -/
def piecesBytes (ps : List PieceRef) : List Nat := (ps.map fun r => (List.range r.len).map (r.pa + ·)).flatten

/-- The write of checked pieces in order. A sector that they cover whole loses its poison (R427), and a down Skoah Link discards
the write as one (R455). -/
def writePieces (s : State) (h : Hart) (a : Acc) (ps : List PieceRef) (bs : List Byte) : State :=
  ((putPieces (markPieces s h a ps) (s.keyOf h) ps bs).clearPoison (piecesBytes ps)).reportDiscard (ps.map (·.pa))

/-- A hart read of n bytes (R146, R425): a cause with the state it leaves, or the bytes and the state. extra holds causes
that the instruction's own checks found. -/
def hartRead (s : State) (h : Hart) (plv : Priv) (a : Acc) (tile : Bool) (addr n : Nat) (extra : List Cause) :
    Except (Cause × State) (List Byte × State) :=
  match resolveAccess s h plv a tile addr n with
  | .error cs => .error ((minCause (extra ++ cs)).getD { code := 0x20 }, s)
  | .ok rs =>
    match minCause extra with
    | some c => .error (c, s)
    | none => match performFaults s h a (addr % 2 ^ 64) rs with
      | some f => .error f
      | none => .ok (readPieces s h a rs)

/-- A hart write of bytes (R146, R425). -/
def hartWrite (s : State) (h : Hart) (plv : Priv) (a : Acc) (tile : Bool) (addr : Nat) (bs : List Byte)
    (extra : List Cause) : Except (Cause × State) State :=
  match resolveAccess s h plv a tile addr bs.length with
  | .error cs => .error ((minCause (extra ++ cs)).getD { code := 0x20 }, s)
  | .ok rs =>
    match minCause extra with
    | some c => .error (c, s)
    | none => match performFaults s h a (addr % 2 ^ 64) rs with
      | some f => .error f
      | none => .ok (writePieces s h a rs bs)

/-! ## Element accesses of a vector memory instruction -/

/-- One element access: its flat index, its address, and its length in bytes. -/
structure Elt where
  index : Nat
  addr : Nat
  len : Nat
  deriving DecidableEq, Repr

/-- Phase 1 of R428 over every element: the cause it reports, or the pieces of each element. extra gives an element's own
causes, such as alignment. -/
def resolveElts (s : State) (h : Hart) (a : Acc) (tile : Bool) (extra : Elt → List Cause) (es : List Elt) :
    Except Cause (List (Elt × List PieceRef)) :=
  let rs := es.map fun e =>
    (e, match resolveAccess s h h.plv a tile e.addr e.len with
      | .ok ps => if extra e = [] then Except.ok ps else .error (extra e)
      | .error cs => .error (extra e ++ cs))
  let bad := rs.filterMap fun r => match r.2 with | .error cs => (minCause cs).map fun c => (r.1, c) | .ok _ => none
  match bad with
  | [] => .ok (rs.filterMap fun r => match r.2 with | .ok ps => some (r.1, ps) | .error _ => none)
  | b :: bs =>
    let first := bs.foldl (fun m x => if x.1.index < m then x.1.index else m) b.1.index
    let low := bs.foldl
      (fun m x => if x.2.code < m.2.code ∨ (x.2.code = m.2.code ∧ x.1.index < m.1.index) then x else m) b
    .error { low.2 with index := first }

/-- The pieces of an element as it is performed: a leaf entry that must gain A or D and that an earlier element has changed is
walked again (R82), and a fault then found is found at the element. -/
def freshPieces (s : State) (h : Hart) (a : Acc) (tile : Bool) (e : Elt) (ps : List PieceRef) :
    Except (Cause × State) (List PieceRef) :=
  let at_ := fun (c : Cause) => { c with index := e.index }
  let now : Except (Cause × State) (List PieceRef) :=
    if ps.all fun r => match r.trans with | some t => t.serves s a.wr | none => true then .ok ps
    else match resolveAccess s h h.plv a tile e.addr e.len with
      | .ok ps => .ok ps
      | .error cs => .error (at_ ((minCause cs).getD { code := 0x20 }), s)
  match now with
  | .error f => .error f
  | .ok ps => match performFaults s h a (e.addr % 2 ^ 64) ps with
    | some (c, s') => .error (at_ c, s')
    | none => .ok ps

/-- Phase 2 of R428 for a load: the elements in ascending flat index. -/
def readElts (s : State) (h : Hart) (a : Acc) (tile : Bool) : List (Elt × List PieceRef) →
    Except (Cause × State) (List (Nat × Nat) × State)
  | [] => .ok ([], s)
  | (e, ps) :: rest => match freshPieces s h a tile e ps with
    | .error f => .error f
    | .ok ps =>
      let (bs, s') := readPieces s h a ps
      match readElts s' h a tile rest with
      | .error f => .error f
      | .ok (vs, s'') => .ok ((e.index, ofBytes bs) :: vs, s'')

/-- The bytes a store of an element leaves: its value, with the bits of keep as they stand (R204). -/
def keepBytes (s : State) (h : Hart) (e : Elt) (ps : List PieceRef) (v : Nat × Nat) : List Byte :=
  if v.2 = 0 then toBytes e.len v.1
  else toBytes e.len (v.1 ||| (ofBytes ((ps.map (s.load (s.keyOf h))).flatten) &&& v.2))

/-- Phase 2 of R428 for a store of element values, each with the bits it keeps, in ascending flat index. -/
def writeElts (s : State) (h : Hart) (a : Acc) (tile : Bool) : List (Elt × List PieceRef) → List (Nat × Nat) →
    Except (Cause × State) State
  | [], _ => .ok s
  | (e, ps) :: rest, vs => match freshPieces s h a tile e ps with
    | .error f => .error f
    | .ok ps => writeElts (writePieces s h a ps (keepBytes s h e ps (vs.headD (0, 0)))) h a tile rest vs.tail

/-- Phase 2 of R428 for read-modify-writes of elements: g gives the new value from the old one and the operand (R206). -/
def modifyElts (s : State) (h : Hart) (a : Acc) (tile : Bool) (g : Nat → Nat → Nat) : List (Elt × List PieceRef) → List Nat →
    Except (Cause × State) State
  | [], _ => .ok s
  | (e, ps) :: rest, vs => match freshPieces s h a tile e ps with
    | .error f => .error f
    | .ok ps =>
      let old := ofBytes ((ps.map (s.load (s.keyOf h))).flatten)
      modifyElts (writePieces s h a ps (toBytes e.len (g old (vs.headD 0)))) h a tile g rest vs.tail

/-- A vector load of elements (R203, R428): the values by flat index. -/
def vecRead (s : State) (h : Hart) (a : Acc) (tile : Bool) (extra : Elt → List Cause) (es : List Elt) :
    Except (Cause × State) (List (Nat × Nat) × State) :=
  match resolveElts s h a tile extra es with
  | .error c => .error (c, s)
  | .ok rs => readElts s h a tile rs

/-- A vector store of elements (R203, R428); a sector it covers whole loses its poison (R427). -/
def vecWrite (s : State) (h : Hart) (a : Acc) (tile : Bool) (extra : Elt → List Cause) (es : List Elt)
    (vs : List (Nat × Nat)) : Except (Cause × State) State :=
  match resolveElts s h a tile extra es with
  | .error c => .error (c, s)
  | .ok rs => match writeElts s h a tile rs vs with
    | .error f => .error f
    | .ok s' =>
      .ok (s'.clearPoison ((rs.map fun r => piecesBytes r.2).flatten))

/-- Read-modify-writes of elements (R206, R428). -/
def vecModify (s : State) (h : Hart) (a : Acc) (tile : Bool) (g : Nat → Nat → Nat) (es : List Elt) (vs : List Nat) :
    Except (Cause × State) State :=
  match resolveElts s h a tile (fun _ => []) es with
  | .error c => .error (c, s)
  | .ok rs => modifyElts s h a tile g rs vs

end Sys2Proof.Machine
end

