-- ==== Sys2Proof/Machine/Ops.lean ====
section
/-!
DEFINITION. The named operations over registers, shapes, launch states, traps and freezes.
-/
namespace Sys2Proof.Machine

/-- The outcome of a step. -/
abbrev Out := Host.Outcome State Fault Refusal

/-! ## Scalar registers and the pc -/

/-- x[r]: x0 reads zero (R119). -/
def Hart.getX (h : Hart) (r : Nat) : Word := if r = 0 then 0 else h.x[r % 32]'(Nat.mod_lt _ (by decide))

/-- The hart with x[r] replaced: x0 ignores writes (R119). -/
def Hart.setX (h : Hart) (r : Nat) (v : Word) : Hart :=
  if r = 0 then h else { h with x := h.x.set (r % 32) v (Nat.mod_lt _ (by decide)) }

/-- x[r] of the hart that issues. -/
def State.x (s : State) (r : Field) : Word := s.h.getX r.toNat

/-- The state with x[r] of the hart that issues replaced. -/
def State.setX (s : State) (r : Field) (v : Word) : State := { s with h := s.h.setX r.toNat v }

/-- The state with the pc of the hart that issues replaced. -/
def State.setPc (s : State) (pc : Word) : State := { s with h := { s.h with pc := pc } }

/-- The pc past a word of the given bytes (R106). -/
def State.advance (s : State) (n : Nat) : State := s.setPc (s.h.pc + BitVec.ofNat 64 n)

/-- The harts of the package by key: the one that issues, or another. -/
def State.hartAt (s : State) (k : Nat) : Hart :=
  if k = s.h.key then s.h
  else Sparse.get { die := k / 512, core := k / 8 % 64, slot := k % 8 } s.harts k

/-- A hart that holds nothing: the value an unlisted slot has. -/
def idleHart (k : Nat) : Hart := { die := k / 512, core := k / 8 % 64, slot := k % 8 }

/-- The state with a hart replaced, by its key. -/
def State.setHart (s : State) (k : Nat) (h : Hart) : State :=
  if k = s.h.key then { s with h := h } else { s with harts := Sparse.set (idleHart k) s.harts k h }

/-- The state with a hart changed. -/
def State.updHart (s : State) (k : Nat) (f : Hart → Hart) : State := s.setHart k (f (s.hartAt k))

/-- The state in which the hart with a key is the one that issues. -/
def State.select (s : State) (k : Nat) : State :=
  if k = s.h.key then s
  else
    let n := s.hartAt k
    { s with h := n, harts := Sparse.set (idleHart k) (Sparse.set (idleHart s.h.key) s.harts s.h.key s.h) k (idleHart k) }

/-- The core with a key. -/
def State.coreAt (s : State) (c : Nat) : Core := Sparse.get {} s.cores c

/-- The state with a core changed. -/
def State.updCore (s : State) (c : Nat) (f : Core → Core) : State := { s with cores := Sparse.upd {} s.cores c f }

/-- The core of the hart that issues. -/
def State.core (s : State) : Core := s.coreAt s.h.coreKey

/-! ## Tile shape -/

/-- The width of a partition in lane groups (R31). -/
def Hart.lanes (h : Hart) : Nat := 2 ^ bits h.part.toNat 5 2

/-- C: bytes of each vector register (R28). -/
def Hart.cap (h : Hart) : Nat := 16384 * h.lanes / h.cfg.vnr

/-- VROWSMAX for a format (R28). -/
def Hart.vrowsMax (h : Hart) (f : Fmt) : Nat := min 64 (8 * h.cap / f.width)

/-- VLMAX for a format at a number of rows (R28). -/
def Hart.vlMaxAt (h : Hart) (f : Fmt) (rows : Nat) : Nat := 8 * h.cap / (rows * f.width)

/-- VLMAX for a format under the VROWS in force (R28, R176). -/
def Hart.vlMax (h : Hart) (f : Fmt) : Nat := h.vlMaxAt f h.cfg.vrows

/-- Row stride of a format in bits (R176). -/
def Hart.rowStride (h : Hart) (f : Fmt) : Nat := h.vlMax f * f.width

/-- The vector-state word (R154). -/
def Hart.vsw (h : Hart) : Nat :=
  h.cfg.vmsk.toNat * 2 ^ 32 + h.cfg.vtype.code * 2 ^ 28 + (h.cfg.vrows - 1) * 2 ^ 22 + h.cfg.vl

/-- The tile shape and mask restored from a vector-state word (R156); none where TYPE is 0. -/
def Hart.restoreVsw (h : Hart) (w : Nat) : Option Hart :=
  match Fmt.ofCode (bits w 28 4) with
  | none => none
  | some f =>
    let rows := min (bits w 22 6 + 1) (h.vrowsMax f)
    some { h with
      cfg := { h.cfg with
        vtype := f, vmsk := BitVec.ofNat 6 (bits w 32 6), vrows := rows, vl := min (bits w 0 16) (h.vlMaxAt f rows) } }

/-! ## Composite registers -/

/-- CHSTAT (R252). -/
def ChainRegs.chstat (c : ChainRegs) : Nat :=
  bits c.brk 0 8 * 2 ^ 56 + c.nn * 2 ^ 27 + c.wn * 2 ^ 20 + ofBool c.le * 2 ^ 17 + ofBool c.lw * 2 ^ 16
    + ofBool c.res * 2 ^ 7 + ofBool c.tmp * 2 ^ 6 + ofBool c.deg * 2 ^ 5 + ofBool c.rowMode * 2 ^ 4
    + ofBool c.run * 2 + ofBool c.inst

/-- CHPOL (R253). -/
def ChainRegs.chpol (c : ChainRegs) : Nat := ofBool c.noch * 2 + ofBool c.pol

/-- The code of a level (R158). -/
def Priv.code (p : Priv) : Nat := p.rank

/-- The level that a code names; 0b11 names none, and a return to it enters exec (log entry 15). -/
def Priv.ofCode : Nat → Priv
  | 0 => .app
  | 1 => .lib
  | _ => .exec

/-- GSTAT (R161). -/
def SysRegs.gstat (r : SysRegs) : Nat := r.gstatPlv.toNat * 2 ^ 6 + r.gstatMsk.toNat

/-! ## Launch states -/

/-- The STATE code of R37 and R398. -/
def LState.code : LState → Nat
  | .submitted => 0 | .waiting => 1 | .ready => 2 | .running => 3 | .released => 4 | .retired => 5
  | .suspended => 6 | .faulted => 7 | .rejected => 8 | .aborted => 9

/-- The state with a launch changed. -/
def State.updLaunch (s : State) (l : Nat) (f : Launch → Launch) : State := { s with launches := s.launches.modify l f }

/-- A read by the hub of virtual memory under a root and a key slot: the CODE of the fault, or the bytes (R338, R376). -/
def State.hubReadVa (s : State) (root : Word) (slot va : Nat) : Nat → Except Nat (List Byte)
  | 0 => .ok []
  | n + 1 =>
    match translate s root .exec { rd := true } (va % 2 ^ 64) with
    | .error (c, _, _) => .error c
    | .ok t => match s.readPhys slot t.pa 1 with
      | .error f => .error (f.cause false).1
      | .ok bs => match s.hubReadVa root slot (va + 1) n with
        | .error c => .error c
        | .ok r => .ok (bs ++ r)

/-- A write by the hub of a word at a virtual address: a word that cannot be written is not (log entry 14), and under a slot
without a key the word is written beside the bytes as they are held (log entry 44). -/
def State.hubWriteVa (s : State) (root : Word) (slot va v : Nat) : State :=
  match translate s root .exec { wr := true } (va % 2 ^ 64) with
  | .error _ => s
  | .ok t => match (s.touch t true).writePhys slot t.pa (toBytes 8 v) with
    | .error .key => (s.touch t true).setBytes t.pa (toBytes 8 v)
    | .error _ => s
    | .ok s' => s'.reportDiscard [t.pa]

/-- The events of the record of races that the strips, commands and sessions of a launch have made, by number. -/
def State.launchEvents (s : State) (l : Nat) : List Nat :=
  s.trace.zipIdx.filterMap fun p => match p.1.agent.owner with
    | some (k, _) => if k = l then some (s.trace.length - 1 - p.2) else none
    | none => none

/-- The number of the newest event of the record of races. -/
def State.newest (s : State) : List Nat := if s.trace = [] then [] else [s.trace.length - 1]

/-- The event of a STATE write, which follows the events given (R37, R328, R340). -/
def State.hubEvent (s : State) (root : Word) (va : Nat) (evs : List Nat) : State :=
  match translate s root .exec { wr := true } va with
  | .error _ => s
  | .ok t =>
    s.record { agent := .hub, place := 384, wr := true, rel := true, scope := 5, lo := t.pa, hi := t.pa + 8, sync := evs }

/-- STATUS of a launch written to its record (R33, R37, R398): NEXIT and STATE, a release at system scope. -/
def State.writeStatus (s : State) (l : Nat) : State :=
  match s.launches[l]? with
  | none => s
  | some x =>
    let va := (x.recAddr + 0x48) % 2 ^ 64
    let evs := if x.state = .retired ∨ x.state = .aborted then s.launchEvents l else if x.state = .released then x.rels else []
    (s.hubEvent x.vmroot va evs).hubWriteVa x.vmroot x.keyid va (x.nexit * 2 ^ 32 + x.state.code)

/-- A launch enters a state, and STATUS is written (R37, R340, R398). -/
def State.setLaunch (s : State) (l : Nat) (st : LState) : State :=
  (s.updLaunch l fun x => { x with state := st }).writeStatus l

/-- The fault ring of a launch: the queue it arrived through (R393). -/
def State.launchRing (s : State) (l : Option Nat) : Nat :=
  match l with
  | none => 64
  | some k => match s.launches[k]? with
    | none => 64
    | some x => x.queue

/-- The record address of a launch, 0 for none (R392). -/
def State.recOf (s : State) (l : Option Nat) : Nat :=
  match l with
  | none => 0
  | some k => match s.launches[k]? with
    | none => 0
    | some x => x.recAddr

/-- Every running strip of a launch but one is asked to be swapped out, as for pre-emption (R396, R398). -/
def State.preemptLaunch (s : State) (l : Nat) (but : Nat) : State :=
  let f := fun (h : Hart) => if h.launch = some l ∧ h.key ≠ but ∧ !h.frozen then { h with preempt := true, forPark := none } else h
  { s with h := f s.h, harts := s.harts.map fun p => (p.1, f p.2) }

/-- A launch enters FAULTED unless its state is final (R398). -/
def State.faultLaunch (s : State) (l : Nat) : State :=
  match s.launches[l]? with
  | none => s
  | some x => match x.state with
    | .retired | .rejected | .aborted => s
    | _ => s.setLaunch l .faulted

/-! ## Records, freezes and traps -/

/-- The fault record of a hart's cause (R392). -/
def State.hartRec (s : State) (h : Hart) (c : Cause) (pre frz : Bool) (pc : Word) : FaultRec :=
  { code := c.code, sub := c.sub, pre := pre, frz := frz, ovf := h.ovf, master := 0, strip := h.stripId.toNat,
    die := c.die.getD h.die, core := h.core, slot := h.slot, recAddr := s.recOf h.launch, pc := pc.toNat, addr := c.addr,
    asp := c.asp, wr := c.wr, rd := c.rd, ex := c.ex, scope := c.scope, index := c.index, done := c.done,
    time := (s.cycle h.die).toNat }

/-- A hart that runs: it holds a strip and is not frozen (R396). -/
def Hart.live (h : Hart) : Bool := h.launch.isSome && !h.frozen

/-- The state with the hart of a key as the one that issues; where that hart is frozen or holds no strip, none (R396). -/
def State.selectLive (s : State) (k : Nat) : Option State := if (s.hartAt k).live then some (s.select k) else none

/-- The hart that issues is frozen: it keeps what it holds, a record goes to its launch's ring, and the launch enters
FAULTED (R396). -/
def State.freezeHart (s : State) (c : Cause) : State :=
  let fr := s.hartRec s.h c false true s.h.pc
  let s1 := { s with h := { s.h with frozen := true, preempt := false, forPark := none } }
  let s2 := s1.ringRecord (s1.launchRing s.h.launch) fr
  match s.h.launch with
  | none => s2
  | some l => (s2.faultLaunch l).preemptLaunch l s.h.key

/-- The codes whose precise trap writes no fault record (R390). -/
def noRecord (code : Nat) : Bool := decide (code ≤ 0x05) || code = 0x10 || code = 0x70 || code = 0x71

/-- The words of the trap frame at its offsets (R173). -/
def frameWords (h : Hart) (c : Cause) (tpc : Word) (half slot : Bool) (frec : Nat) : List Nat :=
  [ tpc.toNat, c.sub * 2 ^ 8 + c.code, c.tval, h.plv.code * 2 ^ 8 + ofBool (half && slot) * 2 + ofBool half, h.vsw,
    h.sys.gepc.toNat, h.sys.gstat, h.chr.chcur.toNat, h.chr.chstat, frec,
    (h.getX 1).toNat, (h.getX 2).toNat, (h.getX 5).toNat, (h.getX 6).toNat, (h.getX 13).toNat, (h.getX 14).toNat ]

/-- Trap entry (R172, R173): the frame at TSP - 128, the fault record at FRAREA (R390), the trap registers, exec level,
and the pc at TVEC. A write that cannot complete freezes the hart with DOUBLE (R405). -/
def State.enterTrap (s : State) (c : Cause) (tpc : Word) (half slot : Bool) (fr : Option FaultRec) : State :=
  let f := s.h.sys.tsp - 128
  let frec : Nat := if fr.isSome ∧ s.h.sys.frarea ≠ 0 then s.h.sys.frarea.toNat else 0
  let double := fun (t : State) (m : Cause) =>
    let t := t.freezeHart { m with code := 0x76, sub := m.code, done := c.code, tval := 0 }
    { t with h := { t.h with doubleCause := some c.code } }
  let acc : Acc := { wr := true, cls := .scalar }
  match hartWrite s s.h .exec acc false f.toNat (wordsBytes (frameWords s.h c tpc half slot frec)) [] with
  | .error (m, t) => double t m
  | .ok s1 =>
    let written : Except (Cause × State) State := match fr with
      | none => .ok s1
      | some r => if frec = 0 then .ok s1 else hartWrite s1 s1.h .exec acc false frec r.bytes []
    match written with
    | .error (m, t) => double t m
    | .ok s2 =>
      let h := s2.h.setX 2 f
      { s2 with
        h := { h with
          plv := .exec, pc := h.sys.tvec, ovf := if frec = 0 then h.ovf else false,
          sys := { h.sys with
            tsp := f, tpc := tpc, tcause := word (c.sub * 2 ^ 8 + c.code), tval := word c.tval } } }

/-- The vector queue of a hart holds work: an open run that is not parked, an instruction that waits, or a resumed strip's
wait for its matrix unit (R229, R348). -/
def Hart.queueBusy (h : Hart) : Bool :=
  h.vq.isSome || h.muSaved.isSome || (match h.chain.run with | some r => decide (r.mode ≠ .parked) | none => false)

/-- A precise cause of the unit at the pc (R388, R394): a freeze for KEY and VIOLATION, a trap otherwise. The trap waits
until every earlier unit has completed. -/
def State.raise (s : State) (c : Cause) (half slot : Bool) : State :=
  if c.code = 0x72 ∨ c.code = 0x73 then s.freezeHart c
  else if s.h.queueBusy then s
  else
    let fr := if noRecord c.code then none else some (s.hartRec s.h c true false s.h.pc)
    s.enterTrap c s.h.pc half slot fr

/-- A full instruction's cause, with the state it leaves. -/
def trapOut (f : Cause × State) : Out := .next (f.2.raise f.1 false false)

/-- A cause of a full instruction that leaves nothing behind. -/
def trapNow (s : State) (c : Cause) : Out := trapOut (c, s)

/-- OPERAND with a SUB (R416). -/
def operand (sub : Nat) (idx : Nat := 0) : Cause := { code := 0x02, sub := sub, tval := idx }

/-- A condition and the cause it raises. -/
def when_ (b : Bool) (c : Cause) : List Cause := if b then [c] else []

/-- An imprecise record raised for a hart's strip (R395): held while the strip runs and fewer than four are held;
otherwise it goes to the launch's ring, and OVF is set in the next record the hart takes. -/
def State.holdRecord (s : State) (k : Nat) (fr : FaultRec) : State :=
  let h := s.hartAt k
  if h.launch.isSome ∧ h.held.length < 4 then s.updHart k fun h => { h with held := h.held ++ [fr] }
  else (s.ringRecord (s.launchRing h.launch) fr).updHart k fun h => { h with ovf := true }

/-- The cause of a held record as the trap registers show it (R395, R409). -/
def FaultRec.cause (r : FaultRec) : Cause := { code := r.code, sub := r.sub, tval := r.addr }

/-- The hart that issues takes its oldest held record as a trap (R395). -/
def State.takeImprecise (s : State) : State :=
  match s.h.held with
  | [] => s
  | r :: rest =>
    let r := { r with ovf := s.h.ovf, pre := false }
    ({ s with h := { s.h with held := rest } }).enterTrap r.cause s.h.pc false false (some r)

/-- The hart that issues stops in a wait of its scalar sequencer. -/
def State.startWait (s : State) (w : Wait) : State := { s with h := { s.h with wait := some w, stalled := false } }

/-- What CHWAIT writes (R249): whether a run is open, and the released count. -/
def Hart.chwaitWord (h : Hart) : Word := word (ofBool h.chain.run.isSome * 2 ^ 63 + bits h.chr.chcur.toNat 0 63)

/-- The hart that issues leaves its wait with a result in x[D]. -/
def State.endWait (s : State) (d : Field) (v : Word) : State :=
  (({ s with h := { s.h with wait := none } }).setX d v).advance 8

end Sys2Proof.Machine
end

