-- ==== Sys2Proof/Machine/Flags.lean ====
section
/-!
DEFINITION. The flags of FFLAGS and their counters (R67 to R69), arithmetic traps (R423), and the draws and steps of
stochastic rounding (R61, R242).
-/
namespace Sys2Proof.Machine

/-- The flags raised by the elements of one instruction: flat index and flags, one entry for each element (R68). -/
abbrev Raised := List (Nat × Flags)

/-- The union of the flags raised (R67). -/
def Raised.union (r : Raised) : Flags := r.foldl (fun f x => f ||| x.2) 0#6

/-- The number of elements that raised flag n (R68). -/
def Raised.count (r : Raised) (n : Nat) : Nat := (r.filter fun x => x.2.getLsbD n).length

/-- A 64-bit count that stays at its maximum (R68, R128). -/
def satAdd (c : Word) (n : Nat) : Word := if 2 ^ 64 ≤ c.toNat + n then BitVec.allOnes 64 else c + BitVec.ofNat 64 n

/-- FFLAGS and FCNT after an instruction (R67, R68). -/
def Arith.credit (a : Arith) (r : Raised) : Arith :=
  if r = [] then a
  else { a with fflags := a.fflags ||| r.union, fcnt := Vector.ofFn fun i => satAdd a.fcnt[i] (r.count i) }

/-- The arithmetic trap of an instruction that raises an enabled flag (R423). -/
def flagCause (en : BitVec 6) (r : Raised) : List Cause :=
  let hit := r.filter fun x => x.2 &&& en ≠ 0#6
  match hit with
  | [] => []
  | x :: xs =>
    let set := (Raised.union hit &&& en).toNat
    let first := xs.foldl (fun m y => min m y.1) x.1
    [{ code := 0x10, sub := set.log2, tval := first % 2 ^ 32 * 2 ^ 32 + set }]

/-- Step of R61. -/
def seedStep (s : BitVec 32) : BitVec 32 :=
  let s := s ^^^ (s <<< 13)
  let s := s ^^^ (s >>> 17)
  s ^^^ (s <<< 5)

/-- Step applied a number of times. -/
def seedSteps : Nat → BitVec 32 → BitVec 32
  | 0, s => s
  | n + 1, s => seedSteps n (seedStep s)

/-- A draw state that is not zero (R61, R242). -/
def seedNonzero (s : BitVec 32) : BitVec 32 := if s = 0#32 then 1#32 else s

/-- S[31:8] of the draw for a lane after j positions of that lane (R61). -/
def laneDraw (seed : BitVec 32) (lane j : Nat) : Nat :=
  (seedSteps (j + 1) (seedNonzero (seed ^^^ BitVec.ofNat 32 lane))).toNat / 256

/-- S[31:8] of the draw of node i of a chain for element g (R242). -/
def chainDraw (seed : BitVec 32) (i g : Nat) : Nat :=
  (seedSteps 2 (seedNonzero ((seed + BitVec.ofNat 32 ((i + 1) * 0x9E3779B9)) ^^^ BitVec.ofNat 32 g))).toNat / 256

/-- The lane that handles element e of a format of width w in a partition of the given lane groups (R29). -/
def laneOf (lanes w e : Nat) : Nat := e * w / 32 % (16 * lanes)

/-- The positions of a row below e that share the lane of e (R61). -/
def sameLaneBelow (lanes w e : Nat) : Nat → Nat
  | 0 => 0
  | n + 1 => (if laneOf lanes w n = laneOf lanes w e then 1 else 0) + sameLaneBelow lanes w e n

/-- The draw of R61 for position (row, e) of a tile in a destination format of width w. -/
def tileDraw (h : Hart) (w row e : Nat) : Nat :=
  let full := sameLaneBelow h.lanes w e h.cfg.vl
  laneDraw h.ar.srseed (laneOf h.lanes w e) (row * full + sameLaneBelow h.lanes w e e)

end Sys2Proof.Machine
end

