-- ==== Sys2Proof/Machine/Operands.lean ====
section
/-!
DEFINITION. Operand forms: FM locations (R88), the elements of register images and masks (R176, R177), the mask in force
(R109, R112 to R115), tensor entries (R74 to R77), and what a half writes (R117, R182).
-/
namespace Sys2Proof.Machine

/-! ## FM locations -/

/-- The signed offset of an FM word (R88). -/
def FM.offset (o : FM) : Word := sext32 o.ofs

/-- idx + ofs of an FM word (R88). -/
def State.fmIndex (s : State) (o : FM) : Word := s.x o.b * BitVec.ofNat 64 (2 ^ o.sc.toNat) + FM.offset o

/-- The location of an FM word with an index, in spaces 0b00 and 0b01 (R88). -/
def State.fmLoc (s : State) (o : FM) : Nat := (s.x o.a + s.fmIndex o).toNat

/-- The location of an FM word without an index: x[A] + ofs (R148, R204). -/
def State.fmBase (s : State) (o : FM) : Nat := (s.x o.a + FM.offset o).toNat

/-! ## Elements and masks -/

/-- The image of vector register n (R176). -/
def Hart.img (h : Hart) (n : Nat) : Nat := Sparse.get 0 h.vec.v n

/-- Element (row, e) of an image in a format (R176). -/
def Hart.elem (h : Hart) (f : Fmt) (img row e : Nat) : Nat := bits img ((row * h.vlMax f + e) * f.width) f.width

/-- The bit at which element (row, e) of a format begins (R176). -/
def Hart.cellAt (h : Hart) (f : Fmt) (row e : Nat) : Nat := (row * h.vlMax f + e) * f.width

/-- ML: the mask row length (R177). -/
def Hart.maskRow (h : Hart) : Nat := 2 * h.cap / h.cfg.vrows

/-- Bit (row, e) of a mask image (R177). -/
def Hart.maskBit (h : Hart) (img row e : Nat) : Bool := bit img (row * h.maskRow + e)

/-- A mask in force: whether one was requested, its register and image, inversion, and ZM (R115). -/
structure Mask where
  on : Bool := false
  reg : Nat := 0
  img : Nat := 0
  inv : Bool := false
  zm : Bool := false
  deriving DecidableEq, Repr

/-- A mask register as a mask. -/
def Hart.maskReg (h : Hart) (m : Nat) (inv zm : Bool) : Mask := ⟨true, m, Sparse.get 0 h.vec.m m, inv, zm⟩

/-- The mask VMSK names (R115). -/
def Hart.vmskMask (h : Hart) : Mask :=
  h.maskReg (bits h.cfg.vmsk.toNat 0 3) (bit h.cfg.vmsk.toNat 3) (bit h.cfg.vmsk.toNat 4)

/-- The mask in force for a vector half (R112, R114). -/
def Hart.halfMask (h : Hart) (o : VHalf) : Mask :=
  if bit o.c.toNat 5 then
    match o.pfx with
    | some p => h.maskReg p.mr.toNat (p.mi = 1) (p.zm = 1)
    | none => h.vmskMask
  else {}

/-- The mask in force for an FM vector instruction (R115). -/
def Hart.fmMask (h : Hart) : Mask := if bit h.cfg.vmsk.toNat 5 then h.vmskMask else {}

/-- The mask in force for an FX vector instruction (R109). -/
def Hart.fxMask (h : Hart) (o : FX) : Mask := if o.m = 0 then {} else h.maskReg o.m.toNat false (o.z = 1)

/-- The mask selects a position (R115). -/
def Mask.sel (m : Mask) (h : Hart) (row e : Nat) : Bool := !m.on || (h.maskBit m.img row e != m.inv)

/-- The positions of the tile in force, in row-major order (R27). -/
def Hart.positions (h : Hart) : List (Nat × Nat) :=
  ((List.range h.cfg.vrows).map fun r => (List.range h.cfg.vl).map fun e => (r, e)).flatten

/-- The format in force for a vector half (R12, R114); TY is 4 bits and every nonzero value is a format. -/
def Hart.halfFmt (h : Hart) (o : VHalf) : Fmt :=
  match o.pfx with
  | some p => (Fmt.ofCode p.ty.toNat).getD h.cfg.vtype
  | none => h.cfg.vtype

/-- The mode of a code, FRM where the code is 0 (R59, R114). -/
def Hart.mode (h : Hart) (code : Nat) : RMode := (RMode.ofCode code).getD h.ar.frm

/-- The resolved rounding mode of a vector half (R59, R114). -/
def Hart.halfMode (h : Hart) (o : VHalf) : RMode :=
  match o.pfx with
  | some p => h.mode p.rm.toNat
  | none => h.ar.frm

/-- EV of a vector half (R112). -/
def evOf (o : VHalf) : Bool := match o.pfx with | some p => p.ev = 1 | none => false

/-- The fourth operand of a vector half (R112). -/
def fourth (o : VHalf) : Nat :=
  match o.pfx with
  | some p => if p.ev = 1 then p.e.toNat else o.c.toNat % 32
  | none => o.c.toNat % 32

/-! ## Conditions on operands (R209, R416) -/

/-- A vector register number at or above VNR (R119). -/
def Hart.badReg (h : Hart) (n : Nat) : Bool := decide (h.cfg.vnr ≤ n)

/-- A vector register that holds an uncorrectable error is read (R425, R426). -/
def Hart.regErr (h : Hart) (n : Nat) : List Cause :=
  when_ (Sparse.get false h.vec.verr n) { code := 0x23, sub := 0x03, tval := n, addr := n, rd := true }

/-- A mask register that holds an uncorrectable error is read (R425, R426). -/
def Hart.maskErr (h : Hart) (n : Nat) : List Cause :=
  when_ (Sparse.get false h.vec.merr n) { code := 0x23, sub := 0x03, tval := n, addr := n, rd := true }

/-- The conditions on the registers an instruction names: numbers, and errors in those it reads. -/
def Hart.regCauses (h : Hart) (dsts srcs : List Nat) : List Cause :=
  when_ ((dsts ++ srcs).any h.badReg) (operand 0x03) ++ (srcs.map h.regErr).flatten

/-- The conditions on the mask registers an instruction names. -/
def Hart.maskCauses (h : Hart) (dsts srcs : List Nat) : List Cause :=
  when_ ((dsts ++ srcs).any fun m => decide (8 ≤ m)) (operand 0x03) ++ (srcs.map h.maskErr).flatten

/-- The condition on the mask in force. -/
def Hart.maskInForce (h : Hart) (m : Mask) : List Cause := if m.on then h.maskErr m.reg else []

/-- VL above VLMAX of some format an instruction reads or writes (R178). -/
def Hart.shapeCauses (h : Hart) (fs : List Fmt) : List Cause :=
  when_ (fs.any fun f => decide (h.vlMax f < h.cfg.vl)) (operand 0x05)

/-! ## What a half writes -/

/-- Elements written to a vector register: the bit at which each begins, its width, and its value. -/
structure VWrite where
  reg : Nat
  cells : List (Nat × Nat × Nat)
  deriving DecidableEq, Repr

/-- Bits written to a mask register. -/
structure MWrite where
  reg : Nat
  cells : List (Nat × Bool)
  deriving DecidableEq, Repr

/-- What a half instruction leaves when it completes (R117). -/
structure HalfOut where
  xw : List (Nat × Word) := []
  vw : List VWrite := []
  mw : List MWrite := []
  raised : Raised := []
  /-- SRSEED steps (R61). -/
  srn : Bool := false
  /-- The matrix unit of the core, where the half changes it. -/
  mu : Option MatrixUnit := none
  /-- Flags that FTRAP does not see (R424). -/
  credit : Raised := []
  /-- Rows sent to the other members of a join (R227). -/
  rows : List JoinRow := []
  deriving DecidableEq, Repr

/-- What evaluating a half gives: the causes it raises, or what it leaves. -/
abbrev HalfRes := Except (List Cause) HalfOut

/-- An image with cells replaced. -/
def putCells (img : Nat) (cs : List (Nat × Nat × Nat)) : Nat := cs.foldl (fun i c => setBits i c.1 c.2.1 c.2.2) img

/-- The high-water mark after bits up to hb have been written (R352). -/
def waterMark (old hb : Nat) : Nat := max old (64 * ceilDiv (ceilDiv hb 8) 64)

/-- A vector register written: image, high-water mark, and error mark (R182, R352, R427). -/
def Hart.putV (h : Hart) (w : VWrite) : Hart :=
  if w.cells = [] then h
  else
    let hb := w.cells.foldl (fun m c => max m (c.1 + c.2.1)) 0
    let all := w.cells.foldl (fun n c => n + c.2.1) 0
    { h with
      vec := { h.vec with
        v := Sparse.upd 0 h.vec.v w.reg fun i => putCells i w.cells,
        vhw := Sparse.upd 0 h.vec.vhw w.reg fun o => waterMark o hb,
        verr := if all = 8 * h.cap then Sparse.set false h.vec.verr w.reg false else h.vec.verr } }

/-- A mask register written (R177, R352, R427). -/
def Hart.putM (h : Hart) (w : MWrite) : Hart :=
  if w.cells = [] then h
  else
    { h with
      vec := { h.vec with
        m := Sparse.upd 0 h.vec.m w.reg fun i => w.cells.foldl (fun i c => setBit i c.1 c.2) i,
        mset := Sparse.set false h.vec.mset w.reg true,
        merr := if w.cells.length = 2 * h.cap then Sparse.set false h.vec.merr w.reg false else h.vec.merr } }

/-- SRSEED after an instruction that rounds under SRN (R61). -/
def Arith.stepSeed (a : Arith) (b : Bool) : Arith := if b then { a with srseed := seedStep a.srseed } else a

/-- Leader rows that have reached the n cores above a core, in issue order (R227). -/
def State.sendRows (s : State) (core : Nat) (n : Nat) (rows : List JoinRow) : State :=
  if rows = [] then s
  else (List.range n).foldl (fun s i =>
    s.updCore (core + 1 + i) fun c => { c with mu := { c.mu with rows := c.mu.rows ++ rows } }) s

/-- The state with what a half leaves written (R11, R117). -/
def State.commit (s : State) (o : HalfOut) : State :=
  let h := o.vw.foldl Hart.putV s.h
  let h := o.mw.foldl Hart.putM h
  let h := o.xw.foldl (fun h w => h.setX w.1 w.2) h
  let s := { s with h := { h with ar := ((h.ar.credit o.raised).credit o.credit).stepSeed o.srn } }
  match o.mu with
  | none => s
  | some m => (s.updCore s.h.coreKey fun c => { c with mu := m }).sendRows s.h.coreKey (m.jn - 1) o.rows

/-- The causes of a half with the arithmetic trap it would take (R423). -/
def State.withTraps (s : State) (r : HalfRes) : HalfRes :=
  match r with
  | .error cs => .error cs
  | .ok o => match flagCause s.h.ar.ftrap o.raised with
    | [] => .ok o
    | cs => .error cs

/-- A half that issues alone (R106, R118): the trap it takes, or its effect and the next word. A half in a pair word
lies in slot A; under a prefix the word holds no pair (R173). -/
def runHalf (s : State) (inPair : Bool) (r : HalfRes) : Out :=
  match s.withTraps r with
  | .error cs => .next (s.raise ((minCause cs).getD { code := 0 }) inPair false)
  | .ok o => .next ((s.commit o).advance 8)

/-- A scalar half that issues alone. -/
def runScalarHalf (s : State) (r : HalfRes) : Out := runHalf s true r

/-- A vector half that issues alone. -/
def runVectorHalf (o : VHalf) (s : State) (r : HalfRes) : Out := runHalf s o.pfx.isNone r

/-- A full vector instruction whose effect is that of a half: the trap it takes, or its effect and the next word. -/
def runFull (s : State) (r : HalfRes) : Out :=
  match s.withTraps r with
  | .error cs => .next (s.raise ((minCause cs).getD { code := 0 }) false false)
  | .ok o => .next ((s.commit o).advance 8)

/-! ## Tensor entries -/

/-- The fields of a tensor entry (R74). -/
structure Tensor where
  space : Nat
  base : Nat
  v : Bool
  spitch : Nat
  rank : Nat
  sc : Bool
  layout : Nat
  fmt : Nat
  dims : List Nat
  strides : List Nat
  scb : Nat
  deriving DecidableEq, Repr

/-- Word i of a tensor entry. -/
def tensorWord (e : BitVec 512) (i : Nat) : Nat := bits e.toNat (64 * i) 64

/-- A tensor entry read by its fields; a dimension beyond the rank counts as extent 1 (R74). -/
def tensorOf (e : BitVec 512) : Tensor :=
  let w := tensorWord e
  let rank := bits (w 1) 10 2 + 1
  let dim := fun (i v : Nat) => if i < rank then v else 1
  { space := bits (w 0) 62 2, base := bits (w 0) 0 57, v := bit (w 1) 63, spitch := bits (w 1) 16 32, rank := rank,
    sc := bit (w 1) 9, layout := bits (w 1) 4 4, fmt := bits (w 1) 0 4,
    dims := [dim 0 (bits (w 2) 0 32), dim 1 (bits (w 2) 32 32), dim 2 (bits (w 3) 0 32), dim 3 (bits (w 3) 32 32)],
    strides := [bits (w 4) 0 48, bits (w 5) 0 48, bits (w 6) 0 48], scb := bits (w 7) 0 57 }

/-- A tensor entry with its reserved fields zero, as TGET writes it (R208). -/
def tensorImage (e : BitVec 512) : Nat :=
  let w := tensorWord e
  let keep := fun (i : Nat) => match i with
    | 0 => setBits (w 0) 57 5 0
    | 1 => setBits (setBits (setBits (w 1) 48 15 0) 12 4 0) 8 1 0
    | 4 | 5 | 6 => bits (w i) 0 48
    | 7 => bits (w 7) 0 57
    | _ => w i
  (List.range 8).foldr (fun i r => keep i + 2 ^ 64 * r) 0

/-- The format of an entry; s8 stands for the code 0 that R77 refuses. -/
def Tensor.format (t : Tensor) : Fmt := (Fmt.ofCode t.fmt).getD .s8

/-- Extent i. -/
def Tensor.dim (t : Tensor) (i : Nat) : Nat := t.dims.getD i 1

/-- Byte stride of dimension i + 1; 0 beyond the rank, where the only index is 0. -/
def Tensor.st (t : Tensor) (i : Nat) : Nat := if i + 1 < t.rank then t.strides.getD i 0 else 0

/-- Rows of a block of a tiled layout, and the bytes of a block (R75). -/
def Tensor.tileRows (t : Tensor) : Nat := if t.layout = 1 then 16 else 12

/-- The SUB of TENSOR for an entry that breaks R77 (R419); the first condition in the order of the table. -/
def Tensor.broken (t : Tensor) : Option Nat :=
  let w := t.format.width
  if !t.v then some 0x01
  else if t.fmt = 0 ∨ 3 ≤ t.layout then some 0x02
  else if t.sc && decide (t.fmt < 12) then some 0x03
  else if 8 ≤ w ∧ t.base % (w / 8) ≠ 0 then some 0x04
  else if t.layout ≠ 0 ∧ (t.base % 64 ≠ 0 ∨ (2 ≤ t.rank ∧
      (t.strides.getD 0 0 % 64 ≠ 0 ∨ t.strides.getD 0 0 < ceilDiv (t.dim 0 * w) 512 * (64 * t.tileRows)))) then some 0x05
  else if t.space = 3 then some 0x06
  else none

/-- The cause of an entry that breaks R77 (R419). -/
def tensorCauses (id : Nat) (t : Tensor) : List Cause :=
  match t.broken with
  | none => []
  | some sub => [{ code := 0x11, sub := sub, index := id }]

/-- The offset in bits of element (i0, i1, i2, i3) from BASE (R53, R75). -/
def Tensor.offset (t : Tensor) (i0 i1 i2 i3 : Nat) : Nat :=
  let w := t.format.width
  let o := i0 * w
  let outer := i2 * t.st 1 + i3 * t.st 2
  match t.layout with
  | 0 => o + 8 * (i1 * t.st 0 + outer)
  | _ =>
    let r := t.tileRows
    8 * (i1 / r * t.st 0 + o / 512 * (64 * r) + i1 % r * 64 + outer) + o % 512

/-- The offset of the scale byte of an element from SCB (R76). -/
def Tensor.scaleOffset (t : Tensor) (i0 i1 i2 i3 : Nat) : Nat :=
  (i1 + t.dim 1 * (i2 + t.dim 2 * i3)) * t.spitch + i0 / 32

/-- An element lies within every extent (R207). -/
def Tensor.within (t : Tensor) (i0 i1 i2 i3 : Nat) : Bool :=
  decide (i0 < t.dim 0) && decide (i1 < t.dim 1) && decide (i2 < t.dim 2) && decide (i3 < t.dim 3)

/-- Tensor entry k of a hart (R73). -/
def Hart.tensor (h : Hart) (k : Nat) : Tensor := tensorOf (Sparse.get 0 h.tensors k)

end Sys2Proof.Machine
end

