-- ==== Sys2Proof/Machine/Scalar.lean ====
section
/-!
DEFINITION. The scalar halves and the scalar immediate instructions (R142 to R145).
-/
namespace Sys2Proof.Machine

/-- b of a scalar half: x[B], or B sign-extended (R111, R142). -/
def State.halfB (s : State) (o : Half) : Word := if bit o.c.toNat 5 then o.b.signExtend 64 else s.x o.b

/-- What a scalar half leaves: its result in x[D], and no flag (R142). -/
def scalarRes (o : Half) (v : Word) : HalfRes := .ok { xw := [(o.d.toNat, v)] }

/-- The quotient of R143 truncated toward zero, with the cases of R144. -/
def divSigned (a b : Word) : Word := if b = 0 then BitVec.allOnes 64 else BitVec.ofInt 64 (a.toInt.tdiv b.toInt)

/-- b[5:0] (R144). -/
def shiftOf (b : Word) : Nat := b.toNat % 64

/-- 1 or 0 in a register. -/
def flagWord (b : Bool) : Word := if b then 1 else 0

/-! ## Scalar halves -/

/-- What ADD leaves (R143). -/
def evalAdd (o : Half) (s : State) : HalfRes :=
  let a := s.x o.a
  let b := s.halfB o
  scalarRes o (a + b)

/-- ADD (R143). -/
def execAdd (o : Half) (s : State) : Out := runScalarHalf s (evalAdd o s)

/-- What SUB leaves (R143). -/
def evalSub (o : Half) (s : State) : HalfRes :=
  let a := s.x o.a
  let b := s.halfB o
  scalarRes o (a - b)

/-- SUB (R143). -/
def execSub (o : Half) (s : State) : Out := runScalarHalf s (evalSub o s)

/-- What MUL leaves (R143). -/
def evalMul (o : Half) (s : State) : HalfRes :=
  let a := s.x o.a
  let b := s.halfB o
  scalarRes o (a * b)

/-- MUL (R143). -/
def execMul (o : Half) (s : State) : Out := runScalarHalf s (evalMul o s)

/-- What MULH leaves (R143). -/
def evalMulh (o : Half) (s : State) : HalfRes :=
  let a := s.x o.a
  let b := s.halfB o
  scalarRes o (BitVec.ofInt 64 (a.toInt * b.toInt / 2 ^ 64))

/-- MULH (R143). -/
def execMulh (o : Half) (s : State) : Out := runScalarHalf s (evalMulh o s)

/-- What MULHZ leaves (R143). -/
def evalMulhz (o : Half) (s : State) : HalfRes :=
  let a := s.x o.a
  let b := s.halfB o
  scalarRes o (BitVec.ofNat 64 (a.toNat * b.toNat / 2 ^ 64))

/-- MULHZ (R143). -/
def execMulhz (o : Half) (s : State) : Out := runScalarHalf s (evalMulhz o s)

/-- What DIV leaves (R143, R144). -/
def evalDiv (o : Half) (s : State) : HalfRes :=
  let a := s.x o.a
  let b := s.halfB o
  scalarRes o (divSigned a b)

/-- DIV (R143, R144). -/
def execDiv (o : Half) (s : State) : Out := runScalarHalf s (evalDiv o s)

/-- What DIVZ leaves (R143, R144). -/
def evalDivz (o : Half) (s : State) : HalfRes :=
  let a := s.x o.a
  let b := s.halfB o
  scalarRes o (if b = 0 then BitVec.allOnes 64 else BitVec.ofNat 64 (a.toNat / b.toNat))

/-- DIVZ (R143, R144). -/
def execDivz (o : Half) (s : State) : Out := runScalarHalf s (evalDivz o s)

/-- What REM leaves (R143, R144). -/
def evalRem (o : Half) (s : State) : HalfRes :=
  let a := s.x o.a
  let b := s.halfB o
  scalarRes o (if b = 0 then a else a - b * divSigned a b)

/-- REM (R143, R144). -/
def execRem (o : Half) (s : State) : Out := runScalarHalf s (evalRem o s)

/-- What REMZ leaves (R143, R144). -/
def evalRemz (o : Half) (s : State) : HalfRes :=
  let a := s.x o.a
  let b := s.halfB o
  scalarRes o (if b = 0 then a else BitVec.ofNat 64 (a.toNat % b.toNat))

/-- REMZ (R143, R144). -/
def execRemz (o : Half) (s : State) : Out := runScalarHalf s (evalRemz o s)

/-- What AND leaves (R143). -/
def evalAnd (o : Half) (s : State) : HalfRes :=
  let a := s.x o.a
  let b := s.halfB o
  scalarRes o (a &&& b)

/-- AND (R143). -/
def execAnd (o : Half) (s : State) : Out := runScalarHalf s (evalAnd o s)

/-- What OR leaves (R143). -/
def evalOr (o : Half) (s : State) : HalfRes :=
  let a := s.x o.a
  let b := s.halfB o
  scalarRes o (a ||| b)

/-- OR (R143). -/
def execOr (o : Half) (s : State) : Out := runScalarHalf s (evalOr o s)

/-- What XOR leaves (R143). -/
def evalXor (o : Half) (s : State) : HalfRes :=
  let a := s.x o.a
  let b := s.halfB o
  scalarRes o (a ^^^ b)

/-- XOR (R143). -/
def execXor (o : Half) (s : State) : Out := runScalarHalf s (evalXor o s)

/-- What SHL leaves (R143, R144). -/
def evalShl (o : Half) (s : State) : HalfRes :=
  let a := s.x o.a
  let b := s.halfB o
  scalarRes o (a <<< shiftOf b)

/-- SHL (R143, R144). -/
def execShl (o : Half) (s : State) : Out := runScalarHalf s (evalShl o s)

/-- What SHR leaves (R143, R144). -/
def evalShr (o : Half) (s : State) : HalfRes :=
  let a := s.x o.a
  let b := s.halfB o
  scalarRes o (a >>> shiftOf b)

/-- SHR (R143, R144). -/
def execShr (o : Half) (s : State) : Out := runScalarHalf s (evalShr o s)

/-- What SRA leaves (R143, R144). -/
def evalSra (o : Half) (s : State) : HalfRes :=
  let a := s.x o.a
  let b := s.halfB o
  scalarRes o (a.sshiftRight (shiftOf b))

/-- SRA (R143, R144). -/
def execSra (o : Half) (s : State) : Out := runScalarHalf s (evalSra o s)

/-- What MIN leaves (R143). -/
def evalMin (o : Half) (s : State) : HalfRes :=
  let a := s.x o.a
  let b := s.halfB o
  scalarRes o (if a.toInt < b.toInt then a else b)

/-- MIN (R143). -/
def execMin (o : Half) (s : State) : Out := runScalarHalf s (evalMin o s)

/-- What MAX leaves (R143). -/
def evalMax (o : Half) (s : State) : HalfRes :=
  let a := s.x o.a
  let b := s.halfB o
  scalarRes o (if a.toInt < b.toInt then b else a)

/-- MAX (R143). -/
def execMax (o : Half) (s : State) : Out := runScalarHalf s (evalMax o s)

/-- What MINZ leaves (R143). -/
def evalMinz (o : Half) (s : State) : HalfRes :=
  let a := s.x o.a
  let b := s.halfB o
  scalarRes o (if a.toNat < b.toNat then a else b)

/-- MINZ (R143). -/
def execMinz (o : Half) (s : State) : Out := runScalarHalf s (evalMinz o s)

/-- What MAXZ leaves (R143). -/
def evalMaxz (o : Half) (s : State) : HalfRes :=
  let a := s.x o.a
  let b := s.halfB o
  scalarRes o (if a.toNat < b.toNat then b else a)

/-- MAXZ (R143). -/
def execMaxz (o : Half) (s : State) : Out := runScalarHalf s (evalMaxz o s)

/-- What SLT leaves (R143). -/
def evalSlt (o : Half) (s : State) : HalfRes :=
  let a := s.x o.a
  let b := s.halfB o
  scalarRes o (flagWord (decide (a.toInt < b.toInt)))

/-- SLT (R143). -/
def execSlt (o : Half) (s : State) : Out := runScalarHalf s (evalSlt o s)

/-- What SLTZ leaves (R143). -/
def evalSltz (o : Half) (s : State) : HalfRes :=
  let a := s.x o.a
  let b := s.halfB o
  scalarRes o (flagWord (decide (a.toNat < b.toNat)))

/-- SLTZ (R143). -/
def execSltz (o : Half) (s : State) : Out := runScalarHalf s (evalSltz o s)

/-- What CLZ leaves (R143). -/
def evalClz (o : Half) (s : State) : HalfRes :=
  let a := s.x o.a
  scalarRes o (BitVec.ofNat 64 (Machine.clz 64 a.toNat))

/-- CLZ (R143). -/
def execClz (o : Half) (s : State) : Out := runScalarHalf s (evalClz o s)

/-- What CTZ leaves (R143). -/
def evalCtz (o : Half) (s : State) : HalfRes :=
  let a := s.x o.a
  scalarRes o (BitVec.ofNat 64 (Machine.ctz 64 a.toNat))

/-- CTZ (R143). -/
def execCtz (o : Half) (s : State) : Out := runScalarHalf s (evalCtz o s)

/-- What POPC leaves (R143). -/
def evalPopc (o : Half) (s : State) : HalfRes :=
  let a := s.x o.a
  scalarRes o (BitVec.ofNat 64 (popCount 64 a.toNat))

/-- POPC (R143). -/
def execPopc (o : Half) (s : State) : Out := runScalarHalf s (evalPopc o s)

/-- What SEL leaves (R143). -/
def evalSel (o : Half) (s : State) : HalfRes :=
  scalarRes o (if s.h.getX (o.c.toNat % 32) ≠ 0 then s.x o.a else s.halfB o)

/-- SEL (R143). -/
def execSel (o : Half) (s : State) : Out := runScalarHalf s (evalSel o s)

/-- What NOP leaves (R121). -/
def evalNop : HalfRes := .ok {}

/-- NOP (R121). -/
def execNop (s : State) : Out := runScalarHalf s evalNop

/-! ## Scalar immediate instructions -/

/-- A full instruction's result in x[D], and the next word. -/
def State.result (s : State) (d : Field) (v : Word) : Out := .next ((s.setX d v).advance 8)

/-- ADDI (R145). -/
def execAddi (o : FI) (s : State) : Out := s.result o.d (s.x o.a + sext32 o.imm)

/-- ANDI (R145). -/
def execAndi (o : FI) (s : State) : Out := s.result o.d (s.x o.a &&& sext32 o.imm)

/-- ORI (R145). -/
def execOri (o : FI) (s : State) : Out := s.result o.d (s.x o.a ||| sext32 o.imm)

/-- XORI (R145). -/
def execXori (o : FI) (s : State) : Out := s.result o.d (s.x o.a ^^^ sext32 o.imm)

/-- SHLI (R145). -/
def execShli (o : FI) (s : State) : Out := s.result o.d (s.x o.a <<< (o.imm.toNat % 64))

/-- SHRI (R145). -/
def execShri (o : FI) (s : State) : Out := s.result o.d (s.x o.a >>> (o.imm.toNat % 64))

/-- SRAI (R145). -/
def execSrai (o : FI) (s : State) : Out := s.result o.d ((s.x o.a).sshiftRight (o.imm.toNat % 64))

/-- SLTI (R145). -/
def execSlti (o : FI) (s : State) : Out := s.result o.d (flagWord (decide ((s.x o.a).toInt < (sext32 o.imm).toInt)))

/-- LI (R145). -/
def execLi (o : FI) (s : State) : Out := s.result o.d (sext32 o.imm)

/-- LIH (R145). -/
def execLih (o : FI) (s : State) : Out := s.result o.d (word (o.imm.toNat * 2 ^ 32 + (s.x o.a).toNat % 2 ^ 32))

/-- ADDPC (R145). -/
def execAddpc (o : FI) (s : State) : Out := s.result o.d (s.h.pc + sext32 o.imm)

end Sys2Proof.Machine
end

