-- ==== Sys2Proof/Machine/Strips.lean ====
section
/-!
DEFINITION. Strips found by launch and index, wherever they stand; records raised away from a hart (R395, R402, R446); and
the tile memory that accepted work holds (R94, R265).
-/
namespace Sys2Proof.Machine

/-- The hart that runs a strip, by key. -/
def State.hartOf (s : State) (launch strip : Nat) : Option Nat :=
  (s.running.find? fun p => p.2.launch = some launch && p.2.stripId.toNat = strip).map (·.1)

/-- The context of a swapped-out strip, by number. -/
def State.contextOf (s : State) (launch strip : Nat) : Option Nat :=
  s.contexts.findIdx? fun c => c.live && c.out && c.launch = launch && c.strip = strip

/-- The state with a strip's hart, or its saved hart, changed (R315). -/
def State.updStrip (s : State) (launch strip : Nat) (f : Hart → Hart) : State :=
  match s.hartOf launch strip with
  | some k => s.updHart k f
  | none => match s.contextOf launch strip with
    | some c => { s with contexts := s.contexts.modify c fun x => { x with hart := f x.hart } }
    | none => s

/-- An imprecise record held for a strip (R395): held by its hart, or written to its launch's ring with OVF to come. -/
def State.holdFor (s : State) (launch strip : Nat) (fr : FaultRec) : State :=
  match s.hartOf launch strip with
  | some k => s.holdRecord k fr
  | none => (s.ringRecord (s.launchRing (some launch)) fr).updStrip launch strip fun h => { h with ovf := true }

/-- Whether the launch of a hart has GANG (R44). -/
def State.isGang (s : State) (h : Hart) : Bool :=
  match h.launch with
  | none => false
  | some l => match s.launches[l]? with
    | none => false
    | some x => x.gang

/-- A hart that is asked to let its strip leave at a boundary (R349); a frozen one stays (R396). -/
def Hart.ask (h : Hart) : Hart := if h.frozen then h else { h with preempt := true, forPark := none }

/-- The strip of a hart is asked to leave: under GANG every strip of its farm (R44, R343, R349). -/
def State.askOut (s : State) (k : Nat) : State :=
  let h := s.hartAt k
  if s.isGang h then s.preemptLaunch (h.launch.getD 0) (2 ^ 64) else s.updHart k Hart.ask

/-- Two ranges of physical addresses share a byte. -/
def rangesMeet (a b : Nat × Nat) : Bool := decide (a.1 < b.1 + b.2) && decide (b.1 < a.1 + a.2)

/-- Accepted commands and live sessions name a byte of a range (R94, R265). -/
def State.rangeNamed (s : State) (base len : Nat) : Bool :=
  (s.cores.any fun c => c.2.eng.any fun e => match e.2 with
    | some m => m.ranges.any (rangesMeet (base, len))
    | none => false)
    || s.nets.any fun n => match n.2.sess with
      | some x => x.ranges.any (rangesMeet (base, len)) || x.feeds.any fun f => f.ranges.any (rangesMeet (base, len))
      | none => false

/-- Whether the access of a command to an address is checked: in its strip's window by RCHK as it was at acceptance (R333,
R334). -/
def State.cmdChecked (s : State) (c : Cmd) (pa : Nat) : Bool :=
  if c.win.1 ≤ pa ∧ pa < c.win.1 + c.win.2 then c.rchk else s.windowChecked pa

/-- The record with a release and an acquire that always synchronises with it, where their agents share its scope (R328). -/
def State.recordAfter (s : State) (rel acq : Ev) : State :=
  let s := s.record rel
  let shared := sharesScope rel.agent rel.place acq.agent acq.place rel.scope
  s.record { acq with sync := if s.trace = [] ∨ !shared then [] else [s.trace.length - 1] }

/-- Tile memory cleared as its window is given up (R94). -/
def State.clearTile (s : State) (base len : Nat) : State :=
  let keep := fun (k : Nat) => decide (k < base) || decide (base + len ≤ k)
  { s with
    mem := s.mem.filter fun c => keep c.1,
    poison := s.poison.filter fun c => keep (32 * c.1) }

/-- The windows of a core whose strips have ended are given up once nothing names them (R94). -/
def State.settleWindows (s : State) (core : Nat) : State :=
  let place := fun (w : Nat × Nat × Option Nat) => (tileBase (core / 64) (core % 64) + 4096 * w.1, 4096 * w.2.1)
  let gone := (s.coreAt core).windows.filter fun w => w.2.2.isNone && !s.rangeNamed (place w).1 (place w).2
  gone.foldl (fun s w =>
    (s.clearTile (place w).1 (place w).2).updCore core fun c => { c with windows := c.windows.erase w }) s

/-- Every core's windows whose strips have ended are given up once nothing names them (R94). -/
def State.settleAll (s : State) : State := s.cores.foldl (fun t c => t.settleWindows c.1) s

/-- The event of a piece that an agent of the device performs; chk says whether an access to an address is checked (R333). -/
def deviceEv (a : Agent) (place : Nat) (wr : Bool) (chk : Nat → Bool) (p : Nat × Nat) : Ev :=
  { agent := a, place := place, rd := !wr, wr := wr, tile := isTile p.1, checked := chk p.1, lo := p.1, hi := p.1 + p.2 }

/-- Why an agent of the device cannot access a range: the memory CODE (none: it freezes), with the state it leaves (R396,
R446, R448). -/
def State.deviceFault (s : State) (a : Agent) (place : Nat) (chk : Nat → Bool) (wr : Bool) (key pa n : Nat) :
    Option (Option Nat × State) :=
  match s.reachRange key pa n with
  | some .key => some (none, s)
  | some f => some (some (f.cause false).1, s)
  | none =>
    if !wr && s.rangePoisoned pa n then some (some 0x23, s)
    else
      (piecesOf pa n).findSome? fun p =>
        match raceOf s (deviceEv a place wr chk p) with
        | some (k, _, _) => some (some 0x24, s.markReported k)
        | none => none

/-- The record of the pieces that an agent of the device performs in a range (R324). -/
def State.recordDevice (s : State) (a : Agent) (place : Nat) (chk : Nat → Bool) (wr : Bool) (pa n : Nat) : State :=
  (piecesOf pa n).foldl (fun s p => s.record (deviceEv a place wr chk p)) s

/-- The next number for work that is accepted. -/
def State.fresh (s : State) : Nat × State := (s.serial, { s with serial := s.serial + 1 })

end Sys2Proof.Machine
end

