-- ==== Sys2Proof/Machine/VecConfig.lean ====
section
/-!
DEFINITION. Shape configuration: VCFG, VSETL and VSETT (R30 to R32, R179 to R181, R209).
-/
namespace Sys2Proof.Machine

/-- A unit that meets conditions: the trap of the lowest, or the outcome given. -/
def orTrap (s : State) (cs : List Cause) (o : Out) : Out :=
  match minCause cs with
  | some c => trapNow s c
  | none => o

/-- Every vector and mask register zero in all bit positions, VL = 0, and VROWS within VROWSMAX (R30). -/
def Hart.clearVectors (h : Hart) : Hart :=
  { h with vec := {}, cfg := { h.cfg with vl := 0, vrows := min h.cfg.vrows (h.vrowsMax h.cfg.vtype) } }

/-- VNR of a code of NRC (R30, R33). -/
def vnrOf (code : Nat) : Nat := 8 * 2 ^ code

/-- VCFG (R30, R179). -/
def execVcfg (o : FI) (s : State) : Out :=
  orTrap s (when_ (o.d != 0 || o.a != 0 || o.f != 0 || decide (4 ≤ o.imm.toNat)) (operand 0x01))
    (.next (({ s with
      h := ({ s.h with cfg := { s.h.cfg with vnr := vnrOf (o.imm.toNat % 4) } }).clearVectors }).advance 8))

/-- The PSPLIT entry of a slot without its reserved bits (R31). -/
def psplitEntry (p : BitVec 64) (slot : Nat) : BitVec 8 := p.extractLsb' (8 * slot) 8 &&& 0xE7#8

/-- An entry is enabled (R31). -/
def entryOn (e : BitVec 8) : Bool := bit e.toNat 7

/-- The lane groups of an entry as a set (R31). -/
def entryGroups (e : BitVec 8) : Nat :=
  if entryOn e then (2 ^ 2 ^ bits e.toNat 5 2 - 1) * 2 ^ bits e.toNat 0 3 else 0

/-- The lane groups that a hart holds: none while it waits for those of a new entry (R32). -/
def Hart.groups (h : Hart) : Nat := if h.groupless then 0 else entryGroups h.part

/-- The harts of the package that hold a strip, by key, without the one that issues. -/
def State.others (s : State) : List (Nat × Hart) := s.harts.filter fun p => p.2.launch.isSome && p.1 != s.h.key

/-- The lane groups of the hart's core that other harts hold (R32). -/
def State.heldGroups (s : State) : Nat :=
  (s.others.filter fun p => p.2.coreKey = s.h.coreKey).foldl (fun g p => g ||| p.2.groups) 0

/-- A hart that has taken a partition: the entry in force, vector state zero (R32). -/
def Hart.takePartition (h : Hart) (e : BitVec 8) : Hart := ({ h with part := e, groupless := false }).clearVectors

/-- The grant of VSETL (R180). -/
def grantLength (o : FI) (q : Nat) (s : State) : Out :=
  let vl := min q (s.h.vlMax s.h.cfg.vtype)
  .next ((({ s with h := { s.h with cfg := { s.h.cfg with vl := vl } } }).setX o.d (word vl)).advance 8)

/-- The request of VSETL: x[A] or IMM (R180). -/
def vsetlRequest (o : FI) (s : State) : Nat := if o.f = 0 then (s.x o.a).toNat else o.imm.toNat

/-- VSETL (R32, R180): a pending change of the hart's PSPLIT entry is applied first. A hart that waits for lane groups has given up
its own and executes the VSETL again; until it takes the new ones its vector state stands, and a swap-out saves that state
(DESIGN CHOICE: log entry 47). F of 2 or more raises SUB 0x01 (DESIGN CHOICE: log entry 48). -/
def execVsetl (o : FI) (s : State) : Out :=
  let entry := psplitEntry s.core.psplit s.h.slot
  orTrap s (when_ (decide (2 ≤ o.f.toNat) || (o.f = 0 && o.imm != 0) || (o.f = 1 && o.a != 0)) (operand 0x01))
    (if entry = s.h.part ∧ !s.h.groupless then grantLength o (vsetlRequest o s) s
    else if !entryOn entry then .next (s.askOut s.h.key)
    else if s.heldGroups &&& entryGroups entry ≠ 0 then .next { s with h := { s.h with groupless := true, stalled := s.h.stalled && s.h.groupless } }
    else grantLength o (vsetlRequest o s) { s with h := s.h.takePartition entry })

/-- The row request of VSETT: x[A] or IMM[14:8] (R181). -/
def vsettRequest (o : FI) (s : State) : Nat := if o.f = 0 then (s.x o.a).toNat else bits o.imm.toNat 8 7

/-- VSETT (R181); F of 2 or more raises SUB 0x01, and a format code of 0 raises SUB 0x04, where R416 could give 0x02 (DESIGN CHOICE:
log entry 48). -/
def execVsett (o : FI) (s : State) : Out :=
  let bad := decide (2 ≤ o.f.toNat) || bits o.imm.toNat 4 4 != 0 || bits o.imm.toNat 15 17 != 0
    || (o.f = 0 && bits o.imm.toNat 8 7 != 0) || (o.f = 1 && o.a != 0)
  match Fmt.ofCode (o.imm.toNat % 16) with
  | none => orTrap s (when_ bad (operand 0x01) ++ [operand 0x04]) (.next s)
  | some f =>
    let rows := min (max (vsettRequest o s) 1) (s.h.vrowsMax f)
    let vl := min s.h.cfg.vl (s.h.vlMaxAt f rows)
    orTrap s (when_ bad (operand 0x01))
      (.next ((({ s with h := { s.h with cfg := { s.h.cfg with vtype := f, vrows := rows, vl := vl } } }).setX o.d
        (word rows)).advance 8))

end Sys2Proof.Machine
end

