-- ==== Sys2Proof/Machine/Float.lean ====
section
/-!
DEFINITION. Exact values and RoundF (R51 to R66). A finite value is a sign, a magnitude and a power of two; a result
that is no such number (a quotient, a root, a special function) is given to 64 bits or more with its last bit set to one,
which keeps every comparison RoundF makes.
-/
namespace Sys2Proof.Machine

/-- A value of a floating-point format: NaN (signalling or not), infinity, or (-1)^neg * m * 2^e. -/
inductive FVal where
  | nan (signalling : Bool)
  | inf (neg : Bool)
  | fin (neg : Bool) (m : Nat) (e : Int)
  deriving DecidableEq, Repr

/-- m * 2^k for an integer k that is not negative. -/
def shl (m : Nat) (k : Int) : Nat := m * 2 ^ k.toNat

/-- Comparison of m1 * 2^e1 with m2 * 2^e2. -/
def cmpMag (m1 : Nat) (e1 : Int) (m2 : Nat) (e2 : Int) : Ordering :=
  let e := min e1 e2
  compare (shl m1 (e1 - e)) (shl m2 (e2 - e))

/-- The number of leading equal bits of a k8 magnitude, from bit 6 down (R54). -/
def k8Run (b : Bool) : Nat → Nat → Nat
  | 0, _ => 0
  | n + 1, v => if bit v n = b then 1 + k8Run b n v else 0

/-- The value of a k8 magnitude code from 1 to 127 (R54). -/
def k8Mag (v : Nat) : Nat × Int :=
  let b := bit v 6
  let l := k8Run b 7 v
  let k : Int := if b then (l : Int) - 1 else -(l : Int)
  let r := 6 - l
  if r = 0 then (1, 2 * k)
  else
    let e : Nat := bits v (r - 1) 1
    (2 ^ (r - 1) + v % 2 ^ (r - 1), 2 * k + e - ((r - 1 : Nat) : Int))

/-- The value of a magnitude code of a format of R51: m and e of m * 2^e. -/
def magValue (p : FParam) (c : Nat) : Nat × Int :=
  let ex := c / 2 ^ p.frac
  let fr := c % 2 ^ p.frac
  if ex = 0 then (fr, 1 - (p.bias : Int) - p.frac)
  else (2 ^ p.frac + fr, (ex : Int) - p.bias - p.frac)

/-- The value of an element pattern (R50, R51, R52, R54). -/
def decodeF (f : Fmt) (v : Nat) : FVal :=
  match f with
  | .k8 =>
    let mag := v % 128
    if mag = 0 then (if bit v 7 then .nan false else .fin false 0 0)
    else let (m, e) := k8Mag mag; .fin (bit v 7) m e
  | .e2m1 => let (m, e) := magValue f.param (v % 8); .fin (bit v 3) m e
  | .e4m3 =>
    if v % 128 = 127 then .nan false
    else let (m, e) := magValue f.param (v % 128); .fin (bit v 7) m e
  | .f32 | .bf16 | .f16 | .e5m2 =>
    let p := f.param
    let mag := v % 2 ^ (f.width - 1)
    let neg := bit v (f.width - 1)
    if mag < f.infMag then let (m, e) := magValue p mag; .fin neg m e
    else if mag = f.infMag then .inf neg
    else .nan (decide (f ≠ .e5m2) && !bit mag (p.frac - 1))
  | .s8 | .s16 | .s32 | .s64 | .z8 | .z16 | .z32 | .z64 =>
    let i := f.toInt v
    .fin (decide (i < 0)) i.natAbs 0

/-- Whether the magnitude goes to the upper neighbour: rem/den is the distance from the lower one (R59, R61). -/
def roundUp (rm : RMode) (neg odd : Bool) (rem den draw : Nat) : Bool :=
  match rm with
  | .rne => decide (den < 2 * rem) || (decide (2 * rem = den) && odd)
  | .rtz => false
  | .rdn => neg && decide (0 < rem)
  | .rup => !neg && decide (0 < rem)
  | .rna => decide (den ≤ 2 * rem)
  | .srn => decide (draw < rem * 2 ^ 24 / den)

/-- m * 2^e over the quantum 2^q: the integer part, the remainder and its denominator. -/
def splitAt (m : Nat) (e q : Int) : Nat × Nat × Nat :=
  if q ≤ e then (shl m (e - q), 0, 1)
  else
    let d := 2 ^ (q - e).toNat
    (m / d, m % d, d)

/-- The pattern with the sign bit of the format's width. -/
def withSign (f : Fmt) (neg : Bool) (mag : Nat) : Nat := (if neg then 2 ^ (f.width - 1) else 0) + mag

/-- The result of a finite overflow (R64): IEEE rounding gives infinity in the modes that do not round toward zero. -/
def overflowF (f : Fmt) (rm : RMode) (sat neg : Bool) : Nat × Flags :=
  let toInf : Bool := match rm with
    | .rne | .rna => true
    | .rtz | .srn => false
    | .rdn => neg
    | .rup => !neg
  let mag := match f with
    | .e2m1 => f.param.maxMag
    | .e4m3 => if sat then f.param.maxMag else if toInf then 0x7F else f.param.maxMag
    | .e5m2 => if sat then f.param.maxMag else if toInf then f.infMag else f.param.maxMag
    | _ => if toInf then f.infMag else f.param.maxMag
  (withSign f neg mag, Flag.of ||| Flag.nx)

/-- RoundF of a finite nonzero value into a format of R51 (R60, R61, R64). -/
def roundFP (f : Fmt) (rm : RMode) (sat : Bool) (draw : Nat) (neg : Bool) (m : Nat) (e : Int) : Nat × Flags :=
  let p := f.param
  let qmin : Int := 1 - (p.bias : Int) - p.frac
  let top := magValue p p.maxMag
  let rm : RMode := if rm = .srn ∧ cmpMag m e top.1 top.2 = .gt then .rtz else rm
  let q0 : Int := (m.log2 : Int) + e - p.frac
  let q := max q0 qmin
  let (sig, rem, den) := splitAt m e q
  let lo := (q - qmin).toNat * 2 ^ p.frac + sig
  let code := if roundUp rm neg (lo % 2 = 1) rem den draw then lo + 1 else lo
  -- the result with an unbounded exponent range, against the least normal value (R60)
  let (sigU, remU, denU) := splitAt m e q0
  let sigU := if roundUp rm neg (sigU % 2 = 1) remU denU draw then sigU + 1 else sigU
  let tiny : Bool := cmpMag sigU q0 (2 ^ p.frac) qmin = .lt
  if p.maxMag < code then overflowF f rm sat neg
  else if rem = 0 then (withSign f neg code, 0#6)
  else if tiny then (withSign f neg code, Flag.uf ||| Flag.nx)
  else (withSign f neg code, Flag.nx)

/-- RoundF of a finite nonzero value into k8 (R54, R60, R64). -/
def roundK8 (rm : RMode) (draw : Nat) (neg : Bool) (m : Nat) (e : Int) : Nat × Flags :=
  let s := if neg then 128 else 0
  if cmpMag m e 1 12 = .gt then (s + 127, Flag.of ||| Flag.nx)
  else if cmpMag m e 1 (-12) = .lt then (s + 1, Flag.uf ||| Flag.nx)
  else
    let le : Nat → Bool := fun c => let v := k8Mag c; cmpMag v.1 v.2 m e != .gt
    let lo := ((List.range 127).filter fun i => le (i + 1)).length
    let l := k8Mag lo
    if cmpMag l.1 l.2 m e = .eq then (s + lo, 0#6)
    else
      let h := k8Mag (lo + 1)
      let b := min e (min l.2 h.2)
      let x := shl m (e - b)
      let xl := shl l.1 (l.2 - b)
      let xh := shl h.1 (h.2 - b)
      let c := if roundUp rm neg (lo % 2 = 1) (x - xl) (xh - xl) draw then lo + 1 else lo
      (s + c, Flag.nx)

/-- The largest magnitude of an integer format (R50, R61): of a signed one, that of its most negative value. -/
def Fmt.topMag (f : Fmt) : Nat := max f.minInt.natAbs f.maxInt.natAbs

/-- A finite value rounded to an integer and saturated into an integer format (R63, R64). Above the largest magnitude of the
format SRN acts as RTZ (R61; log entry 50). -/
def roundInt (f : Fmt) (rm : RMode) (draw : Nat) (neg : Bool) (m : Nat) (e : Int) : Nat × Flags :=
  let (i, rem, den) := splitAt m e 0
  let rm : RMode := if rm = .srn ∧ (f.topMag < i ∨ (i = f.topMag ∧ rem ≠ 0)) then .rtz else rm
  let i := if roundUp rm neg (i % 2 = 1) rem den draw then i + 1 else i
  let v : Int := if neg then -(i : Int) else i
  if f.clamp v ≠ v then (f.ofInt (f.clamp v), Flag.nv)
  else (f.ofInt v, if rem = 0 then 0#6 else Flag.nx)

/-- RoundF(fmt, x, rm) for any value x, with the special cases of R64; sat selects the saturating mode of R52, and draw
is S[31:8] of R61. -/
def roundF (f : Fmt) (rm : RMode) (sat : Bool) (draw : Nat) (v : FVal) : Nat × Flags :=
  match v with
  | .nan signalling =>
    let nv : Flags := if signalling then Flag.nv else 0#6
    match f with
    | .e2m1 => (0, Flag.nv)
    | .s8 | .s16 | .s32 | .s64 | .z8 | .z16 | .z32 | .z64 => (0, Flag.nv)
    | _ => (f.defaultNaN, nv)
  | .inf neg =>
    match f with
    | .f32 | .bf16 | .f16 => (withSign f neg f.infMag, 0#6)
    | .e4m3 => if sat then (withSign f neg f.param.maxMag, Flag.of) else (withSign f neg 0x7F, Flag.nv)
    | .e5m2 => if sat then (withSign f neg f.param.maxMag, Flag.of) else (withSign f neg f.infMag, 0#6)
    | .e2m1 => (withSign f neg f.param.maxMag, Flag.of)
    | .k8 => (0x80, Flag.nv)
    | .s8 | .s16 | .s32 | .s64 | .z8 | .z16 | .z32 | .z64 =>
      (f.ofInt (if neg then f.minInt else f.maxInt), Flag.nv)
  | .fin neg m e =>
    match f with
    | .k8 => if m = 0 then (0, 0#6) else roundK8 rm draw neg m e
    | .s8 | .s16 | .s32 | .s64 | .z8 | .z16 | .z32 | .z64 => roundInt f rm draw neg m e
    | _ => if m = 0 then (withSign f neg 0, 0#6) else roundFP f rm sat draw neg m e

/-- The signed magnitude of a finite value over the quantum 2^q, for q at or below its exponent. -/
def scaled (neg : Bool) (m : Nat) (e q : Int) : Int :=
  if neg then -((shl m (e - q) : Nat) : Int) else (shl m (e - q) : Nat)

/-- The exact sum of two finite values; the sign of an exact zero by R66 (rdn tells whether the mode is RDN). -/
def addFin (rdn : Bool) (n1 : Bool) (m1 : Nat) (e1 : Int) (n2 : Bool) (m2 : Nat) (e2 : Int) : FVal :=
  let q := min e1 e2
  let s := scaled n1 m1 e1 q + scaled n2 m2 e2 q
  if s = 0 then
    (if m1 = 0 ∧ m2 = 0 ∧ n1 = n2 then .fin n1 0 0 else .fin rdn 0 0)
  else .fin (decide (s < 0)) s.natAbs q

/-- The sum of two values with R65 and R66; the Bool tells that the operation is invalid. -/
def addV (rdn : Bool) : FVal → FVal → FVal × Bool
  | .nan a, .nan b => (.nan false, a || b)
  | .nan a, _ => (.nan false, a)
  | _, .nan b => (.nan false, b)
  | .inf a, .inf b => if a = b then (.inf a, false) else (.nan false, true)
  | .inf a, .fin _ _ _ => (.inf a, false)
  | .fin _ _ _, .inf b => (.inf b, false)
  | .fin n1 m1 e1, .fin n2 m2 e2 => (addFin rdn n1 m1 e1 n2 m2 e2, false)

/-- The negated value. -/
def negV : FVal → FVal
  | .nan s => .nan s
  | .inf n => .inf (!n)
  | .fin n m e => .fin (!n) m e

/-- The exact product (R65); the Bool tells that the operation is invalid. -/
def mulV : FVal → FVal → FVal × Bool
  | .nan a, .nan b => (.nan false, a || b)
  | .nan a, _ => (.nan false, a)
  | _, .nan b => (.nan false, b)
  | .inf a, .inf b => (.inf (a != b), false)
  | .inf a, .fin n m _ => if m = 0 then (.nan false, true) else (.inf (a != n), false)
  | .fin n m _, .inf b => if m = 0 then (.nan false, true) else (.inf (n != b), false)
  | .fin n1 m1 e1, .fin n2 m2 e2 => (.fin (n1 != n2) (m1 * m2) (e1 + e2), false)

/-- The exact a * b + c (R184); 0 times infinity is invalid whatever c is. -/
def fmaV (rdn : Bool) (a b c : FVal) : FVal × Bool :=
  let (p, bad) := mulV a b
  let (s, bad2) := addV rdn p c
  (s, bad || bad2)

/-- num * 2^e / den to 70 bits or more, with the last bit set when the quotient is not exact. -/
def quotient (num den : Nat) (e : Int) : Nat × Int :=
  let k := 72 + den.log2 - min num.log2 (72 + den.log2)
  let n := num * 2 ^ k
  let q := n / den
  if n % den = 0 then (q, e - k) else (2 * q + 1, e - k - 1)

/-- The quotient (R184): the value, whether it is invalid, and whether DZ is raised. -/
def divV : FVal → FVal → FVal × Bool × Bool
  | .nan a, .nan b => (.nan false, a || b, false)
  | .nan a, _ => (.nan false, a, false)
  | _, .nan b => (.nan false, b, false)
  | .inf _, .inf _ => (.nan false, true, false)
  | .inf a, .fin n _ _ => (.inf (a != n), false, false)
  | .fin n _ _, .inf b => (.fin (n != b) 0 0, false, false)
  | .fin n1 m1 e1, .fin n2 m2 e2 =>
    if m2 = 0 then (if m1 = 0 then (.nan false, true, false) else (.inf (n1 != n2), false, true))
    else if m1 = 0 then (.fin (n1 != n2) 0 0, false, false)
    else let (q, e) := quotient m1 m2 (e1 - e2); (.fin (n1 != n2) q e, false, false)

/-- The integer square root, bit by bit from bit k. -/
def isqrtGo (n : Nat) : Nat → Nat → Nat
  | 0, r => if (r + 1) * (r + 1) ≤ n then r + 1 else r
  | k + 1, r => let t := r + 2 ^ (k + 1); isqrtGo n k (if t * t ≤ n then t else r)

/-- floor of the square root. -/
def isqrt (n : Nat) : Nat := isqrtGo n (n.log2 / 2 + 1) 0

/-- The square root of m * 2^e for m > 0, to 64 bits or more with its last bit set when it is not exact. -/
def rootMag (m : Nat) (e : Int) : Nat × Int :=
  let k : Nat := if (e % 2) = 0 then 160 else 161
  let n := m * 2 ^ k
  let r := isqrt n
  if r * r = n then (r, (e - k) / 2) else (2 * r + 1, (e - k) / 2 - 1)

/-- The square root (R184). -/
def sqrtV : FVal → FVal × Bool
  | .nan s => (.nan false, s)
  | .inf n => if n then (.nan false, true) else (.inf false, false)
  | .fin n m e =>
    if m = 0 then (.fin n 0 0, false)
    else if n then (.nan false, true)
    else let (r, e') := rootMag m e; (.fin false r e', false)

/-- Comparison of two values that are no NaN; -0 below +0 when split is true, equal otherwise (R186, R191). -/
def cmpV (split : Bool) : FVal → FVal → Ordering
  | .inf a, .inf b => if a = b then .eq else if a then .lt else .gt
  | .inf a, _ => if a then .lt else .gt
  | _, .inf b => if b then .gt else .lt
  | .fin n1 m1 e1, .fin n2 m2 e2 =>
    if m1 = 0 ∧ m2 = 0 then
      (if split then (if n1 = n2 then .eq else if n1 then .lt else .gt) else .eq)
    else
      let q := min e1 e2
      compare (scaled n1 m1 e1 q) (scaled n2 m2 e2 q)
  | _, _ => .eq

/-- Whether a value is a NaN. -/
def FVal.isNaN : FVal → Bool
  | .nan _ => true
  | _ => false

/-- Whether a value is a signalling NaN. -/
def FVal.isSig : FVal → Bool
  | .nan s => s
  | _ => false

/-- The exact sum of a list of finite values: a signed integer over one quantum. -/
def sumFin : List FVal → Int × Int
  | [] => (0, 0)
  | .fin n m e :: r =>
    let (s, q) := sumFin r
    let q' := min q e
    (s * (2 ^ (q - q').toNat : Nat) + scaled n m e q', q')
  | _ :: r => sumFin r

/-- The group sum of R72 over terms: the value and whether NV is raised. bad tells that some term is already invalid. -/
def groupSum (bad : Bool) (ts : List FVal) : FVal × Bool :=
  let pinf := ts.contains (.inf false)
  let ninf := ts.contains (.inf true)
  let sig := ts.any FVal.isSig
  if bad || sig || ts.any FVal.isNaN || (pinf && ninf) then
    (.nan false, bad || sig || (pinf && ninf))
  else if pinf then (.inf false, false)
  else if ninf then (.inf true, false)
  else
    let (s, q) := sumFin ts
    if s = 0 then
      (.fin (!ts.isEmpty && ts.all fun t => match t with | .fin n m _ => n && decide (m = 0) | _ => false) 0 0, false)
    else (.fin (decide (s < 0)) s.natAbs q, false)

end Sys2Proof.Machine
end

