-- ==== Sys2Proof/Machine/Special.lean ====
section
/-!
DEFINITION. The special functions of R185, evaluated in fixed point with 512 fraction bits and given to 70 significant
bits with the last bit set: no value of these functions at a finite nonzero argument outside the exact cases is a number
of 70 bits, so RoundF compares it as it would the exact value (log entry 12).
-/
namespace Sys2Proof.Machine

/-- Fraction bits of the fixed point. -/
def fxP : Nat := 512

/-- The sum of t^(2k+1) / (2k+1) for the next n terms, in fixed point: atanh t. -/
def fxAtanh (t t2 : Nat) : Nat → Nat → Nat → Nat
  | 0, _, _ => 0
  | n + 1, k, p => p / (2 * k + 1) + fxAtanh t t2 n (k + 1) (p * t2 / 2 ^ fxP)

/-- atanh t for 0 <= t <= 1/3, in fixed point. -/
def fxAtanhOf (t : Nat) : Nat := fxAtanh t (t * t / 2 ^ fxP) 170 0 t

/-- ln 2 = 2 atanh(1/3), in fixed point. -/
def fxLn2 : Nat := 2 * fxAtanhOf (2 ^ fxP / 3)

/-- The exponential series of r from term k, p being the term before it, in fixed point. -/
def fxExpGo (r : Nat) : Nat → Nat → Nat → Nat
  | 0, _, _ => 0
  | n + 1, k, p => let t := p * r / (2 ^ fxP * k); t + fxExpGo r n (k + 1) t

/-- e^r for 0 <= r < 1, in fixed point. -/
def fxExp (r : Nat) : Nat := 2 ^ fxP + fxExpGo r 130 1 (2 ^ fxP)

/-- m * 2^e in fixed point, truncated. -/
def toFx (m : Nat) (e : Int) : Nat := (splitAt m e (-(fxP : Int))).1

/-- v * 2^e cut to 70 significant bits with the last bit set: a value that is not exact. -/
def jam (v : Nat) (e : Int) : Nat × Int :=
  let k := v.log2 - 70
  (v / 2 ^ k / 2 * 2 + 1, e + k)

/-- e^x for a fixed-point integer x of either sign: a significand in fixed point and a power of two. -/
def fxExpInt (x : Int) : Nat × Int :=
  let n := x / (fxLn2 : Int)
  let r := x % (fxLn2 : Int)
  (fxExp r.toNat, n)

/-- 2^a for a finite nonzero a, at a value that is not an integer or is out of every format's range. -/
def exp2Mag (neg : Bool) (m : Nat) (e : Int) : Nat × Int :=
  if cmpMag m e 1 15 ≠ .lt then (1, if neg then -100000 else 100000)
  else
    let (i, rem, den) := splitAt m e 0
    if rem = 0 then (1, if neg then -(i : Int) else i)
    else
      let fr := toFx rem (-(den.log2 : Int))
      let fr := if neg then 2 ^ fxP - fr else fr
      let n : Int := if neg then -(i : Int) - 1 else i
      let (v, k) := jam (fxExp (fr * fxLn2 / 2 ^ fxP)) (n - fxP)
      (v, k)

/-- VEXP2 (R185). -/
def exp2V : FVal → FVal × Bool × Bool
  | .nan s => (.nan false, s, false)
  | .inf n => if n then (.fin false 0 0, false, false) else (.inf false, false, false)
  | .fin n m e =>
    if m = 0 then (.fin false 1 0, false, false)
    else let (v, k) := exp2Mag n m e; (.fin false v k, false, false)

/-- log2 of m * 2^e for m > 0: sign and magnitude; a power of two has an exact result. -/
def log2Mag (m : Nat) (e : Int) : Bool × Nat × Int :=
  let k := m.log2
  let n : Int := e + k
  if m = 2 ^ k then (decide (n < 0), n.natAbs, 0)
  else
    -- y = m / 2^k in [1, 2); ln y = 2 atanh((y-1)/(y+1))
    let t := (m - 2 ^ k) * 2 ^ fxP / (m + 2 ^ k)
    let l : Int := ((2 * fxAtanhOf t) * 2 ^ fxP / fxLn2 : Nat)
    let s : Int := n * (2 ^ fxP : Nat) + l
    let (v, j) := jam s.natAbs (-(fxP : Int))
    (decide (s < 0), v, j)

/-- VLOG2 (R185). -/
def log2V : FVal → FVal × Bool × Bool
  | .nan s => (.nan false, s, false)
  | .inf n => if n then (.nan false, true, false) else (.inf false, false, false)
  | .fin n m e =>
    if m = 0 then (.inf true, false, true)
    else if n then (.nan false, true, false)
    else let (s, v, k) := log2Mag m e; (.fin (s && decide (v ≠ 0)) v k, false, false)

/-- VTANH (R185): tanh a = (E - 1)/(E + 1) with E = e^(2|a|). -/
def tanhV : FVal → FVal × Bool × Bool
  | .nan s => (.nan false, s, false)
  | .inf n => (.fin n 1 0, false, false)
  | .fin n m e =>
    if m = 0 then (.fin n 0 0, false, false)
    else if cmpMag m e 1 8 ≠ .lt then (.fin n (2 ^ 600 - 1) (-600), false, false)
    else
      let (v, k) := fxExpInt (toFx (2 * m) e : Int)
      let ex := v * 2 ^ k.toNat
      let (q, j) := jam ((ex - 2 ^ fxP) * 2 ^ fxP / (ex + 2 ^ fxP)) (-(fxP : Int))
      (.fin n q j, false, false)

/-- VSIGM (R185): 1 / (1 + e^(-a)). -/
def sigmV : FVal → FVal × Bool × Bool
  | .nan s => (.nan false, s, false)
  | .inf n => if n then (.fin false 0 0, false, false) else (.fin false 1 0, false, false)
  | .fin n m e =>
    if m = 0 then (.fin false 1 (-1), false, false)
    else if cmpMag m e 1 8 ≠ .lt then
      (if n then .fin false 1 (-1000) else .fin false (2 ^ 600 - 1) (-600), false, false)
    else
      -- with E = e^|a|: E/(E+1) for a > 0 and 1/(E+1) for a < 0
      let (v, k) := fxExpInt (toFx m e : Int)
      let ex := v * 2 ^ k.toNat
      let num := if n then 2 ^ fxP else ex
      let (q, j) := jam (num * 2 ^ (2 * fxP) / (ex + 2 ^ fxP)) (-(2 * fxP : Int))
      (.fin false q j, false, false)

/-- VRCP (R185). -/
def rcpV : FVal → FVal × Bool × Bool
  | .nan s => (.nan false, s, false)
  | .inf n => (.fin n 0 0, false, false)
  | .fin n m e =>
    if m = 0 then (.inf n, false, true)
    else let (q, k) := quotient 1 m (-e); (.fin n q k, false, false)

/-- VRSQ (R185). -/
def rsqV : FVal → FVal × Bool × Bool
  | .nan s => (.nan false, s, false)
  | .inf n => if n then (.nan false, true, false) else (.fin false 0 0, false, false)
  | .fin n m e =>
    if m = 0 then (.inf n, false, true)
    else if n then (.nan false, true, false)
    else
      -- 1/sqrt(m 2^e) = sqrt(2^(-e)/m); the quotient is taken first, to 200 bits
      let e1 : Int := if e % 2 = 0 then e else e - 1
      let m1 := if e % 2 = 0 then m else 2 * m
      let k : Nat := 2 * (m1.log2 + 200)
      let x := 2 ^ k / m1
      let r := isqrt x
      if 2 ^ k % m1 = 0 ∧ r * r = x then (.fin false r (-e1 / 2 - (k / 2 : Nat)), false, false)
      else (.fin false (2 * r + 1) (-e1 / 2 - (k / 2 : Nat) - 1), false, false)

end Sys2Proof.Machine
end

