-- ==== Sys2Proof/Machine/VecArith.lean ====
section
/-!
DEFINITION. The results of vector operations on element patterns (R184 to R197): what every elementwise half, reduction
and scan gives for the elements it reads, apart from where the elements lie. Chains use the same results (R233).
-/
namespace Sys2Proof.Machine

/-- An elementwise operation: whether its formats are accepted, the formats its sources and its result have, whether it
rounds (R61), and its result from the resolved mode, the draw and the source patterns. -/
structure ElemOp where
  accept : Bool
  srcs : List Fmt
  dst : Fmt
  rounds : Bool := false
  eval : RMode → Nat → Nat → Nat → Nat → Nat × Flags

/-- NV where an operation is invalid. -/
def nvIf (b : Bool) : Flags := if b then Flag.nv else 0#6

/-- A value rounded into a format, with NV where its operation is invalid (R64 to R66). -/
def finish (f : Fmt) (rm : RMode) (draw : Nat) (v : FVal × Bool) : Nat × Flags :=
  let r := roundF f rm false draw v.1
  (r.1, r.2 ||| nvIf v.2)

/-- A value rounded into a format, with NV and DZ as its operation gives them. -/
def finishDz (f : Fmt) (rm : RMode) (draw : Nat) (v : FVal × Bool × Bool) : Nat × Flags :=
  let r := roundF f rm false draw v.1
  (r.1, r.2 ||| nvIf v.2.1 ||| (if v.2.2 then Flag.dz else 0#6))

/-- The formats "all" of R184. -/
def Fmt.isArith (f : Fmt) : Bool := f.isInt || f.isFloat

/-- A two-source operation of R184: on integers modulo 2^N, on floats rounded once. -/
def opBin (f : Fmt) (int : Int → Int → Int) (flt : Bool → FVal → FVal → FVal × Bool) : ElemOp :=
  { accept := f.isArith, srcs := [f, f], dst := f, rounds := f.isFloat,
    eval := fun rm draw a b _ =>
      if f.isInt then (f.ofInt (int (f.toInt a) (f.toInt b)), 0#6)
      else finish f rm draw (flt (rm == .rdn) (decodeF f a) (decodeF f b)) }

/-- A three-source operation of R184. -/
def opTri (f : Fmt) (int : Int → Int → Int → Int) (flt : Bool → FVal → FVal → FVal → FVal × Bool) : ElemOp :=
  { accept := f.isArith, srcs := [f, f, f], dst := f, rounds := f.isFloat,
    eval := fun rm draw a b c =>
      if f.isInt then (f.ofInt (int (f.toInt a) (f.toInt b) (f.toInt c)), 0#6)
      else finish f rm draw (flt (rm == .rdn) (decodeF f a) (decodeF f b) (decodeF f c)) }

/-- VADD (R184). -/
def opVadd (f : Fmt) : ElemOp := opBin f (· + ·) addV
/-- VSUB: a + (-b) (R66, R184). -/
def opVsub (f : Fmt) : ElemOp := opBin f (· - ·) fun rdn a b => addV rdn a (negV b)
/-- VMUL (R184). -/
def opVmul (f : Fmt) : ElemOp := opBin f (· * ·) fun _ a b => mulV a b
/-- VMA (R184). -/
def opVma (f : Fmt) : ElemOp := opTri f (fun a b c => a * b + c) fmaV
/-- VMS (R66, R184). -/
def opVms (f : Fmt) : ElemOp := opTri f (fun a b c => a * b - c) fun rdn a b c => fmaV rdn a b (negV c)
/-- VNMA: c + (-(a * b)) (R66, R184). -/
def opVnma (f : Fmt) : ElemOp := opTri f (fun a b c => c - a * b) fun rdn a b c => fmaV rdn (negV a) b c

/-- VDIV (R184, R187). -/
def opVdiv (f : Fmt) : ElemOp :=
  { accept := f.isArith, srcs := [f, f], dst := f, rounds := f.isFloat,
    eval := fun rm draw a b _ =>
      if f.isInt then
        (if f.toInt b = 0 then (2 ^ f.width - 1, Flag.dz) else (f.ofInt ((f.toInt a).tdiv (f.toInt b)), 0#6))
      else finishDz f rm draw (divV (decodeF f a) (decodeF f b)) }

/-- A one-source operation on floats that rounds (R184, R185). -/
def opFun (f : Fmt) (g : FVal → FVal × Bool × Bool) : ElemOp :=
  { accept := f.isFloat, srcs := [f], dst := f, rounds := true,
    eval := fun rm draw a _ _ => finishDz f rm draw (g (decodeF f a)) }

/-- VSQRT (R184). -/
def opVsqrt (f : Fmt) : ElemOp := opFun f fun a => let r := sqrtV a; (r.1, r.2, false)
/-- VRCP (R185). -/
def opVrcp (f : Fmt) : ElemOp := opFun f rcpV
/-- VRSQ (R185). -/
def opVrsq (f : Fmt) : ElemOp := opFun f rsqV
/-- VEXP2 (R185). -/
def opVexp2 (f : Fmt) : ElemOp := opFun f exp2V
/-- VLOG2 (R185). -/
def opVlog2 (f : Fmt) : ElemOp := opFun f log2V
/-- VTANH (R185). -/
def opVtanh (f : Fmt) : ElemOp := opFun f tanhV
/-- VSIGM (R185). -/
def opVsigm (f : Fmt) : ElemOp := opFun f sigmV

/-- VABS (R65, R184). -/
def opVabs (f : Fmt) : ElemOp :=
  { accept := f.isArith, srcs := [f], dst := f,
    eval := fun _ _ a _ _ =>
      (if f.isInt then f.ofInt ((f.toInt a).natAbs : Int) else a % 2 ^ (f.width - 1), 0#6) }

/-- VNEG (R65, R184). -/
def opVneg (f : Fmt) : ElemOp :=
  { accept := f.isArith, srcs := [f], dst := f,
    eval := fun _ _ a _ _ =>
      (if f.isInt then f.ofInt (-(f.toInt a)) else setBit a (f.width - 1) (!bit a (f.width - 1)), 0#6) }

/-- Whether an element is a NaN of its format. -/
def isNaN (f : Fmt) (a : Nat) : Bool := !f.isInt && (decodeF f a).isNaN

/-- Whether an element is a signalling NaN of its format. -/
def isSig (f : Fmt) (a : Nat) : Bool := !f.isInt && (decodeF f a).isSig

/-- a is below b in the order of R186. -/
def below (f : Fmt) (a b : Nat) : Bool :=
  if f.isInt then decide (f.toInt a < f.toInt b) else cmpV true (decodeF f a) (decodeF f b) == .lt

/-- The smaller or the larger of two elements that are no NaN (R186). -/
def pick (f : Fmt) (max : Bool) (a b : Nat) : Nat := if below f a b == max then b else a

/-- A result of R186: the default NaN where an operand is a NaN. -/
def orderRes (f : Fmt) (ops : List Nat) (r : Nat) : Nat × Flags :=
  if ops.any (isNaN f) then (f.defaultNaN, nvIf (ops.any (isSig f))) else (r, 0#6)

/-- VMIN (R186). -/
def opVmin (f : Fmt) : ElemOp :=
  { accept := f.isArith, srcs := [f, f], dst := f, eval := fun _ _ a b _ => orderRes f [a, b] (pick f false a b) }
/-- VMAX (R186). -/
def opVmax (f : Fmt) : ElemOp :=
  { accept := f.isArith, srcs := [f, f], dst := f, eval := fun _ _ a b _ => orderRes f [a, b] (pick f true a b) }
/-- VCLAMP (R186). -/
def opVclamp (f : Fmt) : ElemOp :=
  { accept := f.isArith, srcs := [f, f, f], dst := f,
    eval := fun _ _ a b c => orderRes f [a, b, c] (pick f false (pick f true a b) c) }

/-- A bitwise operation (R188). -/
def opBits (f : Fmt) (n : Nat) (g : Nat → Nat → Nat) : ElemOp :=
  { accept := true, srcs := List.replicate n f, dst := f, eval := fun _ _ a b _ => (g a b % 2 ^ f.width, 0#6) }

/-- VAND (R188). -/
def opVand (f : Fmt) : ElemOp := opBits f 2 (· &&& ·)
/-- VOR (R188). -/
def opVor (f : Fmt) : ElemOp := opBits f 2 (· ||| ·)
/-- VXOR (R188). -/
def opVxor (f : Fmt) : ElemOp := opBits f 2 (· ^^^ ·)
/-- VNOT (R188). -/
def opVnot (f : Fmt) : ElemOp := opBits f 1 fun a _ => 2 ^ f.width - 1 - a % 2 ^ f.width

/-- A shift by the low bits of b (R188). -/
def opShift (f : Fmt) (g : Nat → Nat → Nat) : ElemOp :=
  { accept := f.isInt, srcs := [f, f], dst := f, eval := fun _ _ a b _ => (g a (b % f.width) % 2 ^ f.width, 0#6) }

/-- VSHL (R188). -/
def opVshl (f : Fmt) : ElemOp := opShift f fun a n => a * 2 ^ n
/-- VSHR (R188). -/
def opVshr (f : Fmt) : ElemOp := opShift f fun a n => a / 2 ^ n
/-- VSRA: copies of the sign bit enter (R188). -/
def opVsra (f : Fmt) : ElemOp := opShift f fun a n => wrap f.width (signed f.width a / (2 ^ n : Nat))

/-- A widening operation: sources in f, result in the wide partner (R189). acc tells that vD is read as c. -/
def opWide (f : Fmt) (acc : Bool) (int : Int → Int → Int → Int) (flt : Bool → FVal → FVal → FVal → FVal × Bool) :
    ElemOp :=
  let w := f.wide.getD f
  { accept := f.wide.isSome, srcs := if acc then [f, f, w] else [f, f], dst := w, rounds := f.isFloat,
    eval := fun rm draw a b c =>
      if f.isInt then (w.ofInt (int (f.toInt a) (f.toInt b) (w.toInt c)), 0#6)
      else finish w rm draw (flt (rm == .rdn) (decodeF f a) (decodeF f b) (decodeF w c)) }

/-- VWADD (R189). -/
def opVwadd (f : Fmt) : ElemOp := opWide f false (fun a b _ => a + b) fun rdn a b _ => addV rdn a b
/-- VWMUL (R189). -/
def opVwmul (f : Fmt) : ElemOp := opWide f false (fun a b _ => a * b) fun _ a b _ => mulV a b
/-- VWMAC (R189). -/
def opVwmac (f : Fmt) : ElemOp := opWide f true (fun a b c => c + a * b) fmaV

/-- VSATN (R190). -/
def opVsatn (f : Fmt) : ElemOp :=
  let w := f.wide.getD f
  { accept := f.isInt && f.wide.isSome, srcs := [w], dst := f,
    eval := fun _ _ a _ _ =>
      let v := w.toInt a
      (f.ofInt (f.clamp v), if f.clamp v = v then 0#6 else Flag.sa) }

/-- The class of a float (R192). -/
def classOf (f : Fmt) (a : Nat) : Nat :=
  match decodeF f a with
  | .nan s => if s then 8 else 9
  | .inf n => if n then 0 else 7
  | .fin n m _ =>
    if m = 0 then (if n then 3 else 4)
    else if m < 2 ^ f.param.frac then (if n then 2 else 5)
    else if n then 1 else 6

/-- VCLASS (R192). -/
def opVclass (f : Fmt) : ElemOp :=
  { accept := f.isFloat, srcs := [f], dst := f, eval := fun _ _ a _ _ => (2 ^ classOf f a, 0#6) }

/-- The conversion of an element (R63, R64, R193). -/
def convert (dst src : Fmt) (sat : Bool) (rm : RMode) (draw a : Nat) : Nat × Flags :=
  if dst = src then (a, 0#6)
  else if dst.isInt && src.isInt then
    let v := src.toInt a
    if sat then (dst.ofInt (dst.clamp v), if dst.clamp v = v then 0#6 else Flag.sa) else (dst.ofInt v, 0#6)
  else roundF dst rm sat draw (decodeF src a)

/-- VCVT (R193); a source format code of 0 is a format not accepted (DESIGN CHOICE: log entry 48). -/
def opVcvt (dst : Fmt) (src : Option Fmt) (sat : Bool) : ElemOp :=
  match src with
  | none => { accept := false, srcs := [dst], dst := dst, eval := fun _ _ a _ _ => (a, 0#6) }
  | some f =>
    { accept := true, srcs := [f], dst := dst, rounds := decide (dst ≠ f) && !(dst.isInt && f.isInt),
      eval := fun rm draw a _ _ => convert dst f sat rm draw a }

/-- VMV (R198). -/
def opVmv (f : Fmt) : ElemOp := { accept := true, srcs := [f], dst := f, eval := fun _ _ a _ _ => (a, 0#6) }

/-- The condition of VCMP and its flags (R191). -/
def compareRes (f : Fmt) (cond a b : Nat) : Bool × Flags :=
  let nan := isNaN f a || isNaN f b
  let sig := isSig f a || isSig f b
  let o : Ordering := if f.isInt then compare (f.toInt a) (f.toInt b) else cmpV false (decodeF f a) (decodeF f b)
  match cond with
  | 0 => (!nan && o == .eq, nvIf sig)
  | 1 => (nan || o != .eq, nvIf sig)
  | 2 => (!nan && o == .lt, nvIf nan)
  | 3 => (!nan && o != .gt, nvIf nan)
  | 4 => (!nan && o == .gt, nvIf nan)
  | 5 => (!nan && o != .lt, nvIf nan)
  | 6 => (nan, nvIf sig)
  | _ => (!nan, nvIf sig)

/-! ## Reductions and scans -/

/-- The operations of R196 and R197. -/
inductive RedKind where
  | sum | max | min
  deriving DecidableEq, Repr

/-- The identity of a reduction (R196). -/
def RedKind.identity (k : RedKind) (f : Fmt) : Nat :=
  match k with
  | .sum => 0
  | .max => if f.isInt then f.ofInt f.minInt else withSign f true f.infMag
  | .min => if f.isInt then f.ofInt f.maxInt else f.infMag

/-- The reduction of a list of elements (R196). -/
def reduce (k : RedKind) (f : Fmt) (rm : RMode) (draw : Nat) (es : List Nat) : Nat × Flags :=
  match k with
  | .sum =>
    if f.isInt then (f.ofInt (es.foldl (fun s a => s + f.toInt a) 0), 0#6)
    else finish f rm draw (groupSum false (es.map (decodeF f)))
  | .max => match es with
    | [] => (k.identity f, 0#6)
    | a :: r => orderRes f es (r.foldl (pick f true) a)
  | .min => match es with
    | [] => (k.identity f, 0#6)
    | a :: r => orderRes f es (r.foldl (pick f false) a)

/-- Whether a reduction or a scan rounds (R61). -/
def RedKind.rounds (k : RedKind) (f : Fmt) : Bool := k = .sum && f.isFloat

/-- The results of a scan of a row: for each active position, the reduction of the active elements up to it (R197). row
holds the elements from position e on, none where a position is not active; seen holds the active elements before it. -/
def scanRow (k : RedKind) (f : Fmt) (rm : RMode) (draw : Nat → Nat) (excl : Bool) :
    Nat → List Nat → List (Option Nat) → List (Option (Nat × Flags))
  | _, _, [] => []
  | e, seen, none :: r => none :: scanRow k f rm draw excl (e + 1) seen r
  | e, seen, some a :: r =>
    let seen' := seen ++ [a]
    some (reduce k f rm (draw e) (if excl then seen else seen')) :: scanRow k f rm draw excl (e + 1) seen' r

/-! ## Block scales -/

/-- EMAX of R58. -/
def emaxOf : Fmt → Int
  | .e4m3 => 8 | .e5m2 => 15 | .e2m1 => 2 | _ => 12

/-- Whether a float element is a NaN or an infinity. -/
def notFinite (f : Fmt) (a : Nat) : Bool := match decodeF f a with | .fin _ _ _ => false | _ => true

/-- The magnitude of a finite value as m * 2^e. -/
def magOf : FVal → Nat × Int
  | .fin _ m e => (m, e)
  | _ => (0, 0)

/-- X of a block of finite elements (R58). -/
def blockExp (dst src : Fmt) (es : List Nat) : Int :=
  let ms := (es.map fun a => magOf (decodeF src a)).filter fun m => m.1 ≠ 0
  match ms.map fun m => (m.1.log2 : Int) + m.2 with
  | [] => -127
  | x :: xs => max (-127) (min 127 (xs.foldl max x - emaxOf dst))

/-- A value scaled by 2^k. -/
def scaleV (v : FVal) (k : Int) : FVal :=
  match v with
  | .fin n m e => .fin n m (e + k)
  | _ => v

/-- The scale byte of a block, and the code of one of its elements with its flags, from the block's active elements
(R58). -/
def quantScale (dst src : Fmt) (es : List Nat) : Nat :=
  if es.any (notFinite src) then 255 else (blockExp dst src es + 127).toNat

/-- The code of an element of a block (R58); NV belongs to the elements that are signalling NaNs. -/
def quantElem (dst src : Fmt) (es : List Nat) (rm : RMode) (draw a : Nat) : Nat × Flags :=
  if es.any (notFinite src) then (0, nvIf (isSig src a))
  else roundF dst rm true draw (scaleV (decodeF src a) (-(blockExp dst src es)))

/-- VDQNT of one element under its scale byte (R195). -/
def dequant (dst src : Fmt) (scale : Nat) (rm : RMode) (draw a : Nat) : Nat × Flags :=
  if scale = 255 ∨ isNaN src a then (dst.defaultNaN, 0#6)
  else roundF dst rm false draw (scaleV (decodeF src a) ((scale : Int) - 127))

/-- The addition, minimum or maximum of VSTXA (R206): no flag. -/
def scatterOp (op : Nat) (f : Fmt) (old v : Nat) : Nat :=
  match op with
  | 0 => ((opVadd f).eval .rne 0 old v 0).1
  | 1 => ((opVmin f).eval .rne 0 old v 0).1
  | _ => ((opVmax f).eval .rne 0 old v 0).1

end Sys2Proof.Machine
end

