-- ==== Sys2Proof/Machine/Vector.lean ====
section
/-!
DEFINITION. The vector and mask halves outside a chain body (R182 to R193, R196 to R202, R209, R243).
-/
namespace Sys2Proof.Machine

/-- How a vector half uses C[4:0]: not at all, as the fourth operand, or as a field of its own (R112, R209). -/
inductive CUse where
  | unused | reg | field
  deriving DecidableEq, Repr

/-- The conditions on fields that a half does not use (R209, R416 SUB 0x01). -/
def unusedCauses (o : VHalf) (c : CUse) (unary : Bool) : List Cause :=
  when_ ((unary && o.b != 0) || (decide (c = .unused) && o.c.toNat % 32 != 0) || (decide (c ≠ .reg) && evOf o)) (operand 0x01)

/-- What a sweep of the tile in force leaves: each active position takes what res gives it, where it gives something, and
each masked position takes zero under ZM (R182). -/
def Hart.sweep (h : Hart) (m : Mask) (fd : Fmt) (res : Nat → Nat → Option (Nat × Flags)) :
    List (Nat × Nat × Nat) × Raised :=
  let r := h.positions.filterMap fun p =>
    let cell := fun (v : Nat × Flags) => some ((h.cellAt fd p.1 p.2, fd.width, v.1), p.1 * h.cfg.vl + p.2, v.2)
    if m.sel h p.1 p.2 then (match res p.1 p.2 with | some v => cell v | none => none)
    else if m.on && m.zm then cell (0, 0#6)
    else none
  (r.map (·.1), (r.map (·.2)).filter fun x => x.2 ≠ 0#6)

/-- The draw of R61 for a position, where the mode is SRN. -/
def Hart.drawAt (h : Hart) (rm : RMode) (fd : Fmt) (row e : Nat) : Nat :=
  if rm = .srn then tileDraw h fd.width row e else 0

/-- SRSEED steps after an instruction that rounds under SRN with VL > 0 (R61). -/
def Hart.stepsSeed (h : Hart) (rounds : Bool) (rm : RMode) : Bool := rounds && decide (rm = .srn) && decide (0 < h.cfg.vl)

/-- The causes found, or the result. -/
def orCauses (cs : List Cause) (o : HalfOut) : HalfRes := if cs = [] then .ok o else .error cs

/-- An elementwise half (R182): its sources by register, its operation, and the conditions of its own. -/
def evalElem (o : VHalf) (s : State) (c : CUse) (srcs : List Nat) (op : ElemOp) (extra : List Cause) : HalfRes :=
  let h := s.h
  let m := h.halfMask o
  let rm := h.halfMode o
  let cs := extra ++ unusedCauses o c (decide (srcs.length ≤ 1)) ++ when_ (!op.accept) (operand 0x04)
    ++ h.shapeCauses (op.dst :: op.srcs) ++ h.regCauses [o.d.toNat] srcs ++ h.maskInForce m
  if cs ≠ [] then .error cs
  else
    let imgs := srcs.map h.img
    let src := fun i row e => h.elem (op.srcs.getD i op.dst) (imgs.getD i 0) row e
    let w := h.sweep m op.dst fun row e =>
      some (op.eval rm (if op.rounds then h.drawAt rm op.dst row e else 0) (src 0 row e) (src 1 row e) (src 2 row e))
    .ok { vw := [⟨o.d.toNat, w.1⟩], raised := w.2, srn := h.stepsSeed op.rounds rm }

/-- A half that gives each active position of vD an element of its own format, and raises no flag. -/
def evalMove (o : VHalf) (s : State) (cs : List Cause) (res : Nat → Nat → Option Nat) : HalfRes :=
  let h := s.h
  let m := h.halfMask o
  let cs := cs ++ h.maskInForce m
  if cs ≠ [] then .error cs
  else
    let w := h.sweep m (h.halfFmt o) fun row e => (res row e).map fun v => (v, 0#6)
    .ok { vw := [⟨o.d.toNat, w.1⟩] }

/-! ## Elementwise halves -/

/-- What VADD leaves (R184). -/
def evalVadd (o : VHalf) (s : State) : HalfRes :=
  evalElem o s .unused [o.a.toNat, o.b.toNat] (opVadd (s.h.halfFmt o)) []

/-- VADD (R184). -/
def execVadd (o : VHalf) (s : State) : Out := runVectorHalf o s (evalVadd o s)

/-- What VSUB leaves (R184). -/
def evalVsub (o : VHalf) (s : State) : HalfRes :=
  evalElem o s .unused [o.a.toNat, o.b.toNat] (opVsub (s.h.halfFmt o)) []

/-- VSUB (R184). -/
def execVsub (o : VHalf) (s : State) : Out := runVectorHalf o s (evalVsub o s)

/-- What VMUL leaves (R184). -/
def evalVmul (o : VHalf) (s : State) : HalfRes :=
  evalElem o s .unused [o.a.toNat, o.b.toNat] (opVmul (s.h.halfFmt o)) []

/-- VMUL (R184). -/
def execVmul (o : VHalf) (s : State) : Out := runVectorHalf o s (evalVmul o s)

/-- What VDIV leaves (R184). -/
def evalVdiv (o : VHalf) (s : State) : HalfRes :=
  evalElem o s .unused [o.a.toNat, o.b.toNat] (opVdiv (s.h.halfFmt o)) []

/-- VDIV (R184). -/
def execVdiv (o : VHalf) (s : State) : Out := runVectorHalf o s (evalVdiv o s)

/-- What VMA leaves (R184). -/
def evalVma (o : VHalf) (s : State) : HalfRes :=
  evalElem o s .reg [o.a.toNat, o.b.toNat, fourth o] (opVma (s.h.halfFmt o)) []

/-- VMA (R184). -/
def execVma (o : VHalf) (s : State) : Out := runVectorHalf o s (evalVma o s)

/-- What VMS leaves (R184). -/
def evalVms (o : VHalf) (s : State) : HalfRes :=
  evalElem o s .reg [o.a.toNat, o.b.toNat, fourth o] (opVms (s.h.halfFmt o)) []

/-- VMS (R184). -/
def execVms (o : VHalf) (s : State) : Out := runVectorHalf o s (evalVms o s)

/-- What VNMA leaves (R184). -/
def evalVnma (o : VHalf) (s : State) : HalfRes :=
  evalElem o s .reg [o.a.toNat, o.b.toNat, fourth o] (opVnma (s.h.halfFmt o)) []

/-- VNMA (R184). -/
def execVnma (o : VHalf) (s : State) : Out := runVectorHalf o s (evalVnma o s)

/-- What VSQRT leaves (R184). -/
def evalVsqrt (o : VHalf) (s : State) : HalfRes :=
  evalElem o s .unused [o.a.toNat] (opVsqrt (s.h.halfFmt o)) []

/-- VSQRT (R184). -/
def execVsqrt (o : VHalf) (s : State) : Out := runVectorHalf o s (evalVsqrt o s)

/-- What VABS leaves (R184). -/
def evalVabs (o : VHalf) (s : State) : HalfRes :=
  evalElem o s .unused [o.a.toNat] (opVabs (s.h.halfFmt o)) []

/-- VABS (R184). -/
def execVabs (o : VHalf) (s : State) : Out := runVectorHalf o s (evalVabs o s)

/-- What VNEG leaves (R184). -/
def evalVneg (o : VHalf) (s : State) : HalfRes :=
  evalElem o s .unused [o.a.toNat] (opVneg (s.h.halfFmt o)) []

/-- VNEG (R184). -/
def execVneg (o : VHalf) (s : State) : Out := runVectorHalf o s (evalVneg o s)

/-- What VMIN leaves (R186). -/
def evalVmin (o : VHalf) (s : State) : HalfRes :=
  evalElem o s .unused [o.a.toNat, o.b.toNat] (opVmin (s.h.halfFmt o)) []

/-- VMIN (R186). -/
def execVmin (o : VHalf) (s : State) : Out := runVectorHalf o s (evalVmin o s)

/-- What VMAX leaves (R186). -/
def evalVmax (o : VHalf) (s : State) : HalfRes :=
  evalElem o s .unused [o.a.toNat, o.b.toNat] (opVmax (s.h.halfFmt o)) []

/-- VMAX (R186). -/
def execVmax (o : VHalf) (s : State) : Out := runVectorHalf o s (evalVmax o s)

/-- What VCLAMP leaves (R186). -/
def evalVclamp (o : VHalf) (s : State) : HalfRes :=
  evalElem o s .reg [o.a.toNat, o.b.toNat, fourth o] (opVclamp (s.h.halfFmt o)) []

/-- VCLAMP (R186). -/
def execVclamp (o : VHalf) (s : State) : Out := runVectorHalf o s (evalVclamp o s)

/-- What VRCP leaves (R185). -/
def evalVrcp (o : VHalf) (s : State) : HalfRes :=
  evalElem o s .unused [o.a.toNat] (opVrcp (s.h.halfFmt o)) []

/-- VRCP (R185). -/
def execVrcp (o : VHalf) (s : State) : Out := runVectorHalf o s (evalVrcp o s)

/-- What VRSQ leaves (R185). -/
def evalVrsq (o : VHalf) (s : State) : HalfRes :=
  evalElem o s .unused [o.a.toNat] (opVrsq (s.h.halfFmt o)) []

/-- VRSQ (R185). -/
def execVrsq (o : VHalf) (s : State) : Out := runVectorHalf o s (evalVrsq o s)

/-- What VEXP2 leaves (R185). -/
def evalVexp2 (o : VHalf) (s : State) : HalfRes :=
  evalElem o s .unused [o.a.toNat] (opVexp2 (s.h.halfFmt o)) []

/-- VEXP2 (R185). -/
def execVexp2 (o : VHalf) (s : State) : Out := runVectorHalf o s (evalVexp2 o s)

/-- What VLOG2 leaves (R185). -/
def evalVlog2 (o : VHalf) (s : State) : HalfRes :=
  evalElem o s .unused [o.a.toNat] (opVlog2 (s.h.halfFmt o)) []

/-- VLOG2 (R185). -/
def execVlog2 (o : VHalf) (s : State) : Out := runVectorHalf o s (evalVlog2 o s)

/-- What VTANH leaves (R185). -/
def evalVtanh (o : VHalf) (s : State) : HalfRes :=
  evalElem o s .unused [o.a.toNat] (opVtanh (s.h.halfFmt o)) []

/-- VTANH (R185). -/
def execVtanh (o : VHalf) (s : State) : Out := runVectorHalf o s (evalVtanh o s)

/-- What VSIGM leaves (R185). -/
def evalVsigm (o : VHalf) (s : State) : HalfRes :=
  evalElem o s .unused [o.a.toNat] (opVsigm (s.h.halfFmt o)) []

/-- VSIGM (R185). -/
def execVsigm (o : VHalf) (s : State) : Out := runVectorHalf o s (evalVsigm o s)

/-- What VAND leaves (R188). -/
def evalVand (o : VHalf) (s : State) : HalfRes :=
  evalElem o s .unused [o.a.toNat, o.b.toNat] (opVand (s.h.halfFmt o)) []

/-- VAND (R188). -/
def execVand (o : VHalf) (s : State) : Out := runVectorHalf o s (evalVand o s)

/-- What VOR leaves (R188). -/
def evalVor (o : VHalf) (s : State) : HalfRes :=
  evalElem o s .unused [o.a.toNat, o.b.toNat] (opVor (s.h.halfFmt o)) []

/-- VOR (R188). -/
def execVor (o : VHalf) (s : State) : Out := runVectorHalf o s (evalVor o s)

/-- What VXOR leaves (R188). -/
def evalVxor (o : VHalf) (s : State) : HalfRes :=
  evalElem o s .unused [o.a.toNat, o.b.toNat] (opVxor (s.h.halfFmt o)) []

/-- VXOR (R188). -/
def execVxor (o : VHalf) (s : State) : Out := runVectorHalf o s (evalVxor o s)

/-- What VNOT leaves (R188). -/
def evalVnot (o : VHalf) (s : State) : HalfRes :=
  evalElem o s .unused [o.a.toNat] (opVnot (s.h.halfFmt o)) []

/-- VNOT (R188). -/
def execVnot (o : VHalf) (s : State) : Out := runVectorHalf o s (evalVnot o s)

/-- What VSHL leaves (R188). -/
def evalVshl (o : VHalf) (s : State) : HalfRes :=
  evalElem o s .unused [o.a.toNat, o.b.toNat] (opVshl (s.h.halfFmt o)) []

/-- VSHL (R188). -/
def execVshl (o : VHalf) (s : State) : Out := runVectorHalf o s (evalVshl o s)

/-- What VSHR leaves (R188). -/
def evalVshr (o : VHalf) (s : State) : HalfRes :=
  evalElem o s .unused [o.a.toNat, o.b.toNat] (opVshr (s.h.halfFmt o)) []

/-- VSHR (R188). -/
def execVshr (o : VHalf) (s : State) : Out := runVectorHalf o s (evalVshr o s)

/-- What VSRA leaves (R188). -/
def evalVsra (o : VHalf) (s : State) : HalfRes :=
  evalElem o s .unused [o.a.toNat, o.b.toNat] (opVsra (s.h.halfFmt o)) []

/-- VSRA (R188). -/
def execVsra (o : VHalf) (s : State) : Out := runVectorHalf o s (evalVsra o s)

/-- What VWADD leaves (R189). -/
def evalVwadd (o : VHalf) (s : State) : HalfRes :=
  evalElem o s .unused [o.a.toNat, o.b.toNat] (opVwadd (s.h.halfFmt o)) []

/-- VWADD (R189). -/
def execVwadd (o : VHalf) (s : State) : Out := runVectorHalf o s (evalVwadd o s)

/-- What VWMUL leaves (R189). -/
def evalVwmul (o : VHalf) (s : State) : HalfRes :=
  evalElem o s .unused [o.a.toNat, o.b.toNat] (opVwmul (s.h.halfFmt o)) []

/-- VWMUL (R189). -/
def execVwmul (o : VHalf) (s : State) : Out := runVectorHalf o s (evalVwmul o s)

/-- What VWMAC leaves (R189). -/
def evalVwmac (o : VHalf) (s : State) : HalfRes :=
  evalElem o s .unused [o.a.toNat, o.b.toNat, o.d.toNat] (opVwmac (s.h.halfFmt o)) []

/-- VWMAC (R189). -/
def execVwmac (o : VHalf) (s : State) : Out := runVectorHalf o s (evalVwmac o s)

/-- What VSATN leaves (R190). -/
def evalVsatn (o : VHalf) (s : State) : HalfRes :=
  evalElem o s .unused [o.a.toNat] (opVsatn (s.h.halfFmt o)) []

/-- VSATN (R190). -/
def execVsatn (o : VHalf) (s : State) : Out := runVectorHalf o s (evalVsatn o s)

/-- What VCLASS leaves (R192). -/
def evalVclass (o : VHalf) (s : State) : HalfRes :=
  evalElem o s .unused [o.a.toNat] (opVclass (s.h.halfFmt o)) []

/-- VCLASS (R192). -/
def execVclass (o : VHalf) (s : State) : Out := runVectorHalf o s (evalVclass o s)

/-- What VMV leaves (R198). -/
def evalVmv (o : VHalf) (s : State) : HalfRes :=
  evalElem o s .unused [o.a.toNat] (opVmv (s.h.halfFmt o)) []

/-- VMV (R198). -/
def execVmv (o : VHalf) (s : State) : Out := runVectorHalf o s (evalVmv o s)

/-- The source format and SAT of VCVT (R193). -/
def vcvtOp (o : VHalf) (f : Fmt) : ElemOp := opVcvt f (Fmt.ofCode (o.c.toNat % 16)) (bit o.c.toNat 4)

/-- What VCVT leaves (R193). -/
def evalVcvt (o : VHalf) (s : State) : HalfRes :=
  evalElem o s .field [o.a.toNat] (vcvtOp o (s.h.halfFmt o)) []

/-- VCVT (R193). -/
def execVcvt (o : VHalf) (s : State) : Out := runVectorHalf o s (evalVcvt o s)

/-- What VCMP leaves (R191). -/
def evalVcmp (o : VHalf) (s : State) : HalfRes :=
  let h := s.h
  let f := h.halfFmt o
  let m := h.halfMask o
  let cond := o.c.toNat % 32
  let cs := unusedCauses o .field false ++ when_ (decide (8 ≤ cond)) (operand 0x02)
    ++ when_ (!f.isArith || (f.isInt && (cond = 6 || cond = 7))) (operand 0x04) ++ h.shapeCauses [f]
    ++ h.regCauses [] [o.a.toNat, o.b.toNat] ++ h.maskCauses [o.d.toNat] [] ++ h.maskInForce m
  if cs ≠ [] then .error cs
  else
    let ia := h.img o.a.toNat
    let ib := h.img o.b.toNat
    let r := h.positions.filterMap fun p =>
      let cell := fun (v : Bool × Flags) => some ((p.1 * h.maskRow + p.2, v.1), p.1 * h.cfg.vl + p.2, v.2)
      if m.sel h p.1 p.2 then cell (compareRes f cond (h.elem f ia p.1 p.2) (h.elem f ib p.1 p.2))
      else if m.on && m.zm then cell (false, 0#6)
      else none
    .ok { mw := [⟨o.d.toNat, r.map (·.1)⟩], raised := (r.map (·.2)).filter fun x => x.2 ≠ 0#6 }

/-- VCMP (R191). -/
def execVcmp (o : VHalf) (s : State) : Out := runVectorHalf o s (evalVcmp o s)

/-! ## Reductions and scans -/

/-- The elements of a row of the tile, none where a position is not active. -/
def Hart.rowElems (h : Hart) (m : Mask) (f : Fmt) (img row : Nat) : List (Option Nat) :=
  (List.range h.cfg.vl).map fun e => if m.sel h row e then some (h.elem f img row e) else none

/-- A reduction (R196): element 0 of each row is written, whatever the mask; nothing when VL = 0. -/
def evalRed (k : RedKind) (o : VHalf) (s : State) : HalfRes :=
  let h := s.h
  let f := h.halfFmt o
  let m := h.halfMask o
  let rm := h.halfMode o
  let cs := unusedCauses o .unused true ++ when_ (!f.isArith) (operand 0x04) ++ h.shapeCauses [f]
    ++ h.regCauses [o.d.toNat] [o.a.toNat] ++ h.maskInForce m
  if cs ≠ [] then .error cs
  else if h.cfg.vl = 0 then .ok {}
  else
    let img := h.img o.a.toNat
    let r := (List.range h.cfg.vrows).map fun row =>
      let v := reduce k f rm (if k.rounds f then h.drawAt rm f row 0 else 0) ((h.rowElems m f img row).filterMap id)
      ((h.cellAt f row 0, f.width, v.1), row * h.cfg.vl, v.2)
    .ok { vw := [⟨o.d.toNat, r.map (·.1)⟩], raised := (r.map (·.2)).filter fun x => x.2 ≠ 0#6,
          srn := h.stepsSeed (k.rounds f) rm }

/-- What VRSUM leaves (R196). -/
def evalVrsum (o : VHalf) (s : State) : HalfRes := evalRed .sum o s

/-- VRSUM (R196). -/
def execVrsum (o : VHalf) (s : State) : Out := runVectorHalf o s (evalVrsum o s)

/-- What VRMAX leaves (R196). -/
def evalVrmax (o : VHalf) (s : State) : HalfRes := evalRed .max o s

/-- VRMAX (R196). -/
def execVrmax (o : VHalf) (s : State) : Out := runVectorHalf o s (evalVrmax o s)

/-- What VRMIN leaves (R196). -/
def evalVrmin (o : VHalf) (s : State) : HalfRes := evalRed .min o s

/-- VRMIN (R196). -/
def execVrmin (o : VHalf) (s : State) : Out := runVectorHalf o s (evalVrmin o s)

/-- The operation of a scan (R197). -/
def scanKind (o : VHalf) : RedKind :=
  match o.c.toNat % 4 with
  | 0 => .sum
  | 1 => .max
  | _ => .min

/-- What VSCAN leaves (R197). -/
def evalVscan (o : VHalf) (s : State) : HalfRes :=
  let h := s.h
  let f := h.halfFmt o
  let m := h.halfMask o
  let rm := h.halfMode o
  let k := scanKind o
  let cs := unusedCauses o .field true ++ when_ (bits o.c.toNat 3 2 != 0) (operand 0x01)
    ++ when_ (decide (o.c.toNat % 4 = 3)) (operand 0x02) ++ when_ (!f.isArith) (operand 0x04) ++ h.shapeCauses [f]
    ++ h.regCauses [o.d.toNat] [o.a.toNat] ++ h.maskInForce m
  if cs ≠ [] then .error cs
  else
    let img := h.img o.a.toNat
    let rows := (List.range h.cfg.vrows).map fun row =>
      scanRow k f rm (fun e => if k.rounds f then h.drawAt rm f row e else 0) (bit o.c.toNat 2) 0 [] (h.rowElems m f img row)
    let w := h.sweep m f fun row e => ((rows.getD row []).getD e none)
    .ok { vw := [⟨o.d.toNat, w.1⟩], raised := w.2, srn := h.stepsSeed (k.rounds f) rm }

/-- VSCAN (R197). -/
def execVscan (o : VHalf) (s : State) : Out := runVectorHalf o s (evalVscan o s)

/-! ## Moves and permutations -/

/-- The conditions of a move half in the format in force: every format is accepted (R209). -/
def moveCauses (o : VHalf) (s : State) (unary : Bool) (fs : List Fmt) (dsts srcs : List Nat) : List Cause :=
  unusedCauses o .unused unary ++ s.h.shapeCauses (s.h.halfFmt o :: fs) ++ s.h.regCauses dsts srcs

/-- What VSPLAT leaves (R198). -/
def evalVsplat (o : VHalf) (s : State) : HalfRes :=
  evalMove o s (moveCauses o s true [] [o.d.toNat] []) fun _ _ => some ((s.x o.a).toNat % 2 ^ (s.h.halfFmt o).width)

/-- VSPLAT (R198). -/
def execVsplat (o : VHalf) (s : State) : Out := runVectorHalf o s (evalVsplat o s)

/-- An element in a scalar register: sign-extended for the signed formats (R198). -/
def extend (f : Fmt) (v : Nat) : Word := if f.isSigned then word (wrap 64 (signed f.width v)) else word v

/-- What VMVX leaves (R198). -/
def evalVmvx (o : VHalf) (s : State) : HalfRes :=
  let h := s.h
  let f := h.halfFmt o
  let i := (s.x o.b).toNat
  let v := if i < h.cfg.vrows * h.cfg.vl then extend f (h.elem f (h.img o.a.toNat) (i / h.cfg.vl) (i % h.cfg.vl)) else 0
  orCauses (moveCauses o s false [] [] [o.a.toNat]) { xw := [(o.d.toNat, v)] }

/-- VMVX (R198). -/
def execVmvx (o : VHalf) (s : State) : Out := runVectorHalf o s (evalVmvx o s)

/-- What VINS leaves (R198). -/
def evalVins (o : VHalf) (s : State) : HalfRes :=
  let h := s.h
  let f := h.halfFmt o
  let i := (s.x o.b).toNat
  let cells := if i < h.cfg.vrows * h.cfg.vl then
    [(h.cellAt f (i / h.cfg.vl) (i % h.cfg.vl), f.width, (s.x o.a).toNat % 2 ^ f.width)] else []
  orCauses (moveCauses o s false [] [o.d.toNat] []) { vw := [⟨o.d.toNat, cells⟩] }

/-- VINS (R198). -/
def execVins (o : VHalf) (s : State) : Out := runVectorHalf o s (evalVins o s)

/-- The element of its row that begins at a bit of an image in a format (R176). -/
def Hart.colOf (h : Hart) (f : Fmt) (bit : Nat) : Nat := bit / f.width % h.vlMax f

/-- What a half leaves without the positions below element n of each row, which keep their values. -/
def HalfOut.above (r : HalfOut) (h : Hart) (f : Fmt) (n : Nat) : HalfOut :=
  { r with vw := r.vw.map fun w => { w with cells := w.cells.filter fun c => decide (n ≤ h.colOf f c.1) } }

/-- What VSLUP leaves (R199): positions below s keep their values whatever the mask. -/
def evalVslup (o : VHalf) (s : State) : HalfRes :=
  let h := s.h
  let f := h.halfFmt o
  let n := (s.x o.b).toNat
  let img := h.img o.a.toNat
  match evalMove o s (moveCauses o s false [] [o.d.toNat] [o.a.toNat]) fun row e => some (h.elem f img row (e - n)) with
  | .ok r => .ok (r.above h f n)
  | .error cs => .error cs

/-- VSLUP (R199). -/
def execVslup (o : VHalf) (s : State) : Out := runVectorHalf o s (evalVslup o s)

/-- What VSLDN leaves (R199). -/
def evalVsldn (o : VHalf) (s : State) : HalfRes :=
  let h := s.h
  let f := h.halfFmt o
  let n := (s.x o.b).toNat
  let img := h.img o.a.toNat
  evalMove o s (moveCauses o s false [] [o.d.toNat] [o.a.toNat]) fun row e =>
    some (if e + n < h.cfg.vl then h.elem f img row (e + n) else 0)

/-- VSLDN (R199). -/
def execVsldn (o : VHalf) (s : State) : Out := runVectorHalf o s (evalVsldn o s)

/-- What VPERM leaves (R200). -/
def evalVperm (o : VHalf) (s : State) : HalfRes :=
  let h := s.h
  let f := h.halfFmt o
  let fi : Fmt := if f.width ≤ 16 then .z16 else .z32
  let img := h.img o.a.toNat
  let idx := h.img o.b.toNat
  evalMove o s (moveCauses o s false [fi] [o.d.toNat] [o.a.toNat, o.b.toNat]) fun row e =>
    let i := h.elem fi idx row e
    some (if i < h.cfg.vl then h.elem f img row i else 0)

/-- VPERM (R200). -/
def execVperm (o : VHalf) (s : State) : Out := runVectorHalf o s (evalVperm o s)

/-- What VCMPR leaves: the mask chooses sources only, and ZM has no effect (R201). -/
def evalVcmpr (o : VHalf) (s : State) : HalfRes :=
  let h := s.h
  let f := h.halfFmt o
  let m := h.halfMask o
  let img := h.img o.a.toNat
  let rows := (List.range h.cfg.vrows).map fun row => (h.rowElems m f img row).filterMap id
  orCauses (moveCauses o s true [] [o.d.toNat] [o.a.toNat] ++ h.maskInForce m)
    { vw := [⟨o.d.toNat, h.positions.map fun p =>
        (h.cellAt f p.1 p.2, f.width, (rows.getD p.1 []).getD p.2 0)⟩] }

/-- VCMPR (R201). -/
def execVcmpr (o : VHalf) (s : State) : Out := runVectorHalf o s (evalVcmpr o s)

/-- What VXPND leaves (R201). -/
def evalVxpnd (o : VHalf) (s : State) : HalfRes :=
  let h := s.h
  let f := h.halfFmt o
  let m := h.halfMask o
  let img := h.img o.a.toNat
  evalMove o s (moveCauses o s true [] [o.d.toNat] [o.a.toNat]) fun row e =>
    some (h.elem f img row (((List.range e).filter fun j => m.sel h row j).length))

/-- VXPND (R201). -/
def execVxpnd (o : VHalf) (s : State) : Out := runVectorHalf o s (evalVxpnd o s)

/-! ## Mask operations -/

/-- The conditions of a mask half: its unused fields, and its mask registers (R202, R209). -/
def maskHalfCauses (o : VHalf) (s : State) (n : Nat) (dsts srcs : List Nat) : List Cause :=
  when_ (o.c != 0 || evOf o || (decide (n < 2) && o.b != 0) || (decide (n < 1) && o.a != 0)) (operand 0x01)
    ++ s.h.maskCauses dsts srcs

/-- A mask half that writes mD at each tile position (R202). -/
def evalMask (o : VHalf) (s : State) (n : Nat) (g : Bool → Bool → Bool) : HalfRes :=
  let h := s.h
  let ia := Sparse.get 0 h.vec.m o.a.toNat
  let ib := Sparse.get 0 h.vec.m o.b.toNat
  orCauses (maskHalfCauses o s n [o.d.toNat] ([o.a.toNat, o.b.toNat].take n))
    { mw := [⟨o.d.toNat, h.positions.map fun p =>
        (p.1 * h.maskRow + p.2, g (h.maskBit ia p.1 p.2) (h.maskBit ib p.1 p.2))⟩] }

/-- What MAND leaves (R202). -/
def evalMand (o : VHalf) (s : State) : HalfRes := evalMask o s 2 fun a b => a && b

/-- MAND (R202). -/
def execMand (o : VHalf) (s : State) : Out := runVectorHalf o s (evalMand o s)

/-- What MOR leaves (R202). -/
def evalMor (o : VHalf) (s : State) : HalfRes := evalMask o s 2 fun a b => a || b

/-- MOR (R202). -/
def execMor (o : VHalf) (s : State) : Out := runVectorHalf o s (evalMor o s)

/-- What MXOR leaves (R202). -/
def evalMxor (o : VHalf) (s : State) : HalfRes := evalMask o s 2 fun a b => a != b

/-- MXOR (R202). -/
def execMxor (o : VHalf) (s : State) : Out := runVectorHalf o s (evalMxor o s)

/-- What MNOT leaves (R202). -/
def evalMnot (o : VHalf) (s : State) : HalfRes := evalMask o s 1 fun a _ => !a

/-- MNOT (R202). -/
def execMnot (o : VHalf) (s : State) : Out := runVectorHalf o s (evalMnot o s)

/-- What MSET leaves (R202). -/
def evalMset (o : VHalf) (s : State) : HalfRes := evalMask o s 0 fun _ _ => true

/-- MSET (R202). -/
def execMset (o : VHalf) (s : State) : Out := runVectorHalf o s (evalMset o s)

/-- What MCLR leaves (R202). -/
def evalMclr (o : VHalf) (s : State) : HalfRes := evalMask o s 0 fun _ _ => false

/-- MCLR (R202). -/
def execMclr (o : VHalf) (s : State) : Out := runVectorHalf o s (evalMclr o s)

/-- The flat indices of the set bits of a mask at tile positions. -/
def Hart.setIndices (h : Hart) (img : Nat) : List Nat :=
  h.positions.filterMap fun p => if h.maskBit img p.1 p.2 then some (p.1 * h.cfg.vl + p.2) else none

/-- What MPOP leaves (R202). -/
def evalMpop (o : VHalf) (s : State) : HalfRes :=
  orCauses (maskHalfCauses o s 1 [] [o.a.toNat])
    { xw := [(o.d.toNat, word (s.h.setIndices (Sparse.get 0 s.h.vec.m o.a.toNat)).length)] }

/-- MPOP (R202). -/
def execMpop (o : VHalf) (s : State) : Out := runVectorHalf o s (evalMpop o s)

/-- What MFRST leaves (R202). -/
def evalMfrst (o : VHalf) (s : State) : HalfRes :=
  orCauses (maskHalfCauses o s 1 [] [o.a.toNat])
    { xw := [(o.d.toNat,
        match s.h.setIndices (Sparse.get 0 s.h.vec.m o.a.toNat) with
        | [] => BitVec.allOnes 64
        | i :: _ => word i)] }

/-- MFRST (R202). -/
def execMfrst (o : VHalf) (s : State) : Out := runVectorHalf o s (evalMfrst o s)

/-! ## QRD and QWR outside a body -/

/-- What QRD leaves outside a body (R243): the last element of the tile, 0 when VL = 0. -/
def evalQrd (o : VHalf) (s : State) : HalfRes :=
  let h := s.h
  let f := h.halfFmt o
  let v := if h.cfg.vl = 0 then 0 else extend f (h.elem f (h.img o.a.toNat) (h.cfg.vrows - 1) (h.cfg.vl - 1))
  orCauses (when_ (o.b != 0 || o.c != 0 || evOf o) (operand 0x01) ++ h.shapeCauses [f] ++ h.regCauses [] [o.a.toNat])
    { xw := [(o.d.toNat, v)] }

/-- QRD (R243). -/
def execQrd (o : VHalf) (s : State) : Out := runVectorHalf o s (evalQrd o s)

/-- The value QWR gives the element of flat index g (R243). -/
def qwrValue (f : Fmt) (base step : Word) (g : Nat) : Nat := (base.toNat + g * step.toNat) % 2 ^ f.width

/-- What QWR leaves outside a body (R243). -/
def evalQwr (o : VHalf) (s : State) : HalfRes :=
  let f := s.h.halfFmt o
  evalMove o s (moveCauses o s false [] [o.d.toNat] [] ++ when_ (!f.isInt) (operand 0x04)) fun row e =>
    some (qwrValue f (s.x o.a) (s.x o.b) (row * s.h.cfg.vl + e))

/-- QWR (R243). -/
def execQwr (o : VHalf) (s : State) : Out := runVectorHalf o s (evalQwr o s)

end Sys2Proof.Machine
end

