-- ==== Sys2Proof/Machine/VecQuant.lean ====
section
/-!
DEFINITION. VQNT, VDQNT and VDOT (R126, R194, R195).
-/
namespace Sys2Proof.Machine

/-- The conditions on the fields of VQNT and VDQNT (R194, R195, R209). -/
def quantFields (o : FX) : List Cause :=
  when_ (o.c != 0 || bits o.f.toNat 8 2 != 0 || bits o.imm.toNat 3 13 != 0) (operand 0x01)
    ++ when_ (decide (o.imm.toNat % 8 = 7)) (operand 0x02)

/-- The formats VQNT narrows from and VDQNT widens to. -/
def isQWide (f : Fmt) : Bool := f.isFloat

/-- The formats VQNT narrows to and VDQNT widens from. -/
def isQNarrow (f : Fmt) : Bool := f.isSmall

/-- What VQNT leaves with its two formats (R58, R194). Where vD is vB the codes are written over the scales (DESIGN CHOICE: log
entry 49). -/
def quantize (o : FX) (s : State) (dst src : Fmt) : HalfRes :=
  let h := s.h
  let m := h.fxMask o
  let rm := h.mode (o.imm.toNat % 8)
  let cs := quantFields o ++ when_ (!(isQWide src && isQNarrow dst)) (operand 0x02) ++ h.shapeCauses [src, dst, .z8]
    ++ h.regCauses [o.d.toNat, o.b.toNat] [o.a.toNat] ++ h.maskInForce m
  let img := h.img o.a.toNat
  let block := fun row b => ((List.range 32).filterMap fun j =>
    let e := 32 * b + j
    if e < h.cfg.vl && m.sel h row e then some (h.elem src img row e) else none)
  let blocks := (List.range h.cfg.vrows).map fun row => (List.range (ceilDiv h.cfg.vl 32)).map fun b => block row b
  let scales := ((List.range h.cfg.vrows).map fun row => (List.range (ceilDiv h.cfg.vl 32)).map fun b =>
    (h.cellAt .z8 row b, 8, quantScale dst src ((blocks.getD row []).getD b []))).flatten
  let w := h.sweep m dst fun row e =>
    some (quantElem dst src ((blocks.getD row []).getD (e / 32) []) rm (h.drawAt rm dst row e) (h.elem src img row e))
  orCauses cs
    { vw := [⟨o.b.toNat, scales⟩, ⟨o.d.toNat, w.1⟩], raised := w.2, srn := h.stepsSeed true rm }

/-- What VQNT leaves (R194). -/
def evalVqnt (o : FX) (s : State) : HalfRes :=
  match Fmt.ofCode (bits o.f.toNat 0 4), Fmt.ofCode (bits o.f.toNat 4 4) with
  | some dst, some src => quantize o s dst src
  | _, _ => .error (quantFields o ++ [operand 0x02])

/-- VQNT (R194). -/
def execVqnt (o : FX) (s : State) : Out := runFull s (evalVqnt o s)

/-- What VDQNT leaves with its two formats (R195). -/
def dequantize (o : FX) (s : State) (dst src : Fmt) : HalfRes :=
  let h := s.h
  let m := h.fxMask o
  let rm := h.mode (o.imm.toNat % 8)
  let cs := quantFields o ++ when_ (!(isQNarrow src && isQWide dst)) (operand 0x02) ++ h.shapeCauses [src, dst, .z8]
    ++ h.regCauses [o.d.toNat] [o.a.toNat, o.b.toNat] ++ h.maskInForce m
  let img := h.img o.a.toNat
  let sc := h.img o.b.toNat
  let w := h.sweep m dst fun row e =>
    some (dequant dst src (h.elem .z8 sc row (e / 32)) rm (h.drawAt rm dst row e) (h.elem src img row e))
  orCauses cs { vw := [⟨o.d.toNat, w.1⟩], raised := w.2, srn := h.stepsSeed true rm }

/-- What VDQNT leaves (R195). -/
def evalVdqnt (o : FX) (s : State) : HalfRes :=
  match Fmt.ofCode (bits o.f.toNat 4 4), Fmt.ofCode (bits o.f.toNat 0 4) with
  | some dst, some src => dequantize o s dst src
  | _, _ => .error (quantFields o ++ [operand 0x02])

/-- VDQNT (R195). -/
def execVdqnt (o : FX) (s : State) : Out := runFull s (evalVdqnt o s)

/-- What VDOT leaves (R126): VMUL into a tile that no program can read, then VRSUM of it. -/
def evalVdot (o : FX) (s : State) : HalfRes :=
  let h := s.h
  let f := h.cfg.vtype
  let m := h.fxMask o
  let rm := h.ar.frm
  let op := opVmul f
  let cs := when_ (o.c != 0 || o.f != 0 || o.imm != 0 || (o.m = 0 && o.z = 1)) (operand 0x01)
    ++ when_ (!op.accept) (operand 0x04) ++ h.shapeCauses [f] ++ h.regCauses [o.d.toNat] [o.a.toNat, o.b.toNat]
    ++ h.maskInForce m
  if cs ≠ [] then .error cs
  else if h.cfg.vl = 0 then .ok {}
  else
    let ia := h.img o.a.toNat
    let ib := h.img o.b.toNat
    let srn := h.stepsSeed op.rounds rm
    let h2 := { h with ar := h.ar.stepSeed srn }
    let rows := (List.range h.cfg.vrows).map fun row =>
      let prods := (List.range h.cfg.vl).filterMap fun e =>
        if m.sel h row e then
          some (row * h.cfg.vl + e, op.eval rm (h.drawAt rm f row e) (h.elem f ia row e) (h.elem f ib row e) 0)
        else none
      let v := reduce .sum f rm (h2.drawAt rm f row 0) (prods.map fun p => p.2.1)
      ((h.cellAt f row 0, f.width, v.1), (prods.map fun p => (p.1, p.2.2)) ++ [(row * h.cfg.vl, v.2)])
    .ok { vw := [⟨o.d.toNat, rows.map (·.1)⟩],
          raised := ((rows.map (·.2)).flatten).filter fun x => x.2 ≠ 0#6, srn := srn }

/-- The count of retired forms executed (R128). -/
def State.countRetired (s : State) : State :=
  { s with h := { s.h with sys := { s.h.sys with retcnt := satAdd s.h.sys.retcnt 1 } } }

/-- VDOT (R126, R128): RETCNT rises when it completes; SRSEED steps once for each of its two steps under SRN. -/
def execVdot (o : FX) (s : State) : Out :=
  match s.withTraps (evalVdot o s) with
  | .error cs => .next (s.raise ((minCause cs).getD { code := 0 }) false false)
  | .ok r =>
    let t := s.commit r
    let t := { t with h := { t.h with ar := t.h.ar.stepSeed r.srn } }
    .next (t.countRetired.advance 8)

end Sys2Proof.Machine
end

