-- ==== Sys2Proof/Machine/LoadStore.lean ====
section
/-!
DEFINITION. Scalar loads and stores, acquire loads and release stores, the prefetch, and the fences (R146 to R152, R418,
R422).
-/
namespace Sys2Proof.Machine

/-- The condition of a scalar memory instruction on its space (R146, R422). -/
def scalarSpace (o : FM) : List Cause := when_ (decide (2 ≤ o.sp.toNat)) (operand 0x02)

/-- A scalar load of n bytes (R146): ext extends the value read. -/
def scalarLoad (o : FM) (s : State) (n : Nat) (ext : Nat → Word) : Out :=
  orTrap s (scalarSpace o)
    (match hartRead s s.h s.h.plv { rd := true } (o.sp = 1) (s.fmLoc o) n [] with
      | .error e => trapOut e
      | .ok (bs, s') => s'.result o.d (ext (ofBytes bs)))

/-- A scalar store of n bytes (R146). -/
def scalarStore (o : FM) (s : State) (n : Nat) : Out :=
  orTrap s (scalarSpace o)
    (match hartWrite s s.h s.h.plv { wr := true } (o.sp = 1) (s.fmLoc o) (toBytes n (s.x o.d).toNat) [] with
      | .error e => trapOut e
      | .ok s' => .next (s'.advance 8))

/-- A value of n bits sign-extended to a register (R146). -/
def signExt (n v : Nat) : Word := word (wrap 64 (signed n v))

/-- LDB (R146). -/
def execLdb (o : FM) (s : State) : Out := scalarLoad o s 1 (signExt 8)

/-- LDBZ (R146). -/
def execLdbz (o : FM) (s : State) : Out := scalarLoad o s 1 word

/-- LDH (R146). -/
def execLdh (o : FM) (s : State) : Out := scalarLoad o s 2 (signExt 16)

/-- LDHZ (R146). -/
def execLdhz (o : FM) (s : State) : Out := scalarLoad o s 2 word

/-- LDW (R146). -/
def execLdw (o : FM) (s : State) : Out := scalarLoad o s 4 (signExt 32)

/-- LDWZ (R146). -/
def execLdwz (o : FM) (s : State) : Out := scalarLoad o s 4 word

/-- LDD (R146). -/
def execLdd (o : FM) (s : State) : Out := scalarLoad o s 8 word

/-- STB (R146). -/
def execStb (o : FM) (s : State) : Out := scalarStore o s 1

/-- STH (R146). -/
def execSth (o : FM) (s : State) : Out := scalarStore o s 2

/-- STW (R146). -/
def execStw (o : FM) (s : State) : Out := scalarStore o s 4

/-- STD (R146). -/
def execStd (o : FM) (s : State) : Out := scalarStore o s 8

/-- The conditions of LDA and STL: space, scope in B, and SC (R148, R422). -/
def orderedCauses (o : FM) : List Cause :=
  scalarSpace o ++ when_ (decide (6 ≤ o.b.toNat) || o.sc != 0) (operand 0x02)

/-- The kind of an LDA access (R12, R148). -/
def ldaAcc (o : FM) : Acc := { rd := true, scope := o.b.toNat, atomic := true, acq := true, vqWait := true }

/-- The kind of an STL access (R12, R148). -/
def stlAcc (o : FM) : Acc := { wr := true, scope := o.b.toNat, atomic := true, rel := true, vqWait := true }

/-- The ALIGN condition with the record of R418. -/
def alignAt (a : Acc) (tile : Bool) (addr n : Nat) : List Cause :=
  when_ (decide (addr % 2 ^ n ≠ 0)) (accCause a tile addr 0x22 n 0)

/-- LDA (R148). -/
def execLda (o : FM) (s : State) : Out :=
  let loc := s.fmBase o
  orTrap s (orderedCauses o)
    (match hartRead s s.h s.h.plv (ldaAcc o) (o.sp = 1) loc 8 (alignAt (ldaAcc o) (o.sp = 1) loc 3) with
      | .error e => trapOut e
      | .ok (bs, s') => s'.result o.d (word (ofBytes bs)))

/-- STL (R148). -/
def execStl (o : FM) (s : State) : Out :=
  let loc := s.fmBase o
  orTrap s (orderedCauses o)
    (match hartWrite s s.h s.h.plv (stlAcc o) (o.sp = 1) loc (toBytes 8 (s.x o.d).toNat)
        (alignAt (stlAcc o) (o.sp = 1) loc 3) with
      | .error e => trapOut e
      | .ok s' => .next (s'.advance 8))

/-- PREF (R149): it changes nothing, and is dropped where the address cannot be accessed. -/
def execPref (o : FM) (s : State) : Out :=
  orTrap s (when_ (decide (2 ≤ o.d.toNat) || o.sp != 0) (operand 0x02)) (.next (s.advance 8))

/-- pred and succ of a FENCE (R151). -/
def fencePred (o : FI) : Nat := bits o.f.toNat 5 5
/-- succ of a FENCE (R151). -/
def fenceSucc (o : FI) : Nat := bits o.f.toNat 0 5

/-- The access classes of a chain port: vl, vs (R151, R247). -/
def portClasses : Instr → Nat
  | .vld _ | .vlds _ | .vldx _ | .vldtr _ | .vldk _ => 4
  | .vst _ | .vsts _ | .vstx _ | .vstxa _ | .vstk _ => 8
  | _ => 0

/-- The access classes of what the vector queue has still to perform (R151): those of an open run's ports, of the reads of VWAIT,
and the issue of a command by TCOPY or TROT. -/
def Hart.queueClasses (h : Hart) : Nat :=
  (match h.chain.run with
    | some r => if r.mode = .parked then 0 else r.body.nodes.foldl (fun m i => m ||| portClasses i) 0
    | none => 0)
    ||| match h.vq.map (·.instr) with
      | some (.vwait _) => 4
      | some (.tcopy _) | some (.trot _) => 16
      | _ => 0

/-- The event of a FENCE that takes effect (R328). -/
def Hart.fenceEv (h : Hart) (f : FenceHold) : Ev :=
  { agent := h.agent, place := h.coreKey, acq := true, rel := true, scope := f.scope, fence := some (f.pred, f.succ), po := f.po }

/-- A FENCE of the hart that issues (R151): it takes effect at once, or holds back its succ classes until the vector queue has
performed what it holds of its pred classes. -/
def State.fence (s : State) (f : FenceHold) : State :=
  if s.h.queueClasses &&& f.pred = 0 then s.record (s.h.fenceEv f)
  else { s with h := { s.h with fences := s.h.fences ++ [f] } }

/-- The FENCEs of the hart that issues whose pred classes the vector queue holds no more take effect (R151). -/
def State.settleFences (s : State) : State :=
  let held := fun (f : FenceHold) => s.h.queueClasses &&& f.pred != 0
  (s.h.fences.filter fun f => !held f).foldl (fun t f => t.record (t.h.fenceEv f))
    { s with h := { s.h with fences := s.h.fences.filter held } }

/-- The classes that FENCEs hold back (R151). -/
def Hart.fenced (h : Hart) : Nat := h.fences.foldl (fun m f => m ||| f.succ) 0

/-- FENCE (R151). -/
def execFence (o : FI) (s : State) : Out :=
  orTrap s (when_ (decide (6 ≤ o.imm.toNat)) (operand 0x02))
    (.next ((s.fence ⟨fencePred o, fenceSucc o, o.imm.toNat % 8, s.h.po⟩).advance 8))

/-- The place of a wait for the vector queue in the record of races (R327). -/
def State.recordWait (s : State) : State :=
  s.record { agent := s.h.agent, place := s.h.coreKey, vqWait := true, po := s.h.po }

/-- A release at a scope that is no access (R12, R328). -/
def State.recordRelease (s : State) (scope : Nat) : State :=
  s.record { agent := s.h.agent, place := s.h.coreKey, vqWait := true, rel := true, scope := scope, po := s.h.po }

/-- IFENCE (R152): fetches after it see every store before it, as every fetch of the model does. -/
def execIfence (_o : FI) (s : State) : Out := .next (s.recordWait.advance 8)

end Sys2Proof.Machine
end

