-- ==== Sys2Proof/Machine/Control.lean ====
section
/-!
DEFINITION. Branches and jumps, calls, gates, TRAP and XRET, WFI, and the words and fetches that are no instruction (R127,
R128, R153 to R165, R170 to R174, R408, R409, R411, R412, R415, R418, R422, R429).
-/
namespace Sys2Proof.Machine

/-! ## Branches and jumps -/

/-- The target of an FB word (R108, R153). -/
def State.fbTarget (s : State) (o : FB) : Word := s.h.pc + o.ofs.signExtend 64 * 8

/-- A branch that is taken or not (R153). -/
def branch (o : FB) (s : State) (taken : Bool) : Out := .next (if taken then s.setPc (s.fbTarget o) else s.advance 8)

/-- BEQ (R153). -/
def execBeq (o : FB) (s : State) : Out := branch o s (s.x o.a == s.x o.b)
/-- BNE (R153). -/
def execBne (o : FB) (s : State) : Out := branch o s (s.x o.a != s.x o.b)
/-- BLT (R153). -/
def execBlt (o : FB) (s : State) : Out := branch o s (decide ((s.x o.a).toInt < (s.x o.b).toInt))
/-- BGE (R153). -/
def execBge (o : FB) (s : State) : Out := branch o s (decide ((s.x o.b).toInt ≤ (s.x o.a).toInt))
/-- BLO (R153). -/
def execBlo (o : FB) (s : State) : Out := branch o s (decide ((s.x o.a).toNat < (s.x o.b).toNat))
/-- BHS (R153). -/
def execBhs (o : FB) (s : State) : Out := branch o s (decide ((s.x o.b).toNat ≤ (s.x o.a).toNat))
/-- JMP (R153). -/
def execJmp (o : FB) (s : State) : Out := .next (s.setPc (s.fbTarget o))
/-- JAL (R153). -/
def execJal (o : FB) (s : State) : Out := .next ((s.setX o.a (s.h.pc + 8)).setPc (s.fbTarget o))

/-- An address with bits [2:0] cleared (R153). -/
def clear3 (w : Word) : Word := w &&& 0xFFFFFFFFFFFFFFF8#64

/-- The target of JALR and CALLR (R153, R155). -/
def State.fiTarget (s : State) (o : FI) : Word := clear3 (s.x o.a + sext32 o.imm)

/-- JALR (R153). -/
def execJalr (o : FI) (s : State) : Out := .next ((s.setX o.d (s.h.pc + 8)).setPc (s.fiTarget o))

/-! ## Calls -/

/-- The call of a target (R155, R418): pc + 8 and the vector-state word below sp. -/
def callTo (s : State) (t : Word) : Out :=
  let sp := s.h.getX 2
  let acc : Acc := { wr := true }
  let extra := when_ (decide (sp.toNat % 16 ≠ 0)) (accCause acc false sp.toNat 0x22 4 0)
  match hartWrite s s.h s.h.plv acc false (sp - 16).toNat (wordsBytes [(s.h.pc + 8).toNat, s.h.vsw]) extra with
  | .error e => trapOut e
  | .ok s' => .next (({ s' with h := s'.h.setX 2 (sp - 16) }).setPc t)

/-- CALL (R155). -/
def execCall (o : FB) (s : State) : Out := callTo s (s.fbTarget o)
/-- CALLR (R155). -/
def execCallr (o : FI) (s : State) : Out := callTo s (s.fiTarget o)

/-- The 64-bit words of a list of bytes (R6). -/
def bytesWord (bs : List Byte) (i : Nat) : Nat := ofBytes ((bs.drop (8 * i)).take 8)

/-- RET (R156, R418, R422). -/
def execRet (_o : FI) (s : State) : Out :=
  let sp := s.h.getX 2
  let acc : Acc := { rd := true }
  match hartRead s s.h s.h.plv acc false sp.toNat 16 (alignAt acc false sp.toNat 4) with
  | .error e => trapOut e
  | .ok (bs, s') => match s'.h.restoreVsw (bytesWord bs 1) with
    | none => trapNow s (operand 0x08)
    | some h => .next (({ s' with h := h.setX 2 (sp + 16) }).setPc (clear3 (word (bytesWord bs 0))))

/-! ## Gates -/

/-- COUNT of GTBASE (R159). -/
def gateCount (w : Word) : Nat := bits w.toNat 52 12
/-- BASE of GTBASE (R159). -/
def gateBase (w : Word) : Nat := bits w.toNat 4 48 * 16

/-- The SUB of GATE for an entry that cannot be entered (R412). -/
def gateSub (plv : Priv) (w0 w1 : Nat) : Option Nat :=
  let tlvl := bits w1 56 2
  if !bit w1 63 then some 0x02
  else if tlvl = 0 ∨ tlvl = 3 ∨ tlvl ≤ plv.rank then some 0x03
  else if bits w0 0 3 ≠ 0 then some 0x04
  else if bits w0 57 7 ≠ 0 ∨ bits w1 58 5 ≠ 0 ∨ bits w1 7 49 ≠ 0 then some 0x05
  else none

/-- GATE (R160, R412): the entry is read from physical memory under key slot 0 (R376). -/
def execGate (o : FI) (s : State) : Out :=
  let n := o.imm.toNat
  let bad := fun sub => trapNow s { code := 0x71, sub := sub, tval := n }
  if gateCount s.h.sys.gtbase ≤ n then bad 0x01
  else
    let pa := gateBase s.h.sys.gtbase + 16 * n
    match s.readPhys 0 pa 16 with
    | .error f =>
      let c := f.cause (match homeOf pa with | .tile _ _ => true | _ => false)
      trapNow s { code := c.1, sub := c.2, tval := pa, addr := pa, asp := 1, rd := true }
    | .ok bs =>
      let w0 := bytesWord bs 0
      let w1 := bytesWord bs 1
      match gateSub s.h.plv w0 w1 with
      | some sub => bad sub
      | none =>
        .next { s with
          h := { s.h with
            plv := Priv.ofCode (bits w1 56 2), pc := word (canon57 (bits w0 0 57)),
            cfg := { s.h.cfg with vmsk := if bit w1 6 then BitVec.ofNat 6 (bits w1 0 6) else s.h.cfg.vmsk },
            sys := { s.h.sys with gepc := s.h.pc + 8, gstatPlv := BitVec.ofNat 2 s.h.plv.code, gstatMsk := s.h.cfg.vmsk } } }

/-- PRIVILEGE with its SUB (R411). -/
def privilege (sub : Nat) (tval : Nat := 0) : Cause := { code := 0x03, sub := sub, tval := tval }

/-- GRET (R161, R411). -/
def execGret (_o : FI) (s : State) : Out :=
  orTrap s (when_ (s.h.plv = .app) (privilege 0x01))
    (.next { s with
      h := { s.h with
        pc := s.h.sys.gepc, plv := Priv.ofCode s.h.sys.gstatPlv.toNat, cfg := { s.h.cfg with vmsk := s.h.sys.gstatMsk } } })

/-! ## Traps -/

/-- TRAP (R170): the trap returns behind it. -/
def execTrap (o : FI) (s : State) : Out :=
  .next (s.recordWait.enterTrap { code := 0x70, tval := o.imm.toNat } (s.h.pc + 8) false false none)

/-- The hart after XRET from a frame (R174); none where the frame's vector-state word holds TYPE 0. -/
def Hart.unframe (h : Hart) (bs : List Byte) : Option Hart :=
  let w := bytesWord bs
  (h.restoreVsw (w 4)).map fun h =>
    let h := (((((h.setX 1 (word (w 10))).setX 2 (word (w 11))).setX 5 (word (w 12))).setX 6 (word (w 13))).setX 13
      (word (w 14))).setX 14 (word (w 15))
    { h with
      pc := word (w 0), plv := Priv.ofCode (bits (w 3) 8 2),
      sys := { h.sys with
        gepc := word (w 5), gstatPlv := BitVec.ofNat 2 (bits (w 6) 6 2), gstatMsk := BitVec.ofNat 6 (bits (w 6) 0 6),
        tsp := h.sys.tsp + 128 } }

/-- A parked run is discarded where the pc is not that of its CHRUN (R433). -/
def Hart.dropParked (h : Hart) : Hart :=
  match h.chain.run with
  | some r => if r.mode = .parked ∧ r.pc ≠ h.pc then
      { h with chain := { h.chain with run := none }, chr := { h.chr with run := false } } else h
  | none => h

/-- XRET (R174, R411, R422, R433). -/
def execXret (_o : FI) (s : State) : Out :=
  orTrap s (when_ (s.h.plv ≠ .exec) (privilege 0x02))
    (match hartRead s.recordWait s.h .exec { rd := true } false s.h.sys.tsp.toNat 128 [] with
      | .error e => trapOut e
      | .ok (bs, s') => match s'.h.unframe bs with
        | none => trapNow s (operand 0x08)
        | some h => .next { s' with h := h.dropParked })

/-- CHRUNX (R127, R128, R415): RETCNT rises before the trap. -/
def execChrunx (o : FI) (s : State) : Out :=
  trapNow s.countRetired { code := 0x05, sub := 0x01, tval := (encFI 0xF1 o).toNat }

/-- A word that is no instruction (R128, R408, R409): ILLEGAL, and for LDPAIR RETCNT before it. -/
def execIllegalWord (sub : Nat) (slot : Option Bool) (w : Word) (s : State) : Out :=
  let s := if sub = 0x04 then s.countRetired else s
  .next (s.raise { code := 0x00, sub := sub, tval := w.toNat } slot.isSome (slot.getD false))

/-- The fetch of a word (R89, R429): the memory cause, or the word. At a pc that is no multiple of 8 it takes the 8 bytes there
(DESIGN CHOICE: log entry 46). -/
def fetchWord (s : State) (pc : Word) : Except (Cause × State) (Word × State) :=
  match hartRead s s.h s.h.plv { ex := true } false pc.toNat 8 [] with
  | .error e => .error e
  | .ok (bs, s') => .ok (word (ofBytes bs), s')

/-- The cause of a fetch that fails: FETCH for TRANSLATE, PERMIT and POISON; KEY freezes as ever (R389, R429). -/
def fetchCause (c : Cause) : Cause := if c.code = 0x72 then c else { c with code := 0x26, sub := c.code }

/-- FETCH_FAULT (R389, R429): the fetch of the word at the pc fails. -/
def execFetchFault (s : State) : Out :=
  match fetchWord s s.h.pc with
  | .error (c, s') => .next (s'.raise (fetchCause c) false false)
  | .ok _ => .next s

/-! ## Waiting for an event -/

/-- WFI (R165): the hart stops issuing. -/
def execWfi (o : FI) (s : State) : Out := .next (s.startWait (.wfi o))

/-- WFI_WAKE (R165): a hart stopped in WFI goes on; any internal event may wake it. -/
def execWfiWake (s : State) : Out :=
  match s.selectLive s.input.who with
  | none => .next s
  | some t => match t.h.wait with
    | some (.wfi o) => .next (t.endWait o.d 0)
    | _ => .next t

end Sys2Proof.Machine
end

