-- ==== Sys2Proof/Machine/Matrix.lean ====
section
/-!
DEFINITION. The matrix unit (R71, R72, R210 to R231): ownership, configuration, tile loads, rows, the accumulator, and
joined cores.
-/
namespace Sys2Proof.Machine

/-! ## The unit -/

/-- MSTATE of a unit as its owner reads it (R212). -/
def MatrixUnit.mstate (u : MatrixUnit) : Nat :=
  2 ^ 63 + ofBool u.joined * 2 ^ 62 + u.jn * 2 ^ 60 + u.jp * 2 ^ 58 + u.dirty.toNat * 2 ^ 40 + u.step % 256 * 2 ^ 32
    + u.k * 2 ^ 21 + ofBool u.sv * 2 ^ 20 + ofBool u.tv * 2 ^ 19 + ofBool u.bsc * 2 ^ 11 + ofBool u.asc * 2 ^ 10
    + u.spar * 2 ^ 8 + u.bfmt * 2 ^ 4 + u.afmt

/-- MSTATE[11:0] of a unit (R226). -/
def MatrixUnit.config (u : MatrixUnit) : Nat := u.mstate % 2 ^ 12

/-- The unit as the hart that issues sees it: its own, or one that reads zero (R212). -/
def State.unit (s : State) : Option MatrixUnit :=
  if s.core.mu.owner = some s.h.key then some s.core.mu else none

/-- The unit given up: all it holds is zero, and harts that wait for it keep their order (R211). -/
def MatrixUnit.giveUp (u : MatrixUnit) : MatrixUnit := { waiters := u.waiters }

/-- The state with the unit of the core of the hart that issues replaced. -/
def State.setUnit (s : State) (u : MatrixUnit) : State := s.updCore s.h.coreKey fun c => { c with mu := u }

/-- The formats of A that go with a format of B, and the dense depth of the tile (R213). -/
def pairOf : Fmt → Option (List Fmt × Nat)
  | .f32 => some ([.f32], 48)
  | .bf16 => some ([.bf16, .e4m3, .e5m2, .k8], 96)
  | .f16 => some ([.f16, .e4m3, .e5m2, .k8], 96)
  | .e4m3 | .e5m2 | .k8 => some ([.e4m3, .e5m2, .k8], 192)
  | .s8 => some ([.s8], 192)
  | .e2m1 => some ([.e2m1], 384)
  | _ => none

/-- The format of a code held in MSTATE. -/
def mfmt (code : Nat) : Fmt := (Fmt.ofCode code).getD .f32

/-- Kd of the unit's formats (R213). -/
def MatrixUnit.depth (u : MatrixUnit) : Nat := match pairOf (mfmt u.bfmt) with | some p => p.2 | none => 0

/-- S: positions kept of every 12 (R213). -/
def MatrixUnit.keep (u : MatrixUnit) : Nat := 3 * u.spar

/-- An instruction that waits on another agent is put into the vector queue with what it read (R348). -/
def State.hold (s : State) (i : Instr) (xs : List Word) (vs : List Nat) (mask sat : Nat) : State :=
  ({ s with h := { s.h with vq := some ⟨i, s.h.pc, xs, vs, mask, sat, s.h.cfg.vl, s.h.cfg.vrows, s.h.plv, s.h.po⟩, stalled := false } }).advance 8

/-- The hart that issues stops before an instruction that its die class lacks (R347, R413). -/
def State.stopLacking (s : State) (cls sub : Nat) : State := { s with h := { s.h with lacks := some (cls, sub) } }

/-- Whether a field of the FX format beyond those given is nonzero. -/
def fxOther (o : FX) (d a b : Bool) : Bool :=
  (!d && o.d != 0) || (!a && o.a != 0) || (!b && o.b != 0) || o.c != 0

/-! ## Configuration -/

/-- The unit after MCFG without REL (R216). -/
def MatrixUnit.configure (u : MatrixUnit) (imm : Nat) (clr : Bool) : MatrixUnit :=
  let u := { u with
    afmt := bits imm 0 4, bfmt := bits imm 4 4, spar := bits imm 8 2, asc := bit imm 10, bsc := bit imm 11,
    tv := false, sv := false, k := 0, step := 0, rowcnt := 0 }
  if clr then { u with acc := [], dirty := 0, accErr := [] } else u

/-- A formats pair, scales and sparsity that R213 accepts. -/
def pairAccepted (imm : Nat) : Bool :=
  match Fmt.ofCode (bits imm 0 4), Fmt.ofCode (bits imm 4 4) with
  | some a, some b =>
    match pairOf b with
    | none => false
    | some (as, _) => as.contains a && (!bit imm 10 || a.isSmall) && (!bit imm 11 || b.isSmall)
      && (bits imm 8 2 == 0 || b != .f32)
  | _, _ => false

/-- MCFG asks for what a bandwidth die lacks (R19, R413). -/
def mcfgLacks (o : FX) : Bool :=
  !bit o.f.toNat 0 && (bits o.imm.toNat 0 4 == 14 || bits o.imm.toNat 4 4 == 14 || bits o.imm.toNat 8 2 != 0)

/-- The conditions of MCFG (R216, R231). -/
def mcfgCauses (o : FX) (u : Option MatrixUnit) : List Cause :=
  let rel := bit o.f.toNat 0
  when_ (fxOther o false false false || o.m != 0 || o.z != 0 || decide (4 ≤ o.f.toNat) || decide (4096 ≤ o.imm.toNat)
      || (rel && o.imm != 0)) (operand 0x01)
    ++ when_ (!rel && !pairAccepted o.imm.toNat) (operand 0x02)
    ++ when_ (match u with | some m => m.joined | none => false) (operand 0x06)

/-- MCFG (R211, R216): the release, the configuration by an owner, the unit taken, or the wait for it. REL by a hart that
owns no unit gives up nothing. -/
def execMcfg (o : FX) (s : State) : Out :=
  let clr := bit o.f.toNat 1
  if isBandwidth s.h.die && mcfgLacks o then .next (s.stopLacking 1 0)
  else orTrap s (mcfgCauses o s.unit)
    (if bit o.f.toNat 0 then
      match s.unit with
      | some u => .next ((s.setUnit u.giveUp).advance 8)
      | none => .next (s.advance 8)
    else
      let u := s.core.mu
      if u.owner = some s.h.key ∨ (u.owner = none ∧ u.waiters = []) then
        .next ((s.setUnit ({ u with owner := some s.h.key }.configure o.imm.toNat clr)).advance 8)
      else .next ((s.setUnit { u with waiters := u.waiters ++ [s.h.key] }).hold (.mcfg o) [] [] 0 0))

/-- The matrix state that the hart first in line at a core waits to have restored (R229). -/
def State.frontSaved (s : State) (c : Nat) : Option (Nat × MatrixUnit) :=
  let u := (s.coreAt c).mu
  match u.owner, u.waiters with
  | none, k :: _ => (s.hartAt k).muSaved.map fun m => (k, m)
  | _, _ => none

/-- The unit of a core given to the hart first in line, with its saved matrix state (R229). -/
def State.restoreUnit (s : State) (c : Nat) : State :=
  match s.frontSaved c with
  | some (k, m) =>
    (s.updCore c fun x => { x with mu := { m with owner := some k, waiters := x.mu.waiters.tail } }).updHart k fun h =>
      { h with muSaved := none }
  | none => s

/-- MATRIX_UNIT_GRANT (R211, R229): a free unit goes to the hart that has waited longest, for its MCFG or for the matrix
state of its resumed strip; the members of a join take theirs together. -/
def execMatrixUnitGrant (s : State) : Out :=
  let c := s.input.who
  let u := (s.coreAt c).mu
  match u.owner, u.waiters with
  | none, k :: rest =>
    match (s.hartAt k).muSaved, (s.hartAt k).vq with
    | some m, _ =>
      let cs := if m.joined then (List.range m.jn).map (c - m.jp + ·) else [c]
      if cs.all fun d => match s.frontSaved d with
          | some (_, n) => !m.joined || (n.joined && n.jn == m.jn && n.jp == d - (c - m.jp))
          | none => false then
        .next (cs.foldl State.restoreUnit s)
      else .next s
    | none, some ⟨.mcfg o, _, _, _, _, _, _, _, _, _⟩ =>
      let m := { u with owner := some k, waiters := rest }.configure o.imm.toNat (bit o.f.toNat 1)
      .next ((s.updCore c fun x => { x with mu := m }).updHart k fun h => { h with vq := none })
    | none, _ => .next (s.updCore c fun x => { x with mu := { u with waiters := rest } })
  | _, _ => .next s

/-! ## Tile loads -/

/-- The stationary view of a register image, in logical order (R215). -/
def viewOf (img : Nat) : Nat :=
  (List.range 12).foldr (fun r acc =>
    (List.range 4).foldr (fun q a => bits img (8 * (q * 768 + r * 64)) 512 + 2 ^ 512 * a) 0 + 2 ^ 2048 * acc) 0

/-- The logical bytes of n registers from base (R215). -/
def Hart.groupView (h : Hart) (base n : Nat) : Nat :=
  (List.range n).foldr (fun g acc => viewOf (h.img (base + g)) + 2 ^ 24576 * acc) 0

/-- Registers of a group that hold the first n bytes. -/
def groupRegs (base n : Nat) : List Nat := (List.range (ceilDiv n 3072)).map (base + ·)

/-- A tile of K rows and 128 columns with elements of width w. -/
def buildTile (w k : Nat) (f : Nat → Nat → Nat) : Nat :=
  (List.range k).foldr (fun kk acc =>
    (List.range 128).foldr (fun n a => f kk n + 2 ^ w * a) 0 + 2 ^ (128 * w) * acc) 0

/-- The conditions on a register group (R215, R231). -/
def Hart.groupCauses (h : Hart) (base align bytes : Nat) : List Cause :=
  when_ (base % align ≠ 0) (operand 0x03) ++ h.regCauses [] (groupRegs base bytes)
    ++ when_ (decide (h.cap < 3072)) (operand 0x05)

/-- The condition of a hart that does not own the unit (R231). -/
def ownCauses (u : Option MatrixUnit) (f : MatrixUnit → List Cause) : List Cause :=
  match u with
  | none => [operand 0x06]
  | some m => f m

/-- A tile load takes effect on the unit (R217, R218). -/
def MatrixUnit.load (u : MatrixUnit) (k tile kept : Nat) : MatrixUnit :=
  { u with tile := tile, kept := kept, tileErr := false, k := k, tv := true, sv := false, step := u.step + 1 }

/-- A tile load at a member of a join must wait: for the leader's own load, or for rows of its present tag (R227), of which those that
come first in order count (log entry 56). -/
def State.loadWaits (s : State) (c : Nat) : Bool :=
  let u := (s.coreAt c).mu
  let lead := (s.coreAt (c - u.jp)).mu
  u.joined && ((u.jp != 0 && decide (lead.step ≤ u.step)) || match u.rows with | r :: _ => r.tag % 256 == u.step % 256 | [] => false)

/-- The tile that MLDB loads from a group (R217). -/
def MatrixUnit.loadDense (u : MatrixUnit) (view : Nat) : MatrixUnit :=
  u.load u.depth (bits view 0 (128 * u.depth * (mfmt u.bfmt).width)) 0

/-- Kept rows of MLDBS (R218). -/
def MatrixUnit.keptRows (u : MatrixUnit) : Nat := u.keep * (u.depth / u.keep)

/-- The metadata nibble of kept row kk and column n (R218). -/
def metaAt (view kk n : Nat) : Nat := bits view (4 * (kk * 128 + n)) 4

/-- The tile that MLDBS loads from its two groups (R218). -/
def MatrixUnit.loadSparse (u : MatrixUnit) (vals tags : Nat) : MatrixUnit :=
  let w := (mfmt u.bfmt).width
  let k := 12 * (u.depth / u.keep)
  let find := fun (kk n : Nat) =>
    ((List.range u.keep).map (kk / 12 * u.keep + ·)).find? fun r => metaAt tags r n = kk % 12
  u.load k
    (buildTile w k fun kk n => match find kk n with | some r => bits vals ((r * 128 + n) * w) w | none => 0)
    (buildTile 1 k fun kk n => ofBool (find kk n).isSome)

/-- The first nibble at fault of metadata, with its SUB (R420). -/
def metaFault (view keep rows : Nat) : Option (Nat × Nat) :=
  (List.range (rows * 128)).findSome? fun i =>
    let kk := i / 128
    let v := metaAt view kk (i % 128)
    if 12 ≤ v then some (i, 1)
    else if kk % keep ≠ 0 ∧ v ≤ metaAt view (kk - 1) (i % 128) then some (i, 2)
    else none

/-- A tile load takes effect, or waits in the vector queue at a member of a join (R227). -/
def State.loadOrHold (s : State) (i : Instr) (views : List Nat) (u : MatrixUnit) : Out :=
  if s.loadWaits s.h.coreKey then .next (s.hold i [] views 0 0) else .next ((s.setUnit u).advance 8)

/-- MLDB (R217). -/
def execMldb (o : FX) (s : State) : Out :=
  let bytes := fun (u : MatrixUnit) => u.depth * 16 * (mfmt u.bfmt).width
  orTrap s (when_ (fxOther o false true false || o.m != 0 || o.z != 0 || o.f != 0 || o.imm != 0) (operand 0x01)
      ++ when_ (o.a.toNat % 8 ≠ 0) (operand 0x03)
      ++ ownCauses s.unit fun u => s.h.groupCauses o.a.toNat 8 (bytes u) ++ when_ (u.spar ≠ 0) (operand 0x06))
    (match s.unit with
      | none => .next s
      | some u =>
        let v := s.h.groupView o.a.toNat (ceilDiv (bytes u) 3072)
        s.loadOrHold (.mldb o) [v] (u.loadDense v))

/-- MLDBS (R218, R420). -/
def execMldbs (o : FX) (s : State) : Out :=
  let bytes := fun (u : MatrixUnit) => u.keptRows * 16 * (mfmt u.bfmt).width
  orTrap s (when_ (fxOther o false true true || o.m != 0 || o.z != 0 || o.f != 0 || o.imm != 0) (operand 0x01)
      ++ when_ (o.a.toNat % 8 ≠ 0 || o.b.toNat % 8 ≠ 0) (operand 0x03)
      ++ ownCauses s.unit fun u => if u.spar = 0 then [operand 0x06] else
        s.h.groupCauses o.a.toNat 8 (bytes u) ++ s.h.groupCauses o.b.toNat 8 (u.keptRows * 64))
    (match s.unit with
      | none => .next s
      | some u =>
        let v := s.h.groupView o.a.toNat (ceilDiv (bytes u) 3072)
        let m := s.h.groupView o.b.toNat (ceilDiv (u.keptRows * 64) 3072)
        match metaFault m u.keep u.keptRows with
        | some (i, sub) => trapNow (s.setUnit { u with tv := false, sv := false, k := 0 }) { code := 0x12, sub := sub, index := i }
        | none => s.loadOrHold (.mldbs o) [v, m] (u.loadSparse v m))

/-- A tile load that waits in the vector queue of the hart that issues takes effect once it may (R227). -/
def State.retryLoad (s : State) : State :=
  if s.loadWaits s.h.coreKey then s
  else
    let u := s.core.mu
    let fin := fun (m : MatrixUnit) => { s.setUnit m with h := { s.h with vq := none } }
    match s.h.vq with
    | some ⟨.mldb _, _, _, [v], _, _, _, _, _, _⟩ => fin (u.loadDense v)
    | some ⟨.mldbs _, _, _, [v, m], _, _, _, _, _, _⟩ => fin (u.loadSparse v m)
    | _ => s

/-- MSCL (R219). -/
def execMscl (o : FX) (s : State) : Out :=
  let bytes := fun (u : MatrixUnit) => ceilDiv u.k 32 * 128
  orTrap s (when_ (fxOther o false true false || o.m != 0 || o.z != 0 || o.f != 0 || o.imm != 0) (operand 0x01)
      ++ when_ (o.a.toNat % 2 ≠ 0) (operand 0x03)
      ++ ownCauses s.unit fun u => s.h.groupCauses o.a.toNat 2 (bytes u) ++ when_ (!u.tv || !u.bsc) (operand 0x06))
    (match s.unit with
      | none => .next s
      | some u =>
        let v := s.h.groupView o.a.toNat (ceilDiv (bytes u) 3072)
        .next ((s.setUnit { u with scales := bits v 0 (8 * bytes u), sv := true }).advance 8))

/-! ## Rows -/

/-- A value under a block scale (R57). -/
def scaleByte (v : FVal) (x : Nat) : FVal := if x = 255 then .nan false else scaleV v ((x : Int) - 127)

/-- B(k,n) with its scale, none where the position is pruned (R71, R218, R219). -/
def MatrixUnit.bAt (u : MatrixUnit) (k n : Nat) : Option FVal :=
  let f := mfmt u.bfmt
  let i := k * 128 + n
  if u.spar ≠ 0 && !bit u.kept i then none
  else
    let v := decodeF f (bits u.tile (i * f.width) f.width)
    some (if u.bsc then scaleByte v (bits u.scales (8 * (k / 32 * 128 + n)) 8) else v)

/-- One accumulator element updated by the groups of a row (R71, R72): the element and its flags. -/
def MatrixUnit.column (u : MatrixUnit) (as : List (Option FVal)) (n acc : Nat) : Nat × Flags :=
  let r := (List.range (ceilDiv u.k 16)).foldl (fun (st : Nat × Flags) g =>
    let terms := (List.range 16).filterMap fun j =>
      match as.getD (16 * g + j) none, (if 16 * g + j < u.k then u.bAt (16 * g + j) n else none) with
      | some a, some b => some (mulV a b)
      | _, _ => none
    let sum := groupSum (terms.any (·.2)) (terms.map (·.1))
    let p := finish .f32 .rne 0 sum
    let a := finish .f32 .rne 0 (addV false (decodeF .f32 st.1) (decodeF .f32 p.1))
    (a.1, st.2 ||| p.2 ||| a.2)) (acc, 0#6)
  (r.1, r.2 &&& (Flag.nv ||| Flag.of ||| Flag.uf))

/-- The image of accumulator row i. -/
def MatrixUnit.row (u : MatrixUnit) (i : Nat) : Nat := Sparse.get 0 u.acc i

/-- An element of the accumulator. -/
def MatrixUnit.accAt (u : MatrixUnit) (i n : Nat) : Nat := bits (u.row i) (32 * n) 32

/-- Row i is marked dirty (R212). -/
def MatrixUnit.soil (u : MatrixUnit) (i : Nat) : MatrixUnit :=
  { u with dirty := u.dirty ||| (1#16 <<< (i / 16)) }

/-- A row committed to the unit (R220), with the flags of its accumulator elements (R69). ROWCNT stays at 2^64 - 1 once it is there:
R210 calls it a 64-bit count and does not say what follows (DESIGN CHOICE: log entry 56). -/
def MatrixUnit.commitRow (u : MatrixUnit) (r : JoinRow) : MatrixUnit × Raised :=
  let f := mfmt u.afmt
  let as := r.els.map fun e => e.map fun p => if u.asc then scaleByte (decodeF f p.1) p.2 else decodeF f p.1
  let cols := (List.range 128).map fun n => u.column as n (u.accAt r.row n)
  let img := cols.foldr (fun c a => c.1 + 2 ^ 32 * a) 0
  ({ u with acc := Sparse.set 0 u.acc r.row img, rowcnt := satAdd u.rowcnt 1 }.soil r.row,
   ((List.range 128).zip (cols.map (·.2))).filterMap fun c => if c.2 = 0#6 then none else some (r.row * 128 + c.1, c.2))

/-- A row may be committed at the unit (R227): STEP equals its tag, modulo 256 as MSTATE holds both (R212). -/
def MatrixUnit.ready (u : MatrixUnit) (r : JoinRow) : Bool := r.tag % 256 == u.step % 256 && u.tv && (!u.bsc || u.sv)

/-- A row that arrives in order: committed, or kept until it may be (R227). -/
def MatrixUnit.accept (u : MatrixUnit) (r : JoinRow) : MatrixUnit × Raised :=
  if u.rows = [] ∧ u.ready r then u.commitRow r else ({ u with rows := u.rows ++ [r] }, [])

/-- Rows committed one after the other. -/
def MatrixUnit.acceptAll (u : MatrixUnit) (rs : List JoinRow) : MatrixUnit × Raised :=
  rs.foldl (fun st r => let n := st.1.accept r; (n.1, st.2 ++ n.2)) (u, [])

/-- Errors in what a row commit reads (R425, R426). -/
def MatrixUnit.errCauses (u : MatrixUnit) (rows : List Nat) : List Cause :=
  match rows.filter fun i => u.tileErr || Sparse.get false u.accErr (i / 16) with
  | [] => []
  | i :: _ => [{ code := 0x23, sub := 0x04, tval := i, addr := i, rd := true }]

/-- The accumulators of the other members of the join of the hart that issues, as rows about to be sent find them: the tile a row
meets there is not yet the present one (R227). -/
def State.otherMembers (s : State) : List MatrixUnit :=
  let u := s.core.mu
  if u.joined then (List.range (u.jn - 1)).map fun i => { (s.coreAt (s.h.coreKey + 1 + i)).mu with tileErr := false } else []

/-- What rows of the hart that issues leave: commits at its own unit, and rows for the other members (R227). An error mark at
any member is met before any row is sent (R425). -/
def MatrixUnit.rowsOut (u : MatrixUnit) (others : List MatrixUnit) (rows : List JoinRow) : HalfRes :=
  let c := u.acceptAll rows
  match ((u :: others).map fun m => m.errCauses (rows.map (·.row))).flatten with
  | [] => .ok { mu := some c.1, credit := c.2, rows := if u.joined then rows else [] }
  | cs => .error cs

/-- The conditions of MROW and MROWSL on the unit (R231): the state of the tile and the place in the join. -/
def rowUnitCauses (u : MatrixUnit) : List Cause :=
  when_ (!u.tv || (u.bsc && !u.sv && !u.joined) || (u.joined && u.jp != 0)) (operand 0x06)

/-- The conditions on the prefix of a matrix half (R223, R231). -/
def matrixPfx (o : VHalf) : Bool := match o.pfx with | some p => p.ty != 0 || p.ev != 0 | none => false

/-- The rows MROW commits: for each row of the tile with an active position below K (R220). -/
def mrowRows (o : VHalf) (s : State) (u : MatrixUnit) (first : Nat) : List JoinRow :=
  let h := s.h
  let m := h.halfMask o
  let f := mfmt u.afmt
  let ia := h.img o.a.toNat
  let ib := h.img o.b.toNat
  let n := min u.k h.cfg.vl
  (List.range h.cfg.vrows).filterMap fun row =>
    let els := (List.range n).map fun k =>
      if m.sel h row k then some (h.elem f ia row k, if u.asc then h.elem .z8 ib row (k / 32) else 0) else none
    if els.any Option.isSome then some ⟨u.step, first + row, els, h.key⟩ else none

/-- What MROW leaves (R220). -/
def evalMrow (o : VHalf) (s : State) : HalfRes :=
  let h := s.h
  let first := (s.x o.d).toNat
  let cs := when_ (o.c.toNat % 32 != 0 || matrixPfx o) (operand 0x01) ++ h.maskInForce (h.halfMask o)
    ++ ownCauses s.unit fun u =>
      when_ (!u.asc && o.b != 0) (operand 0x01) ++ rowUnitCauses u
        ++ h.regCauses [] (o.a.toNat :: if u.asc then [o.b.toNat] else [])
        ++ h.shapeCauses (mfmt u.afmt :: if u.asc then [.z8] else [])
        ++ when_ (h.cfg.vl != 0 && decide (255 < first + h.cfg.vrows - 1)) (operand 0x07)
  if cs ≠ [] then .error cs
  else match s.unit with
    | none => .ok {}
    | some u => u.rowsOut s.otherMembers (mrowRows o s u first)

/-- MROW (R220). -/
def execMrow (o : VHalf) (s : State) : Out := runVectorHalf o s (evalMrow o s)

/-- The rows MROWSL commits (R221). -/
def mrowslRows (o : VHalf) (s : State) (u : MatrixUnit) (first n : Nat) : List JoinRow :=
  let h := s.h
  let m := h.halfMask o
  let f := mfmt u.afmt
  let ia := h.img o.a.toNat
  let stride := o.c.toNat % 32 + 1
  (List.range n).filterMap fun j =>
    let els := (List.range u.k).map fun k =>
      let q := j * stride + k
      let row := q / h.cfg.vl
      let e := q % h.cfg.vl
      if row < h.cfg.vrows && m.sel h row e then some (h.elem f ia row e, 0) else none
    if els.any Option.isSome then some ⟨u.step, first + j, els, h.key⟩ else none

/-- What MROWSL leaves (R221). -/
def evalMrowsl (o : VHalf) (s : State) : HalfRes :=
  let h := s.h
  let first := (s.x o.d).toNat
  let n := (s.x o.b).toNat
  let cs := when_ (matrixPfx o) (operand 0x01) ++ h.maskInForce (h.halfMask o)
    ++ ownCauses s.unit fun u =>
      rowUnitCauses u ++ when_ u.asc (operand 0x06) ++ h.regCauses [] [o.a.toNat] ++ h.shapeCauses [mfmt u.afmt]
        ++ when_ (n != 0 && h.cfg.vl != 0 && decide (255 < first + n - 1)) (operand 0x07)
  if cs ≠ [] then .error cs
  else match s.unit with
    | none => .ok {}
    | some u => if h.cfg.vl = 0 then .ok {} else u.rowsOut s.otherMembers (mrowslRows o s u first n)

/-- MROWSL (R221); a bandwidth die lacks it (R413). -/
def execMrowsl (o : VHalf) (s : State) : Out :=
  if isBandwidth s.h.die then .next (s.stopLacking 1 0) else runVectorHalf o s (evalMrowsl o s)

/-- What MZERO leaves (R222). -/
def evalMzero (o : VHalf) (s : State) : HalfRes :=
  let first := (s.x o.d).toNat
  let n := (s.x o.a).toNat
  let cs := when_ (o.b != 0 || o.c != 0 || matrixPfx o) (operand 0x01)
    ++ ownCauses s.unit fun _ => when_ (n != 0 && decide (255 < first + n - 1)) (operand 0x07)
  if cs ≠ [] then .error cs
  else match s.unit with
    | none => .ok {}
    | some u =>
      let covered := (List.range 16).filter fun b => decide (first ≤ 16 * b) && decide (16 * b + 16 ≤ first + n)
      .ok { mu := some { u with
        acc := u.acc.filter fun p => decide (p.1 < first) || decide (first + n ≤ p.1),
        dirty := covered.foldl (fun d b => d &&& ~~~(1#16 <<< b)) u.dirty,
        accErr := covered.foldl (fun e b => Sparse.set false e b false) u.accErr } }

/-- MZERO (R222). -/
def execMzero (o : VHalf) (s : State) : Out := runVectorHalf o s (evalMzero o s)

/-! ## Reading and writing the accumulator -/

/-- The conditions of MRD and MWR (R224, R231). -/
def mrwCauses (o : FX) (s : State) (dsts srcs : List Nat) : List Cause :=
  let h := s.h
  when_ (o.c != 0 || bits o.f.toNat 4 6 != 0 || bits o.imm.toNat 8 8 != 0) (operand 0x01)
    ++ when_ (o.f.toNat % 8 = 7) (operand 0x02) ++ h.regCauses dsts srcs ++ h.maskInForce (h.fxMask o)
    ++ h.shapeCauses [h.cfg.vtype]
    ++ ownCauses s.unit fun _ =>
      when_ (h.cfg.vl != 0 && (decide (255 < (s.x o.a).toNat + h.cfg.vrows - 1)
        || decide (127 < (s.x o.b).toNat + h.cfg.vl - 1))) (operand 0x07)

/-- sh of MRD and MWR (R224). -/
def mrwShift (o : FX) : Int := signed 8 o.imm.toNat

/-- What MRD leaves (R224). -/
def evalMrd (o : FX) (s : State) : HalfRes :=
  let h := s.h
  let f := h.cfg.vtype
  let m := h.fxMask o
  let rm := h.mode (o.f.toNat % 8)
  let r0 := (s.x o.a).toNat
  let c0 := (s.x o.b).toNat
  let cs := mrwCauses o s [o.d.toNat] []
  if cs ≠ [] then .error cs
  else match s.unit with
    | none => .ok {}
    | some u =>
      match if h.cfg.vl = 0 then [] else
          ({ u with tileErr := false }).errCauses ((List.range h.cfg.vrows).map (r0 + ·)) with
      | c :: cs => .error (c :: cs)
      | [] =>
        let w := h.sweep m f fun row e =>
          some (roundF f rm (bit o.f.toNat 3) (h.drawAt rm f row e)
            (scaleV (decodeF .f32 (u.accAt (r0 + row) (c0 + e))) (mrwShift o)))
        .ok { vw := [⟨o.d.toNat, w.1⟩], raised := w.2, srn := h.stepsSeed true rm }

/-- MRD (R224). -/
def execMrd (o : FX) (s : State) : Out := runFull s (evalMrd o s)

/-- The elements MWR writes: row, column, value and flags (R224). -/
def mwrCells (o : FX) (s : State) : List (Nat × Nat × Nat × Nat × Flags) :=
  let h := s.h
  let f := h.cfg.vtype
  let m := h.fxMask o
  let rm := h.mode (o.f.toNat % 8)
  let img := h.img o.d.toNat
  h.positions.filterMap fun p =>
    let cell := fun (v : Nat × Flags) =>
      some ((s.x o.a).toNat + p.1, (s.x o.b).toNat + p.2, p.1 * h.cfg.vl + p.2, v.1, v.2)
    if m.sel h p.1 p.2 then
      cell (roundF .f32 rm false (h.drawAt rm .f32 p.1 p.2) (scaleV (decodeF f (h.elem f img p.1 p.2)) (mrwShift o)))
    else if m.on && m.zm then cell (0, 0#6)
    else none

/-- An accumulator block loses its error mark once a write covers its 16 rows (R427). -/
def MatrixUnit.mend (u : MatrixUnit) (cells : List (Nat × Nat × Nat × Nat × Flags)) : MatrixUnit :=
  { u with
    accErr := u.accErr.filter fun p => (cells.filter fun c => c.1 / 16 = p.1).length < 2048 }

/-- What MWR leaves (R224, R427). -/
def evalMwr (o : FX) (s : State) : HalfRes :=
  let h := s.h
  let rm := h.mode (o.f.toNat % 8)
  let cs := when_ (bit o.f.toNat 3) (operand 0x01) ++ mrwCauses o s [] [o.d.toNat]
  if cs ≠ [] then .error cs
  else match s.unit with
    | none => .ok {}
    | some u =>
      let cells := mwrCells o s
      .ok {
        mu := some ((cells.foldl (fun u c =>
          { u with acc := Sparse.upd 0 u.acc c.1 fun i => setBits i (32 * c.2.1) 32 c.2.2.2.1 }.soil c.1) u).mend cells)
        raised := cells.filterMap fun c => if c.2.2.2.2 = 0#6 then none else some (c.2.2.1, c.2.2.2.2)
        srn := h.stepsSeed true rm }

/-- MWR (R224). -/
def execMwr (o : FX) (s : State) : Out := runFull s (evalMwr o s)

/-- MSTAT (R225). -/
def execMstat (o : FX) (s : State) : Out :=
  orTrap s (when_ (fxOther o true false false || o.m != 0 || o.z != 0 || o.f != 0 || decide (4 ≤ o.imm.toNat)) (operand 0x01)
      ++ when_ (o.imm.toNat % 4 = 3) (operand 0x02))
    (let v : Nat := match s.unit with
      | none => 0
      | some u => match o.imm.toNat % 4 with
        | 0 => u.mstate
        | 1 => u.rowcnt.toNat
        | _ => u.rows.length
    .next ((s.setX o.d (word v)).advance 8))

/-! ## Joined cores -/

/-- The launch of the hart that owns the unit of a core. -/
def State.ownerLaunch (s : State) (c : Nat) : Option Nat :=
  match (s.coreAt c).mu.owner with
  | none => none
  | some k => (s.hartAt k).launch

/-- The other members that wait for the same join disagree with the hart: in formats or in farm (R226). -/
def State.joinDiffers (s : State) (u : MatrixUnit) (size pos : Nat) : Bool :=
  (List.range size).any fun i =>
    let c := s.h.coreKey - pos + i
    let m := (s.coreAt c).mu
    i != pos && m.joinReq == some (size, i) && (m.config != u.config || s.ownerLaunch c != s.h.launch)

/-- The conditions of MJOIN (R226, R231, R416). -/
def mjoinCauses (o : FX) (s : State) : List Cause :=
  let size := bits o.imm.toNat 0 2
  let pos := bits o.imm.toNat 2 2
  let lead := s.h.core - pos
  when_ (fxOther o false false false || o.m != 0 || o.z != 0 || o.f != 0 || decide (16 ≤ o.imm.toNat)
      || (size == 0 && pos != 0)) (operand 0x01)
    ++ when_ (size == 1 || (size != 0 && decide (size ≤ pos))) (operand 0x02)
    ++ ownCauses s.unit fun u =>
      when_ (if size = 0 then !u.joined else u.joined) (operand 0x06)
        ++ when_ (size != 0 && (decide (s.h.core < pos) || lead / 4 != (lead + size - 1) / 4 || !s.isGang s.h
          || s.joinDiffers u size pos)) (operand 0x0A)

/-- MJOIN (R226): the request of a member, which waits for the others; a bandwidth die lacks it (R413). -/
def execMjoin (o : FX) (s : State) : Out :=
  if isBandwidth s.h.die then .next (s.stopLacking 1 0)
  else orTrap s (mjoinCauses o s)
    (let size := bits o.imm.toNat 0 2
    let u := s.core.mu
    let u' := if size = 0 then { u with leaveReq := true } else { u with joinReq := some (size, bits o.imm.toNat 2 2) }
    .next ((s.setUnit u').hold (.mjoin o) [] [] 0 0))

/-- The members of a join of a size whose leader is core c. -/
def members (c size : Nat) : List Nat := (List.range size).map (c + ·)

/-- The member's MJOIN completes: its unit is changed, and its vector queue goes on. -/
def State.endJoin (s : State) (c : Nat) (f : MatrixUnit → MatrixUnit) : State :=
  let s' := s.updCore c fun x => { x with mu := f x.mu }
  match (s.coreAt c).mu.owner with
  | none => s'
  | some k => s'.updHart k fun h => { h with vq := none }

/-- JOIN_COMPLETE (R226) of the join or the leave whose leader is the core named. -/
def execJoinComplete (s : State) : Out :=
  let c := s.input.who
  let u := (s.coreAt c).mu
  if u.joined then
    let ms := members c u.jn
    if u.jp = 0 ∧ ms.all fun m => (s.coreAt m).mu.leaveReq && decide ((s.coreAt m).mu.rows = []) then
      .next (ms.foldl (fun s m => s.endJoin m fun u => { u with joined := false, jn := 0, jp := 0, leaveReq := false }) s)
    else .next s
  else match u.joinReq with
    | some (size, 0) =>
      if (List.range size).all fun i => (s.coreAt (c + i)).mu.joinReq == some (size, i) then
        .next ((List.range size).foldl (fun s i => s.endJoin (c + i) fun u =>
          { u with joined := true, jn := size, jp := i, step := 0, tv := false, sv := false, k := 0, joinReq := none }) s)
      else .next s
    | _ => .next s

/-- A row committed after its MROW has completed where the unit holds an error mark: no instruction is left to trap, so the block
keeps or takes the mark, and the error is reported (R389, R425; log entry 51). -/
def State.reportRow (s : State) (c : Nat) (u : MatrixUnit) (r : JoinRow) : State :=
  match u.errCauses [r.row] with
  | [] => s
  | e :: _ =>
    let h := s.hartAt r.leader
    (s.updCore c fun x =>
        { x with mu := { x.mu with accErr := Sparse.set false x.mu.accErr (r.row / 16) true } }).ringRecord
      (s.launchRing h.launch) (s.hartRec h { e with code := 0x62 } false false 0)

/-- JOIN_ROW_COMMIT (R227) of the oldest row that waits at the core named: its flags credit the leader's hart. -/
def execJoinRowCommit (s : State) : Out :=
  let c := s.input.who
  let u := (s.coreAt c).mu
  match u.rows with
  | [] => .next s
  | r :: rest =>
    if u.ready r then
      let n := { u with rows := rest }.commitRow r
      .next (((s.updCore c fun x => { x with mu := n.1 }).updHart r.leader fun h =>
        { h with ar := h.ar.credit n.2 }).reportRow c u r)
    else .next s

end Sys2Proof.Machine
end

