-- ==== Sys2Proof/Machine/Halves.lean ====
section
/-!
DEFINITION. The halves as one table: what each half instruction leaves (R106, R117), and the rules of a pair (R116, R223,
R410).
-/
namespace Sys2Proof.Machine

/-- What a half leaves, or the causes it raises; none for an instruction that is no half (R106). -/
def evalHalf : Instr → State → Option HalfRes
  | .add o, s => some (evalAdd o s)
  | .sub o, s => some (evalSub o s)
  | .mul o, s => some (evalMul o s)
  | .mulh o, s => some (evalMulh o s)
  | .mulhz o, s => some (evalMulhz o s)
  | .div o, s => some (evalDiv o s)
  | .divz o, s => some (evalDivz o s)
  | .rem o, s => some (evalRem o s)
  | .remz o, s => some (evalRemz o s)
  | .and o, s => some (evalAnd o s)
  | .or o, s => some (evalOr o s)
  | .xor o, s => some (evalXor o s)
  | .shl o, s => some (evalShl o s)
  | .shr o, s => some (evalShr o s)
  | .sra o, s => some (evalSra o s)
  | .clz o, s => some (evalClz o s)
  | .ctz o, s => some (evalCtz o s)
  | .popc o, s => some (evalPopc o s)
  | .min o, s => some (evalMin o s)
  | .max o, s => some (evalMax o s)
  | .minz o, s => some (evalMinz o s)
  | .maxz o, s => some (evalMaxz o s)
  | .slt o, s => some (evalSlt o s)
  | .sltz o, s => some (evalSltz o s)
  | .sel o, s => some (evalSel o s)
  | .vadd o, s => some (evalVadd o s)
  | .vsub o, s => some (evalVsub o s)
  | .vmul o, s => some (evalVmul o s)
  | .vma o, s => some (evalVma o s)
  | .vms o, s => some (evalVms o s)
  | .vnma o, s => some (evalVnma o s)
  | .vdiv o, s => some (evalVdiv o s)
  | .vsqrt o, s => some (evalVsqrt o s)
  | .vmin o, s => some (evalVmin o s)
  | .vmax o, s => some (evalVmax o s)
  | .vabs o, s => some (evalVabs o s)
  | .vneg o, s => some (evalVneg o s)
  | .vclamp o, s => some (evalVclamp o s)
  | .vrcp o, s => some (evalVrcp o s)
  | .vrsq o, s => some (evalVrsq o s)
  | .vexp2 o, s => some (evalVexp2 o s)
  | .vlog2 o, s => some (evalVlog2 o s)
  | .vtanh o, s => some (evalVtanh o s)
  | .vsigm o, s => some (evalVsigm o s)
  | .vand o, s => some (evalVand o s)
  | .vor o, s => some (evalVor o s)
  | .vxor o, s => some (evalVxor o s)
  | .vnot o, s => some (evalVnot o s)
  | .vshl o, s => some (evalVshl o s)
  | .vshr o, s => some (evalVshr o s)
  | .vsra o, s => some (evalVsra o s)
  | .vwadd o, s => some (evalVwadd o s)
  | .vwmul o, s => some (evalVwmul o s)
  | .vwmac o, s => some (evalVwmac o s)
  | .vsatn o, s => some (evalVsatn o s)
  | .vcmp o, s => some (evalVcmp o s)
  | .vclass o, s => some (evalVclass o s)
  | .vcvt o, s => some (evalVcvt o s)
  | .vrsum o, s => some (evalVrsum o s)
  | .vrmax o, s => some (evalVrmax o s)
  | .vrmin o, s => some (evalVrmin o s)
  | .vscan o, s => some (evalVscan o s)
  | .vsplat o, s => some (evalVsplat o s)
  | .vmv o, s => some (evalVmv o s)
  | .vmvx o, s => some (evalVmvx o s)
  | .vins o, s => some (evalVins o s)
  | .vslup o, s => some (evalVslup o s)
  | .vsldn o, s => some (evalVsldn o s)
  | .vperm o, s => some (evalVperm o s)
  | .vcmpr o, s => some (evalVcmpr o s)
  | .vxpnd o, s => some (evalVxpnd o s)
  | .mand o, s => some (evalMand o s)
  | .mor o, s => some (evalMor o s)
  | .mxor o, s => some (evalMxor o s)
  | .mnot o, s => some (evalMnot o s)
  | .mpop o, s => some (evalMpop o s)
  | .mfrst o, s => some (evalMfrst o s)
  | .mset o, s => some (evalMset o s)
  | .mclr o, s => some (evalMclr o s)
  | .mrow o, s => some (evalMrow o s)
  | .mrowsl o, s => some (evalMrowsl o s)
  | .mzero o, s => some (evalMzero o s)
  | .qrd o, s => some (evalQrd o s)
  | .qwr o, s => some (evalQwr o s)
  | .nop, _ => some (.ok {})
  | _, _ => none

/-- The classes of registers that a half may name as its destination. -/
inductive RegClass where
  | scalar | vector | mask
  deriving DecidableEq, Repr

/-- The explicit destination of a half (R116). -/
def halfDst : Instr → Option (RegClass × Nat)
  | .add o => some (.scalar, o.d.toNat)
  | .sub o => some (.scalar, o.d.toNat)
  | .mul o => some (.scalar, o.d.toNat)
  | .mulh o => some (.scalar, o.d.toNat)
  | .mulhz o => some (.scalar, o.d.toNat)
  | .div o => some (.scalar, o.d.toNat)
  | .divz o => some (.scalar, o.d.toNat)
  | .rem o => some (.scalar, o.d.toNat)
  | .remz o => some (.scalar, o.d.toNat)
  | .and o => some (.scalar, o.d.toNat)
  | .or o => some (.scalar, o.d.toNat)
  | .xor o => some (.scalar, o.d.toNat)
  | .shl o => some (.scalar, o.d.toNat)
  | .shr o => some (.scalar, o.d.toNat)
  | .sra o => some (.scalar, o.d.toNat)
  | .clz o => some (.scalar, o.d.toNat)
  | .ctz o => some (.scalar, o.d.toNat)
  | .popc o => some (.scalar, o.d.toNat)
  | .min o => some (.scalar, o.d.toNat)
  | .max o => some (.scalar, o.d.toNat)
  | .minz o => some (.scalar, o.d.toNat)
  | .maxz o => some (.scalar, o.d.toNat)
  | .slt o => some (.scalar, o.d.toNat)
  | .sltz o => some (.scalar, o.d.toNat)
  | .sel o => some (.scalar, o.d.toNat)
  | .vmvx o => some (.scalar, o.d.toNat)
  | .mpop o => some (.scalar, o.d.toNat)
  | .mfrst o => some (.scalar, o.d.toNat)
  | .qrd o => some (.scalar, o.d.toNat)
  | .vcmp o => some (.mask, o.d.toNat)
  | .mand o => some (.mask, o.d.toNat)
  | .mor o => some (.mask, o.d.toNat)
  | .mxor o => some (.mask, o.d.toNat)
  | .mnot o => some (.mask, o.d.toNat)
  | .mset o => some (.mask, o.d.toNat)
  | .mclr o => some (.mask, o.d.toNat)
  | .vadd o => some (.vector, o.d.toNat)
  | .vsub o => some (.vector, o.d.toNat)
  | .vmul o => some (.vector, o.d.toNat)
  | .vma o => some (.vector, o.d.toNat)
  | .vms o => some (.vector, o.d.toNat)
  | .vnma o => some (.vector, o.d.toNat)
  | .vdiv o => some (.vector, o.d.toNat)
  | .vsqrt o => some (.vector, o.d.toNat)
  | .vmin o => some (.vector, o.d.toNat)
  | .vmax o => some (.vector, o.d.toNat)
  | .vabs o => some (.vector, o.d.toNat)
  | .vneg o => some (.vector, o.d.toNat)
  | .vclamp o => some (.vector, o.d.toNat)
  | .vrcp o => some (.vector, o.d.toNat)
  | .vrsq o => some (.vector, o.d.toNat)
  | .vexp2 o => some (.vector, o.d.toNat)
  | .vlog2 o => some (.vector, o.d.toNat)
  | .vtanh o => some (.vector, o.d.toNat)
  | .vsigm o => some (.vector, o.d.toNat)
  | .vand o => some (.vector, o.d.toNat)
  | .vor o => some (.vector, o.d.toNat)
  | .vxor o => some (.vector, o.d.toNat)
  | .vnot o => some (.vector, o.d.toNat)
  | .vshl o => some (.vector, o.d.toNat)
  | .vshr o => some (.vector, o.d.toNat)
  | .vsra o => some (.vector, o.d.toNat)
  | .vwadd o => some (.vector, o.d.toNat)
  | .vwmul o => some (.vector, o.d.toNat)
  | .vwmac o => some (.vector, o.d.toNat)
  | .vsatn o => some (.vector, o.d.toNat)
  | .vclass o => some (.vector, o.d.toNat)
  | .vcvt o => some (.vector, o.d.toNat)
  | .vrsum o => some (.vector, o.d.toNat)
  | .vrmax o => some (.vector, o.d.toNat)
  | .vrmin o => some (.vector, o.d.toNat)
  | .vscan o => some (.vector, o.d.toNat)
  | .vsplat o => some (.vector, o.d.toNat)
  | .vmv o => some (.vector, o.d.toNat)
  | .vins o => some (.vector, o.d.toNat)
  | .vslup o => some (.vector, o.d.toNat)
  | .vsldn o => some (.vector, o.d.toNat)
  | .vperm o => some (.vector, o.d.toNat)
  | .vcmpr o => some (.vector, o.d.toNat)
  | .vxpnd o => some (.vector, o.d.toNat)
  | .qwr o => some (.vector, o.d.toNat)
  | _ => none

/-- A half that counts as a memory access (R116, R243). -/
def halfMemory : Instr → Bool
  | .qrd _ => true
  | .qwr _ => true
  | _ => false

/-- A matrix half (R223). -/
def halfMatrix : Instr → Bool
  | .mrow _ => true
  | .mrowsl _ => true
  | .mzero _ => true
  | _ => false

/-- Two vector destinations in one bank; inBody tells that values from 48 name queues, which have no bank (R116, R120). -/
def bankClash (inBody : Bool) (a b : Nat) : Bool := !(inBody && (decide (48 ≤ a) || decide (48 ≤ b))) && a % 4 == b % 4

/-- The SUB of PAIR that two halves raise together, none where they may pair (R410). -/
def pairSub (inBody : Bool) (a b : Instr) : Option Nat :=
  if halfMemory a && halfMemory b then some 0x01
  else match halfDst a, halfDst b with
    | some (ca, ra), some (cb, rb) =>
      if ca = cb ∧ ra = rb then some 0x02
      else if ca = .vector ∧ cb = .vector ∧ bankClash inBody ra rb then some 0x03
      else none
    | _, _ => if halfMatrix a && halfMatrix b then some 0x04 else none

end Sys2Proof.Machine
end

