-- ==== Sys2Proof/Machine/Csr.lean ====
section
/-!
DEFINITION. The control registers and the instructions on them (R31, R62, R67, R68, R83, R84, R92, R93, R115, R128, R159,
R161, R163, R166 to R169, R171, R212, R251 to R254, R334, R359, R391, R411, R422, R423).
-/
namespace Sys2Proof.Machine

/-! ## Reading -/

/-- The value of a control register (R168); WO fields read zero (R7). -/
def State.csrRead (s : State) (n : Nat) : Word :=
  let h := s.h
  match n with
  | 0x000 => h.ar.fflags.zeroExtend 64
  | 0x001 => word h.ar.frm.code
  | 0x002 => h.ar.srseed.zeroExtend 64
  | 0x003 => h.ar.ftrap.zeroExtend 64
  | 0x008 => h.ar.fcnt[0]
  | 0x009 => h.ar.fcnt[1]
  | 0x00A => h.ar.fcnt[2]
  | 0x00B => h.ar.fcnt[3]
  | 0x00C => h.ar.fcnt[4]
  | 0x00D => h.ar.fcnt[5]
  | 0x010 => word h.cfg.vl
  | 0x011 => word h.cfg.vrows
  | 0x012 => word h.cfg.vtype.code
  | 0x013 => word h.cfg.vnr
  | 0x014 => h.cfg.vmsk.zeroExtend 64
  | 0x020 => h.chr.chcur
  | 0x021 => word h.chr.chstat
  | 0x022 => word h.chr.chpol
  | 0x023 => h.chr.qstat
  | 0x030 => word (match s.unit with | some u => u.mstate | none => 0)
  | 0x040 => word h.slot
  | 0x041 => word h.core
  | 0x042 => word h.die
  | 0x043 => h.stripId.zeroExtend 64
  | 0x044 => s.cycle h.die
  | 0x045 => word h.plv.code
  | 0x050 => h.sys.retcnt
  | 0x051 => word (ofBool h.sys.rchk)
  | 0x100 => h.sys.gepc
  | 0x101 => word h.sys.gstat
  | 0x200 => h.sys.tvec
  | 0x201 => h.sys.tcause
  | 0x202 => h.sys.tval
  | 0x203 => h.sys.tpc
  | 0x204 => h.sys.tsp
  | 0x205 => h.sys.gtbase
  | 0x206 => h.sys.lqmask
  | 0x210 => h.sys.vmroot
  | 0x212 => h.sys.htbase
  | 0x214 => s.core.psplit
  | 0x215 => word ((s.dieAt h.die).ver.toNat * 2 ^ 16)
  | 0x216 => h.sys.frarea
  | _ => 0

/-! ## PSPLIT, VMINV, HTSYNC and RTSYNC -/

/-- A PSPLIT value keeps R31: enabled entries do not overlap, and each BASE is a multiple of its width. -/
def psplitOk (v : BitVec 64) : Bool :=
  let es := (List.range 8).map (psplitEntry v)
  (es.all fun e => !entryOn e || bits e.toNat 0 3 % 2 ^ bits e.toNat 5 2 == 0)
    && (es.foldl (fun (st : Bool × Nat) e => (st.1 && st.2 &&& entryGroups e == 0, st.2 ||| entryGroups e)) (true, 0)).1

/-- A PSPLIT value without its reserved bits (R31). -/
def psplitMask (v : BitVec 64) : BitVec 64 := v &&& 0xE7E7E7E7E7E7E7E7#64

/-- PSPLIT of the core of a hart replaced (R31, R32). -/
def State.setPsplit (s : State) (core : Nat) (v : BitVec 64) : State := s.updCore core fun c => { c with psplit := psplitMask v }

/-- The commands and sessions that read the handle table at a base and have not completed, by number (R93). -/
def State.tableUsers (s : State) (base : Nat) : List Nat :=
  (s.cores.map fun c => c.2.eng.filterMap fun e => match e.2 with
    | some m => if m.htbase = some base then some m.id else none
    | none => none).flatten
    ++ s.nets.filterMap fun n => match n.2.sess with
      | some x => if x.tables.contains base then some x.id else none
      | none => none

/-- BASE of a handle-table register (R92). -/
def htBase (w : Word) : Nat := bits w.toNat 6 46 * 64

/-- The acquire of a write of HTSYNC, which observes the completions of the commands that read its table (R93, R267, R328). -/
def State.recordSync (s : State) : State :=
  let e : Ev := { agent := s.h.agent, place := s.h.coreKey, acq := true, scope := 5, po := s.h.po }
  s.record { e with sync := completionsOf s.trace e (htBase s.h.sys.htbase) }

/-- HTSYNC written by the hart that issues: it completes, or waits for the users of its table (R93). -/
def State.htsync (s : State) (d : Field) : State :=
  match s.tableUsers (htBase s.h.sys.htbase) with
  | [] => (s.recordSync.setX d 0).advance 8
  | ids => s.startWait (.htsync d ids)

/-- HTSYNC_WRITE (R93): a write of HTSYNC that waits completes once every command and session it waits for has. -/
def execHtsyncWrite (s : State) : Out :=
  let s := s.select s.input.who
  match s.h.wait with
  | some (.htsync d ids) =>
    if (s.tableUsers (htBase s.h.sys.htbase)).any fun k => ids.contains k then .next s else .next (s.recordSync.endWait d 0)
  | _ => .next s

/-- PSPLIT_WRITE (R31): a value is written to PSPLIT of the core named, which keeps its former value where R31 is broken. -/
def execPsplitWrite (s : State) : Out :=
  let v := BitVec.ofNat 64 s.input.value
  .next (if psplitOk v then s.setPsplit s.input.who v else s)

/-- VMINV_WRITE (R84): every access of the model has completed when the next begins. -/
def execVminvWrite (s : State) : Out := .next (s.invalidate s.input.value)

/-- RTSYNC_SYNC (R359): every request of the model has completed when the next step begins. -/
def execRtsyncSync (s : State) : Out := .next s

/-! ## Writing -/

/-- A control register that only the hart holds, written with a value (R166, R168); RO fields keep theirs (R7). -/
def Hart.csrStore (h : Hart) (n : Nat) (v : Word) : Hart :=
  match n with
  | 0x000 => { h with ar := { h.ar with fflags := v.setWidth 6 } }
  | 0x001 => match RMode.ofCode (v.toNat % 8) with
    | some m => { h with ar := { h.ar with frm := m } }
    | none => h
  | 0x002 => { h with ar := { h.ar with srseed := v.setWidth 32 } }
  | 0x003 => { h with ar := { h.ar with ftrap := v.setWidth 6 } }
  | 0x008 => { h with ar := { h.ar with fcnt := h.ar.fcnt.set 0 v } }
  | 0x009 => { h with ar := { h.ar with fcnt := h.ar.fcnt.set 1 v } }
  | 0x00A => { h with ar := { h.ar with fcnt := h.ar.fcnt.set 2 v } }
  | 0x00B => { h with ar := { h.ar with fcnt := h.ar.fcnt.set 3 v } }
  | 0x00C => { h with ar := { h.ar with fcnt := h.ar.fcnt.set 4 v } }
  | 0x00D => { h with ar := { h.ar with fcnt := h.ar.fcnt.set 5 v } }
  | 0x014 => { h with cfg := { h.cfg with vmsk := v.setWidth 6 } }
  | 0x022 => { h with chr := { h.chr with noch := bit v.toNat 1, pol := bit v.toNat 0 } }
  | 0x050 => { h with sys := { h.sys with retcnt := v } }
  | 0x051 => { h with sys := { h.sys with rchk := bit v.toNat 0 } }
  | 0x100 => { h with sys := { h.sys with gepc := v } }
  | 0x101 => { h with
      sys := { h.sys with gstatPlv := BitVec.ofNat 2 (bits v.toNat 6 2), gstatMsk := v.setWidth 6 } }
  | 0x200 => { h with sys := { h.sys with tvec := v &&& 0xFFFFFFFFFFFFFFC0#64 } }
  | 0x201 => { h with sys := { h.sys with tcause := v &&& 0xFFFF#64 } }
  | 0x202 => { h with sys := { h.sys with tval := v } }
  | 0x203 => { h with sys := { h.sys with tpc := v } }
  | 0x204 => { h with sys := { h.sys with tsp := v &&& 0xFFFFFFFFFFFFFF80#64 } }
  | 0x205 => { h with sys := { h.sys with gtbase := v &&& 0xFFFFFFFFFFFFFFF0#64 } }
  | 0x206 => { h with sys := { h.sys with lqmask := v } }
  | 0x210 => { h with sys := { h.sys with vmroot := v &&& 0xFFFFFFFFFFFFC000#64 } }
  | 0x212 => { h with sys := { h.sys with htbase := v &&& 0xF00FFFFFFFFFFFC0#64 } }
  | 0x216 => { h with sys := { h.sys with frarea := v &&& 0xFFFFFFFFFFFFFFC0#64 } }
  | _ => h

/-- The level a control-register instruction needs: the higher of the levels of the read and the write (R168, R411). -/
def csrNeeds (n : Nat) (wr : Bool) : Nat :=
  match csrLevels n with
  | some (r, some w) => if wr then max r w else r
  | some (r, none) => r
  | none => 0

/-- The level conditions of a control-register instruction (R411). -/
def csrCauses (o : FS) (s : State) (wr : Bool) : List Cause :=
  let need := csrNeeds o.csr.toNat wr
  when_ (decide (s.h.plv.rank < need)) (privilege (if need = 1 then 0x01 else 0x02) o.csr.toNat)

/-- A control register that takes its place among the instructions of the vector queue (R167). -/
def queuedCsr (n : Nat) : Bool :=
  decide (n ≤ 0x003) || (decide (0x008 ≤ n) && decide (n ≤ 0x00D)) || (decide (0x010 ≤ n) && decide (n ≤ 0x014))
    || (decide (0x020 ≤ n) && decide (n ≤ 0x023)) || n == 0x030 || n == 0x051

/-- The place in the record of races of an access to a control register, which waits for the vector queue where it takes its place
among that queue's instructions (R167, R327). -/
def State.recordCsr (s : State) (n : Nat) : State := if queuedCsr n then s.recordWait else s

/-- CSRR (R166). -/
def execCsrr (o : FS) (s : State) : Out :=
  orTrap s (csrCauses o s false) (.next (((s.recordCsr o.csr.toNat).setX o.d (s.csrRead o.csr.toNat)).advance 8))

/-- A write of a control register with the value its RW fields receive and the one its WO fields receive (R166). A PSPLIT that
breaks R31 outranks the level (R404, R422), and every write of HTSYNC waits (R93). -/
def csrWrite (o : FS) (s : State) (rw wo : Word) : Out :=
  let n := o.csr.toNat
  let old := s.csrRead n
  let fin : State → Out := fun t => .next ((t.setX o.d old).advance 8)
  orTrap s (when_ (n == 0x214 && !psplitOk rw) (operand 0x02) ++ csrCauses o s true)
    (match n with
      | 0x211 => fin (s.invalidate wo.toNat)
      | 0x213 => .next (s.htsync o.d)
      | 0x214 => fin (s.setPsplit s.h.coreKey rw)
      | _ => fin { s.recordCsr n with h := s.h.csrStore n rw })

/-- The operand of a control-register write: x[A] or IMM (R166). -/
def csrOperand (o : FS) (s : State) : Word := if o.f = 0 then s.x o.a else o.imm.zeroExtend 64

/-- CSRW (R166). -/
def execCsrw (o : FS) (s : State) : Out := csrWrite o s (csrOperand o s) (csrOperand o s)
/-- CSRS (R166). -/
def execCsrs (o : FS) (s : State) : Out :=
  csrWrite o s (s.csrRead o.csr.toNat ||| csrOperand o s) (csrOperand o s)
/-- CSRC (R166). -/
def execCsrc (o : FS) (s : State) : Out :=
  csrWrite o s (s.csrRead o.csr.toNat &&& ~~~(csrOperand o s)) 0

end Sys2Proof.Machine
end

