-- ==== Sys2Proof/Machine/VecMem.lean ====
section
/-!
DEFINITION. Vector memory instructions and the tensor table (R203 to R208, R418, R419, R428).
-/
namespace Sys2Proof.Machine

/-- Where an element lies: the byte it begins in, and for a nibble whether it is the upper one (R53). -/
structure Place where
  byte : Nat
  upper : Bool := false
  deriving DecidableEq, Repr

/-- A place by an offset in bits from a base, modulo 2^64. -/
def placeAt (base bitOff : Nat) : Place := ⟨(base + bitOff / 8) % 2 ^ 64, bitOff % 8 = 4⟩

/-- A position of the tile that accesses memory: row, element, place. -/
structure Spot where
  row : Nat
  e : Nat
  place : Place
  deriving DecidableEq, Repr

/-- The bytes of an element access (R203). -/
def eltBytes (f : Fmt) : Nat := if f.width = 4 then 1 else f.width / 8

/-- The element access of a spot. -/
def Hart.eltOf (h : Hart) (f : Fmt) (p : Spot) : Elt := ⟨p.row * h.cfg.vl + p.e, p.place.byte, eltBytes f⟩

/-- An element taken out of the bytes read at its place. -/
def takeElem (f : Fmt) (p : Place) (v : Nat) : Nat := if f.width = 4 then bits v (if p.upper then 4 else 0) 4 else v

/-- An element as a store leaves it: the value of its bytes and the bits they keep. last tells that the sub-element above
it is unused, which is then written as zero (R53, R204). -/
def putElem (f : Fmt) (p : Place) (v : Nat) (last : Bool) : Nat × Nat :=
  if f.width = 4 then (if p.upper then (16 * v, 0x0F) else (v, if last then 0 else 0xF0)) else (v, 0)

/-- The kind of a vector access (R203). -/
def vecLoad : Acc := { rd := true, cls := .vector }
/-- The kind of a vector store (R203). -/
def vecStore : Acc := { wr := true, cls := .vector }

/-- The active spots of the tile, where the place of each position is given; none accesses nothing. -/
def Hart.spots (h : Hart) (m : Mask) (at_ : Nat → Nat → Option Place) : List Spot :=
  h.positions.filterMap fun p =>
    if m.sel h p.1 p.2 then (match at_ p.1 p.2 with | some a => some ⟨p.1, p.2, a⟩ | none => none) else none

/-- The cause that the first phase of an element access finds (R428). -/
def phaseCauses (s : State) (h : Hart) (a : Acc) (tile : Bool) (extra : Elt → List Cause) (es : List Elt) : List Cause :=
  match resolveElts s h a tile extra es with | .error c => [c] | .ok _ => []

/-- The causes of a vector access whose register n holds data alone: where the error mark of that register is all that stands
against it, its first phase is made, which may find a lower CODE (R404, R428). -/
def Hart.besideData (h : Hart) (n : Nat) (cs phase : List Cause) : List Cause :=
  match cs with
  | [] => []
  | c :: l => if c :: l = h.regErr n then c :: l ++ phase else c :: l

/-- A vector load (R203): active positions take their elements, or dflt where they access nothing; masked ones follow
R182. -/
def loadTile (s : State) (d : Nat) (m : Mask) (f : Fmt) (tile : Bool) (at_ : Nat → Nat → Option Place) (dflt : Nat) : Out :=
  let h := s.h
  let ps := h.spots m at_
  match vecRead s h vecLoad tile (fun _ => []) (ps.map (h.eltOf f)) with
  | .error e => trapOut e
  | .ok (vs, s') =>
    let got := (ps.zip vs).map fun x => (x.1.row * h.cfg.vl + x.1.e, takeElem f x.1.place x.2.2)
    let w := h.sweep m f fun row e =>
      match at_ row e with
      | none => some (dflt, 0#6)
      | some _ => some ((got.lookup (row * h.cfg.vl + e)).getD 0, 0#6)
    .next ((s'.commit { vw := [⟨d, w.1⟩] }).advance 8)

/-- A vector store (R203) of the elements of a register; last names the positions whose byte holds an unused
sub-element. -/
def storeTile (s : State) (d : Nat) (m : Mask) (f : Fmt) (tile : Bool) (at_ : Nat → Nat → Option Place)
    (last : Nat → Nat → Bool) : Out :=
  let h := s.h
  let img := h.img d
  let ps := h.spots m at_
  match vecWrite s h vecStore tile (fun _ => []) (ps.map (h.eltOf f))
      (ps.map fun p => putElem f p.place (h.elem f img p.row p.e) (last p.row p.e)) with
  | .error e => trapOut e
  | .ok s' => .next (s'.advance 8)

/-! ## FM forms -/

/-- The base of an FM vector form: whether it lies in the tile window, and the address or offset of A without index and
offset (R88, R90, R204). -/
def State.fmVecBase (s : State) (o : FM) : Bool × Nat :=
  if o.sp = 3 then
    let t := s.h.tensor o.a.toNat
    (t.space = 1, if t.space = 0 then canon57 t.base else t.base)
  else (o.sp = 1, (s.x o.a).toNat)

/-- The conditions of an FM vector form on its space, its entry, its format and its registers (R204, R209, R419). B of a strided
form always names a stride register: x0 is the stride 0, which R204 calls legal (log entry 48). -/
def fmVecCauses (o : FM) (s : State) (f : Fmt) (strided store : Bool) : List Cause :=
  let t := s.h.tensor o.a.toNat
  when_ (o.sp = 2 || (o.sp = 3 && t.space = 2)) (operand 0x02) ++ when_ (strided && o.sc != 0) (operand 0x01)
    ++ (if o.sp = 3 then tensorCauses o.a.toNat t else []) ++ s.h.shapeCauses [f]
    ++ (if store then s.h.regCauses [] [o.d.toNat] else s.h.regCauses [o.d.toNat] []) ++ s.h.maskInForce s.h.fmMask

/-- loc of VLD and VST: the index counts (R88, R204). -/
def State.fmVecLoc (s : State) (o : FM) : Nat := ((s.fmVecBase o).2 + (s.fmIndex o).toNat) % 2 ^ 64

/-- loc of VLDS, VSTS and VLDTR: no index (R204). -/
def State.fmVecStrideLoc (s : State) (o : FM) : Nat := ((s.fmVecBase o).2 + (FM.offset o).toNat) % 2 ^ 64

/-- The place of a position under VLD and VST (R204). -/
def unitPlace (h : Hart) (f : Fmt) (loc row e : Nat) : Place := placeAt loc ((row * h.cfg.vl + e) * f.width)

/-- The place of a position under VLDS and VSTS (R204). -/
def stridePlace (f : Fmt) (loc stride row e : Nat) : Place := placeAt (loc + row * stride) (e * f.width)

/-- The place of a position under VLDTR (R204). -/
def transPlace (f : Fmt) (loc stride row e : Nat) : Place := placeAt (loc + e * stride) (row * f.width)

/-- VLD (R204). -/
def execVld (o : FM) (s : State) : Out :=
  let f := s.h.cfg.vtype
  orTrap s (fmVecCauses o s f false false)
    (loadTile s o.d.toNat s.h.fmMask f (s.fmVecBase o).1 (fun r e => some (unitPlace s.h f (s.fmVecLoc o) r e)) 0)

/-- VLDS (R204). -/
def execVlds (o : FM) (s : State) : Out :=
  let f := s.h.cfg.vtype
  orTrap s (fmVecCauses o s f true false)
    (loadTile s o.d.toNat s.h.fmMask f (s.fmVecBase o).1
      (fun r e => some (stridePlace f (s.fmVecStrideLoc o) (s.x o.b).toNat r e)) 0)

/-- VLDTR (R204). -/
def execVldtr (o : FM) (s : State) : Out :=
  let f := s.h.cfg.vtype
  orTrap s (fmVecCauses o s f true false ++ when_ (f = .e2m1) (operand 0x04))
    (loadTile s o.d.toNat s.h.fmMask f (s.fmVecBase o).1
      (fun r e => some (transPlace f (s.fmVecStrideLoc o) (s.x o.b).toNat r e)) 0)

/-- VST (R204). -/
def execVst (o : FM) (s : State) : Out :=
  let f := s.h.cfg.vtype
  let at_ := fun r e => some (unitPlace s.h f (s.fmVecLoc o) r e)
  orTrap s (s.h.besideData o.d.toNat (fmVecCauses o s f false true)
      (phaseCauses s s.h vecStore (s.fmVecBase o).1 (fun _ => []) ((s.h.spots s.h.fmMask at_).map (s.h.eltOf f))))
    (storeTile s o.d.toNat s.h.fmMask f (s.fmVecBase o).1 at_
      (fun r e => decide (r + 1 = s.h.cfg.vrows) && decide (e + 1 = s.h.cfg.vl)))

/-- VSTS (R204): each row ends in a byte of its own (R53). -/
def execVsts (o : FM) (s : State) : Out :=
  let f := s.h.cfg.vtype
  let at_ := fun r e => some (stridePlace f (s.fmVecStrideLoc o) (s.x o.b).toNat r e)
  orTrap s (s.h.besideData o.d.toNat (fmVecCauses o s f true true)
      (phaseCauses s s.h vecStore (s.fmVecBase o).1 (fun _ => []) ((s.h.spots s.h.fmMask at_).map (s.h.eltOf f))))
    (storeTile s o.d.toNat s.h.fmMask f (s.fmVecBase o).1 at_
      (fun _ e => decide (e + 1 = s.h.cfg.vl)))

/-! ## Indexed forms -/

/-- The index format of IX (R205). -/
def ixFmt (o : FX) : Fmt :=
  match bits o.f.toNat 0 2 with
  | 0 => .z16
  | 1 => .z32
  | 2 => .s32
  | _ => .s64

/-- The place an index names under an indexed form with base x (R206). -/
def indexAt (o : FX) (x : Word) (index : Nat) : Place :=
  ⟨wrap 64 (x.toNat + (ixFmt o).toInt index * (2 ^ bits o.f.toNat 2 2 : Nat) + signed 16 o.imm.toNat), false⟩

/-- The place of a position under an indexed form (R206). -/
def indexPlace (o : FX) (s : State) (row e : Nat) : Place :=
  indexAt o (s.x o.a) (s.h.elem (ixFmt o) (s.h.img o.b.toNat) row e)

/-- SPC of an indexed form (R205). -/
def spcOf (o : FX) : Bool := bit o.f.toNat 5

/-- The conditions of an indexed form (R205, R206, R209); OP = 3 raises SUB 0x02 on VLDX and VSTX too (DESIGN CHOICE: log
entry 48). -/
def indexCauses (o : FX) (s : State) (f : Fmt) (fg atomic store : Bool) : List Cause :=
  let op := bits o.f.toNat 6 2
  when_ (o.c != 0 || bits o.f.toNat 8 2 != 0 || (!atomic && (op = 1 || op = 2)) || (!fg && bit o.f.toNat 4)) (operand 0x01)
    ++ when_ (op = 3) (operand 0x02) ++ s.h.shapeCauses [f, ixFmt o]
    ++ (if store then s.h.regCauses [] [o.d.toNat, o.b.toNat] else s.h.regCauses [o.d.toNat] [o.b.toNat])
    ++ s.h.maskInForce (s.h.fxMask o)

/-- VLDX (R97, R206). -/
def execVldx (o : FX) (s : State) : Out :=
  let f := s.h.cfg.vtype
  orTrap s (indexCauses o s f true false false ++ when_ (f = .e2m1) (operand 0x04))
    (loadTile s o.d.toNat (s.h.fxMask o) f (spcOf o) (fun r e => some (indexPlace o s r e)) 0)

/-- VSTX (R206). -/
def execVstx (o : FX) (s : State) : Out :=
  let f := s.h.cfg.vtype
  let at_ := fun r e => some (indexPlace o s r e)
  orTrap s (s.h.besideData o.d.toNat (indexCauses o s f false false true ++ when_ (f = .e2m1) (operand 0x04))
      (phaseCauses s s.h vecStore (spcOf o) (fun _ => []) ((s.h.spots (s.h.fxMask o) at_).map (s.h.eltOf f))))
    (storeTile s o.d.toNat (s.h.fxMask o) f (spcOf o) at_ (fun _ _ => false))

/-- The formats of VSTXA (R206). -/
def scatterFmt : Fmt → Bool
  | .s32 | .z32 | .s64 | .z64 | .f32 | .bf16 | .f16 => true
  | _ => false

/-- The kind of a VSTXA access: a read-modify-write at scope 0 (R206, R331, R425). -/
def vecAtomic : Acc := { rd := true, wr := true, cls := .vector, atomic := true }

/-- VSTXA (R206): additions in ascending flat index; no flag. -/
def execVstxa (o : FX) (s : State) : Out :=
  let f := s.h.cfg.vtype
  let h := s.h
  let ps := h.spots (h.fxMask o) (fun r e => some (indexPlace o s r e))
  let img := h.img o.d.toNat
  orTrap s (s.h.besideData o.d.toNat (indexCauses o s f false true true ++ when_ (!scatterFmt f) (operand 0x04))
      (phaseCauses s h vecAtomic (spcOf o) (fun _ => []) (ps.map (h.eltOf f))))
    (match vecModify s h vecAtomic (spcOf o) (scatterOp (bits o.f.toNat 6 2) f) (ps.map (h.eltOf f))
        (ps.map fun p => h.elem f img p.row p.e) with
      | .error e => trapOut e
      | .ok s' => .next (s'.advance 8))

/-! ## Tensor coordinates -/

/-- The place of a position by tensor coordinates, none beyond an extent (R207). SCL is served on an entry whose SC is 0 as on any
other (DESIGN CHOICE: log entry 49). -/
def tensorPlace (o : FX) (s : State) (row e : Nat) : Option Place :=
  let t := s.h.tensor o.a.toNat
  let b := (s.x o.b).toNat
  let c := (s.x o.c).toNat
  let scl := bit o.f.toNat 0
  let i0 := bits b 0 32 + (if scl then 32 * e else e)
  let i1 := bits b 32 32 + row
  let i2 := bits c 0 32
  let i3 := bits c 32 32
  let at_ := fun v => if t.space = 0 then canon57 v else v
  if !t.within i0 i1 i2 i3 then none
  else if scl then some (placeAt (at_ t.scb) (8 * t.scaleOffset i0 i1 i2 i3))
  else some (placeAt (at_ t.base) (t.offset i0 i1 i2 i3))

/-- The conditions of VLDK and VSTK (R207, R209, R416, R419). -/
def tensorInstrCauses (o : FX) (s : State) (store : Bool) : List Cause :=
  let t := s.h.tensor o.a.toNat
  let f := s.h.cfg.vtype
  when_ (bits o.f.toNat 1 9 != 0 || o.imm != 0) (operand 0x01) ++ tensorCauses o.a.toNat t
    ++ when_ (t.space = 2) (operand 0x08)
    ++ when_ (if bit o.f.toNat 0 then f != .z8 else f.code != t.fmt) (operand 0x04)
    ++ s.h.shapeCauses [f]
    ++ (if store then s.h.regCauses [] [o.d.toNat] else s.h.regCauses [o.d.toNat] []) ++ s.h.maskInForce (s.h.fxMask o)

/-- VLDK (R207). -/
def execVldk (o : FX) (s : State) : Out :=
  orTrap s (tensorInstrCauses o s false)
    (loadTile s o.d.toNat (s.h.fxMask o) s.h.cfg.vtype ((s.h.tensor o.a.toNat).space = 1) (tensorPlace o s)
      (if bit o.f.toNat 0 then 0x7F else 0))

/-- VSTK (R207); the sub-element beyond VL, or beyond the extent of dimension 0, is unused (R53). -/
def execVstk (o : FX) (s : State) : Out :=
  orTrap s (s.h.besideData o.d.toNat (tensorInstrCauses o s true)
      (phaseCauses s s.h vecStore ((s.h.tensor o.a.toNat).space = 1) (fun _ => [])
        ((s.h.spots (s.h.fxMask o) (tensorPlace o s)).map (s.h.eltOf s.h.cfg.vtype))))
    (storeTile s o.d.toNat (s.h.fxMask o) s.h.cfg.vtype ((s.h.tensor o.a.toNat).space = 1) (tensorPlace o s)
      (fun _ e => decide (e + 1 = s.h.cfg.vl) || decide (bits (s.x o.b).toNat 0 32 + e + 1 = (s.h.tensor o.a.toNat).dim 0)))

/-! ## The tensor table -/

/-- The conditions of TSET and TGET on fields (R208). -/
def tensorFieldCauses (o : FI) : List Cause := when_ (o.f != 0 || o.imm != 0) (operand 0x01)

/-- ALIGN with SUB log2 of the required alignment (R418). -/
def alignCause (a : Acc) (tile : Bool) (addr sub : Nat) : Cause := accCause a tile addr 0x22 sub 0

/-- The ALIGN condition of an address. -/
def alignCauses (a : Acc) (tile : Bool) (addr sub : Nat) : List Cause :=
  when_ (decide (addr % 2 ^ sub ≠ 0)) (alignCause a tile addr sub)

/-- TSET (R208). -/
def execTset (o : FI) (s : State) : Out :=
  let va := (s.x o.a).toNat
  orTrap s (tensorFieldCauses o)
    (match hartRead s s.h s.h.plv vecLoad false va 64 (alignCauses vecLoad false va 6) with
      | .error e => trapOut e
      | .ok (bs, s') =>
        .next (({ s' with
          h := { s'.h with
            tensors := Sparse.set 0 s'.h.tensors o.d.toNat (BitVec.ofNat 512 (ofBytes bs)) } }).advance 8))

/-- TGET (R208). -/
def execTget (o : FI) (s : State) : Out :=
  let va := (s.x o.a).toNat
  orTrap s (tensorFieldCauses o)
    (match hartWrite s s.h s.h.plv vecStore false va
        (toBytes 64 (tensorImage (Sparse.get 0 s.h.tensors o.d.toNat))) (alignCauses vecStore false va 6) with
      | .error e => trapOut e
      | .ok s' => .next (s'.advance 8))

end Sys2Proof.Machine
end

