-- ==== Sys2Proof/Machine/Engines.lean ====
section
/-!
DEFINITION. Engine commands: locations, acceptance, copies, tensor copies and rotations, and their failures (R91, R92, R98,
R99, R263 to R270, R282, R416 to R419, R422, R446, R447).
-/
namespace Sys2Proof.Machine

/-! ## Locations -/

/-- A condition on the content of a command (R416, SUB 0x08). -/
def content (i : Nat) : Cause := { code := 0x02, sub := 0x08, tval := i }

/-- What a use of a location asks of its region: bytes, the directions it must permit, whether the bytes are read without
that, and the scope of the accesses. -/
structure Want where
  bytes : Nat
  rd : Bool := false
  wr : Bool := false
  reads : Bool := false
  scope : Nat := 0
  deriving DecidableEq, Repr

/-- HANDLE for a location word of command i, with the access it would make (R392, R422). -/
def handleCause (sub i word : Nat) (w : Want) : Cause :=
  { code := 0x25, sub := sub, tval := word, addr := word, asp := 2, index := i, rd := w.rd || w.reads, wr := w.wr, scope := w.scope }

/-- PERMIT for a range that leaves the issuing strip's window (R392, R422). -/
def windowCause (i ofs : Nat) (a : Want) : Cause :=
  let w := ofs % 2 ^ 32
  { code := 0x21, sub := 0x05, tval := w, addr := w, asp := 2, index := i, rd := a.rd || a.reads, wr := a.wr, scope := a.scope }

/-- A resolved location: where it lies, the physical range it names, and whether a handle entry was read. -/
structure Site where
  loc : Loc := {}
  range : Nat × Nat := (0, 0)
  handle : Bool := false
  /-- RD of the region, and its base and length. -/
  rd : Bool := true
  base : Nat := 0
  len : Nat := 0
  deriving DecidableEq, Repr

/-- An offset of the own window (R264, R422). -/
def State.windowPlace (s : State) (i ofs : Nat) (w : Want) : Except Cause Site :=
  if s.h.winBytes < ofs + w.bytes ∧ 0 < w.bytes then .error (windowCause i ofs w)
  else .ok { loc := ⟨s.h.winBase + ofs, s.keyOf s.h⟩, range := (s.h.winBase + ofs, w.bytes) }

/-- The two words of a handle entry (R91, R92), read from physical memory under key slot 0 (R376). -/
def State.handleEntry (s : State) (i word index : Nat) (w : Want) : Except Cause (Nat × Nat) :=
  if 16 * 2 ^ bits s.h.sys.htbase.toNat 60 4 ≤ index then .error (handleCause 0x01 i word w)
  else
    let pa := htBase s.h.sys.htbase + 32 * index
    match s.readPhys 0 pa 16 with
    | .error f =>
      let c := f.cause (isTile pa)
      .error { code := c.1, sub := c.2, tval := pa, addr := pa, asp := 1, rd := true, index := i }
    | .ok bs => .ok (bytesWord bs 0, bytesWord bs 1)

/-- The words of a handle entry that may be used: V is 1, and the tag is the one named (R91, R422). -/
def State.usableEntry (s : State) (i word index : Nat) (tag : Option Nat) (w : Want) : Except Cause (Nat × Nat) :=
  match s.handleEntry i word index w with
  | .error c => .error c
  | .ok (w0, w1) =>
    if !bit w0 63 then .error (handleCause 0x01 i word w)
    else if tag.any (· != bits w1 48 16) then .error (handleCause 0x02 i word w)
    else .ok (w0, w1)

/-- A byte of the region of a handle entry (R91, R264, R422). -/
def State.handlePlace (s : State) (i word index ofs : Nat) (tag : Option Nat) (w : Want) : Except Cause Site :=
  match s.usableEntry i word index tag w with
  | .error c => .error c
  | .ok (w0, w1) =>
    let len := bits w1 0 48
    if 0 < w.bytes ∧ len < ofs + w.bytes then .error (handleCause 0x03 i word w)
    else if (w.rd && !bit w0 61) || (w.wr && !bit w0 62) then .error (handleCause 0x04 i word w)
    else
      .ok { loc := ⟨bits w0 0 52 + ofs, bits w0 54 6⟩, range := (bits w0 0 52 + ofs, w.bytes), handle := true,
            rd := bit w0 61, base := bits w0 0 52, len := len }

/-- A place in the space of a tensor entry (R90): the tag is not checked. -/
def State.spacePlace (s : State) (i word space base ofs : Nat) (w : Want) : Except Cause Site :=
  match space with
  | 1 => s.windowPlace i (base + ofs) w
  | 2 => (s.handlePlace i word (bits base 41 16) (bits base 0 41 + ofs) none w).map fun p =>
      { p with loc := { p.loc with key := s.keyOf s.h } }
  | _ => .error (content i)

/-- A reserved bit of a location word is nonzero, or its kind is none (R264). -/
def badLocation (word : Nat) : Bool :=
  match bits word 62 2 with
  | 0 => bits word 32 30 != 0
  | 1 => false
  | 2 => bits word 52 10 != 0
  | _ => true

/-- A location word (R264). The SPACE of an entry with V = 0 is not looked at: such an entry names no space, and TENSOR is its
only cause (log entry 18). -/
def State.location (s : State) (i word tag : Nat) (w : Want) : Except Cause Site :=
  if badLocation word then .error (content i)
  else match bits word 62 2 with
    | 0 => s.windowPlace i (bits word 0 32) w
    | 1 => s.handlePlace i word (bits word 46 16) (bits word 0 46) (some tag) w
    | _ =>
      let id := bits word 46 6
      let t := s.h.tensor id
      match minCause (when_ (t.v && t.space == 0) (content i) ++ tensorCauses id t) with
      | some c => .error c
      | none => s.spacePlace i word t.space t.base (bits word 0 46) w

/-- The address that a location word resolves to, whatever its use asks of it: an offset of the own window, or the address and the
region of a handle entry (R264, R308). -/
def State.resolved (s : State) (word tag : Nat) : Option (Nat × Option (Nat × Nat)) :=
  let region := fun (index ofs : Nat) (tag : Option Nat) => match s.usableEntry 0 word index tag { bytes := 0 } with
    | .ok (w0, w1) => some (bits w0 0 52 + ofs, some (bits w0 0 52, bits w1 0 48))
    | .error _ => none
  match bits word 62 2 with
  | 0 => some (bits word 0 32, none)
  | 1 => region (bits word 46 16) (bits word 0 46) (some tag)
  | 2 =>
    let t := s.h.tensor (bits word 46 6)
    if tensorCauses (bits word 46 6) t != [] then none
    else match t.space with
      | 1 => some (t.base + bits word 0 46, none)
      | 2 => region (bits t.base 41 16) (bits t.base 0 41 + bits word 0 46) none
      | _ => none
  | _ => none

/-- A region lies within the tile range of one core (R85, R264). -/
def inOneTile (base len : Nat) : Bool :=
  match homeOf base with
  | .tile d c => decide (base + len ≤ tileBase d c + tileBytes d)
  | _ => false

/-- What R264 asks of the place of an arrival word: in tile memory, a handle region within one core's tile range, a multiple of
16. -/
def arrivalAllowed : Nat × Option (Nat × Nat) → Bool
  | (ofs, none) => decide (ofs % 16 = 0)
  | (pa, some (base, len)) => decide (pa % 16 = 0) && isTile pa && inOneTile base len

/-- The arrival word of a command (R264, R282), of kind 0b00 or 0b01. -/
def State.arrivalPlace (s : State) (i word tag scope : Nat) : Except Cause Site :=
  if 2 ≤ bits word 62 2 ∨ (s.resolved word tag).any fun p => !arrivalAllowed p then .error (content i)
  else s.location i word tag { bytes := 16, rd := true, wr := true, scope := scope }

/-! ## Tensors as engines move them -/

/-- Bytes of a row of a tensor (R53, R269). -/
def Tensor.rowBytes (t : Tensor) : Nat := ceilDiv (t.dim 0 * t.format.width) 8
/-- Scale bytes of a row (R76). -/
def Tensor.rowScales (t : Tensor) : Nat := if t.sc then ceilDiv (t.dim 0) 32 else 0
/-- T: the byte count of a tensor copy (R269). -/
def Tensor.total (t : Tensor) : Nat := (t.rowBytes + t.rowScales) * (t.dim 1 * t.dim 2 * t.dim 3)

/-- The offset of byte b of a row from BASE (R53, R75). -/
def Tensor.byteAt (t : Tensor) (b i1 i2 i3 : Nat) : Nat :=
  let outer := i2 * t.st 1 + i3 * t.st 2
  match t.layout with
  | 0 => b + i1 * t.st 0 + outer
  | _ =>
    let r := t.tileRows
    i1 / r * t.st 0 + b / 64 * (64 * r) + i1 % r * 64 + outer + b % 64

/-- Bytes from BASE that the elements reach (R75). -/
def Tensor.extent (t : Tensor) : Nat :=
  if t.total = 0 then 0 else t.byteAt (t.rowBytes - 1) (t.dim 1 - 1) (t.dim 2 - 1) (t.dim 3 - 1) + 1

/-- Bytes from SCB that the scales reach (R76). -/
def Tensor.scaleExtent (t : Tensor) : Nat :=
  if t.total = 0 ∨ t.rowScales = 0 then 0 else t.scaleOffset (t.dim 0 - 1) (t.dim 1 - 1) (t.dim 2 - 1) (t.dim 3 - 1) + 1

/-- The physical address of byte i of a command, at its destination or its source (R266, R269). -/
def Cmd.byteAddr (c : Cmd) (dst : Bool) (i : Nat) : Nat :=
  let l := if dst then c.dst else c.src
  if c.op = 2 then
    let t := tensorOf (if dst then c.dstT else c.srcT)
    let per := t.rowBytes + t.rowScales
    let row := i / per
    let b := i % per
    let i1 := row % t.dim 1
    let i2 := row / t.dim 1 % t.dim 2
    let i3 := row / t.dim 1 / t.dim 2
    if b < t.rowBytes then l.pa + t.byteAt b i1 i2 i3
    else (if dst then c.dstSc else c.srcSc).pa + t.scaleOffset (32 * (b - t.rowBytes)) i1 i2 i3
  else l.pa + i

/-- Byte i of a command ends an e2m1 row in the middle: its upper half is written as zero (R53, R269). -/
def Cmd.halfByte (c : Cmd) (i : Nat) : Bool :=
  let t := tensorOf c.dstT
  c.op = 2 && t.format.width = 4 && t.dim 0 % 2 = 1 && i % (t.rowBytes + t.rowScales) = t.rowBytes - 1

/-- Consecutive addresses as ranges. -/
def segments : List Nat → List (Nat × Nat)
  | [] => []
  | p :: ps => match segments ps with
    | (q, n) :: r => if q = p + 1 then (p, n + 1) :: r else (p, 1) :: (q, n) :: r
    | [] => [(p, 1)]

/-! ## Acceptance -/

/-- The causes of an attempt. -/
def errs {α : Type} : Except Cause α → List Cause
  | .ok _ => []
  | .error c => [c]

/-- The place of an attempt, where it has one. -/
def placeOf : Except Cause Site → Site
  | .ok p => p
  | .error _ => {}

/-- Every strip on the core of the hart that issues belongs to its GANG farm (R270, R282). -/
def State.gangCore (s : State) : Bool :=
  s.isGang s.h && s.running.all fun p => p.2.coreKey != s.h.coreKey || p.2.launch = s.h.launch

/-- The conditions on the fields of a command's words (R263, R282, R308, R321). -/
def cmdFields (ws : List Nat) : Bool :=
  let w0 := ws.getD 0 0
  let op := bits w0 60 4
  let w3 := ws.getD 3 0
  4 < op || 6 ≤ bits w0 56 3 || bits w0 48 8 != 0 || bits w3 32 32 != 0
    || ((op = 1 || op = 2 || op = 3) && [5, 6, 7].any fun i => ws.getD i 0 != 0)
    || (op = 4 && (bits w3 0 8 != 0 || 4 ≤ bits w3 8 3))

/-- The tensor entry of a location word of kind 0b10, as the command reads it. -/
def State.tensorImageOf (s : State) (word : Nat) : BitVec 512 := Sparse.get 0 s.h.tensors (bits word 46 6)

/-- The bytes a command moves (R263, R267, R269). -/
def State.cmdLen (s : State) (ws : List Nat) : Nat :=
  match bits (ws.getD 0 0) 60 4 with
  | 1 | 3 => bits (ws.getD 3 0) 0 32
  | 2 => (tensorOf (s.tensorImageOf (ws.getD 2 0))).total
  | 4 => 32
  | _ => 0

/-- The destination and the source of a command, and those of their scales (R264 to R266, R269, R308). -/
def State.cmdPlaces (s : State) (i : Nat) (ws : List Nat) : List (Except Cause Site) :=
  let w0 := ws.getD 0 0
  let d := ws.getD 1 0
  let c := ws.getD 2 0
  let len := s.cmdLen ws
  let to_ := fun (n : Nat) => ({ bytes := n, wr := true, scope := bits w0 56 3 } : Want)
  let of := fun (n : Nat) => ({ bytes := n, rd := true, scope := bits w0 56 3 } : Want)
  match bits w0 60 4 with
  | 0 => if badLocation d ∨ badLocation c then [.error (content i)] else []
  | 1 => [s.location i d (bits w0 16 16) (to_ len), s.location i c (bits w0 32 16) (of len)]
  | 2 =>
    if bits d 62 2 ≠ 2 ∨ bits c 62 2 ≠ 2 then [.error (content i)]
    else
      let td := tensorOf (s.tensorImageOf d)
      let ts := tensorOf (s.tensorImageOf c)
      [ s.location i d 0 (to_ td.extent), s.location i c 0 (of ts.extent),
        if td.sc ∧ td.space ≠ 3 then s.spacePlace i d td.space td.scb 0 (to_ td.scaleExtent) else .ok {},
        if ts.sc ∧ ts.space ≠ 3 then s.spacePlace i c ts.space ts.scb 0 (of ts.scaleExtent) else .ok {} ]
  | 3 =>
    if bits d 62 2 ≠ 0 ∨ bits c 62 2 ≠ 0 ∨ bits d 32 30 ≠ 0 then [.error (content i)]
    else
      [ .ok { loc := ⟨s.h.winBase + bits d 0 32, 0⟩, range := (s.h.winBase, s.h.winBytes) },
        s.location i c 0 (of len) ]
  | 4 =>
    [ s.location i d (bits w0 16 16) (to_ 32),
      if bits c 62 2 ≠ 1 then .error (content i)
      else s.location i c (bits w0 32 16) { bytes := 0, reads := true, scope := bits w0 56 3 } ]
  | _ => []

/-- The program a walk command names: slot PROG of the launch (R318). -/
def State.walkProgram (s : State) (ws : List Nat) : List (BitVec 32) :=
  match s.launchOf s.h with
  | some l => Sparse.get [] l.slots (bits (ws.getD 3 0) 12 4)
  | none => []

/-- Conditions of a command that its places do not show (R269, R270, R282, R308, R321). -/
def State.cmdExtra (s : State) (i : Nat) (ws : List Nat) (ps : List (Except Cause Site)) : List Cause :=
  match bits (ws.getD 0 0) 60 4 with
  | 2 =>
    let d := tensorOf (s.tensorImageOf (ws.getD 1 0))
    let c := tensorOf (s.tensorImageOf (ws.getD 2 0))
    when_ (d.fmt != c.fmt || d.sc != c.sc || d.rank != c.rank || d.dims != c.dims) (content i)
  | 3 => when_ (!s.gangCore) { code := 0x02, sub := 0x0A, tval := 0 }
  | 4 =>
    when_ (s.walkProgram ws = []) (content i)
      ++ when_ ((s.resolved (ws.getD 1 0) (bits (ws.getD 0 0) 16 16)).any fun p => decide (p.1 % 32 ≠ 0)) (content i)
      ++ (match ps.getD 1 (.ok {}) with
        | .ok p => when_ (match homeOf p.loc.pa with | .dram _ => false | _ => true) (content i)
        | .error _ => [])
  | _ => []

/-- A command of the hart that issues, checked as at acceptance: the causes of its command index i, or the command with
what it has read (R265, R417). -/
def State.buildCmd (s : State) (i : Nat) (ws : List Nat) : Except (List Cause) Cmd :=
  let w0 := ws.getD 0 0
  let op := bits w0 60 4
  let ps := s.cmdPlaces i ws
  let aw := if bit w0 59 then s.arrivalPlace i (ws.getD 4 0) (bits w0 0 16) (bits w0 56 3) else .ok {}
  let cs := when_ (cmdFields ws) (content i) ++ (ps.map errs).flatten ++ errs aw ++ s.cmdExtra i ws ps
  if cs ≠ [] then .error cs
  else
    let p := fun n => placeOf (ps.getD n (.ok {}))
    let a := placeOf aw
    let handle := a.handle || (ps.map placeOf).any (·.handle)
    .ok {
      id := 0, op := op, hart := s.h.key, launch := s.h.launch.getD 0, strip := s.h.stripId.toNat, pc := s.h.pc.toNat,
      scope := bits w0 56 3, dst := (p 0).loc, src := (p 1).loc, dstWord := ws.getD 1 0, srcWord := ws.getD 2 0,
      awWord := ws.getD 4 0, len := s.cmdLen ws, aw := if bit w0 59 then some a.loc.pa else none,
      dstT := s.tensorImageOf (ws.getD 1 0), srcT := s.tensorImageOf (ws.getD 2 0), dstSc := (p 2).loc, srcSc := (p 3).loc,
      win := (s.h.winBase, s.h.winBytes), htbase := if handle then some (htBase s.h.sys.htbase) else none,
      ranges := a.range :: ((p 1).base, if op = 4 then (p 1).len else 0) :: ps.map fun x => (placeOf x).range, rchk := s.h.sys.rchk, words := ws,
      region := ((p 1).base, (p 1).len, (p 1).rd),
      rules := if op = 4 then s.walkProgram ws else [] }

/-- The lowest free entry of the core's engine queue, where the hart's share has room (R265). -/
def State.freeEntry (s : State) : Option Nat :=
  let used := s.core.eng.filterMap fun e => e.2.map fun c => (e.1, c)
  if 64 ≤ (used.filter fun e => e.2.hart = s.h.key).length then none
  else (List.range 128).find? fun n => !used.any fun e => e.1 = n

/-- The agent of a command (R322). -/
def Cmd.agent (c : Cmd) : Agent := .command c.launch c.strip c.id

/-- A command enters the engine queue (R265): a release of the hart, and the command's first event. -/
def State.acceptCmd (s : State) (entry : Nat) (c : Cmd) : State :=
  let (n, s) := s.fresh
  let c := { c with id := n }
  let s := s.recordAfter
    { agent := s.h.agent, place := s.h.coreKey, cls := .engine, rel := true, scope := c.scope, po := s.h.po }
    { agent := c.agent, place := s.h.coreKey, acq := true, scope := c.scope }
  let s := s.updCore s.h.coreKey fun x =>
    { x with eng := Sparse.set none x.eng entry (some c), rots := if c.op = 3 then x.rots ++ [entry] else x.rots }
  if c.op = 4 then { s with h := { s.h with walks := { s.h.walks with outst := satAdd s.h.walks.outst 1 } } } else s

/-! ## Submitting -/

/-- The eight words of a command in an image (R268). -/
def wordsAt (img off : Nat) : List Nat := (List.range 8).map fun j => bits img (8 * off + 64 * j) 64

/-- The commands ENGQ selects, each with its index (R268). -/
def State.engqCommands (s : State) (o : FX) (n : Nat) : List (Nat × List Nat) :=
  let cap := s.h.cap
  let m := Sparse.get 0 s.h.vec.m o.m.toNat
  (List.range n).filterMap fun i =>
    if o.m = 0 || bit m i then some (i, wordsAt (s.h.img (o.a.toNat + 64 * i / cap)) (64 * i % cap)) else none

/-- Checked commands accepted in order up to the first that finds the queue or the share full (R268): the indices
accepted. -/
def acceptUpTo : List (Nat × Cmd) → State → State × List Nat
  | [], s => (s, [])
  | (i, c) :: rest, s => match s.freeEntry with
    | none => (s, [])
    | some e =>
      let r := acceptUpTo rest (s.acceptCmd e c)
      (r.1, i :: r.2)

/-- Commands built from their words, or the causes of all of them. -/
def State.buildAll (s : State) (cmds : List (Nat × List Nat)) : Except (List Cause) (List (Nat × Cmd)) :=
  let rs := cmds.map fun c => (c.1, s.buildCmd c.1 c.2)
  let bad := (rs.map fun r => match r.2 with | .error cs => cs | .ok _ => []).flatten
  if bad ≠ [] then .error bad
  else .ok (rs.filterMap fun r => match r.2 with | .ok c => some (r.1, c) | .error _ => none)

/-- ENGQ (R268, R282). -/
def execEngq (o : FX) (s : State) : Out :=
  let n := (s.x o.b).toNat
  let regs := groupRegs o.a.toNat 0 ++ (List.range (ceilDiv (64 * min n 256) s.h.cap)).map (o.a.toNat + ·)
  let cs := when_ (o.c != 0 || o.z != 0 || o.f != 0 || o.imm != 0) (operand 0x01) ++ when_ (decide (256 < n)) (operand 0x07)
    ++ s.h.regCauses [] regs ++ s.h.maskCauses [o.d.toNat] (if o.m = 0 then [] else [o.m.toNat])
  if cs ≠ [] then orTrap s cs (.next s)
  else match s.buildAll (s.engqCommands o n) with
    | .error bad => orTrap s bad (.next s)
    | .ok cmds =>
      let r := acceptUpTo cmds s
      let w : MWrite := ⟨o.d.toNat, (List.range n).map fun i => (i, r.2.contains i)⟩
      .next (({ r.1 with h := r.1.h.putM w }).advance 8)

/-- ECP (R269). -/
def execEcp (o : FX) (s : State) : Out :=
  let a := (s.x o.a).toNat
  let acc : Acc := { rd := true, cls := .vector }
  let cs := when_ (fxOther o true true false || o.m != 0 || o.z != 0 || o.f != 0 || o.imm != 0) (operand 0x01)
  if cs ≠ [] then orTrap s cs (.next s)
  else match hartRead s s.h s.h.plv acc false a 64 (when_ (decide (a % 64 ≠ 0)) (accCause acc false a 0x22 6 0)) with
    | .error e => trapOut e
    | .ok (bs, s1) => match s1.buildCmd 0 ((List.range 8).map (bytesWord bs)) with
      | .error bad => orTrap s1 bad (.next s1)
      | .ok c => match s1.freeEntry with
        | none => .next ((s1.setX o.d 1).advance 8)
        | some e => .next (((s1.acceptCmd e c).setX o.d 0).advance 8)

/-- A command that waits in the vector queue for a free entry (R269, R270): accepted, or held. -/
def State.acceptOrHold (s : State) (i : Instr) (xs : List Word) (c : Cmd) : Out :=
  match s.freeEntry with
  | none => .next (s.hold i xs [] 0 0)
  | some e => .next ((s.acceptCmd e c).advance 8)

/-- The words of the command TCOPY submits (R269). -/
def tcopyWords (o : FX) (aw : Word) : List Nat :=
  let w0 := 2 * 2 ^ 60 + ofBool (bit o.f.toNat 3) * 2 ^ 59 + bits o.f.toNat 0 3 * 2 ^ 56
  let loc := fun (k : Field) => 2 ^ 63 + k.toNat * 2 ^ 46
  [w0, loc o.d, loc o.a, 0, if bit o.f.toNat 3 then aw.toNat else 0, 0, 0, 0]

/-- The conditions on the fields of TCOPY (R269). -/
def tcopyFields (o : FX) : List Cause :=
  when_ (o.c != 0 || o.m != 0 || o.z != 0 || o.imm != 0 || bits o.f.toNat 4 6 != 0 || (!bit o.f.toNat 3 && o.b != 0))
    (operand 0x01) ++ when_ (decide (6 ≤ bits o.f.toNat 0 3)) (operand 0x02)

/-- TCOPY with the value of its arrival-word operand (R269). -/
def tcopyWith (o : FX) (aw : Word) (s : State) (go : Cmd → Out) : Out :=
  match tcopyFields o with
  | c :: cs => orTrap s (c :: cs) (.next s)
  | [] => match s.buildCmd 0 (tcopyWords o aw) with
    | .error bad => orTrap s bad (.next s)
    | .ok c => go c

/-- TCOPY (R269). -/
def execTcopy (o : FX) (s : State) : Out :=
  tcopyWith o (s.x o.b) s fun c => s.acceptOrHold (.tcopy o) [s.x o.b] c

/-- The conditions on the fields of TROT (R270). -/
def trotFields (o : FX) : List Cause :=
  when_ (o.d != 0 || o.m != 0 || o.z != 0 || bits o.f.toNat 4 6 != 0 || (!bit o.f.toNat 3 && o.imm != 0)) (operand 0x01)
    ++ when_ (decide (6 ≤ bits o.f.toNat 0 3)) (operand 0x02)

/-- The words of the rotation TROT submits (R270). -/
def trotWords (o : FX) (a b c : Word) : List Nat :=
  let w0 := 3 * 2 ^ 60 + ofBool (bit o.f.toNat 3) * 2 ^ 59 + bits o.f.toNat 0 3 * 2 ^ 56
  [w0, bits b.toNat 0 32, bits a.toNat 0 32, bits c.toNat 0 32, if bit o.f.toNat 3 then 16 * o.imm.toNat else 0, 0, 0, 0]

/-- TROT with its operand values (R270). -/
def trotWith (o : FX) (a b c : Word) (s : State) (go : Cmd → Out) : Out :=
  let cs := trotFields o
    ++ when_ (c != 0 && decide (s.h.winBytes < a.toNat + c.toNat)) (windowCause 0 a.toNat { bytes := 0, rd := true, scope := bits o.f.toNat 0 3 })
    ++ when_ (bit o.f.toNat 3 && decide (0x10000 ≤ o.imm.toNat)) (operand 0x07)
  match cs, s.buildCmd 0 (trotWords o a b c) with
  | [], .ok m => go { m with dst := { m.dst with pa := s.h.winBase + b.toNat } }
  | cs, .ok _ => orTrap s cs (.next s)
  | cs, .error bad => orTrap s (cs ++ bad) (.next s)

/-- TROT (R270). -/
def execTrot (o : FX) (s : State) : Out :=
  trotWith o (s.x o.a) (s.x o.b) (s.x o.c) s fun c => s.acceptOrHold (.trot o) [s.x o.a, s.x o.b, s.x o.c] c

/-- The hart that issues as it stood when an instruction that waits in its vector queue issued: at its pc, at its level, and in
its place in program order (R158, R327). -/
def State.backTo (s : State) (p : Pending) : State :=
  { s with h := { s.h with vq := none, pc := p.pc, plv := p.plv, po := p.po } }

/-- The hart that issues after what waited has had its effect: where it stood. -/
def State.goOn (s : State) (was : Hart) : State := { s with h := { s.h with pc := was.pc, plv := was.plv, po := was.po } }

/-- TCOPY or TROT that waits in the vector queue of the hart that issues enters the engine queue once there is room; what
it meets at acceptance is raised at its own pc (R269, R270, R394). -/
def State.retryCmd (s : State) : State :=
  let fin : State → Cmd → Out := fun t c => match t.freeEntry with
    | none => .next s
    | some e => .next ((t.acceptCmd e c).goOn s.h)
  let out : Out := match s.h.vq with
    | some p =>
      let t := s.backTo p
      match p.instr, p.xs with
      | .tcopy o, [b] => if s.freeEntry.isSome then tcopyWith o b t (fin t) else .next s
      | .trot o, [a, b, c] => if s.freeEntry.isSome then trotWith o a b c t (fin t) else .next s
      | _, _ => .next s
    | none => .next s
  match out with
  | .next t => t
  | _ => s

/-! ## Arrival words -/

/-- The fields of an arrival word (R98). -/
structure Arrival where
  target : Nat
  count : Nat
  gen : Nat
  ovl : Bool
  flt : Bool
  rest : Nat
  deriving DecidableEq, Repr

/-- An arrival word from its two 64-bit words (R98). -/
def arrivalOf (w0 w1 : Nat) : Arrival := ⟨bits w0 0 32, bits w0 32 32, bits w1 0 32, bit w1 32, bit w1 33, bits w1 34 30⟩

/-- The bytes of an arrival word (R98). -/
def Arrival.bytes (a : Arrival) : List Byte :=
  wordsBytes [a.count * 2 ^ 32 + a.target, a.rest * 2 ^ 34 + ofBool a.flt * 2 ^ 33 + ofBool a.ovl * 2 ^ 32 + a.gen]

/-- The update of an arrival word by n bytes (R99). -/
def Arrival.add (a : Arrival) (n : Nat) : Arrival :=
  if n = 0 then a
  else if a.target = 0 then { a with count := (a.count + n) % 2 ^ 32 }
  else
    let t := a.count + n
    let adv := t / a.target
    { a with count := t % a.target, gen := (a.gen + adv) % 2 ^ 32, ovl := a.ovl || decide (1 < adv) }

/-- The arrival word at a physical address. -/
def State.arrivalAt (s : State) (pa : Nat) : Arrival :=
  let bs := s.readBytes 0 pa 16
  arrivalOf (bytesWord bs 0) (bytesWord bs 1)

/-- Whether an update has moved the generation on. -/
def Arrival.moved (a b : Arrival) : Bool := a.gen != b.gen

/-- The event of an update of an arrival word by a command, which is the release of its completion where it is the last (R267,
R328). -/
def Cmd.awEvent (c : Cmd) (s : State) (core pa : Nat) (last moved : Bool) : Ev :=
  { agent := c.agent, place := core, rd := true, wr := true, atomic := true, tile := true, checked := s.cmdChecked c pa,
    lo := pa, hi := pa + 16, rel := last, scope := c.scope, advance := some moved }

/-- An arrival word changed by a command; the memory CODE where its sector holds poison (R446) or a race is met (R430). -/
def State.updArrival (s : State) (core : Nat) (c : Cmd) (last : Bool) (f : Arrival → Arrival) : Except (Nat × State) State :=
  match c.aw with
  | none => .ok s
  | some pa =>
    let old := s.arrivalAt pa
    let ev := c.awEvent s core pa last (old.moved (f old))
    if s.rangePoisoned pa 16 then .error (0x23, s)
    else match raceOf s ev with
      | some (k, _, _) => .error (0x24, s.markReported k)
      | none => .ok ((s.record ev).store 0 pa (f old).bytes)

/-- FLT of the arrival word of a command set, where its update is made (R396, R446). -/
def State.flagArrival (s : State) (core : Nat) (c : Cmd) : State :=
  match s.updArrival core c false fun a => { a with flt := true } with
  | .ok t => t
  | .error (_, t) => t

/-! ## Commands at work -/

/-- Command e of the engine queue of a core. -/
def State.cmdAt (s : State) (core e : Nat) : Option Cmd := Sparse.get none (s.coreAt core).eng e

/-- A command replaced. -/
def State.setCmd (s : State) (core e : Nat) (c : Option Cmd) : State :=
  s.updCore core fun x => { x with eng := Sparse.set none x.eng e c }

/-- The issuer of a command in an entry of the engine queue (R392). -/
def Cmd.issuer (c : Cmd) (e : Nat) : Issuer := ⟨c.hart, e, c.launch, c.strip, c.pc, c.scope⟩

/-- The fault record of a command, which names the issuer at fault (R392, R446, R447). -/
def State.cmdRec (s : State) (f : CmdFault) (master index done : Nat) (frz : Bool) : FaultRec :=
  let b := f.by_
  { code := f.code, sub := f.sub, frz := frz, master := master, strip := b.strip, entry := b.entry, die := b.hart / 512,
    core := b.hart / 8 % 64, slot := b.hart % 8, recAddr := s.recOf (some b.launch), pc := b.pc, addr := f.addr, asp := f.asp,
    wr := f.wr, rd := f.rd, scope := b.scope, index := index, done := done, time := (s.cycle (b.hart / 512)).toNat }

/-- The freeze of a command by an access under a key slot that holds no key (R378, R396); index and done are its progress
(R402). -/
def State.freezeCmd (s : State) (core e : Nat) (c : Cmd) (addr : Nat) (wr : Bool) (master index done : Nat) : State :=
  let f : CmdFault := { code := 0x72, sub := 0, addr := addr, rd := !wr, wr := wr, by_ := c.issuer e }
  let s := (s.setCmd core e (some { c with frozen := true })).flagArrival core c
  let s := s.ringRecord (s.launchRing (some c.launch)) (s.cmdRec f master index done true)
  (s.faultLaunch c.launch).preemptLaunch c.launch (2 ^ 64)

/-- The location word of an address on one side of a command (R446). -/
def Cmd.wordOf (c : Cmd) (dst : Bool) (pa : Nat) : Nat :=
  let w := if dst then c.dstWord else c.srcWord
  let l := if dst then c.dst else c.src
  (w + 2 ^ 64 + pa - l.pa) % 2 ^ 64

/-- The ranges of the bytes from i to i + n - 1 of a command. -/
def Cmd.rangesOf (c : Cmd) (dst : Bool) (i n : Nat) : List (Nat × Nat) :=
  segments ((List.range n).map fun j => c.byteAddr dst (i + j))

/-- The first range that cannot be accessed, with why; chk says whether an access to an address is checked. -/
def State.firstFault (s : State) (c : Cmd) (core : Nat) (chk : Nat → Bool) (wr : Bool) (key : Nat) :
    List (Nat × Nat) → Option (Nat × Option Nat × State)
  | [] => none
  | r :: rs => match s.deviceFault c.agent core chk wr key r.1 r.2 with
    | some f => some (r.1, f)
    | none => s.firstFault c core chk wr key rs

/-- The granules that bytes i to i + n - 1 of a command lie in. -/
def Cmd.granules (c : Cmd) (dst : Bool) (i n : Nat) : List Nat := (List.range n).map fun j => c.byteAddr dst (i + j) / 16

/-- The bytes of the block that begins at byte i of a command, of end in all: 64 bytes, ended where the address is a multiple of
64; a tensor's block goes on until no granule of it is left for a later one (R78, R266, R324). -/
def Cmd.block (c : Cmd) (dst : Bool) (i end_ : Nat) : Nat :=
  let left := end_ - i
  if c.op = 2 then
    let whole := fun (n : Nat) =>
      let gs := c.granules dst i n
      (c.granules dst (i + n) (left - n)).all fun g => !gs.contains g
    ((List.range left).find? fun n => decide (64 ≤ n) && whole n).getD left
  else min left (64 - c.byteAddr dst i % 64)

/-- The granules of the block of n bytes that begins at byte i of a command: of each, the places in the block of its bytes (R266,
R324). -/
def Cmd.blockParts (c : Cmd) (dst : Bool) (i n : Nat) : List (List Nat) :=
  (c.granules dst i n).eraseDups.map fun g => (List.range n).filter fun j => c.byteAddr dst (i + j) / 16 = g

/-- The granule of a block that is next, as the places in the block of its bytes (R324). -/
def Cmd.nextPart (c : Cmd) (dst : Bool) (i n : Nat) : List Nat := (c.blockParts dst i n).getD c.part []

/-- The next granule of a block is its last. -/
def Cmd.lastPart (c : Cmd) (dst : Bool) (i n : Nat) : Bool := decide ((c.blockParts dst i n).length ≤ c.part + 1)

/-- Why the next granule of a block cannot be read or written. The checks of a block are made, and the block counts as performed in
the record of races, as its first granule is (log entry 18). -/
def State.partFault (s : State) (c : Cmd) (core : Nat) (dst : Bool) (i n : Nat) : Option (Nat × Option Nat × State) :=
  let key := if dst then c.dst.key else c.src.key
  if c.part = 0 then s.firstFault c core (s.cmdChecked c) dst key (c.rangesOf dst i n)
  else s.firstFault c core (fun _ => false) dst key
    (segments ((c.nextPart dst i n).map fun j => c.byteAddr dst (i + j)))

/-- The record of the pieces of a block that begins (R324). -/
def State.recordBlock (s : State) (c : Cmd) (core : Nat) (dst : Bool) (i n : Nat) : State :=
  if c.part = 0 then (c.rangesOf dst i n).foldl (fun s r => s.recordDevice c.agent core (s.cmdChecked c) dst r.1 r.2) s else s

/-- The reading side of a command has ended: it may land, or, of a rotation, its outgoing block is ready (R101, R266). -/
def Cmd.endRead (c : Cmd) : Cmd := if c.op = 3 then { c with sent := true } else { c with readDone := true }

/-- A source side that fails: the fault of the prefix read so far (R446). -/
def Cmd.failRead (c : Cmd) (e sub addr : Nat) : Cmd :=
  Cmd.endRead { c with
    part := 0, stage := [],
    fault := some { code := 0x40, sub := sub, addr := c.wordOf false addr, rd := true, by_ := c.issuer e } }

/-- A command after the next granule of the block of n bytes has been read: the block joins the bytes once it is whole (R266). -/
def Cmd.readPart (c : Cmd) (i n : Nat) (get : Nat → Byte) : Cmd :=
  let stage := (c.nextPart false i n).foldl (fun (m : Sparse Byte) j => Sparse.set 0#8 m j (get (c.byteAddr false (i + j)))) c.stage
  if c.lastPart false i n then
    let c' := { c with part := 0, stage := [], bytes := c.bytes ++ (List.range n).map fun j => Sparse.get 0#8 stage j }
    if i + n = c.len then c'.endRead else c'
  else { c with part := c.part + 1, stage := stage }

/-- The next granule of the 64-byte block of a command's source that it has come to is read (R266, R324). -/
def State.readBlock (s : State) (core e : Nat) (c : Cmd) : State :=
  let i := c.bytes.length
  let n := c.block false i c.len
  match s.partFault c core false i n with
  | some (pa, none, t) => t.freezeCmd core e c (c.wordOf false pa) false 1 0 c.done
  | some (_, some sub, t) => t.setCmd core e (some (c.failRead e sub (c.byteAddr false i)))
  | none => (s.recordBlock c core false i n).setCmd core e (some (c.readPart i n fun pa => s.readByte c.src.key pa))

/-- A device step on a command of an engine queue: the core and the entry that the input names. -/
def onCmd (s : State) (f : Nat → Nat → Cmd → State) : Out :=
  match s.cmdAt s.input.who s.input.which with
  | some c => .next (if c.frozen then s else f s.input.who s.input.which c)
  | none => .next s

/-- ENGINE_NONE (R266): a command of OP 0 completes. -/
def execEngineNone (s : State) : Out :=
  onCmd s fun core e c => if c.op = 0 then (s.setCmd core e none).settleWindows core else s

/-- COPY (R266): the engine reads the next granule of the source. -/
def execCopy (s : State) : Out :=
  onCmd s fun core e c => if c.op = 1 ∧ !c.readDone then s.readBlock core e c else s

/-- TENSOR_COPY (R269): the engine reads the next granule of the source tensor. -/
def execTensorCopy (s : State) : Out :=
  onCmd s fun core e c => if c.op = 2 ∧ !c.readDone then s.readBlock core e c else s

/-- A destination side that fails after the bytes delivered: nothing further lands, and of a rotation the sender is at fault (R446,
R447). -/
def Cmd.failWrite (c : Cmd) (e sub addr : Nat) (rd wr : Bool) : Cmd :=
  { c with
    bytes := c.bytes.take c.done, readDone := true, part := 0,
    fault := some { code := 0x40, sub := sub, addr := addr, rd := rd, wr := wr, by_ := c.peer.getD (c.issuer e) } }

/-- The byte of a block that lands at a place in it, the unused half of an e2m1 row's last byte zero (R269). -/
def Cmd.landing (c : Cmd) (j : Nat) : Byte :=
  let b := c.bytes.getD (c.done + j) 0
  if c.halfByte (c.done + j) then b &&& 0x0F#8 else b

/-- The write of bytes to ranges in order. -/
def State.storeRanges (s : State) (key : Nat) : List (Nat × Nat) → List Byte → State
  | [], _ => s
  | r :: rs, bs => (s.store key r.1 (bs.take r.2)).storeRanges key rs (bs.drop r.2)

/-- The next granule of the block of n bytes lands, in one piece (R266, R324). -/
def State.landPart (s : State) (c : Cmd) (core n : Nat) : State :=
  let js := c.nextPart true c.done n
  (s.recordBlock c core true c.done n).storeRanges c.dst.key (segments (js.map fun j => c.byteAddr true (c.done + j)))
    (js.map c.landing)

/-- A block of n bytes of a command has landed: a sector that it covers whole loses its poison (R427), and the arrival word counts
it (R267). -/
def State.endBlock (s : State) (core e : Nat) (c : Cmd) (n : Nat) : State :=
  let s := s.clearPoison ((List.range n).map fun j => c.byteAddr true (c.done + j))
  let c := { c with done := c.done + n, part := 0 }
  match s.updArrival core c (decide (c.done = c.bytes.length) && c.fault.isNone) fun a => a.add n with
  | .ok t => t.setCmd core e (some c)
  | .error (sub, t) => t.setCmd core e (some (c.failWrite e sub c.awWord true true))

/-- ENGINE_BLOCK_LAND (R267, R446, R447): the next granule of a block lands, and the arrival word counts the block with its last. -/
def execEngineBlockLand (s : State) : Out :=
  onCmd s fun core e c =>
    let n := c.block true c.done c.bytes.length
    if !c.readDone ∨ n = 0 then s
    else
      let addr := c.wordOf true (c.byteAddr true c.done)
      if c.op = 3 ∧ c.win.1 + c.win.2 < c.dst.pa + c.done + n then s.setCmd core e (some (c.failWrite e 0x21 addr false true))
      else match s.partFault c core true c.done n with
        | some (_, none, t) => t.freezeCmd core e c addr true 1 0 c.done
        | some (_, some sub, t) => t.setCmd core e (some (c.failWrite e sub addr false true))
        | none =>
          let t := s.landPart c core n
          if c.lastPart true c.done n then t.endBlock core e c n
          else t.setCmd core e (some { c with part := c.part + 1 })

/-- A command leaves the engine queue (R265, R267): its last event, the rotation port, and windows it alone held. -/
def State.endCmd (s : State) (core e : Nat) (c : Cmd) : State :=
  let s := s.record { agent := c.agent, place := core, rel := true, scope := c.scope, table := c.htbase }
  let s := s.updCore core fun x => { x with eng := Sparse.set none x.eng e none, rots := x.rots.erase e }
  (s.settleWindows core).settleWindows (c.hart / 8)

/-- ENGINE_COMMAND_COMPLETE (R267): every byte has landed. -/
def execEngineCommandComplete (s : State) : Out :=
  onCmd s fun core e c =>
    if c.op ≠ 0 ∧ c.op ≠ 4 ∧ c.readDone ∧ c.fault = none ∧ c.done = c.bytes.length then s.endCmd core e c else s

/-- COPY_FAIL (R446, R447): the prefix has landed; FLT, the record of the strip at fault, and the end of the command. -/
def execCopyFail (s : State) : Out :=
  onCmd s fun core e c => match c.fault with
    | none => s
    | some f =>
      if c.op = 4 ∨ !c.readDone ∨ c.done ≠ c.bytes.length then s
      else
        let s := s.flagArrival core c
        (s.holdFor f.by_.launch f.by_.strip (s.cmdRec f 1 0 c.done false)).endCmd core e c

/-- The current rotation of a core: the oldest its port has accepted (R270). -/
def State.rotation (s : State) (core : Nat) : Option (Nat × Cmd) :=
  match (s.coreAt core).rots with
  | [] => none
  | e :: _ => (s.cmdAt core e).map fun c => (e, c)

/-- The current rotations of four cores with what each is given by that of the core before it on the ring (R101). -/
def State.passRound (s : State) (core : Nat → Nat) (rs : List (Nat × Cmd)) (f : Nat × Cmd → Cmd → Cmd) : State :=
  (List.range 4).foldl (fun t j => match rs[(j + 3) % 4]?, rs[j]? with
    | some p, some (e, c) => t.setCmd (core j) e (some (f p c))
    | _, _ => t) s

/-- A rotation receives the block of the one before it on the ring, wholly or up to the fault of its sender (R270, R447). -/
def Cmd.receive (p : Nat × Cmd) (c : Cmd) : Cmd :=
  if c.frozen ∨ c.readDone ∨ !p.2.sent then c
  else { c with bytes := p.2.bytes, len := p.2.len, readDone := true, fault := p.2.fault }

/-- The current rotations of the four cores of a cluster go on (R101, R270): they begin together; each reads its outgoing block, the
core that is named its next granule; and once all four have read, each block goes to the next core of the ring. -/
def State.rotate (s : State) (core : Nat → Nat) (which : Nat) (rs : List (Nat × Cmd)) : State :=
  if rs.all fun r => r.2.peer.isNone && !r.2.frozen then
    s.passRound core rs fun p c => { c with peer := some (p.2.issuer p.1) }
  else if rs.all fun r => r.2.peer.isSome then
    match rs[which % 4]? with
    | none => s
    | some (e, c) =>
      if !c.sent ∧ !c.frozen then s.readBlock (core (which % 4)) e c
      else if rs.all fun r => r.2.sent || r.2.frozen then s.passRound core rs Cmd.receive
      else s
  else s

/-- ROTATION (R101, R270): the current rotations of a cluster go on. The input names the cluster, die * 16 + cluster, and a core of
it. -/
def execRotation (s : State) : Out :=
  let core := fun (j : Nat) => s.input.who / 16 * 64 + s.input.who % 16 * 4 + j % 4
  match s.rotation (core 0), s.rotation (core 1), s.rotation (core 2), s.rotation (core 3) with
  | some r0, some r1, some r2, some r3 => .next (s.rotate core s.input.which [r0, r1, r2, r3])
  | _, _, _, _ => .next s

end Sys2Proof.Machine
end

