-- ==== Sys2Proof/Machine/Sync.lean ====
section
/-!
DEFINITION. Arrival words, named barriers, Sorrel registers, memory atomics and VWAIT (R98, R99, R271 to R282, R416, R418,
R421, R422).
-/
namespace Sys2Proof.Machine

/-- The conditions on the offset of an arrival word in the own window (R282, R416, R418). -/
def State.arrivalCauses (s : State) (a : Acc) (ofs : Nat) : List Cause :=
  when_ (decide (ofs % 16 ≠ 0)) (accCause a true ofs 0x22 4 0)
    ++ when_ (decide (s.h.winBytes < ofs + 16)) (operand 0x07)

/-- The conditions on the fields of AWSET and AWADD (R271, R282). -/
def awFields (o : FI) : List Cause := when_ (decide (2 ≤ o.f.toNat) || (o.f = 1 && o.imm != 0)) (operand 0x01)

/-- Operand t or n of AWSET and AWADD (R271). -/
def State.awOperand (s : State) (o : FI) : Nat := if o.f = 0 then o.imm.toNat else bits (s.x o.d).toNat 0 32

/-- An update of the own-window arrival word at x[A]: x[D] receives GEN after it (R271). -/
def awUpdate (o : FI) (s : State) (acc : Acc) (g : Arrival → Arrival) : Out :=
  let ofs := (s.x o.a).toNat
  match awFields o ++ s.arrivalCauses acc ofs with
  | c :: cs => orTrap s (c :: cs) (.next s)
  | [] =>
    let old := s.arrivalAt (s.h.winBase + ofs)
    match vecModify s s.h { acc with advance := some (old.moved (g old)) } true (fun _ n => n) [⟨0, ofs, 16⟩]
        [ofBytes (g old).bytes] with
    | .error e => trapOut e
    | .ok t => .next ((t.setX o.d (word (g old).gen)).advance 8)

/-- AWSET (R271). -/
def execAwset (o : FI) (s : State) : Out :=
  awUpdate o s { rd := true, wr := true, atomic := true, cls := .vector } fun a =>
    { a with target := s.awOperand o, count := 0, ovl := false, flt := false }

/-- AWADD (R271): a release at system scope. -/
def execAwadd (o : FI) (s : State) : Out :=
  awUpdate o s { rd := true, wr := true, atomic := true, cls := .vector, rel := true, scope := 5 } fun a =>
    a.add (s.awOperand o)

/-- The access of AWAIT: an acquire at system scope when it returns a change (R272). -/
def awaitAcc : Acc := { rd := true, cls := .vector, acq := true, scope := 5, advance := some false }

/-- One look of AWAIT at its arrival word: none while GEN is the generation known, or GEN and the state after the acquiring read
(R272). -/
def State.awaitLook (s : State) (ofs : Nat) (known : Word) : Except (Cause × State) (Option (Nat × State)) :=
  match resolveAccess s s.h s.h.plv awaitAcc true ofs 16 with
  | .error cs => .error ((minCause cs).getD { code := 0x21 }, s)
  | .ok ps => match lookPieces s s.h awaitAcc ofs ps with
    | .error c => .error (c, s)
    | .ok (bs, _) =>
      let gen := bits (bytesWord bs 1) 0 32
      if word gen = known then .ok none
      else match performFaults s s.h awaitAcc ofs ps with
        | some f => .error f
        | none => .ok (some (gen, (readPieces s s.h awaitAcc ps).2))

/-- AWAIT (R272): GEN where it has changed, or the wait. -/
def execAwait (o : FI) (s : State) : Out :=
  let ofs := (s.x o.a).toNat
  match when_ (o.f != 0) (operand 0x01) ++ s.arrivalCauses awaitAcc ofs with
  | c :: cs => orTrap s (c :: cs) (.next s)
  | [] => match s.awaitLook ofs (s.x o.d) with
    | .error e => trapOut e
    | .ok none => .next (s.hold (.await o) [s.x o.d, s.x o.a] [] 0 0)
    | .ok (some (gen, t)) => .next ((t.setX o.d (word gen)).advance 8)

/-- The instruction that waits in the vector queue completes: x[D] receives a value. -/
def State.endPending (s : State) (d : Field) (v : Word) : State :=
  ({ s with h := { s.h with vq := none } }).setX d v

/-- A waiting AWAIT looks again: it ends where GEN has left the generation known, and at its timeout whatever GEN is (R272). -/
def State.awaitEnd (s : State) (p : Pending) (o : FI) (g ofs : Word) (timeout : Bool) : State :=
  match (s.backTo p).awaitLook ofs.toNat g with
  | .error (c, t) => t.raise c false false
  | .ok (some (gen, t)) => (t.goOn s.h).endPending o.d (word gen)
  | .ok none => if timeout then s.endPending o.d g else s

/-- AWAIT_WAKE (R272): a hart whose arrival word has left the generation it knew. -/
def execAwaitWake (s : State) : Out :=
  match s.selectLive s.input.who with
  | none => .next s
  | some t => match t.h.vq with
    | some p => match p.instr, p.xs with
      | .await o, [g, ofs] => .next (t.awaitEnd p o g ofs false)
      | _, _ => .next t
    | none => .next t

/-! ## Named barriers -/

/-- The last BINIT of a cycle in slot order: count and launch (R275). -/
def lastInit (acts : List BarAct) : Option (Nat × Nat × Option Nat) :=
  acts.foldl (fun m a => match a, m with
    | .init slot n l, some b => if slot < b.1 then some b else some (slot, n, l)
    | .init slot n l, none => some (slot, n, l)
    | _, m => m) none

/-- A barrier with the actions of the cycle in progress applied: the last BINIT in slot order, the drops, the arrivals (R275). -/
def Barrier.now (b : Barrier) : Barrier :=
  let i := match lastInit b.acts with
    | some (_, n, l) => { b with exp := n, arr := 0, holder := l }
    | none => b
  { i with
    exp := i.exp - b.acts.countP (fun a => match a with | .drop _ => true | _ => false),
    arr := i.arr + b.acts.countP (fun a => match a with | .arrive _ => true | _ => false) }

/-- A barrier at the end of a cycle: its actions applied, and one test for completion (R275). -/
def Barrier.settled (b : Barrier) : Barrier :=
  let n := b.now
  if b.acts = [] then b
  else if 1 ≤ n.exp ∧ n.exp ≤ n.arr then { n with ph := n.ph + 1, arr := 0, acts := [] }
  else if n.exp = 0 ∧ b.acts.any fun a => match a with | .drop _ => true | _ => false then
    { n with ph := n.ph + 1, arr := 0, holder := none, acts := [] }
  else { n with acts := [] }

/-- Barrier n of the core of the hart that issues (R273). -/
def State.barrier (s : State) (n : Nat) : Barrier := Sparse.get {} s.core.bars n

/-- An action on a barrier in the cycle in progress (R275). -/
def State.barrierAct (s : State) (n : Nat) (a : BarAct) : State :=
  s.updCore s.h.coreKey fun c => { c with bars := Sparse.upd {} c.bars n fun b => { b with acts := b.acts ++ [a] } }

/-- BARRIER (R421). -/
def barrierCause (sub n : Nat) : Cause := { code := 0x50, sub := sub, index := n }

/-- The conditions on a barrier's holder (R421), as the actions of the cycle so far leave it. -/
def State.holderCauses (s : State) (n : Nat) : List Cause :=
  match (s.barrier n).now.holder with
  | none => [barrierCause 0x02 n]
  | some l => when_ (s.h.launch != some l) (barrierCause 0x01 n)

/-- A strip of a launch without GANG is bound to its core (R273). -/
def State.bind (s : State) : State := if s.isGang s.h then s else { s with h := { s.h with bound := true } }

/-- The place at which the record of races keeps a barrier's phases: no address of memory. -/
def barrierKey (core n : Nat) : Nat := 2 ^ 60 + core * 64 + n

/-- The event of an arrival at a barrier, or of the return of a BWAIT (R328). -/
def State.barrierEv (s : State) (n : Nat) (arrive : Bool) : Ev :=
  let k := barrierKey s.h.coreKey n
  { agent := s.h.agent, place := s.h.coreKey, rd := true, wr := arrive, atomic := true, lo := k, hi := k + 1, rel := arrive,
    acq := !arrive, vqWait := arrive, scope := 1, advance := some false, po := s.h.po }

/-- The newest arrival in the record of races has completed its phase (R328). -/
def completeArrival (k : Nat) : List Ev → List Ev
  | [] => []
  | e :: es => if e.lo = k ∧ e.wr ∧ e.hi = k + 1 then { e with advance := some true } :: es else e :: completeArrival k es

/-- A core's barriers at the end of a cycle (R275). -/
def State.settleCore (s : State) (c : Nat) : State :=
  (s.coreAt c).bars.foldl (fun t b =>
    if b.2.acts = [] then t
    else
      let n := b.2.settled
      let t := t.updCore c fun x => { x with bars := Sparse.set {} x.bars b.1 n }
      if n.ph = b.2.ph then t else { t with trace := completeArrival (barrierKey c b.1) t.trace }) s

/-- The end of a cycle: every barrier applies the actions made in it (R275). -/
def State.closeCycle (s : State) : State :=
  (s.cores.filter fun c => c.2.bars.any fun b => b.2.acts != []).foldl (fun t c => t.settleCore c.1) s

/-- BINIT (R274, R275, R421). -/
def execBinit (o : FI) (s : State) : Out :=
  let n := o.a.toNat
  let count := if o.f = 0 then (s.x o.d).toNat else o.imm.toNat
  let cs := when_ (decide (2 ≤ o.f.toNat) || (o.f = 1 && o.d != 0) || (o.f = 0 && o.imm != 0)) (operand 0x01)
    ++ when_ (count = 0 || decide (8 < count)) { operand 0x02 with index := n }
    ++ when_ (match (s.barrier n).now.holder with | some l => s.h.launch != some l | none => false) (barrierCause 0x01 n)
  orTrap s cs (.next ((s.barrierAct n (.init s.h.slot count s.h.launch)).bind.advance 8))

/-- An arrival or a drop: x[D] := PH, and the action of the cycle (R274, R275). -/
def arrival (o : FI) (s : State) (extra : List Cause) (a : BarAct) : Out :=
  let n := o.a.toNat
  orTrap s (when_ (o.f != 0 || o.imm != 0) (operand 0x01) ++ s.holderCauses n ++ extra)
    (.next ((((s.record (s.barrierEv n true)).barrierAct n a).bind.setX o.d ((s.barrier n).ph.zeroExtend 64)).advance 8))

/-- BARV (R274, R275). -/
def execBarv (o : FI) (s : State) : Out := arrival o s [] (.arrive s.h.slot)

/-- BDROP (R274, R275, R421). -/
def execBdrop (o : FI) (s : State) : Out :=
  arrival o s (when_ ((s.barrier o.a.toNat).now.exp = 0) (barrierCause 0x03 o.a.toNat)) (.drop s.h.slot)

/-- BWAIT (R274): the phase where it has changed, or the wait. -/
def execBwait (o : FI) (s : State) : Out :=
  let n := o.a.toNat
  let ph := (s.barrier n).ph.zeroExtend 64
  orTrap s (when_ (o.f != 0) (operand 0x01) ++ s.holderCauses n)
    (if ph = s.x o.d then .next (s.bind.startWait (.bwait o))
    else .next (((s.record (s.barrierEv n false)).bind.setX o.d ph).advance 8))

/-- A waiting BWAIT looks again: it ends where PH has left the phase known, an acquire, and at its timeout (R274). -/
def State.bwaitEnd (s : State) (o : FI) (timeout : Bool) : State :=
  let ph := (s.barrier o.a.toNat).ph.zeroExtend 64
  if ph ≠ s.x o.d then (s.record (s.barrierEv o.a.toNat false)).endWait o.d ph
  else if timeout then s.endWait o.d ph
  else s

/-- BWAIT_WAKE (R274): a hart whose barrier has left the phase it knew. -/
def execBwaitWake (s : State) : Out :=
  match s.selectLive s.input.who with
  | none => .next s
  | some t => match t.h.wait with
    | some (.bwait o) => .next (t.bwaitEnd o false)
    | _ => .next t

/-! ## Sorrel registers -/

/-- The address of an FX word with a base and an immediate (R277, R279). -/
def State.fxAddr (s : State) (o : FX) : Nat := (s.x o.a + o.imm.signExtend 64).toNat

/-- A Sorrel register reached through a translation (R276, R277, R418, R422): the causes, or its number and the state. -/
def State.sorrelAt (s : State) (wr : Bool) (va : Nat) : Except (List Cause) (Nat × State) :=
  let acc : Acc := { rd := true, wr := wr, scope := 4 }
  let al := when_ (decide (va % 8 ≠ 0)) (accCause acc false va 0x22 3 0)
  match translate s s.h.sys.vmroot s.h.plv acc va with
  | .error (c, sub, done) => .error (accCause acc false va c sub done :: al)
  | .ok t => match homeOf t.pa with
    | .sorrel => if al = [] then .ok ((t.pa - sorrelBase) / 8, s.touch t wr) else .error al
    | _ => .error (al ++ [accCause acc false va 0x51 0x01 0])

/-- The event of a Sorrel operation (R278, R328). -/
def State.sorrelEv (s : State) (n : Nat) (wr : Bool) : Ev :=
  { agent := s.h.agent, place := s.h.coreKey, rd := true, wr := wr, atomic := true, lo := sorrelBase + 8 * n,
    hi := sorrelBase + 8 * n + 8, acq := true, rel := wr, vqWait := wr, scope := 4, po := s.h.po }

/-- The value of a Sorrel register (R276). -/
def State.sorrelValue (s : State) (n : Nat) : Word := Sparse.get 0 s.sorrel n

/-- A Sorrel operation: the register's new value from the old one; x[D] receives the old one (R277). -/
def sorrelOp (o : FX) (s : State) (fields : Bool) (wr : Bool) (g : Word → Word) : Out :=
  match when_ (fields || o.m != 0 || o.z != 0 || o.f != 0) (operand 0x01), s.sorrelAt wr (s.fxAddr o) with
  | [], .ok (n, t) =>
    let old := s.sorrelValue n
    let t := t.record (t.sorrelEv n wr)
    .next (({ t with sorrel := Sparse.set 0 t.sorrel n (g old) }.setX o.d old).advance 8)
  | cs, .ok _ => orTrap s cs (.next s)
  | cs, .error bad => orTrap s (cs ++ bad) (.next s)

/-- SYTAS (R277). -/
def execSytas (o : FX) (s : State) : Out :=
  sorrelOp o s (o.b != 0 || o.c != 0) true fun old => if old = 0 then 1 else old
/-- SYFAD (R277). -/
def execSyfad (o : FX) (s : State) : Out := sorrelOp o s (o.c != 0) true fun old => old + s.x o.b
/-- SYCAS (R277). -/
def execSycas (o : FX) (s : State) : Out := sorrelOp o s false true fun old => if old = s.x o.b then s.x o.c else old
/-- SYRD (R277). -/
def execSyrd (o : FX) (s : State) : Out := sorrelOp o s (o.b != 0 || o.c != 0) false fun old => old

/-- The conditions of SYWT and VWAIT (R277). -/
def waitCond (c : Nat) (a b : Word) : Bool :=
  match c with
  | 0 => a == b
  | 1 => a != b
  | 2 => decide (a.toNat < b.toNat)
  | 3 => decide (b.toNat ≤ a.toNat)
  | 4 => decide (a.toInt < b.toInt)
  | _ => decide (b.toInt ≤ a.toInt)

/-- One look of SYWT at its register: the causes, or the value seen and the state (R277, R278). -/
def State.sywtLook (s : State) (o : FX) : Except (List Cause) (Word × State) :=
  match when_ (o.m != 0 || o.z != 0 || decide (8 ≤ o.f.toNat)) (operand 0x01)
      ++ when_ (decide (6 ≤ o.f.toNat % 8)) (operand 0x02), s.sorrelAt false (s.fxAddr o) with
  | [], .ok (n, t) => .ok (s.sorrelValue n, t.record (t.sorrelEv n false))
  | cs, .ok _ => .error cs
  | cs, .error bad => .error (cs ++ bad)

/-- SYWT (R277): the value where the condition holds, or the wait. -/
def execSywt (o : FX) (s : State) : Out :=
  match s.sywtLook o with
  | .error cs => orTrap s cs (.next s)
  | .ok (v, t) =>
    if waitCond (o.f.toNat % 8) v (s.x o.b) then .next ((t.setX o.d v).advance 8) else .next (s.startWait (.sywt o))

/-- SYWT_WAKE (R277): a hart whose register meets its condition. -/
def execSywtWake (s : State) : Out :=
  match s.selectLive s.input.who with
  | none => .next s
  | some s => match s.h.wait with
    | some (.sywt o) => match s.sywtLook o with
      | .error _ => .next s
      | .ok (v, t) => if waitCond (o.f.toNat % 8) v (s.x o.b) then .next (t.endWait o.d v) else .next s
    | _ => .next s

/-! ## Memory atomics -/

/-- One indivisible read-modify-write of the bytes at an aligned address (R279): the old value and the state. Where nothing is
written, the access is a read (R331). -/
def hartAtomic (s : State) (acc : Acc) (addr n : Nat) (extra : List Cause) (g : Nat → Option Nat) :
    Except (Cause × State) (Nat × State) :=
  match resolveAccess s s.h s.h.plv acc false addr n with
  | .error cs => .error ((minCause (extra ++ cs)).getD { code := 0x20 }, s)
  | .ok rs => match minCause extra with
    | some c => .error (c, s)
    | none =>
      let old := ofBytes ((rs.map (s.load (s.keyOf s.h))).flatten)
      match g old with
      | some v => match performFaults s s.h acc (addr % 2 ^ 64) rs with
        | some f => .error f
        | none => .ok (old, writePieces s s.h acc rs (toBytes n v))
      | none => match performFaults s s.h { acc with wr := false } (addr % 2 ^ 64) rs with
        | some f => .error f
        | none => .ok (old, (readPieces s s.h { acc with wr := false } rs).2)

/-- ORD, SCOPE and SZ of a memory atomic (R279). -/
def amoOrd (o : FX) : Nat := bits o.f.toNat 5 2
/-- SCOPE of a memory atomic (R279). -/
def amoScope (o : FX) : Nat := bits o.f.toNat 2 3
/-- SZ of a memory atomic (R279). -/
def amoSz (o : FX) : Nat := bits o.f.toNat 0 2
/-- The access of a memory atomic (R279). -/
def amoAcc (o : FX) : Acc :=
  { rd := true, wr := true, atomic := true, amo := true, scope := amoScope o, acq := bit (amoOrd o) 0, rel := bit (amoOrd o) 1,
    vqWait := bit (amoOrd o) 1 }

/-- A memory atomic of R279: the bytes and the operand, with the new value that op gives from the old one. -/
def amoOp (o : FX) (s : State) (cas : Bool) (zext : Bool) (op : Nat → Nat → Nat → Option Nat) : Out :=
  let n := if amoSz o = 0 then 4 else 8
  let a := s.fxAddr o
  let acc := amoAcc o
  let cs := when_ (o.m != 0 || o.z != 0 || bits o.f.toNat 7 3 != 0 || (!cas && o.c != 0)) (operand 0x01)
    ++ when_ (decide (2 ≤ amoSz o) || decide (6 ≤ amoScope o)) (operand 0x02)
  match cs with
  | c :: cs => orTrap s (c :: cs) (.next s)
  | [] => match hartAtomic s acc a n (when_ (decide (a % n ≠ 0)) (accCause acc false a 0x22 (log2 n) 0))
      (fun old => op (8 * n) old (bits (s.x o.b).toNat 0 (8 * n))) with
    | .error e => trapOut e
    | .ok (old, t) =>
      .next ((t.setX o.d (word (if zext then old else wrap 64 (signed (8 * n) old)))).advance 8)

/-- AMOADD (R279). -/
def execAmoadd (o : FX) (s : State) : Out := amoOp o s false false (fun w old v => some ((old + v) % 2 ^ w))
/-- AMOMIN (R279). -/
def execAmomin (o : FX) (s : State) : Out := amoOp o s false false (fun w old v => some (if signed w v < signed w old then v else old))
/-- AMOMAX (R279). -/
def execAmomax (o : FX) (s : State) : Out := amoOp o s false false (fun w old v => some (if signed w old < signed w v then v else old))
/-- AMOMINZ (R279). -/
def execAmominz (o : FX) (s : State) : Out := amoOp o s false true (fun _ old v => some (if v < old then v else old))
/-- AMOMAXZ (R279). -/
def execAmomaxz (o : FX) (s : State) : Out := amoOp o s false true (fun _ old v => some (if old < v then v else old))
/-- AMOAND (R279). -/
def execAmoand (o : FX) (s : State) : Out := amoOp o s false false (fun _ old v => some (old &&& v))
/-- AMOOR (R279). -/
def execAmoor (o : FX) (s : State) : Out := amoOp o s false false (fun _ old v => some (old ||| v))
/-- AMOXOR (R279). -/
def execAmoxor (o : FX) (s : State) : Out := amoOp o s false false (fun _ old v => some (old ^^^ v))
/-- AMOSWP (R279). -/
def execAmoswp (o : FX) (s : State) : Out := amoOp o s false false (fun _ _ v => some v)
/-- AMOCAS (R279). -/
def execAmocas (o : FX) (s : State) : Out := amoOp o s true false (fun w old v => if old = v then some (bits (s.x o.c).toNat 0 w) else none)

/-- A register pair of AMOCASQ: the low half in the even register (R280). -/
def State.pair (s : State) (r : Field) : Nat := (s.x r).toNat + 2 ^ 64 * (s.x (r + 1)).toNat

/-- A field names no pair: odd, zero, or above 30 (R280, R282). -/
def badPair (r : Field) : Bool := r.toNat % 2 = 1 || r = 0 || decide (30 < r.toNat)

/-- AMOCASQ (R280). -/
def execAmocasq (o : FX) (s : State) : Out :=
  let a := s.fxAddr o
  let acc := amoAcc o
  let cs := when_ (o.m != 0 || o.z != 0 || bits o.f.toNat 7 3 != 0) (operand 0x01)
    ++ when_ (amoSz o ≠ 2 || decide (6 ≤ amoScope o)) (operand 0x02)
    ++ when_ (badPair o.d || badPair o.b || badPair o.c) (operand 0x03)
  match cs with
  | c :: cs => orTrap s (c :: cs) (.next s)
  | [] => match hartAtomic s acc a 16 (when_ (decide (a % 16 ≠ 0)) (accCause acc false a 0x22 4 0))
      (fun old => if old = s.pair o.b then some (s.pair o.c) else none) with
    | .error e => trapOut e
    | .ok (old, t) => .next (((t.setX o.d (word old)).setX (o.d + 1) (word (old / 2 ^ 64))).advance 8)

/-! ## Vector wait -/

/-- The size of a VWAIT element in bytes (R281). -/
def vwaitBytes (o : FX) : Nat := if bit o.f.toNat 3 then 8 else 4

/-- The access of VWAIT (R281). -/
def vwaitAcc (o : FX) (acq : Bool) : Acc :=
  { rd := true, cls := .vector, scope := bits o.f.toNat 4 3, acq := acq }

/-- The hart with the shape a pending instruction was issued under. -/
def Hart.shaped (h : Hart) (vl vrows : Nat) : Hart := { h with cfg := { h.cfg with vl := vl, vrows := vrows } }

/-- The element accesses of VWAIT: its active positions (R281). -/
def vwaitElts (o : FX) (h : Hart) (addrs active : Nat) : List Elt :=
  (h.positions.filter fun p => bit active (p.1 * h.cfg.vl + p.2)).map fun p =>
    ⟨p.1 * h.cfg.vl + p.2, h.elem .z64 addrs p.1 p.2, vwaitBytes o⟩

/-- One poll of the elements of VWAIT whose bits are set in which (R281): the satisfied set and the state. The read that satisfies
an element is its access, an acquire. -/
def vwaitPoll (o : FX) (s : State) (h : Hart) (comps which : Nat) : List (Elt × List PieceRef) → Nat →
    Except (Cause × State) (Nat × State)
  | [], sat => .ok (sat, s)
  | (e, ps) :: rest, sat =>
    if bit sat e.index || !bit which e.index then vwaitPoll o s h comps which rest sat
    else match lookPieces s h (vwaitAcc o false) (e.addr % 2 ^ 64) ps with
      | .error c => .error ({ c with index := e.index }, s)
      | .ok (bs, t) =>
        let w := 8 * vwaitBytes o
        let b := bits (h.elem .z64 comps (e.index / h.cfg.vl) (e.index % h.cfg.vl)) 0 w
        if waitCond (o.f.toNat % 8) (word (wrap 64 (signed w (ofBytes bs)))) (word (wrap 64 (signed w b))) then
          match performFaults s h (vwaitAcc o true) (e.addr % 2 ^ 64) ps with
          | some (c, t) => .error ({ c with index := e.index }, t)
          | none => vwaitPoll o (readPieces s h (vwaitAcc o true) ps).2 h comps which rest (setBit sat e.index true)
        else vwaitPoll o t h comps which rest sat

/-- The mask VWAIT leaves: the active elements that are not satisfied (R281). -/
def vwaitMask (o : FX) (h : Hart) (active sat : Nat) : MWrite :=
  ⟨o.d.toNat, h.positions.map fun p =>
    let i := p.1 * h.cfg.vl + p.2
    (p.1 * h.maskRow + p.2, bit active i && !bit sat i)⟩

/-- The active positions of VWAIT as a bit set by flat index (R109). -/
def vwaitActive (o : FX) (h : Hart) : Nat :=
  h.positions.foldl (fun a p => if (h.fxMask o).sel h p.1 p.2 then setBit a (p.1 * h.cfg.vl + p.2) true else a) 0

/-- The conditions on VWAIT (R281, R282). -/
def vwaitCauses (o : FX) (h : Hart) : List Cause :=
  when_ (o.z != 0 || o.imm != 0 || bits o.f.toNat 7 3 != 0) (operand 0x01)
    ++ when_ (decide (6 ≤ bits o.f.toNat 0 3) || decide (6 ≤ bits o.f.toNat 4 3)) (operand 0x02)
    ++ h.regCauses [] [o.a.toNat, o.b.toNat] ++ h.maskCauses [o.d.toNat] [] ++ h.maskInForce (h.fxMask o)
    ++ h.shapeCauses [.z64]

/-- A misaligned element of VWAIT (R418). -/
def vwaitAlign (o : FX) (e : Elt) : List Cause :=
  when_ (decide (e.addr % e.len ≠ 0)) (accCause (vwaitAcc o false) false e.addr 0x22 (log2 e.len) 0)

/-- VWAIT (R281): the mask where every active element is satisfied at the first look, or the wait. -/
def execVwait (o : FX) (s : State) : Out :=
  let h := s.h
  let active := vwaitActive o h
  let phase := phaseCauses s h (vwaitAcc o false) false (vwaitAlign o) (vwaitElts o h (h.img o.a.toNat) active)
  match h.besideData o.b.toNat (vwaitCauses o h) phase with
  | c :: cs => orTrap s (c :: cs) (.next s)
  | [] =>
    let addrs := h.img o.a.toNat
    let comps := h.img o.b.toNat
    if h.cfg.vl = 0 then .next (s.advance 8)
    else match resolveElts s h (vwaitAcc o false) false (vwaitAlign o) (vwaitElts o h addrs active) with
      | .error c => trapNow s c
      | .ok es => match vwaitPoll o s h comps (2 ^ (h.cfg.vl * h.cfg.vrows) - 1) es 0 with
        | .error e => trapOut e
        | .ok (sat, t) =>
          if sat = active then .next (({ t with h := t.h.putM (vwaitMask o h active sat) }).advance 8)
          else .next (t.hold (.vwait o) [s.x o.c] [addrs, comps] active sat)

/-- A waiting VWAIT looks again at the elements whose bits are set in which; it ends once all are satisfied (R281). -/
def State.vwaitLook (s : State) (p : Pending) (o : FX) (addrs comps which : Nat) : State :=
  let t := s.backTo p
  let h := t.h.shaped p.vl p.vrows
  match resolveElts t h (vwaitAcc o false) false (fun _ => []) (vwaitElts o h addrs p.mask) with
  | .error c => t.raise c false false
  | .ok es => match vwaitPoll o t h comps which es p.sat with
    | .error (c, t) => t.raise c false false
    | .ok (sat, t) =>
      let t := t.goOn s.h
      if sat = p.mask then { t with h := { t.h.putM (vwaitMask o h p.mask sat) with vq := none } }
      else { t with h := { t.h with vq := some { p with sat := sat } } }

/-- VWAIT_END (R281): the elements that the input's value names look again. -/
def execVwaitEnd (s : State) : Out :=
  match s.selectLive s.input.who with
  | none => .next s
  | some s => match s.h.vq with
    | some p => match p.instr, p.vs with
      | .vwait o, [addrs, comps] => .next (s.vwaitLook p o addrs comps s.input.value)
      | _, _ => .next s
    | none => .next s

/-! ## Timeouts -/

/-- The instruction that waits in the vector queue as its time passes: AWAIT returns, and VWAIT writes its mask (R272, R281). -/
def State.queueTimeout (s : State) (p : Pending) : State :=
  match p.instr, p.xs with
  | .await o, [g, ofs] => if o.imm = 0 then s else s.awaitEnd p o g ofs true
  | .vwait o, [n] =>
    if n = 0 then s
    else { s with h := { s.h.putM (vwaitMask o (s.h.shaped p.vl p.vrows) p.mask p.sat) with vq := none } }
  | _, _ => s

/-- WAIT_TIMEOUT (R165, R249, R272, R274, R277, R281; log entry 6): the time a wait names has passed. -/
def execWaitTimeout (s : State) : Out :=
  match s.selectLive s.input.who with
  | none => .next s
  | some s => match s.h.wait with
    | some (.wfi o) => if o.imm = 0 then .next s else .next (s.endWait o.d 1)
    | some (.chwait o) => if o.imm = 0 then .next s else .next (s.endWait o.d s.h.chwaitWord)
    | some (.bwait o) => if o.imm = 0 then .next s else .next (s.bwaitEnd o true)
    | some (.sywt o) =>
      if s.x o.c = 0 then .next s
      else match s.sywtLook o with
        | .error _ => .next s
        | .ok (v, t) => .next (t.endWait o.d v)
    | _ => match s.h.vq with
      | some p => .next (s.queueTimeout p)
      | none => .next s

end Sys2Proof.Machine
end

