-- ==== Sys2Proof/Machine/Merge.lean ====
section
/-!
DEFINITION. Yarrow: merge networks and sessions, their results, spilling, output and failure (R102 to R104, R283 to R306,
R448). A network's key is die * 4 + number.
-/
namespace Sys2Proof.Machine

/-! ## The control word (R286) -/

/-- MODE: 0 merge, 1 top-k. -/
def Session.mode (x : Session) : Nat := bits x.ctl 60 4
/-- NIN: the number of the last stream. -/
def Session.nin (x : Session) : Nat := bits x.ctl 56 4
/-- OP: the combine operator. -/
def Session.op (x : Session) : Nat := bits x.ctl 53 3
/-- VF: the value format. -/
def Session.fmt (x : Session) : Fmt := if bit x.ctl 51 then .s32 else .f32
/-- OUT: 0 pairs, 1 compressed rows, 2 pull. -/
def Session.out (x : Session) : Nat := bits x.ctl 49 2
/-- SCOPE of the session's memory effects. -/
def Session.scope (x : Session) : Nat := bits x.ctl 44 3
/-- The streams of the session as a set. -/
def Session.streams (x : Session) : Nat := 2 ^ (x.nin + 1) - 1
/-- The session as an agent (R322). -/
def Session.agent (x : Session) : Agent := .session x.launch x.strip x.id
/-- The core the session is placed on. -/
def Session.place (x : Session) : Nat := x.hart / 8

/-- A stream is open: it may take tokens, or accepted ones have not entered it (R297). -/
def Session.isOpen (x : Session) (st : Nat) : Bool :=
  decide (st ≤ x.nin) && (!bit x.ending st || x.feeds.any fun f => f.stream = st)

/-- OPEN: the open streams as a set (R301). -/
def Session.opens (x : Session) : Nat := (List.range 16).foldr (fun i n => ofBool (x.isOpen i) + 2 * n) 0

/-- Every stream is closed. -/
def Session.allClosed (x : Session) : Bool := x.opens = 0

/-- A fault has been found and is not yet carried out (R448). -/
def Session.failing (x : Session) : Bool := x.fault.isSome && !x.failed

/-- The session stands still: frozen, or about to fail. -/
def Session.stopped (x : Session) : Bool := x.frozen || x.failing

/-- The session with a fault found, unless one was found before. -/
def Session.fail (x : Session) (f : SesFault) : Session := if x.fault.isSome then x else { x with fault := some f }

/-- The session with a fault of its own that is no access (R448). -/
def Session.failOf (x : Session) (code sub addr : Nat) : Session :=
  x.fail { code := code, sub := sub, addr := addr, pc := x.pc, scope := x.scope }

/-- The session with a fault of its own access, in writing or reading, at a location word (R448): none is the memory CODE
where the slot holds no key (R396). -/
def Session.failAt (x : Session) (wr : Bool) (code : Nat) (sub : Option Nat) (w : Nat) : Session :=
  x.fail { code := if sub.isSome then code else 0x72, sub := sub.getD 0, addr := w, asp := 2, rd := !wr, wr := wr,
           pc := x.pc, scope := x.scope }

/-- The session with a fault of a feed's tokens at a location word (R448): rd says whether an access met it. -/
def Session.feedFail (x : Session) (f : Feed) (rd : Bool) (sub w : Nat) : Session :=
  x.fail { code := 0x41, sub := sub, index := f.stream, addr := w, asp := 2, rd := rd, pc := f.pc, scope := f.scope }

/-! ## Networks -/

/-- The session of the network with a key. -/
def State.sessionAt (s : State) (key : Nat) : Option Session := (Sparse.get {} s.nets key).sess

/-- The state with the session of a network replaced. -/
def State.setSession (s : State) (key : Nat) (x : Option Session) : State :=
  { s with nets := Sparse.upd {} s.nets key fun n => { n with sess := x } }

/-- The fault record of a session (R392, R402, R448). -/
def State.sessionRec (s : State) (x : Session) (f : SesFault) (frz : Bool) : FaultRec :=
  { code := f.code, sub := f.sub, frz := frz, master := 3, strip := x.strip, die := x.die, core := x.hart / 8 % 64,
    slot := x.hart % 8, recAddr := s.recOf (some x.launch), pc := f.pc, addr := f.addr % 2 ^ 64, asp := f.asp, wr := f.wr,
    rd := f.rd, scope := f.scope, index := f.index, done := x.inCount, time := (s.cycle x.die).toNat }

/-- A session as a step leaves it: it freezes where an access met a slot that holds no key (R378, R396). -/
def State.putSession (s : State) (key : Nat) (x : Session) : State :=
  match x.fault with
  | none => s.setSession key (some x)
  | some f =>
    if f.code ≠ 0x72 ∨ x.frozen then s.setSession key (some x)
    else
      let s := s.setSession key (some { x with frozen := true })
      let s := s.ringRecord (s.launchRing (some x.launch)) (s.sessionRec x f true)
      (s.faultLaunch x.launch).preemptLaunch x.launch (2 ^ 64)

/-- A session word (R284). -/
def sessionWord (seq net : Nat) : Nat := seq % 256 * 256 + net % 4

/-- The live session of the launch of the hart that issues that a word names, with its network's key: the reserved bits of the word
have no effect (R8, R284, R306). -/
def State.liveSession (s : State) (w : Word) : Option (Nat × Session) :=
  let key := s.h.die * 4 + w.toNat % 4
  let n := Sparse.get {} s.nets key
  match n.sess with
  | none => none
  | some x => if bits w.toNat 8 8 = n.seq % 256 ∧ some x.launch = s.h.launch then some (key, x) else none

/-- The strip of the hart that issues owns a session (R283). -/
def State.owns (s : State) (x : Session) : Bool :=
  some x.launch = s.h.launch && x.strip = s.h.stripId.toNat

/-- The lowest network of a die that serves no session (R283). -/
def State.freeNet (s : State) (die : Nat) : Option Nat :=
  (List.range 4).find? fun n => (s.sessionAt (die * 4 + n)).isNone

/-! ## Opening a session -/

/-- The content of a descriptor that R306 does not accept. -/
def descCauses (ws : List Nat) : List Cause :=
  let c := ws.getD 0 0
  when_ (decide (2 ≤ bits c 60 4) || decide (6 ≤ bits c 53 3) || bits c 49 2 == 3 || decide (6 ≤ bits c 44 3)
      || bits c 0 44 != 0 || (bits c 60 4 == 1 && bits c 49 2 == 1) || decide (32768 < bits (ws.getD 6 0) 0 32)
      || [1, 2, 3, 4].any fun i => bits (ws.getD i 0) 62 2 == 3) (content 0)

/-- The places of OUTC, OUTV, OUTR and SPILL, each checked over its full length where the session uses it (R285, R296). -/
def State.sessionPlaces (s : State) (ws : List Nat) : List (Except Cause Site) :=
  let w := fun i => ws.getD i 0
  let out := bits (w 0) 49 2
  let outmax := bits (w 7) 32 32
  let area := fun (i : Nat) (used : Bool) (n : Nat) (rd : Bool) =>
    let tag := bits (w 5) (64 - 16 * i) 16
    if used then s.location 0 (w i) tag { bytes := n, wr := true, rd := rd, scope := bits (w 0) 44 3 }
    else if bits (w i) 62 2 = 0 then .ok {}
    else s.location 0 (w i) tag { bytes := 0, wr := true, scope := bits (w 0) 44 3 }
  [ area 1 (out != 2) ((if out = 0 then 8 else 5) * outmax) false, area 2 (out != 2) (4 * outmax) false,
    area 3 (out == 1) (4 * bits (w 6) 32 32) false, area 4 (bits (w 7) 0 32 != 0) (4096 * bits (w 7) 0 32) true ]

/-- The spill area lies at a multiple of 64 (R285), as far as its address can be told, whether or not all of it may be accessed
(R406). -/
def State.spillCauses (s : State) (ws : List Nat) : List Cause :=
  match s.resolved (ws.getD 4 0) (bits (ws.getD 5 0) 0 16) with
  | some (a, _) => when_ (bits (ws.getD 7 0) 0 32 != 0 && a % 64 != 0) (content 0)
  | none => []

/-- A session of the hart that issues opened on a network of its die, and its word in x[d]; or the causes found (R296). -/
def State.openSession (s : State) (d : Field) (ws : List Nat) (net : Nat) : Except (List Cause) State :=
  let ps := s.sessionPlaces ws
  let cs := (ps.map errs).flatten ++ s.spillCauses ws
  if cs ≠ [] then .error cs
  else
    let p := fun i => placeOf (ps.getD i (.ok {}))
    let key := s.h.die * 4 + net
    let (id, s) := s.fresh
    let seq := ((Sparse.get {} s.nets key).seq + 1) % 256
    let x : Session :=
      { id := id, die := s.h.die, net := net, launch := s.h.launch.getD 0, strip := s.h.stripId.toNat, hart := s.h.key,
        pc := s.h.pc.toNat, ctl := ws.getD 0 0, outc := (p 0).loc, outv := (p 1).loc, outr := (p 2).loc, spill := (p 3).loc,
        locs := [ws.getD 1 0, ws.getD 2 0, ws.getD 3 0, ws.getD 4 0], nrows := bits (ws.getD 6 0) 32 32,
        kmax := bits (ws.getD 6 0) 0 32, outmax := bits (ws.getD 7 0) 32 32, splen := bits (ws.getD 7 0) 0 32,
        tables := if (List.range 4).any fun i => (p i).handle then [htBase s.h.sys.htbase] else [],
        ranges := (List.range 4).map fun i => (p i).range }
    .ok (({ s with nets := Sparse.set {} s.nets key ⟨seq, some x⟩ }).setX d (word (sessionWord seq net)))

/-- MGCFG (R283, R296). A strip that owns a matrix unit with e2m1 or sparsity cannot be re-queued (R414). -/
def execMgcfg (o : FX) (s : State) : Out :=
  if !isBandwidth s.h.die then
    .next (s.stopLacking 2 (match s.unit with
      | some u => if u.afmt = 14 ∨ u.bfmt = 14 ∨ u.spar ≠ 0 then 2 else 0
      | none => 0))
  else
    let a := (s.x o.a).toNat
    let acc : Acc := { rd := true, cls := .vector }
    let cs := when_ (fxOther o true true false || o.m != 0 || o.z != 0 || o.f != 0 || o.imm != 0) (operand 0x01)
    if cs ≠ [] then orTrap s cs (.next s)
    else match hartRead s s.h s.h.plv acc false a 64 (when_ (decide (a % 64 ≠ 0)) (accCause acc false a 0x22 6 0)) with
      | .error e => trapOut e
      | .ok (bs, s1) =>
        let ws := (List.range 8).map (bytesWord bs)
        if descCauses ws ≠ [] then orTrap s1 (descCauses ws) (.next s1)
        else match s1.freeNet s1.h.die, Sparse.get [] s1.netWait s1.h.die with
          | some n, [] => match s1.openSession o.d ws n with
            | .ok t => .next (t.advance 8)
            | .error bad => orTrap s1 bad (.next s1)
          | _, wait =>
            .next (({ s1 with netWait := Sparse.set [] s1.netWait s1.h.die (wait ++ [s1.h.key]) }).hold (.mgcfg o) [s.x o.a]
              ws 0 0)

/-- MERGE_NETWORK_GRANT (R283): a free network of the die named goes to the MGCFG that has waited longest, of a hart that is not
frozen (R396). -/
def execMergeNetworkGrant (s : State) : Out :=
  let die := s.input.who
  let wait := Sparse.get [] s.netWait die
  match s.freeNet die, wait.find? fun k => (s.hartAt k).live with
  | some n, some k =>
    let t := ({ s with netWait := Sparse.set [] s.netWait die (wait.erase k) }).select k
    match t.h.vq with
    | some p => match p.instr with
      | .mgcfg o =>
        let u := t.backTo p
        match u.openSession o.d p.vs n with
        | .ok v => .next ((v.goOn t.h).select s.h.key)
        | .error bad => orTrap u bad (.next u)
      | _ => .next (t.select s.h.key)
    | none => .next (t.select s.h.key)
  | _, _ => .next s

/-! ## Feeding -/

/-- The conditions on a stream that a feed or a push of the hart that issues names (R287, R306). -/
def State.streamCauses (s : State) (x : Session) (st : Nat) : List Cause :=
  when_ (decide (x.nin < st)) (operand 0x07)
    ++ when_ (bit x.ending st || x.closing || (match Sparse.get none x.bound st with
      | some b => b != (s.h.launch.getD 0, s.h.stripId.toNat)
      | none => false)) (operand 0x06)

/-- The session with a stream bound to a strip for the rest of the session, unless it is bound already (R287). -/
def Session.bind (x : Session) (stream launch strip : Nat) : Session :=
  if (Sparse.get none x.bound stream).isSome then x
  else { x with bound := Sparse.set none x.bound stream (some (launch, strip)) }

/-- A feed or push of a strip may enter a stream: it is not closed, and not bound to another (R287, R303). -/
def Session.accepts (x : Session) (f : Feed) : Bool :=
  !x.closing && !bit x.ending f.stream && (Sparse.get none x.bound f.stream).all fun b => b == (f.launch, f.strip)

/-- The session with a feed or a push accepted: its stream is bound, and takes nothing after one that closes it; a session
that has failed discards it (R287, R297, R448). What may not enter is not accepted: a run's tokens behind MGCLOSE (R303, log
entry 53). -/
def Session.take (x : Session) (f : Feed) : Session :=
  if !x.accepts f then x
  else
    let x := x.bind f.stream f.launch f.strip
    { x with
      ending := if f.closes then setBit x.ending f.stream true else x.ending,
      feeds := if x.failed then x.feeds else x.feeds ++ [f] }

/-- The fields of MGFEED (R297). -/
def mgfeedFields (o : FX) : List Cause :=
  when_ (o.m != 0 || o.z != 0 || o.imm != 0 || bit o.f.toNat 9) (operand 0x01)
    ++ when_ (decide (6 ≤ bits o.f.toNat 6 3)) (operand 0x02)

/-- The conditions on a tensor entry that a feed reads in some formats (R297, R306, R419). -/
def feedTensor (id : Nat) (t : Tensor) (f : Fmt) : List Cause :=
  when_ (t.rank != 1 || t.layout != 0 || t.space == 0) (content 0) ++ when_ (t.fmt != f.code) (operand 0x04)
    ++ tensorCauses id t

/-- The location word of a byte from the start of a tensor (R264). -/
def tensorLoc (k ofs : Nat) : Nat := 2 ^ 63 + k * 2 ^ 46 + ofs

/-- The feed that MGFEED of the hart that issues would add, with whether it reads a handle table, or the causes found. -/
def State.buildFeed (s : State) (o : FX) (x : Session) (xd : Word) : Except (List Cause) (Feed × Bool) :=
  let cr := bit o.f.toNat 5
  let kb := s.h.tensor o.b.toNat
  let kc := s.h.tensor o.c.toNat
  let kd := s.h.tensor o.d.toNat
  let f := bits xd.toNat 0 32
  let n := bits xd.toNat 32 32
  let ts := feedTensor o.b.toNat kb (if cr then .z8 else .z64) ++ feedTensor o.c.toNat kc x.fmt
    ++ (if cr then feedTensor o.d.toNat kd .z32
        else when_ (decide (kb.dim 0 < f + n) || decide (kc.dim 0 < f + n)) (operand 0x07))
  if ts ≠ [] then .error ts
  else
    let at_ := fun (k : Field) (t : Tensor) (ofs len : Nat) =>
      s.spacePlace 0 (tensorLoc k.toNat ofs) t.space t.base ofs { bytes := len, rd := true, scope := bits o.f.toNat 6 3 }
    let ps := if cr then [at_ o.b kb 0 (kb.dim 0), at_ o.c kc 0 (4 * kc.dim 0), at_ o.d kd 0 (4 * kd.dim 0)]
      else [at_ o.b kb (8 * f) (8 * n), at_ o.c kc (4 * f) (4 * n)]
    let cs := (ps.map errs).flatten
    if cs ≠ [] then .error cs
    else
      let p := fun i => placeOf (ps.getD i (.ok {}))
      .ok ({ stream := bits o.f.toNat 0 4, launch := s.h.launch.getD 0, strip := s.h.stripId.toNat, id := some 0, cr := cr,
             pc := s.h.pc.toNat,
             scope := bits o.f.toNat 6 3, closes := bit o.f.toNat 4, f := f, n := n,
             wb := tensorLoc o.b.toNat (if cr then 0 else 8 * f), wc := tensorLoc o.c.toNat (if cr then 0 else 4 * f),
             wd := tensorLoc o.d.toNat 0, nb := kb.dim 0, nc := kc.dim 0, nd := kd.dim 0,
             lb := (p 0).loc, lc := (p 1).loc, ld := (p 2).loc, ranges := ps.map fun q => (placeOf q).range,
             finished := if cr then kd.dim 0 = 0 else n = 0 }, (List.range 3).any fun i => (p i).handle)

/-- Feeds accepted and not finished (R301). -/
def Session.pend (x : Session) : Nat := (x.feeds.filter fun f => f.id.isSome && !f.finished).length

/-- MGFEED with its operand values: what its acceptance leaves, once the feed queue has room (R297). -/
def mgfeedWith (o : FX) (a d : Word) (s : State) (room : State → Out) (full : Out) : Out :=
  let cs := mgfeedFields o
  match cs, s.liveSession a with
  | _ :: _, _ => orTrap s cs (.next s)
  | [], none => orTrap s [operand 0x06] (.next s)
  | [], some (key, x) =>
    match s.streamCauses x (bits o.f.toNat 0 4), s.buildFeed o x d with
    | bad, .error es => orTrap s (bad ++ es) (.next s)
    | bad@(_ :: _), .ok _ => orTrap s bad (.next s)
    | [], .ok (f, handle) =>
      if x.frozen then .next s
      else if 32 ≤ x.pend then full
      else
        let (id, s) := s.fresh
        let x := { x with tables := if handle then htBase s.h.sys.htbase :: x.tables else x.tables }
        let s := s.recordAfter
          { agent := s.h.agent, place := s.h.coreKey, rel := true, scope := f.scope, po := s.h.po }
          { agent := x.agent, place := x.place, acq := true, scope := f.scope }
        room (s.setSession key (some (x.take { f with id := some id })))

/-- MGFEED (R297). -/
def execMgfeed (o : FX) (s : State) : Out :=
  if !isBandwidth s.h.die then .next (s.stopLacking 2 0)
  else mgfeedWith o (s.x o.a) (s.x o.d) s (fun t => .next (t.advance 8))
    (.next (s.hold (.mgfeed o) [s.x o.a, s.x o.d] [] 0 0))

/-- MGFEED_ACCEPT (R297): the feed that the hart named waits with is accepted once the feed queue has room. -/
def execMgfeedAccept (s : State) : Out :=
  match s.selectLive s.input.who with
  | none => .next s
  | some t => match t.h.vq with
    | some p => match p.instr, p.xs with
      | .mgfeed o, [a, d] => mgfeedWith o a d (t.backTo p) (fun u => .next ((u.goOn t.h).select s.h.key)) (.next s)
      | _, _ => .next s
    | none => .next s

/-- The conditions of MGPUSH and MGPULL on their registers and shape (R178, R306). -/
def State.portCauses (s : State) (o : FX) (dsts srcs : List Nat) : List Cause :=
  s.h.regCauses dsts srcs ++ s.h.maskInForce (s.h.fxMask o) ++ s.h.shapeCauses [.z64]

/-- The tokens of the active positions of MGPUSH (R298). -/
def pushTokens (o : FX) (h : Hart) : List (Nat × Nat) :=
  let m := h.fxMask o
  (h.positions.filter fun p => m.sel h p.1 p.2).map fun p =>
    (h.elem .z64 (h.img o.b.toNat) p.1 p.2, h.elem .f32 (h.img o.c.toNat) p.1 p.2)

/-- The item that a push of tokens by the hart that issues adds to a stream (R298). -/
def State.pushItem (s : State) (st : Nat) (closes : Bool) (ts : List (Nat × Nat)) : Feed :=
  { stream := st, launch := s.h.launch.getD 0, strip := s.h.stripId.toNat, closes := closes, finished := true, staged := ts,
    pc := s.h.pc.toNat }

/-- MGPUSH outside a chain body (R298). -/
def execMgpush (o : FX) (s : State) : Out :=
  if !isBandwidth s.h.die then .next (s.stopLacking 2 0)
  else
    let st := bits o.f.toNat 0 4
    let cs := when_ (o.d != 0 || o.imm != 0 || decide (32 ≤ o.f.toNat)) (operand 0x01)
      ++ s.portCauses o [] [o.b.toNat, o.c.toNat]
    match s.liveSession (s.x o.a) with
    | none => orTrap s (cs ++ [operand 0x06]) (.next s)
    | some (key, x) => orTrap s (cs ++ s.streamCauses x st)
      (if x.frozen then .next s
      else .next ((s.setSession key (some (x.take (s.pushItem st (bit o.f.toNat 4) (pushTokens o s.h))))).advance 8))

/-! ## Reading a feed -/

/-- A location some bytes on. -/
def Loc.plus (l : Loc) (n : Nat) : Loc := { l with pa := l.pa + n }

/-- The bytes of the DR8 code that begins with a byte (R102). -/
def dr8Len (b : Nat) : Nat := match bits b 6 2 with | 2 => 2 | 3 => 5 | _ => 1

/-- A DR8 code (R102) after which the next index is prev or more: the index it gives first and how many more follow it;
none where it is malformed. -/
def dr8Code (prev : Nat) (bs : List Byte) : Option (Nat × Nat) :=
  let b := (bs.headD 0).toNat
  match bits b 6 2 with
  | 0 => some (prev + bits b 0 6, 0)
  | 1 => some (prev, bits b 0 6 + 1)
  | 2 => some (prev + bits b 0 6 * 256 + (bs.getD 1 0).toNat, 0)
  | _ =>
    let g := bits b 0 1 * 2 ^ 32 + ofBytes (bs.drop 1)
    if bits b 1 5 ≠ 0 ∨ g = 0 then none else some (prev + g - 1, 0)

/-- A source of a feed, 0 kB, 1 kC and 2 kD: where it begins, its location word there and its bytes. -/
def Feed.source (f : Feed) (src : Nat) : Loc × Nat × Nat :=
  match src with
  | 0 => (f.lb, f.wb, if f.cr then f.nb else 8 * f.n)
  | 1 => (f.lc, f.wc, 4 * (if f.cr then f.nc else f.n))
  | _ => (f.ld, f.wd, 4 * f.nd)

/-- A byte of a source of a feed: each granule of the source is read once, as one piece (R297, R324); or the session with its
fault (R448). -/
def State.feedByte (s : State) (x : Session) (f : Feed) (src ofs : Nat) : Except (State × Session) (Byte × Feed × State) :=
  let (l, w, len) := f.source src
  let pa := l.pa + ofs
  match f.grans.find? fun g => g.1 = src && decide (g.2.1 ≤ pa) && decide (pa < g.2.1 + g.2.2.length) with
  | some g => .ok (g.2.2.getD (pa - g.2.1) 0, f, s)
  | none =>
    let lo := max l.pa (pa / 16 * 16)
    let n := min (l.pa + len) (pa / 16 * 16 + 16) - lo
    match s.deviceFault x.agent x.place s.windowChecked false l.key lo n with
    | some (none, t) =>
      .error (t, x.fail { code := 0x72, sub := 0, addr := w + ofs, asp := 2, rd := true, pc := f.pc, scope := f.scope })
    | some (some sub, t) => .error (t, x.feedFail f true sub (w + ofs))
    | none =>
      let bs := s.readBytes l.key lo n
      .ok (bs.getD (pa - lo) 0, { f with grans := (src, lo, bs) :: f.grans.filter fun g => g.1 != src },
        s.recordDevice x.agent x.place s.windowChecked false lo n)

/-- Some bytes of a source of a feed. -/
def State.feedBytes (s : State) (x : Session) (f : Feed) (src ofs : Nat) :
    Nat → Except (State × Session) (List Byte × Feed × State)
  | 0 => .ok ([], f, s)
  | n + 1 => match s.feedByte x f src ofs with
    | .error e => .error e
    | .ok (b, f, s) => match s.feedBytes x f src (ofs + 1) n with
      | .error e => .error e
      | .ok (bs, f, s) => .ok (b :: bs, f, s)

/-- The value of the next token of a compressed feed in column c, once the feed stands past its code (R297). -/
def State.feedValue (s : State) (x : Session) (f : Feed) (left c : Nat) : Except (State × Session) (Feed × State) :=
  if 2 ^ 32 ≤ c then .error (s, x.feedFail f false 0x02 (f.wb + f.byte - 1))
  else if f.nc ≤ f.pos then .error (s, x.feedFail f false 0x03 (f.wd + 4 * f.row))
  else match s.feedBytes x f 1 (4 * f.pos) 4 with
    | .error e => .error e
    | .ok (v, f, s) =>
      let f := { f with staged := f.staged ++ [(f.row * 2 ^ 32 + c, ofBytes v)], pos := f.pos + 1, prev := c + 1 }
      .ok (if left = 0 then { f with row := f.row + 1, left := none, run := 0, finished := f.row + 1 = f.nd }
        else { f with left := some left }, s)

/-- The next token of a feed is read: the feed with what it read, or the session with its fault (R297, R448). -/
def State.feedRead (s : State) (x : Session) (f : Feed) : Except (State × Session) (Feed × State) :=
  if !f.cr then
    match s.feedBytes x f 0 (8 * f.pos) 8 with
    | .error e => .error e
    | .ok (c, f, s) => match s.feedBytes x f 1 (4 * f.pos) 4 with
      | .error e => .error e
      | .ok (v, f, s) =>
        .ok ({ f with staged := f.staged ++ [(ofBytes c, ofBytes v)], pos := f.pos + 1, finished := f.pos + 1 = f.n }, s)
  else match f.left with
    | none => match s.feedBytes x f 2 (4 * f.row) 4 with
      | .error e => .error e
      | .ok (n, f, s) =>
        .ok (if ofBytes n = 0 then { f with row := f.row + 1, finished := f.row + 1 = f.nd }
          else { f with left := some (ofBytes n), prev := 0, run := 0 }, s)
    | some left =>
      if 0 < f.run then s.feedValue x { f with run := f.run - 1 } (left - 1) f.prev
      else if f.nb ≤ f.byte then .error (s, x.feedFail f false 0x03 (f.wd + 4 * f.row))
      else match s.feedBytes x f 0 f.byte 1 with
        | .error e => .error e
        | .ok (b, f, s) =>
          let n := dr8Len (b.headD 0).toNat
          if f.nb < f.byte + n then .error (s, x.feedFail f false 0x03 (f.wd + 4 * f.row))
          else match s.feedBytes x f 0 f.byte n with
            | .error e => .error e
            | .ok (bs, f, s) => match dr8Code f.prev bs with
              | none => .error (s, x.feedFail f false 0x02 (f.wb + f.byte))
              | some (c, run) =>
                if 2 ^ 32 ≤ c then .error (s, x.feedFail f false 0x02 (f.wb + f.byte))
                else s.feedValue x { f with byte := f.byte + n, run := run } (left - 1) c

/-- The place among the items of a stream at which its first unfinished feed stands. -/
def Session.nextFeed (x : Session) (st : Nat) : Option Nat := x.feeds.findIdx? fun f => f.stream = st && !f.finished

/-- MERGE_FEED_READ (R297): the next read of the oldest unfinished feed of the stream named returns. -/
def execMergeFeedRead (s : State) : Out :=
  let key := s.input.who
  match s.sessionAt key with
  | none => .next s
  | some x =>
    if x.stopped then .next s
    else match x.nextFeed s.input.which with
      | none => .next s
      | some i => match x.feeds[i]? with
        | none => .next s
        | some f => match s.feedRead x f with
          | .error (t, y) => .next (t.putSession key y)
          | .ok (g, t) => .next ((t.setSession key (some { x with feeds := x.feeds.set i g })).settleAll)

/-! ## Combining -/

/-- A token in its place by coordinate, then stream, after those equal to it (R288, R293). -/
def MTok.insert (t : MTok) : List MTok → List MTok
  | [] => [t]
  | u :: us => if t.c < u.c ∨ (t.c = u.c ∧ t.s < u.s) then t :: u :: us else u :: t.insert us

/-- Tokens in the order of R288, equal ones in the order given. -/
def sortTokens (ts : List MTok) : List MTok := ts.foldl (fun l t => t.insert l) []

/-- Sorted tokens by coordinate: each coordinate with its values in order. -/
def groupTokens : List MTok → List (Nat × List Nat)
  | [] => []
  | t :: ts => match groupTokens ts with
    | (c, vs) :: r => if c = t.c then (c, t.v :: vs) :: r else (t.c, [t.v]) :: (c, vs) :: r
    | [] => [(t.c, [t.v])]

/-- One combine step (R289, R290). -/
def Session.comb (x : Session) (r v : Nat) : Nat × Flags :=
  match x.op, x.fmt with
  | 0, .s32 => ((r + v) % 2 ^ 32, 0#6)
  | 0, _ => (opVadd .f32).eval .rne 0 r v 0
  | 1, .s32 => (if signed 32 r < signed 32 v then v else r, 0#6)
  | 1, _ => (opVmax .f32).eval .rne 0 r v 0
  | 2, .s32 => (if signed 32 v < signed 32 r then v else r, 0#6)
  | 2, _ => (opVmin .f32).eval .rne 0 r v 0
  | 4, _ => (v, 0#6)
  | _, _ => (r, 0#6)

/-- The result of a coordinate's values in order, with the flags its steps raise (R288, R290). -/
def Session.combine (x : Session) (vs : List Nat) : Nat × Flags :=
  match vs with
  | [] => (0, 0#6)
  | v :: rest =>
    let r := rest.foldl (fun a v => let c := x.comb a.1 v; (c.1, a.2 ||| c.2)) (v, 0#6)
    if x.op = 5 then (min vs.length (2 ^ 32 - 1), 0#6) else r

/-- A result is zero (R289). -/
def Session.isZero (x : Session) (r : Nat) : Bool :=
  x.op != 5 && (if x.fmt = .s32 then r == 0 else r % 2 ^ 31 == 0)

/-- A result that is a NaN. -/
def Session.nan (x : Session) (r : Nat) : Bool := x.op != 5 && x.fmt == .f32 && isNaN .f32 r

/-- The key of a result is larger than that of another, neither a NaN (R292). -/
def Session.larger (x : Session) (a b : Nat) : Bool :=
  if x.op = 5 then decide (b < a)
  else match x.fmt, bit x.ctl 48 with
    | .s32, false => decide (signed 32 b < signed 32 a)
    | .s32, true => decide ((signed 32 b).natAbs < (signed 32 a).natAbs)
    | _, false => below .f32 b a
    | _, true => decide (b % 2 ^ 31 < a % 2 ^ 31)

/-- A result stands before another in top-k order (R292). -/
def Session.before (x : Session) (a b : Nat × Nat) : Bool :=
  match x.nan a.2, x.nan b.2 with
  | true, false => true
  | false, true => false
  | true, true => decide (a.1 < b.1)
  | false, false => x.larger a.2 b.2 || (!x.larger b.2 a.2 && decide (a.1 < b.1))

/-- A result in its place in the selection. -/
def Session.rank (x : Session) (r : Nat × Nat) : List (Nat × Nat) → List (Nat × Nat)
  | [] => [r]
  | u :: us => if x.before r u then r :: u :: us else u :: x.rank r us

/-- A result offered to the selection, which keeps K entries (R292, R293). -/
def Session.offer (x : Session) (r : Nat × Nat) : Session :=
  if x.nan r.2 && bit x.ctl 47 then { x with nans := x.nans + 1 } else { x with sel := (x.rank r x.sel).take x.kmax }

/-! ## Output -/

/-- The pieces of a write of a session to a location, in order up to the first that faults (R324, R448). -/
def Session.writePieces (x : Session) (code : Nat) (l : Loc) (w : Nat) (bs : List Byte) :
    List (Nat × Nat) → State → State × Session
  | [], s => (s, x)
  | (pa, n) :: ps, s => match s.deviceFault x.agent x.place s.windowChecked true l.key pa n with
    | some (sub, t) => (t, x.failAt true code sub (w + (pa - l.pa)))
    | none =>
      x.writePieces code l w bs ps
        ((s.recordDevice x.agent x.place s.windowChecked true pa n).store l.key pa ((bs.drop (pa - l.pa)).take n))

/-- A write of a session (R291, R294): the session with its fault where it meets one (R448). -/
def Session.write (x : Session) (s : State) (code : Nat) (l : Loc) (w : Nat) (bs : List Byte) : State × Session :=
  x.writePieces code l w bs (piecesOf l.pa bs.length) s

/-- Where an output area begins, with its location word: 0 OUTC, 1 OUTV, 2 OUTR. -/
def Session.areaAt (x : Session) (i : Nat) : Loc × Nat :=
  ((match i with | 0 => x.outc | 1 => x.outv | _ => x.outr), x.locs.getD i 0)

/-- What has been written of an output area and what waits. -/
def Session.area (x : Session) (i : Nat) : OutArea := x.areas.getD i {}

/-- The end of what has been emitted into an output area. -/
def Session.areaEnd (x : Session) (i : Nat) : Nat := (x.area i).done + (x.area i).pend.length

/-- The ends in OUTC and OUTV that a token needs are written. -/
def Session.reached (x : Session) (c v : Nat) : Bool := decide (c ≤ (x.area 0).done) && decide (v ≤ (x.area 1).done)

/-- The tokens that have been written whole are counted (R301). -/
def Session.countOut (x : Session) : Session :=
  let n := (x.marks.takeWhile fun m => x.reached m.1 m.2).length
  { x with marks := x.marks.drop n, outCount := x.outCount + n }

/-- The granules of an output area that are full are written, each as one piece, and with all what remains of the last
(R291, R324). -/
def Session.flushArea (all : Bool) (i : Nat) : Nat → State × Session → State × Session
  | 0, st => st
  | fuel + 1, (s, x) =>
    let a := x.area i
    let l := (x.areaAt i).1.plus a.done
    let room := 16 - l.pa % 16
    if a.bad || a.pend.isEmpty || (!all && decide (a.pend.length < room)) then (s, x)
    else
      let bs := a.pend.take room
      match s.deviceFault x.agent x.place s.windowChecked true l.key l.pa bs.length with
      | some (sub, t) =>
        (t, { x with areas := x.areas.set i { a with bad := true } }.failAt true 0x42 sub ((x.areaAt i).2 + a.done))
      | none =>
        Session.flushArea all i fuel ((s.recordDevice x.agent x.place s.windowChecked true l.pa bs.length).store l.key l.pa bs,
          { x with areas := x.areas.set i { a with done := a.done + bs.length, pend := a.pend.drop room } }.countOut)

/-- Bytes emitted into an output area. -/
def Session.put (x : Session) (s : State) (i : Nat) (bs : List Byte) : State × Session :=
  let a := x.area i
  let pend := a.pend ++ bs
  Session.flushArea false i (pend.length + 1) (s, { x with areas := x.areas.set i { a with pend := pend } })

/-- The row counts whose tokens have all been written are emitted (R448). -/
def Session.putCounts (st : State × Session) : State × Session :=
  let x := st.2
  let go := x.rowq.takeWhile fun r => x.reached r.2.1 r.2.2
  Session.put { x with rowq := x.rowq.drop go.length } st.1 2 (go.map fun r => toBytes 4 r.1).flatten

/-- An output token in pairs mode (R291). -/
def Session.putPair (x : Session) (s : State) (t : Nat × Nat) : State × Session :=
  let n := x.outCount + x.marks.length
  if x.outmax ≤ n then (s, x.failOf 0x42 0x01 0)
  else
    let (s, x) := Session.put { x with marks := x.marks ++ [(8 * (n + 1), 4 * (n + 1))] } s 0 (toBytes 8 t.1)
    x.put s 1 (toBytes 4 t.2)

/-- How many of the indices follow one another from p. -/
def stretch (p : Nat) : List Nat → Nat
  | [] => 0
  | c :: cs => if c = p then stretch (p + 1) cs + 1 else 0

/-- The canonical DR8 codes of indices, the next possible one being p (R104): each with the number of indices it holds. -/
def dr8Codes : Nat → Nat → List Nat → List (List Byte × Nat)
  | 0, _, _ => []
  | _ + 1, _, [] => []
  | k + 1, p, c :: cs =>
    let n := min 65 (stretch p (c :: cs))
    let g := c - p
    if 2 ≤ n then ([BitVec.ofNat 8 (0x40 + (n - 2))], n) :: dr8Codes k (p + n) ((c :: cs).drop n)
    else if g < 64 then ([BitVec.ofNat 8 g], 1) :: dr8Codes k (c + 1) cs
    else if g < 16384 then ([BitVec.ofNat 8 (0x80 + g / 256), BitVec.ofNat 8 g], 1) :: dr8Codes k (c + 1) cs
    else (BitVec.ofNat 8 (0xC0 + (g + 1) / 2 ^ 32) :: toBytes 4 (g + 1), 1) :: dr8Codes k (c + 1) cs

/-- Where the code of each index ends, from an offset on. -/
def codeEnds (ofs : Nat) : List (List Byte × Nat) → List Nat
  | [] => []
  | c :: cs => List.replicate c.2 (ofs + c.1.length) ++ codeEnds (ofs + c.1.length) cs

/-- The columns and values of the row in progress are emitted (R291). -/
def Session.putRow (x : Session) (s : State) : State × Session :=
  let codes := dr8Codes x.ccols.length 0 (x.ccols.map (·.1))
  let v := x.areaEnd 1
  let ends := (codeEnds (x.areaEnd 0) codes).zipIdx.map fun p => (p.1, v + 4 * (p.2 + 1))
  let vals := (x.ccols.map fun t => toBytes 4 t.2).flatten
  let (s, x) := Session.put { x with marks := x.marks ++ ends, ccols := [] } s 0 (codes.map (·.1)).flatten
  x.put s 1 vals

/-- The row in progress is complete, and rows without a result follow it up to a row (R291). -/
def Session.endRow (x : Session) (s : State) (row : Nat) : State × Session :=
  let n := x.ccols.length
  let (s, x) := x.putRow s
  let need := (x.areaEnd 0, x.areaEnd 1)
  Session.putCounts (s, { x with
    crow := row, rowq := x.rowq ++ ((n :: List.replicate (row - x.crow - 1) 0).take (row - x.crow)).map fun k => (k, need) })

/-- A result in compressed mode (R291, R448). -/
def Session.putCell (x : Session) (s : State) (t : Nat × Nat) : State × Session :=
  let row := t.1 / 2 ^ 32
  let (s, x) := if x.crow < row then x.endRow s (min row x.nrows) else (s, x)
  if x.fault.isSome then (s, x)
  else if x.nrows ≤ row then (s, x.failOf 0x42 0x02 t.1)
  else if x.outmax ≤ x.outCount + x.marks.length + x.ccols.length then (s, x.failOf 0x42 0x01 0)
  else (s, { x with ccols := x.ccols ++ [(t.1 % 2 ^ 32, t.2)] })

/-- What has been emitted is written to its end: the row in progress, then what remains of each area (R291). -/
def Session.flush (st : State × Session) : State × Session :=
  let st := if st.2.ccols = [] then st else st.2.putRow st.1
  let all := fun (i : Nat) (st : State × Session) => Session.flushArea true i ((st.2.area i).pend.length + 1) st
  all 2 (Session.putCounts (all 1 (all 0 st)))

/-- An output token in the session's form (R291). -/
def Session.emit (st : State × Session) (t : Nat × Nat) : State × Session :=
  let x := st.2
  if x.fault.isSome then st
  else match x.out with
    | 0 => x.putPair st.1 t
    | 1 => x.putCell st.1 t
    | _ => (st.1, { x with outq := x.outq ++ [t] })

/-- The network is held back: a full output buffer of pull mode (R291); not once MGCLOSE combines what is left (R300). -/
def Session.full (x : Session) : Bool := x.out == 2 && !x.closing && decide (256 ≤ x.outq.length)

/-- A coordinate with all its values becomes a result, or is dropped (R288, R290, R292). -/
def Session.settle (st : State × Session) (g : Nat × List Nat) : State × Session :=
  let x := st.2
  if x.fault.isSome then st
  else
    let r := x.combine g.2
    let x : Session := { x with
      flags := x.flags ||| r.2,
      fcnt := Vector.ofFn fun i => x.fcnt[i] + ofBool (r.2.getLsbD i) }
    if x.mode = 1 then (st.1, x.offer (g.1, r.1))
    else if x.isZero r.1 && !bit x.ctl 52 then (st.1, x)
    else Session.emit (st.1, x) (g.1, r.1)

/-- A coordinate is emittable (R293). -/
def Session.emittable (x : Session) (c : Nat) : Bool :=
  (List.range (x.nin + 1)).all fun i => !x.isOpen i || decide (c + 1 < Sparse.get 0 x.last i)

/-- The emittable coordinates of the buffer, up to the first that a full output buffer holds back (R293); held says
whether the output buffer counts. -/
def Session.drainGo (held : Bool) : List (Nat × List Nat) → State × Session → State × Session
  | [], st => st
  | g :: gs, (s, x) =>
    if !x.emittable g.1 || (held && x.full) || x.fault.isSome then (s, x)
    else Session.drainGo held gs (Session.settle (s, { x with buf := x.buf.filter fun t => t.c ≠ g.1 }) g)

/-- The selection is emitted in order, up to the first token that a full output buffer holds back (R292). -/
def Session.emitSel (held : Bool) : List (Nat × Nat) → State × Session → State × Session
  | [], st => st
  | r :: rs, (s, x) =>
    if (held && x.full) || x.fault.isSome then (s, x)
    else Session.emitSel held rs (Session.emit (s, { x with sel := rs }) r)

/-- The network emits what it may (R292, R293): nothing once it has spilled. -/
def Session.drain (held : Bool) (st : State × Session) : State × Session :=
  if st.2.spilled then st
  else
    let st := Session.drainGo held (groupTokens st.2.buf) st
    if st.2.mode = 1 ∧ st.2.allClosed ∧ st.2.buf = [] then Session.emitSel held st.2.sel st else st

/-! ## Spilling -/

/-- H: the bytes of a half (R294). -/
def Session.half (x : Session) : Nat := 64 * ((x.splen * 4096 - 0x840) / 128)

/-- The header of the spill area (R294). -/
def Session.putHeader (x : Session) (s : State) : State × Session :=
  x.write s 0x43 x.spill (x.locs.getD 3 0) (wordsBytes [x.pass % 2 ^ 16 * 2 ^ 32 + x.runs.length, x.halfUsed])

/-- A run of the current pass is written after those before it (R294, R448). -/
def Session.addRun (x : Session) (s : State) (ts : List MTok) : State × Session :=
  let len := 64 * ceilDiv (16 * ts.length) 64
  let ofs := 0x840 + x.pass % 2 * x.half + x.halfUsed
  if x.fault.isSome then (s, x)
  else if 128 ≤ x.runs.length then (s, x.failOf 0x43 0x01 0)
  else if x.half < x.halfUsed + len then (s, x.failOf 0x43 0x02 0)
  else
    let at_ := fun (o : Nat) => (x.spill.plus o, x.locs.getD 3 0 + o)
    let (s, x) := x.write s 0x43 (at_ ofs).1 (at_ ofs).2
      (ts.map fun t => toBytes 8 t.c ++ toBytes 4 t.v ++ toBytes 4 (t.s % 16)).flatten
    if x.fault.isSome then (s, x)
    else
      let d := 0x40 + 16 * x.runs.length
      let (s, x) := x.write s 0x43 (at_ d).1 (at_ d).2
        (wordsBytes [ofs, x.pass % 2 ^ 16 * 2 ^ 32 + ts.length % 2 ^ 32])
      (s, if x.fault.isSome then x
        else { x with runs := x.runs ++ [(ofs, ts.length, x.pass)], halfUsed := x.halfUsed + len, runCount := x.runCount + 1 })

/-- The buffer spills as one run of pass 0 (R293, R294). -/
def Session.spillBuf (st : State × Session) : State × Session :=
  let (s, x) := st.2.addRun st.1 st.2.buf
  if x.fault.isSome then (s, x) else { x with spilled := true, buf := [] }.putHeader s

/-- The pieces of a read of a session from a location, in order up to the first that faults (R324, R448). -/
def Session.readPieces (x : Session) (code : Nat) (l : Loc) (w : Nat) :
    List (Nat × Nat) → State → List Byte × State × Session
  | [], s => ([], s, x)
  | (pa, n) :: ps, s => match s.deviceFault x.agent x.place s.windowChecked false l.key pa n with
    | some (sub, t) => ([], t, x.failAt false code sub (w + (pa - l.pa)))
    | none =>
      let rest := x.readPieces code l w ps (s.recordDevice x.agent x.place s.windowChecked false pa n)
      (s.readBytes l.key pa n ++ rest.1, rest.2)

/-- The tokens of a run read back. -/
def Session.readRun (x : Session) (s : State) (r : Nat × Nat × Nat) : List MTok × State × Session :=
  let l := x.spill.plus r.1
  let y := x.readPieces 0x43 l (x.locs.getD 3 0 + r.1) (piecesOf l.pa (16 * r.2.1)) s
  if y.2.2.fault.isSome then ([], y.2)
  else
    ((List.range r.2.1).map fun i =>
      let b := y.1.drop (16 * i)
      ⟨ofBytes (b.take 8), ofBytes ((b.drop 8).take 4), bits (b.getD 12 0).toNat 0 4⟩, y.2)

/-- The tokens of several runs, in order (R295). -/
def Session.readRuns (x : Session) (s : State) (rs : List (Nat × Nat × Nat)) : List MTok × State × Session :=
  rs.foldl (fun st r =>
    if st.2.2.fault.isSome then st
    else
      let n := st.2.2.readRun st.2.1 r
      (st.1 ++ n.1, n.2)) ([], s, x)

/-- The groups of sixteen runs from group j on are merged, each into one run (R295). -/
def Session.mergeGroups (old : List (Nat × Nat × Nat)) (st : State × Session) : State × Session :=
  (List.range (ceilDiv old.length 16)).foldl (fun st j =>
    if st.2.fault.isSome then st
    else
      let r := st.2.readRuns st.1 ((old.drop (16 * j)).take 16)
      r.2.2.addRun r.2.1 (sortTokens r.1)) st

/-- A step of R295: the last run is written, a pass is run, or the remaining runs are merged and the output is emitted. -/
def Session.passStep (st : State × Session) : State × Session :=
  let (s, x) := st
  if x.buf ≠ [] then Session.spillBuf (s, x)
  else if 16 < x.runs.length then
    let st := Session.mergeGroups x.runs (s, { x with runs := [], halfUsed := 0, pass := x.pass + 1 })
    if st.2.fault.isSome then st else st.2.putHeader st.1
  else
    let r := x.readRuns s x.runs
    let st := (groupTokens (sortTokens r.1)).foldl Session.settle (r.2.1, r.2.2)
    let st := Session.emitSel false st.2.sel st
    (st.1, { st.2 with merged := st.2.fault.isNone })

/-! ## Tokens -/

/-- An emittable coordinate waits for a full output buffer to be taken from (R291, R293; log entry 54). -/
def Session.heldBack (x : Session) : Bool := x.full && !x.spilled && x.buf.head?.any fun t => x.emittable t.c

/-- A token of a feed or push enters its stream and the buffer: a full buffer first emits what it may, and then spills (R287,
R293, R448). -/
def Session.enter (st : State × Session) (f : Feed) (t : Nat × Nat) : State × Session :=
  let (s, x) := st
  let k := f.stream
  if t.1 + 1 < Sparse.get 0 x.last k then
    (s, x.fail { code := 0x41, sub := 0x01, index := k, addr := t.1, pc := f.pc, scope := f.scope })
  else
    let (s, x) := if 65536 ≤ x.buf.length then
        let st := Session.drain true (s, x)
        if 65536 ≤ st.2.buf.length ∧ !st.2.heldBack ∧ st.2.fault.isNone then Session.spillBuf st else st
      else (s, x)
    if x.fault.isSome ∨ 65536 ≤ x.buf.length then (s, x)
    else (s, { x with
      last := Sparse.set 0 x.last k (t.1 + 1), inCount := x.inCount + 1, buf := (⟨t.1, t.2, k⟩ : MTok).insert x.buf })

/-- The oldest item of a stream gives its next token, and leaves once it is finished and has given all (R287, R297). -/
def Session.advance (st : State × Session) (k : Nat) : State × Session :=
  let (s, x) := st
  match x.feeds.findIdx? fun f => f.stream = k with
  | none => st
  | some i => match x.feeds[i]? with
    | none => st
    | some f =>
      let leave := fun (x : Session) (ts : List (Nat × Nat)) =>
        if f.finished && ts.isEmpty then { x with feeds := x.feeds.eraseIdx i }
        else { x with feeds := x.feeds.set i { f with staged := ts } }
      match f.staged with
      | [] => (s, leave x [])
      | t :: ts =>
        let r := Session.enter (s, x) f t
        if r.2.fault.isSome ∨ r.2.inCount = x.inCount then r else (r.1, leave r.2 ts)

/-- MERGE_TOKEN_ENTER (R293): the stream named takes its next token, and with flag the network emits what it may. -/
def execMergeTokenEnter (s : State) : Out :=
  let key := s.input.who
  match s.sessionAt key with
  | none => .next s
  | some x =>
    if x.stopped || x.failed then .next s
    else
      let st := Session.advance (s, x) s.input.which
      let st := if s.input.flag && st.2.fault.isNone then Session.drain true st else st
      .next ((st.1.putSession key st.2).settleAll)

/-- MERGE_PASS (R295): one step of the work that MGCLOSE of a spilled session starts. -/
def execMergePass (s : State) : Out :=
  let key := s.input.who
  match s.sessionAt key with
  | none => .next s
  | some x =>
    if x.stopped || x.failed || !x.closing || !x.spilled || x.merged || x.feeds ≠ [] then .next s
    else
      let st := Session.passStep (s, x)
      .next (st.1.putSession key st.2)

/-- MERGE_FAIL (R448): the session fails once what it has emitted is written; its feeds and pushes are discarded, and the
owner holds the record. -/
def execMergeFail (s : State) : Out :=
  let key := s.input.who
  match s.sessionAt key with
  | none => .next s
  | some x =>
    if x.frozen || x.failed then .next s
    else match x.fault with
      | none => .next s
      | some f =>
        let (s, x) := Session.flush (s, x)
        let (n, s) := s.fresh
        let s := s.setSession key (some { x with failed := true, failNo := n, feeds := [], outq := [], buf := [], sel := [] })
        .next ((s.holdFor x.launch x.strip (s.sessionRec x f false)).settleAll)

/-! ## Pulling -/

/-- Every token of the session has been taken, and every stream is closed (R299, R451). -/
def Session.over (x : Session) : Bool :=
  x.allClosed && x.outq.isEmpty && x.buf.isEmpty && x.sel.isEmpty && (!x.spilled || x.merged || x.failed)

/-- The tokens that MGPULL takes now, at most n (R299): with fillers where the session is over. -/
def Session.pull (x : Session) (n : Nat) : List (Nat × Nat) × Session :=
  let ts := x.outq.take n
  (ts, { x with outq := x.outq.drop n, outCount := x.outCount + ts.length })

/-- The filler token of MGPULL (R299). -/
def filler : Nat × Nat := (2 ^ 64 - 1, 0)

/-- The positions of a pull, with the place of each active one among those that take a token. -/
def pullSlots (o : FX) (h : Hart) (active : Nat) : List ((Nat × Nat) × Option Nat) :=
  (h.positions.foldl (fun (st : List ((Nat × Nat) × Option Nat) × Nat × Nat) p =>
    if bit active st.2.1 then (st.1 ++ [(p, some st.2.2)], st.2.1 + 1, st.2.2 + 1)
    else (st.1 ++ (if o.m != 0 && o.z = 1 then [(p, none)] else []), st.2.1 + 1, st.2.2)) ([], 0, 0)).1

/-- The active positions of MGPULL as a set of flat indices. -/
def pullActive (o : FX) (h : Hart) : Nat :=
  let m := h.fxMask o
  h.positions.foldr (fun p n => ofBool (m.sel h p.1 p.2) + 2 * n) 0

/-- The registers and the count that MGPULL leaves (R299). -/
def Hart.endPull (h : Hart) (o : FX) (active : Nat) (ts : List (Nat × Nat)) (real : Nat) : Hart :=
  let slots := pullSlots o h active
  let val := fun (i : Option Nat) => match i with | some k => ts.getD k filler | none => (0, 0)
  let h' := h.putV ⟨o.d.toNat, slots.map fun p => (h.cellAt .z64 p.1.1 p.1.2, 64, (val p.2).1)⟩
  let h' := h'.putV ⟨o.d.toNat + 1, slots.map fun p => (h.cellAt .f32 p.1.1 p.1.2, 32, (val p.2).2)⟩
  h'.setX o.b.toNat (word real)

/-- The pairs of a list of numbers. -/
def pairsOf : List Nat → List (Nat × Nat)
  | a :: b :: r => (a, b) :: pairsOf r
  | _ => []

/-- MGPULL in the vector queue of the hart that issues takes what tokens there are, and completes once every active
position has one (R299), or, where final, with fillers. -/
def State.retryPull (s : State) (final : Bool) : State :=
  match s.h.vq with
  | none => s
  | some p => match p.instr, p.xs with
    | .mgpull o, [a] => match s.liveSession a with
      | none => s
      | some (key, x) =>
        let total := popCount (p.vl * p.vrows) p.mask
        let got := x.pull (total - p.sat)
        let s := s.setSession key (some got.2)
        let ts := pairsOf p.vs ++ got.1
        if total ≤ ts.length ∨ got.2.over ∨ final then
          let h := (s.h.shaped p.vl p.vrows).endPull o p.mask ts ts.length
          { s with h := { h with cfg := { h.cfg with vl := s.h.cfg.vl, vrows := s.h.cfg.vrows }, vq := none } }
        else
          { s with h := { s.h with
            vq := some { p with vs := p.vs ++ (got.1.map fun t => [t.1, t.2]).flatten, sat := ts.length } } }
    | _, _ => s

/-- MGPULL outside a chain body (R299): in a session that has failed every position receives the filler (R448, R451). -/
def execMgpull (o : FX) (s : State) : Out :=
  if !isBandwidth s.h.die then .next (s.stopLacking 2 0)
  else
    let cs := when_ (o.c != 0 || o.imm != 0 || o.f != 0) (operand 0x01)
      ++ s.portCauses o [o.d.toNat, o.d.toNat + 1] []
    match s.liveSession (s.x o.a) with
    | none => orTrap s (cs ++ [operand 0x06]) (.next s)
    | some (_, x) => orTrap s (cs ++ when_ (!s.owns x || x.out != 2) (operand 0x06))
      (.next ((s.hold (.mgpull o) [s.x o.a] [] (pullActive o s.h) 0).retryPull x.failed))

/-! ## Closing and status -/

/-- The session with MGCLOSE begun: no stream takes anything further (R300). -/
def Session.close (x : Session) : Session := { x with closing := true, ending := x.streams }

/-- MGCLOSE (R300): it closes the streams and waits. -/
def execMgclose (o : FX) (s : State) : Out :=
  if !isBandwidth s.h.die then .next (s.stopLacking 2 0)
  else
    let cs := when_ (o.b != 0 || o.c != 0 || o.m != 0 || o.z != 0 || o.imm != 0 || decide (2 ≤ o.f.toNat)) (operand 0x01)
    match s.liveSession (s.x o.a) with
    | none => orTrap s (cs ++ [operand 0x06]) (.next s)
    | some (key, x) => orTrap s (cs ++ when_ (!s.owns x) (operand 0x06))
      (.next ((s.setSession key (some x.close)).hold (.mgclose o) [s.x o.a] [] 0 0))

/-- What remains to be emitted when every feed of an unspilled session has finished: all coordinates, the selection, the
last rows; tokens nobody has pulled are discarded (R291, R300). -/
def Session.finish (st : State × Session) : State × Session :=
  let st := if st.2.merged then st else Session.drain false st
  let st := if st.2.out = 1 ∧ st.2.fault.isNone ∧ st.2.crow < st.2.nrows then st.2.endRow st.1 st.2.nrows else st
  let st := if st.2.out = 2 ∨ st.2.fault.isSome then st else Session.flush st
  (st.1, { st.2 with merged := st.2.fault.isNone, outq := [] })

/-- The flags and counts of a session credited to a hart (R290). -/
def Hart.creditSession (h : Hart) (x : Session) : Hart :=
  { h with ar := { h.ar with
    fflags := h.ar.fflags ||| x.flags, fcnt := Vector.ofFn fun i => satAdd h.ar.fcnt[i] x.fcnt[i] } }

/-- A session whose MGCLOSE may complete: nothing is left to feed, merge or write (R300). -/
def Session.closable (x : Session) : Bool :=
  x.closing && !x.stopped && x.feeds.isEmpty && (!x.spilled || x.merged || x.failed)

/-- MGCLOSE of a hart completes for a session: an acquire, the credit of its flags, and OUT in x[D] (R300). -/
def State.endClose (s : State) (key k : Nat) (o : FX) (po : Nat) (x : Session) : State :=
  let hold := bit o.f.toNat 0
  let s := s.setSession key (if hold then some { x with held := true, credited := true } else none)
  let s := s.recordAfter { agent := x.agent, place := x.place, rel := true, scope := x.scope }
    { agent := (s.hartAt k).agent, place := k / 8, acq := true, scope := x.scope, po := po }
  (s.updHart k fun h =>
    let h := if x.credited then h else h.creditSession x
    { h with vq := none }.setX o.d.toNat (word x.outCount)).settleAll

/-- MGCLOSE_COMPLETE (R300): the MGCLOSE that waits on the session of the network named completes. -/
def execMgcloseComplete (s : State) : Out :=
  let key := s.input.who
  match s.sessionAt key with
  | none => .next s
  | some x =>
    if !x.closable then .next s
    else match s.hartOf x.launch x.strip with
      | none => .next s
      | some k => match (s.hartAt k).vq with
        | none => .next s
        | some p => match p.instr, p.xs with
          | .mgclose o, [a] =>
            if a.toNat ≠ sessionWord (Sparse.get {} s.nets key).seq key then .next s
            else
              let st := if x.failed || x.held then (s, x) else Session.finish (s, x)
              .next (if st.2.fault.isSome && !st.2.failed then st.1.putSession key st.2 else st.1.endClose key k o p.po st.2)
          | _, _ => .next s

/-- The state word of a session (R301). -/
def Session.stateWord (x : Session) (net : Nat) : Nat :=
  x.opens * 2 ^ 32 + x.pass % 2 ^ 16 * 2 ^ 16 + (if x.held then 2 else if x.closing then 1 else 0) * 2 ^ 4
    + ofBool x.spilled * 2 ^ 3 + net

/-- MGSTAT (R301). A count of 0 feeds orders the reads of those that have finished before what follows. -/
def execMgstat (o : FX) (s : State) : Out :=
  if !isBandwidth s.h.die then .next (s.stopLacking 2 0)
  else
    let cs := when_ (fxOther o true true false || o.m != 0 || o.z != 0 || o.f != 0 || decide (8 ≤ o.imm.toNat)) (operand 0x01)
    match s.liveSession (s.x o.a) with
    | none => orTrap s (cs ++ [operand 0x06]) (.next s)
    | some (key, x) => orTrap s cs
      (let v := match o.imm.toNat % 8 with
        | 0 => x.stateWord (key % 4)
        | 1 => x.inCount
        | 2 => x.outCount
        | 3 => if x.out = 1 then (x.area 0).done else 0
        | 4 => x.runCount
        | 5 => x.nans
        | 6 => x.pend
        | _ => x.flags.toNat
      let s := if o.imm.toNat % 8 = 6 ∧ x.pend = 0 then
          s.recordAfter { agent := x.agent, place := x.place, rel := true, scope := x.scope }
            { agent := s.h.agent, place := s.h.coreKey, acq := true, scope := x.scope, po := s.h.po }
        else s
      .next ((s.setX o.d (word v)).advance 8))

end Sys2Proof.Machine
end

