-- ==== Sys2Proof/Machine/Wire.lean ====
section
/-!
DEFINITION. What travels on the links: modules and the directions of links, flits and their bytes, permits, and the records of
the chain lanes (R14, R17, R100, R255, R354 to R357, R363, R453). Module 4d + i lies on the east edge of die d, i = 3 carrying
chain lanes; 24 + 2d + i is a hub module of die d; skoahLink is the Skoah Link. Direction 0 leads away from the lower end: east,
to the hub, to the host.
-/
namespace Sys2Proof.Machine

/-! ## The ring -/

/-- The next die east around the ring: 0, 1, 5, 3, 2, 4 and 0 again (R14). -/
def eastDie : Nat → Nat
  | 0 => 1
  | 1 => 5
  | 5 => 3
  | 3 => 2
  | 2 => 4
  | _ => 0

/-- The next die west around the ring. -/
def westDie : Nat → Nat
  | 1 => 0
  | 5 => 1
  | 3 => 5
  | 2 => 3
  | 4 => 2
  | _ => 4

/-- The chain-lane module of the east edge of a die among the links of the hub (R17). -/
def chainModule (die : Nat) : Nat := 4 * die + 3

/-! ## Modules and directions -/

/-- What a module carries. -/
inductive LinkKind where
  | memory (die : Nat)
  | chain (die : Nat)
  | hub (die : Nat)
  | skoah
  deriving DecidableEq, Repr

/-- The kind of a module. -/
def linkKind (m : Nat) : Option LinkKind :=
  if m < 24 then some (if m % 4 = 3 then .chain (m / 4) else .memory (m / 4))
  else if m < 36 then some (.hub ((m - 24) / 2))
  else if m = skoahLink then some .skoah
  else none

/-- The die that records of a module name (log entry 14). -/
def LinkKind.die : LinkKind → Nat
  | .memory d | .chain d | .hub d => d
  | .skoah => 6

/-- The number of a module's link: the ring edges, the hub links, the Skoah Link, the chain lanes of the edges. -/
def LinkKind.way : LinkKind → Nat
  | .memory d => d
  | .hub d => 6 + d
  | .skoah => 12
  | .chain d => 13 + d

/-- Permits per direction of the classes REQ to SYS (R355, R363); chain lanes have beat permits alone (R357). -/
def LinkKind.pools : LinkKind → List Nat
  | .memory _ => [96, 128, 64, 64, 0, 0]
  | .chain _ => [16, 0, 0, 0, 0, 0]
  | .hub _ => [32, 48, 32, 16, 16, 16]
  | .skoah => [192, 256, 128, 64, 32, 16]

/-- The state of a module. -/
def State.link (s : State) (m : Nat) : Link := Sparse.get {} s.hub.links m

/-- The state with a module changed. -/
def State.updLink (s : State) (m : Nat) (f : Link → Link) : State :=
  { s with hub := { s.hub with links := Sparse.upd {} s.hub.links m f } }

/-- A direction of a module. -/
def Link.dir (l : Link) (w : Nat) : LinkDir := if w = 0 then l.out else l.back

/-- A module with a direction replaced. -/
def Link.setDir (l : Link) (w : Nat) (d : LinkDir) : Link := if w = 0 then { l with out := d } else { l with back := d }

/-- The state with a direction of a module changed. -/
def State.updDir (s : State) (m w : Nat) (f : LinkDir → LinkDir) : State := s.updLink m fun l => l.setDir w (f (l.dir w))

/-- A direction of a link, by its number: twice the link's, and 1 for the direction back. -/
def State.pool (s : State) (i : Nat) : LinkPool := Sparse.get {} s.hub.pools i

/-- The state with a direction of a link changed. -/
def State.updPool (s : State) (i : Nat) (f : LinkPool → LinkPool) : State :=
  { s with hub := { s.hub with pools := Sparse.upd {} s.hub.pools i f } }

/-- A count by class with that of one class changed. -/
def onClass (v : Vector Nat 6) (c : Nat) (f : Nat → Nat) : Vector Nat 6 := v.mapIdx fun i n => if i = c then f n else n

/-- Permits of a class that the sender has spent, class 0 for REQ. -/
def LinkPool.spent (p : LinkPool) (c : Nat) : Nat := p.used.toList.getD c 0

/-- The receiver frees a buffer of a class: the permit is to be returned (R355). -/
def LinkPool.free (p : LinkPool) (c : Nat) : LinkPool := { p with owed := onClass p.owed c (· + 1) }

/-! ## Flits -/

/-- CRC-32C after one more bit; the register is reflected. -/
def crcBit (c : Nat) : Nat := if c % 2 = 1 then (c / 2) ^^^ 0x82F63B78 else c / 2

/-- CRC-32C after one more byte. -/
def crcByte (c : Nat) (b : Byte) : Nat :=
  crcBit (crcBit (crcBit (crcBit (crcBit (crcBit (crcBit (crcBit (c ^^^ b.toNat))))))))

/-- CRC-32C of a byte string (R354). -/
def crc32c (bs : List Byte) : Nat := bs.foldl crcByte 0xFFFFFFFF ^^^ 0xFFFFFFFF

/-- The header of a flit as it arrives, as one number (R354, R357). -/
def flitHeader (bs : List Byte) : Nat := ofBytes (bs.take 16)

/-- The CRC of a flit as it arrives holds (R354). -/
def flitIntact (bs : List Byte) : Bool :=
  bs.length = 256 && crc32c (bs.take 12 ++ bs.drop 16) == bits (flitHeader bs) 96 32

/-- The bytes of a slot: those of its message, zeros for none (R354). -/
def slotBytes (n : Nat) : Option LinkMsg → List Byte
  | none => List.replicate n 0
  | some x => (List.range n).map (Config.messageByte x.no)

/-- The header of a flit below its CRC (R354, R357). -/
def Flit.header (k : LinkKind) (f : Flit) (ack : BitVec 16) : Nat :=
  let r := fun c => f.rets.getD c 0
  let top := f.seq.toNat * 2 ^ 80 + ack.toNat * 2 ^ 64 + r 0 * 2 ^ 56
  match k with
  | .chain _ => top + f.fill.length * 2 ^ 48
  | _ =>
    top + r 1 * 2 ^ 48 + r 2 * 2 ^ 40 + r 3 * 2 ^ 32
      + f.slots.foldr (fun x n => 8 * n + match x with | some x => x.cls | none => 0) 0

/-- The 240 bytes of a flit behind its header: slots (R354), or chain records and zeros (R357). -/
def Flit.payload (k : LinkKind) (f : Flit) : List Byte :=
  let x := fun i => (f.slots[i]?).join
  match k with
  | .chain _ => f.fill ++ List.replicate (240 - f.fill.length) 0
  | _ => slotBytes 48 (x 0) ++ slotBytes 64 (x 1) ++ slotBytes 64 (x 2) ++ slotBytes 64 (x 3)

/-- The 256 bytes of a flit as it is sent with an ACK (R354, R357). -/
def Flit.bytes (k : LinkKind) (f : Flit) (ack : BitVec 16) : List Byte :=
  let h := toBytes 12 (f.header k ack)
  let b := f.payload k
  h ++ toBytes 4 (crc32c (h ++ b)) ++ b

/-- The flits that a sender holds and the far side has not received (R453). -/
def LinkDir.unseen (d : LinkDir) : List Flit := d.held.filter fun f => decide ((f.seq - d.expect).toNat < 2 ^ 15)

/-! ## Chain records (R357) -/

/-- EW of a width. -/
def widthCode (w : Nat) : Nat := match w with | 4 => 0 | 8 => 1 | 16 => 2 | 32 => 3 | _ => 4

/-- The header of a record. -/
def recordHeader (len nact ew kind : Nat) : List Byte := toBytes 16 (len * 2 ^ 24 + nact * 2 ^ 8 + ew * 2 ^ 4 + kind)

/-- The bytes of a record. -/
def LinkRec.bytes (x : LinkRec) : List Byte :=
  let w := 4 * 2 ^ x.ew
  match x.tok with
  | .beat _ _ v =>
    let n := (v.length * w + 7) / 8
    recordHeader n v.length x.ew 1 ++ toBytes ((n + 15) / 16 * 16) (v.foldr (fun e r => e % 2 ^ w + 2 ^ w * r) 0)
  | .mark _ => recordHeader 0 0 x.ew 2
  | .eos => recordHeader 0 0 x.ew 3
  | .checkpoint => recordHeader 0 0 x.ew 4

/-- The first record of a byte stream, and what follows it; none where it has not come whole. -/
def takeRecord (bs : List Byte) : Option (LinkRec × List Byte) :=
  let h := ofBytes (bs.take 16)
  let n := (bits h 24 16 + 15) / 16 * 16
  let ew := bits h 4 4
  let w := 4 * 2 ^ ew
  if bs.length < 16 + n then none
  else
    let x := ofBytes ((bs.drop 16).take n)
    let tok : Tok := match bits h 0 4 with
      | 1 => .beat 0 0 ((List.range (bits h 8 16)).map fun i => bits x (w * i) w)
      | 2 => .mark 0
      | 3 => .eos
      | _ => .checkpoint
    some (⟨tok, ew⟩, bs.drop (16 + n))

/-- The records of a byte stream, and the bytes of one that has come in part. -/
def takeRecords : Nat → List Byte → List LinkRec × List Byte
  | 0, bs => ([], bs)
  | fuel + 1, bs => match takeRecord bs with
    | none => ([], bs)
    | some (x, rest) => let y := takeRecords fuel rest; (x :: y.1, y.2)

/-! ## Ports and lanes -/

/-- A token that occupies a slot (R244). -/
def Tok.isBeat : Tok → Bool
  | .beat _ _ _ => true
  | _ => false

/-- The lane-link port of a binding: 0 east out, 1 west out, 2 east in, 3 west in (R255). -/
def portOf (west inbound : Bool) : Nat := ofBool inbound * 2 + ofBool west

/-- The state with a port of a core changed. -/
def State.updPort (s : State) (core p : Nat) (f : LinkPort → LinkPort) : State :=
  s.updCore core fun c => { c with ports := Sparse.upd {} c.ports p f }

/-- A port of a core. -/
def State.port (s : State) (core p : Nat) : LinkPort := Sparse.get {} (s.coreAt core).ports p

/-- The port that a direction of a chain-lane module leads to: one core of a die borders each edge (R100, R255). -/
def laneEnd (m w : Nat) : Nat × Nat :=
  if w = 0 then (64 * eastDie (m / 4), 3) else (64 * (m / 4) + coreCount (m / 4) - 1, 2)

/-- The direction of a chain-lane module that leads to a port, where its link crosses an edge. -/
def laneInto (core p : Nat) : Option (Nat × Nat) :=
  if p = 3 ∧ core % 64 = 0 then some (chainModule (westDie (core / 64)), 0)
  else if p = 2 ∧ core % 64 + 1 = coreCount (core / 64) then some (chainModule (core / 64), 1)
  else none

/-- The beat permits of a direction of a chain-lane module. -/
def lanePool (m w : Nat) : Nat := 2 * (13 + m / 4) + w

/-- A record enters the byte stream of a direction of a chain-lane module; a beat spends a permit. -/
def State.sendRecord (s : State) (m w : Nat) (x : LinkRec) : State :=
  (s.updDir m w fun d => { d with stream := d.stream ++ x.bytes }).updPool (lanePool m w) fun p =>
    if x.tok.isBeat then { p with used := onClass p.used 0 (· + 1) } else p

/-- Payload bytes arrive over a direction of a chain-lane module: whole records enter the FIFO of the port they lead to. -/
def State.landRecords (s : State) (m w : Nat) (bs : List Byte) : State :=
  let x := ((s.link m).dir w).rbuf ++ bs
  let y := takeRecords (x.length / 16) x
  let e := laneEnd m w
  (s.updDir m w fun d => { d with rbuf := y.2 }).updPort e.1 e.2 fun p => { p with fifo := p.fifo ++ y.1 }

/-- A record leaves the FIFO of a port: the permit of a beat that came over an edge is to be returned. -/
def State.leaveFifo (s : State) (core p : Nat) (x : LinkRec) : State :=
  match laneInto core p with
  | some (m, w) => if x.tok.isBeat then s.updPool (lanePool m w) fun p => p.free 0 else s
  | none => s

/-- A direction of a chain-lane module has bytes or permits on their way. -/
def State.laneBusy (s : State) (m w : Nat) : Bool :=
  let d := (s.link m).dir w
  d.stream != [] || (d.unseen.any fun f => f.fill != []) || (s.pool (lanePool m w)).owed[0] != 0

/-- Everything under way in a direction of a chain-lane module arrives: what a drain waits for (R432, R434). -/
def State.pumpLane (s : State) (m w : Nat) : State :=
  let d := (s.link m).dir w
  let n := BitVec.ofNat 16 ((d.stream.length + 239) / 240)
  let back := (d.unseen.map fun f => f.rets.getD 0 0).sum
  let bs := (d.unseen.map (·.fill)).flatten ++ d.stream
  let s := s.updDir m w fun d =>
    { d with held := [], resend := 0, replays := 0, stream := [], seq := d.seq + n, expect := d.seq + n }
  let s := s.updPool (lanePool m (1 - w)) fun p => { p with used := onClass p.used 0 (· - back) }
  let s := s.updPool (lanePool m w) fun p => { p with used := onClass p.used 0 (· - p.owed[0]), owed := onClass p.owed 0 fun _ => 0 }
  s.landRecords m w bs

/-- The FIFO of a port emptied, with what is on its way to it; the sender holds every beat permit again. -/
def State.emptyPort (s : State) (core p : Nat) : State :=
  let s := match laneInto core p with
    | some (m, w) =>
      (((s.pumpLane m w).pumpLane m (1 - w)).updDir m w fun d => { d with rbuf := [] }).updPool (lanePool m w) fun _ => {}
    | none => s
  s.updPort core p fun y => { y with fifo := [] }

end Sys2Proof.Machine
end

