-- ==== Sys2Proof/Machine/ChainBody.lean ====
section
/-!
DEFINITION. Chain bodies: their nodes and rules (R232 to R234), the width of a binding (R235), and the uses that CHCFG and
CHRUN do not accept (R262).
-/
namespace Sys2Proof.Machine

/-! ## Nodes -/

/-- What a node does with the elements that reach it (R233): an elementwise result, a constant stream with its first source
operand, a reduction, a scan, a load or store port with VSTXA's operation, QRD with its destination, a matrix node, or a
merge port. -/
inductive Role where
  | elem (op : ElemOp)
  | const (value : Nat → Nat) (base : Nat)
  | red (k : RedKind)
  | scan (k : RedKind) (excl : Bool)
  | load
  | store (op : Option Nat) (strided : Bool)
  | qrd (d : Nat)
  | mrow
  | mrowsl (stride first n : Nat)
  | push (session : Word) (st : Nat) (closes : Bool)
  | pull (session : Word)

/-- A node of a body: its vector source operands and its destinations with their formats, its mask and rounding mode, and
for a port the space and the place of an element by row, row length, index and index operand (R238, R239). A field from 48
names a queue (R120). -/
structure Node where
  role : Role
  srcs : List (Nat × Fmt) := []
  dsts : List (Nat × Fmt) := []
  mask : Mask := {}
  rm : RMode := .rne
  tile : Bool := false
  place : Nat → Nat → Nat → Nat → Place := fun _ _ _ _ => ⟨0, false⟩

/-- The elementwise halves that may be nodes, with their operations and source operands (R233). -/
def elemNode (h : Hart) : Instr → Option (VHalf × ElemOp × List Nat)
  | .vadd o => some (o, opVadd (h.halfFmt o), [o.a.toNat, o.b.toNat])
  | .vsub o => some (o, opVsub (h.halfFmt o), [o.a.toNat, o.b.toNat])
  | .vmul o => some (o, opVmul (h.halfFmt o), [o.a.toNat, o.b.toNat])
  | .vdiv o => some (o, opVdiv (h.halfFmt o), [o.a.toNat, o.b.toNat])
  | .vmin o => some (o, opVmin (h.halfFmt o), [o.a.toNat, o.b.toNat])
  | .vmax o => some (o, opVmax (h.halfFmt o), [o.a.toNat, o.b.toNat])
  | .vand o => some (o, opVand (h.halfFmt o), [o.a.toNat, o.b.toNat])
  | .vor o => some (o, opVor (h.halfFmt o), [o.a.toNat, o.b.toNat])
  | .vxor o => some (o, opVxor (h.halfFmt o), [o.a.toNat, o.b.toNat])
  | .vshl o => some (o, opVshl (h.halfFmt o), [o.a.toNat, o.b.toNat])
  | .vshr o => some (o, opVshr (h.halfFmt o), [o.a.toNat, o.b.toNat])
  | .vsra o => some (o, opVsra (h.halfFmt o), [o.a.toNat, o.b.toNat])
  | .vwadd o => some (o, opVwadd (h.halfFmt o), [o.a.toNat, o.b.toNat])
  | .vwmul o => some (o, opVwmul (h.halfFmt o), [o.a.toNat, o.b.toNat])
  | .vma o => some (o, opVma (h.halfFmt o), [o.a.toNat, o.b.toNat, fourth o])
  | .vms o => some (o, opVms (h.halfFmt o), [o.a.toNat, o.b.toNat, fourth o])
  | .vnma o => some (o, opVnma (h.halfFmt o), [o.a.toNat, o.b.toNat, fourth o])
  | .vclamp o => some (o, opVclamp (h.halfFmt o), [o.a.toNat, o.b.toNat, fourth o])
  | .vsqrt o => some (o, opVsqrt (h.halfFmt o), [o.a.toNat])
  | .vabs o => some (o, opVabs (h.halfFmt o), [o.a.toNat])
  | .vneg o => some (o, opVneg (h.halfFmt o), [o.a.toNat])
  | .vrcp o => some (o, opVrcp (h.halfFmt o), [o.a.toNat])
  | .vrsq o => some (o, opVrsq (h.halfFmt o), [o.a.toNat])
  | .vexp2 o => some (o, opVexp2 (h.halfFmt o), [o.a.toNat])
  | .vlog2 o => some (o, opVlog2 (h.halfFmt o), [o.a.toNat])
  | .vtanh o => some (o, opVtanh (h.halfFmt o), [o.a.toNat])
  | .vsigm o => some (o, opVsigm (h.halfFmt o), [o.a.toNat])
  | .vnot o => some (o, opVnot (h.halfFmt o), [o.a.toNat])
  | .vsatn o => some (o, opVsatn (h.halfFmt o), [o.a.toNat])
  | .vclass o => some (o, opVclass (h.halfFmt o), [o.a.toNat])
  | .vmv o => some (o, opVmv (h.halfFmt o), [o.a.toNat])
  | .vcvt o => some (o, vcvtOp o (h.halfFmt o), [o.a.toNat])
  | _ => none

/-- The place of an element under VLDS and VSTS in a body (R238, R239, R247). -/
def strideAt (rowMode : Bool) (f : Fmt) (loc stride row e : Nat) : Place :=
  if rowMode then stridePlace f loc stride row e else placeAt (loc + e * stride) 0

/-- A load or store port of an FM form (R238, R239). -/
def fmNode (rowMode strided : Bool) (s : State) (o : FM) (role : Role) (srcs dsts : List (Nat × Fmt)) : Node :=
  let f := s.h.cfg.vtype
  { role := role, srcs := srcs, dsts := dsts, mask := s.h.fmMask, tile := (s.fmVecBase o).1,
    place := if strided then fun row _ e _ => strideAt rowMode f (s.fmVecStrideLoc o) (s.x o.b).toNat row e
      else fun row rl e _ => placeAt (s.fmVecLoc o) ((row * rl + e) * f.width) }

/-- A load or store port of an indexed form (R238). -/
def fxNode (s : State) (o : FX) (role : Role) (srcs dsts : List (Nat × Fmt)) : Node :=
  { role := role, srcs := srcs, dsts := dsts, mask := s.h.fxMask o, tile := spcOf o,
    place := fun _ _ _ i => indexAt o (s.x o.a) i }

/-- The format of a matrix node's A operand. -/
def State.rowFmt (s : State) : Fmt := match s.unit with | some u => mfmt u.afmt | none => .f32

/-- ASC of the hart's matrix unit. -/
def State.rowScaled (s : State) : Bool := match s.unit with | some u => u.asc | none => false

/-- The node of an instruction under the values of the hart that issues; none for an instruction that may not be a node, or
not in this mode (R233). -/
def nodeOf (rowMode : Bool) (s : State) (i : Instr) : Option Node :=
  let h := s.h
  let f := h.cfg.vtype
  let red := fun (k : RedKind) (o : VHalf) =>
    if rowMode then
      some { role := .red k, srcs := [(o.a.toNat, h.halfFmt o)], dsts := [(o.d.toNat, h.halfFmt o)],
             mask := h.halfMask o, rm := h.halfMode o : Node }
    else none
  match elemNode h i with
  | some (o, op, ss) =>
    some { role := .elem op, srcs := ss.zip op.srcs, dsts := [(o.d.toNat, op.dst)], mask := h.halfMask o, rm := h.halfMode o }
  | none => match i with
    | .vsplat o =>
      let v := (s.x o.a).toNat % 2 ^ (h.halfFmt o).width
      some { role := .const (fun _ => v) v, dsts := [(o.d.toNat, h.halfFmt o)], mask := h.halfMask o }
    | .qwr o =>
      some { role := .const (qwrValue (h.halfFmt o) (s.x o.a) (s.x o.b)) ((s.x o.a).toNat % 2 ^ (h.halfFmt o).width),
             dsts := [(o.d.toNat, h.halfFmt o)], mask := h.halfMask o }
    | .vrsum o => red .sum o
    | .vrmax o => red .max o
    | .vrmin o => red .min o
    | .vscan o =>
      if rowMode then
        some { role := .scan (scanKind o) (bit o.c.toNat 2), srcs := [(o.a.toNat, h.halfFmt o)],
               dsts := [(o.d.toNat, h.halfFmt o)], mask := h.halfMask o, rm := h.halfMode o }
      else none
    | .vld o => some (fmNode rowMode false s o .load [] [(o.d.toNat, f)])
    | .vlds o => some (fmNode rowMode true s o .load [] [(o.d.toNat, f)])
    | .vldx o => some (fxNode s o .load [(o.b.toNat, ixFmt o)] [(o.d.toNat, f)])
    | .vst o => some (fmNode rowMode false s o (.store none false) [(o.d.toNat, f)] [])
    | .vsts o => some (fmNode rowMode true s o (.store none true) [(o.d.toNat, f)] [])
    | .vstx o => some (fxNode s o (.store none false) [(o.d.toNat, f), (o.b.toNat, ixFmt o)] [])
    | .vstxa o =>
      some (fxNode s o (.store (some (bits o.f.toNat 6 2)) false) [(o.d.toNat, f), (o.b.toNat, ixFmt o)] [])
    | .qrd o => some { role := .qrd o.d.toNat, srcs := [(o.a.toNat, h.halfFmt o)] }
    | .mrow o =>
      if rowMode then
        some { role := .mrow, mask := h.halfMask o,
               srcs := (o.a.toNat, s.rowFmt) :: if decide (48 ≤ o.b.toNat) || s.rowScaled then [(o.b.toNat, .z8)] else [] }
      else none
    | .mrowsl o =>
      if rowMode then
        some { role := .mrowsl (o.c.toNat % 32 + 1) (s.x o.d).toNat (s.x o.b).toNat, mask := h.halfMask o,
               srcs := [(o.a.toNat, s.rowFmt)] }
      else none
    | .mgpush o =>
      if rowMode then none
      else some { role := .push (s.x o.a) (bits o.f.toNat 0 4) (bit o.f.toNat 4), mask := h.fxMask o,
                  srcs := [(o.b.toNat, .z64), (o.c.toNat, .f32)] }
    | .mgpull o =>
      if rowMode then none
      else some { role := .pull (s.x o.a), mask := h.fxMask o, dsts := [(o.d.toNat, .z64), (o.d.toNat + 1, .f32)] }
    | _ => none

/-- A field that names a queue, by queue number (R120). -/
def queueOf (field : Nat) : Option Nat := if 48 ≤ field ∧ field < 64 then some (field - 48) else none

/-- The queues a node reads, each once, and those it writes. -/
def Node.reads (n : Node) : List Nat := (n.srcs.filterMap fun o => queueOf o.1).eraseDups
/-- The queues a node writes. -/
def Node.writes (n : Node) : List Nat := n.dsts.filterMap fun o => queueOf o.1

/-- A node that is a sink (R233). -/
def Node.isSink (n : Node) : Bool :=
  match n.role with
  | .store _ _ | .qrd _ | .mrow | .mrowsl _ _ _ | .push _ _ _ => true
  | _ => false

/-- A node bound to lane groups (R233). -/
def Node.isVector (n : Node) : Bool :=
  match n.role with
  | .elem _ | .const _ _ | .red _ | .scan _ _ => true
  | _ => false

/-- How many nodes of each limited kind a node counts as: matrix, load, store, push, pull (R234, R304). -/
def Node.kind (n : Node) : Option Nat :=
  match n.role with
  | .mrow | .mrowsl _ _ _ => some 0
  | .load => some 1
  | .store _ _ => some 2
  | .push _ _ _ => some 3
  | .pull _ => some 4
  | _ => none

/-- The most nodes of a kind that a body holds (R234, R304). -/
def kindLimit : Nat → Nat
  | 1 => 2
  | 3 => 2
  | _ => 1

/-- Node i of a body breaks R233 or R234, where queues are bound inbound and outbound. -/
def nodeBad (ns : List (Option Node)) (inb outb : List Nat) (i : Nat) : Bool :=
  match ns[i]?.join with
  | none => true
  | some n =>
    let earlier := (ns.take i).filterMap id
    let written := fun q => earlier.any fun m => m.writes.contains q
    let readSome := fun q => (ns.filterMap id).any fun m => m.reads.contains q
    decide (16 ≤ i) || (n.dsts.any fun d => (queueOf d.1).isNone)
      || (n.writes.any fun q => written q || inb.contains q || !(readSome q || outb.contains q))
      || (n.reads.any fun q => !(written q || inb.contains q))
      || (match n.kind with
        | some k => decide (kindLimit k ≤ (earlier.filter fun m => m.kind = some k).length)
        | none => false)

/-- The first issue unit of nodes that breaks R233 or R234 of itself. -/
def nodeFault (ns : List (Option Node)) (units inb outb : List Nat) : Option Nat :=
  ((List.range ns.length).find? (nodeBad ns inb outb)).map fun i => units.getD i 0

/-- The first issue unit of a body that breaks R233 or R234, none for a body that obeys them. -/
def bodyFault (ns : List (Option Node)) (units inb outb : List Nat) : Option Nat :=
  match nodeFault ns units inb outb with
  | some k => some k
  | none => if outb = [] ∧ !(ns.filterMap id).any Node.isSink then some 0 else none

/-- The queues that a body reads and does not write: bound inbound under the assumption of R234. -/
def assumedIn (ns : List (Option Node)) : List Nat :=
  (List.range 16).filter fun q =>
    (ns.filterMap id).any (fun n => n.reads.contains q) && !(ns.filterMap id).any fun n => n.writes.contains q

/-- The queues that a body writes and does not read: bound outbound under the assumption of R234. -/
def assumedOut (ns : List (Option Node)) : List Nat :=
  (List.range 16).filter fun q =>
    (ns.filterMap id).any (fun n => n.writes.contains q) && !(ns.filterMap id).any fun n => n.reads.contains q

/-! ## CHCFG -/

/-- The nodes of an issue unit: full instructions, and halves other than NOP (R233). -/
def unitNodes : IssueUnit → List Instr
  | .full i => [i]
  | .prefixed i => [i]
  | .pair a b => [a, b].filter (· ≠ .nop)
  | .joined p b => [p, b].filter (· ≠ .nop)

/-- An issue unit of a body keeps the pair rules (R116, R223). -/
def unitPairs : IssueUnit → Bool
  | .pair a b => (pairSub true a b).isNone
  | .joined p b => (pairSub true p b).isNone
  | _ => true

/-- The code section of the code object that holds a pc: its end; none where the launch's header names no section that holds
the pc (R360, R262). -/
def State.codeEnd (s : State) (pc : Nat) : Option Nat :=
  match s.launchOf s.h with
  | none => none
  | some l => match s.hubReadVa s.h.sys.vmroot l.keyid l.code 64 with
    | .error _ => none
    | .ok bs =>
      let start := l.code + bits (bytesWord bs 3) 0 32
      let stop := start + bits (bytesWord bs 3) 32 32
      if bits (bytesWord bs 0) 0 32 = 0x43525445 ∧ start ≤ pc ∧ pc < stop then some stop else none

/-- The cause of a body word that cannot be fetched (R429, R442): BODY for a poisoned sector, as any fetch otherwise. -/
def bodyFetchCause (s : State) (c : Cause) (pc k : Nat) : Cause :=
  if c.code = 0x23 then
    let pa := match translate s s.h.sys.vmroot s.h.plv { ex := true } pc with | .ok t => t.pa / 32 * 32 | .error _ => 0
    { code := 0x33, sub := 0x01, tval := pa, addr := pa, asp := 1, index := k, ex := true }
  else fetchCause c

/-- The cause of a body that breaks its rules at an issue unit (R416). -/
def bodyCause (k : Nat) : Cause := operand 0x09 k

/-- The issue units of a body as CHCFG fetches them (R232): those before the first that cannot be had, the pc past them, the
state, and the cause of that one. -/
structure Fetched where
  units : List IssueUnit
  pc : Word
  state : State
  stop : Option Cause

/-- The n issue units of a body from unit k at a pc. -/
def fetchBody (s : State) (stop : Option Nat) (pc : Word) (k : Nat) : Nat → Fetched
  | 0 => ⟨[], pc, s, none⟩
  | n + 1 =>
    let outside := fun (p : Word) => match stop with | some e => decide (e < p.toNat + 8) | none => false
    if outside pc then ⟨[], pc, s, some (bodyCause k)⟩
    else match fetchWord s pc with
      | .error (c, t) => ⟨[], pc, t, some (bodyFetchCause s c pc.toNat k)⟩
      | .ok (w, s1) =>
        let second : Option (Except (Cause × State) (Word × State)) :=
          if w.extractLsb' 62 2 = 2#2 ∧ !outside (pc + 8) then some (fetchWord s1 (pc + 8)) else none
        let next : Option (Word × State) := second.bind fun x => x.toOption
        let lost : Option (Cause × State) := second.bind fun x => match x with
          | .error e => if e.1.code = 0x23 then some e else none
          | .ok _ => none
        match lost, decodeUnit w (next.map (·.1)) with
        | some (c, t), _ => ⟨[], pc, t, some (bodyFetchCause s c (pc + 8).toNat k)⟩
        | none, .error _ => ⟨[], pc, s1, some (bodyCause k)⟩
        | none, .ok u =>
          let s2 := match next with | some v => v.2 | none => s1
          let rest := fetchBody s2 stop (pc + (match u with | .joined _ _ => 16 | _ => 8)) (k + 1) n
          { rest with units := u :: rest.units }

/-- The nodes of issue units numbered from k, each with its unit. -/
def numberNodes : Nat → List IssueUnit → List (Instr × Nat)
  | _, [] => []
  | k, u :: us => (unitNodes u).map (fun i => (i, k)) ++ numberNodes (k + 1) us

/-- A hart holds a parked run (R433). -/
def Hart.parked (h : Hart) : Bool := match h.chain.run with | some r => r.mode == .parked | none => false

/-- The first of issue units that breaks a rule of itself: a pair that breaks R116 or R223, or a node (R233, R234, R416). -/
def unitFault (s : State) (us : List IssueUnit) (rowMode : Bool) : Option Nat :=
  let ns := numberNodes 0 us
  let nodes := ns.map fun p => nodeOf rowMode s p.1
  match us.findIdx? fun u => !unitPairs u, nodeFault nodes (ns.map (·.2)) (assumedIn nodes) (assumedOut nodes) with
  | some i, some j => some (min i j)
  | some i, none => some i
  | none, j => j

/-- The body of issue units, or the first unit that breaks a rule (R233, R234). -/
def makeBody (s : State) (us : List IssueUnit) (sb : Nat) (rowMode : Bool) (wnc : Nat) : Except Nat Body :=
  let ns := numberNodes 0 us
  let nodes := ns.map fun p => nodeOf rowMode s p.1
  match unitFault s us rowMode with
  | some k => .error k
  | none => match bodyFault nodes (ns.map (·.2)) (assumedIn nodes) (assumedOut nodes) with
    | some k => .error k
    | none => .ok ⟨ns.map (·.1), ns.map (·.2), sb, rowMode, wnc⟩

/-- The ports of the hart that issues are given up (R250). -/
def State.releasePorts (s : State) : State :=
  s.h.chain.links.foldl (fun s b =>
    let p := portOf b.west b.inbound
    let s := if b.inbound ∧ s.h.chain.run.isSome then s.emptyPort s.h.coreKey p else s
    s.updPort s.h.coreKey p fun p => { p with holder := none }) s

/-- The body of the hart that issues is uninstalled, with its links (R250). -/
def State.uninstall (s : State) : State :=
  let s := s.releasePorts
  { s with h := { s.h with
      chain := { s.h.chain with body := none, links := [] },
      chr := { s.h.chr with inst := false, nn := 0, le := false, lw := false, res := false } } }

/-- A body is installed on the hart that issues (R232). -/
def State.install (s : State) (b : Body) : State :=
  { s with h := { s.h with
      chain := { s.h.chain with body := some b },
      chr := { s.h.chr with inst := true, nn := b.nodes.length, rowMode := b.rowMode } } }

/-- The conditions of CHCFG on its own word (R232, R262, R433). -/
def chcfgCauses (o : FX) (s : State) : List Cause :=
  when_ (o.d != 0 || o.a != 0 || o.b != 0 || o.c != 0 || o.m != 0 || o.z != 0 || o.f != 0 || bits o.imm.toNat 14 2 != 0)
      (operand 0x01)
    ++ when_ (decide (4 < bits o.imm.toNat 11 3)) (operand 0x02) ++ when_ s.h.parked (operand 0x06)

/-- CHCFG (R232): the first unit at fault is reported, also where a later one cannot be had (R416). -/
def execChcfg (o : FX) (s : State) : Out :=
  let imm := o.imm.toNat
  orTrap s (chcfgCauses o s)
    (let f := fetchBody s (s.codeEnd s.h.pc.toNat) (s.h.pc + 8) 0 (bits imm 0 4 + 1)
    match unitFault s f.units (bit imm 10), f.stop with
    | some k, _ => trapNow s (bodyCause k)
    | none, some c => trapOut (c, f.state)
    | none, none => match makeBody f.state f.units (bits imm 4 6) (bit imm 10) (bits imm 11 3) with
      | .error k => trapNow s (bodyCause k)
      | .ok b => .next ((f.state.uninstall.install b).setPc f.pc))

/-- CHEND (R250, R262). -/
def execChend (o : FI) (s : State) : Out :=
  orTrap s (when_ (o.d != 0 || o.a != 0 || o.f != 0 || o.imm != 0) (operand 0x01) ++ when_ s.h.parked (operand 0x06))
    (.next (s.uninstall.advance 8))

/-- The queues of the hart's installed body that its nodes write, and those they read. -/
def State.bodyQueues (s : State) : List Nat × List Nat :=
  match s.h.chain.body with
  | none => ([], [])
  | some b =>
    let ns := b.nodes.filterMap (nodeOf b.rowMode s)
    ((ns.map Node.writes).flatten, (ns.map Node.reads).flatten)

/-- A link bound by the hart that issues (R255). -/
def State.bindLink (s : State) (q : Nat) (west inbound : Bool) : State :=
  let s := s.updPort s.h.coreKey (portOf west inbound) fun p => { p with holder := some s.h.key }
  { s with h := { s.h with
      chain := { s.h.chain with links := s.h.chain.links ++ [⟨q, west, inbound⟩] },
      chr := { s.h.chr with le := s.h.chr.le || !west, lw := s.h.chr.lw || west } } }

/-- The conditions of CHLNK (R255, R262, R416, R433). -/
def chlnkCauses (o : FI) (s : State) : List Cause :=
  let q := bits o.imm.toNat 0 4
  let west := bit o.imm.toNat 4
  let inbound := bit o.imm.toNat 5
  let qs := s.bodyQueues
  let fits := if inbound then qs.2.contains q && !qs.1.contains q else qs.1.contains q && !qs.2.contains q
  when_ (o.d != 0 || o.a != 0 || o.f != 0 || decide (64 ≤ o.imm.toNat)) (operand 0x01)
    ++ when_ (s.h.chain.body.isNone || !fits || s.h.parked
      || s.h.chain.links.any fun b => b.queue == q || (b.west == west && b.inbound == inbound)) (operand 0x06)

/-- CHLNK (R255): the link is bound, or the hart waits for the port. -/
def execChlnk (o : FI) (s : State) : Out :=
  let q := bits o.imm.toNat 0 4
  let west := bit o.imm.toNat 4
  let inbound := bit o.imm.toNat 5
  let p := portOf west inbound
  let x := s.port s.h.coreKey p
  orTrap s (chlnkCauses o s)
    (if x.holder = none ∧ x.waiters = [] then .next ((s.bindLink q west inbound).advance 8)
    else .next ((s.updPort s.h.coreKey p fun y => { y with waiters := y.waiters ++ [s.h.key] }).hold (.chlnk o) [] [] 0 0))

/-- LINK_PORT_GRANT (R255): a free port goes to the hart that has waited longest. -/
def execLinkPortGrant (s : State) : Out :=
  let x := s.port s.input.who s.input.which
  match x.holder, x.waiters with
  | none, k :: rest =>
    let s1 := (s.updPort s.input.who s.input.which fun y => { y with waiters := rest }).select k
    match s1.h.vq with
    | none => .next (s1.select s.h.key)
    | some w => match w.instr with
      | .chlnk o =>
        let s2 := s1.bindLink (bits o.imm.toNat 0 4) (bit o.imm.toNat 4) (bit o.imm.toNat 5)
        .next (({ s2 with h := { s2.h with vq := none } }).select s.h.key)
      | _ => .next (s1.select s.h.key)
  | _, _ => .next s

/-! ## The binding of CHRUN -/

/-- The largest power of two not above w / nv, at least 1 (R235). -/
def autoWidth (w nv : Nat) : Nat := if nv = 0 then w else max 1 (2 ^ (w / nv).log2)

/-- WN of a body in a partition of w lane groups with nv vector nodes (R235). -/
def nodeWidth (wnc w nv : Nat) : Nat := if wnc = 0 then autoWidth w nv else 2 ^ (wnc - 1)

/-- A vector operand field of a body outside it: a queue stands for its shadow register (R234). -/
def shadow (sb : Nat) (x : Field) : Field := if 48 ≤ x.toNat then BitVec.ofNat 6 (sb + (x.toNat - 48)) else x

/-- A half of a body with its queues renamed to shadow registers: A, B, and the fourth operand where it names a register. -/
def renameHalf (sb : Nat) (a b e : Bool) (o : VHalf) : VHalf :=
  { o with
    d := shadow sb o.d, a := if a then shadow sb o.a else o.a, b := if b then shadow sb o.b else o.b,
    pfx := o.pfx.map fun p => if e && p.ev = 1 then { p with e := shadow sb p.e } else p }

/-- A node with its queues renamed to shadow registers. -/
def rename (sb : Nat) : Instr → Instr
  | .vadd o => .vadd (renameHalf sb true true false o)
  | .vsub o => .vsub (renameHalf sb true true false o)
  | .vmul o => .vmul (renameHalf sb true true false o)
  | .vdiv o => .vdiv (renameHalf sb true true false o)
  | .vmin o => .vmin (renameHalf sb true true false o)
  | .vmax o => .vmax (renameHalf sb true true false o)
  | .vand o => .vand (renameHalf sb true true false o)
  | .vor o => .vor (renameHalf sb true true false o)
  | .vxor o => .vxor (renameHalf sb true true false o)
  | .vshl o => .vshl (renameHalf sb true true false o)
  | .vshr o => .vshr (renameHalf sb true true false o)
  | .vsra o => .vsra (renameHalf sb true true false o)
  | .vwadd o => .vwadd (renameHalf sb true true false o)
  | .vwmul o => .vwmul (renameHalf sb true true false o)
  | .vma o => .vma (renameHalf sb true true true o)
  | .vms o => .vms (renameHalf sb true true true o)
  | .vnma o => .vnma (renameHalf sb true true true o)
  | .vclamp o => .vclamp (renameHalf sb true true true o)
  | .vsqrt o => .vsqrt (renameHalf sb true false false o)
  | .vabs o => .vabs (renameHalf sb true false false o)
  | .vneg o => .vneg (renameHalf sb true false false o)
  | .vrcp o => .vrcp (renameHalf sb true false false o)
  | .vrsq o => .vrsq (renameHalf sb true false false o)
  | .vexp2 o => .vexp2 (renameHalf sb true false false o)
  | .vlog2 o => .vlog2 (renameHalf sb true false false o)
  | .vtanh o => .vtanh (renameHalf sb true false false o)
  | .vsigm o => .vsigm (renameHalf sb true false false o)
  | .vnot o => .vnot (renameHalf sb true false false o)
  | .vsatn o => .vsatn (renameHalf sb true false false o)
  | .vclass o => .vclass (renameHalf sb true false false o)
  | .vmv o => .vmv (renameHalf sb true false false o)
  | .vcvt o => .vcvt (renameHalf sb true false false o)
  | .vrsum o => .vrsum (renameHalf sb true false false o)
  | .vrmax o => .vrmax (renameHalf sb true false false o)
  | .vrmin o => .vrmin (renameHalf sb true false false o)
  | .vscan o => .vscan (renameHalf sb true false false o)
  | .vsplat o => .vsplat (renameHalf sb false false false o)
  | .qwr o => .qwr (renameHalf sb false false false o)
  | .qrd o => .qrd { o with a := shadow sb o.a }
  | .mrow o => .mrow { o with a := shadow sb o.a, b := shadow sb o.b }
  | .mrowsl o => .mrowsl { o with a := shadow sb o.a }
  | .vld o => .vld { o with d := shadow sb o.d }
  | .vlds o => .vlds { o with d := shadow sb o.d }
  | .vst o => .vst { o with d := shadow sb o.d }
  | .vsts o => .vsts { o with d := shadow sb o.d }
  | .vldx o => .vldx { o with d := shadow sb o.d, b := shadow sb o.b }
  | .vstx o => .vstx { o with d := shadow sb o.d, b := shadow sb o.b }
  | .vstxa o => .vstxa { o with d := shadow sb o.d, b := shadow sb o.b }
  | .mgpush o => .mgpush { o with b := shadow sb o.b, c := shadow sb o.c }
  | .mgpull o => .mgpull { o with d := shadow sb o.d }
  | i => i

/-- The conditions of a node under its own instruction's table of uses (R262), apart from its shape and its rows. -/
def nodeCauses (s : State) (sb : Nat) (i : Instr) : List Cause :=
  let f := s.h.cfg.vtype
  let r := rename sb i
  let t := { s with h := { s.h with cfg := { s.h.cfg with vl := 0 } } }
  match evalHalf r t with
  | some (.error cs) => cs ++ (match i with
    | .mrow o => when_ (!s.rowScaled && o.b != 0) (operand 0x01)
    | _ => [])
  | some (.ok _) => (match i with
    | .mrow o => when_ (!s.rowScaled && o.b != 0) (operand 0x01)
    | _ => [])
  | none => match r with
    | .vld o => fmVecCauses o t f false false
    | .vlds o => fmVecCauses o t f true false
    | .vst o => fmVecCauses o t f false true
    | .vsts o => fmVecCauses o t f true true
    | .vldx o => indexCauses o t f true false false ++ when_ (f = .e2m1) (operand 0x04)
    | .vstx o => indexCauses o t f false false true ++ when_ (f = .e2m1) (operand 0x04)
    | .vstxa o => indexCauses o t f false true true ++ when_ (!scatterFmt f) (operand 0x04)
    | .mgpush o => when_ (o.d != 0 || o.imm != 0 || decide (32 ≤ o.f.toNat)) (operand 0x01)
        ++ t.portCauses o [] [o.b.toNat, o.c.toNat]
        ++ (match t.liveSession (t.x o.a) with
          | none => [operand 0x06]
          | some (_, x) => t.streamCauses x (bits o.f.toNat 0 4))
    | .mgpull o => when_ (o.c != 0 || o.b != 0 || o.imm != 0 || o.f != 0) (operand 0x01)
        ++ t.portCauses o [o.d.toNat, o.d.toNat + 1] []
        ++ (match t.liveSession (t.x o.a) with
          | none => [operand 0x06]
          | some (_, x) => when_ (!t.owns x || x.out != 2) (operand 0x06))
    | _ => []

/-- Rows of the accumulator that a matrix node reaches beyond 255 (R231, R248): x[D] + N - 1, or x[D] + n - 1. -/
def rowRange (s : State) (n : Option Nat) (i : Instr) : List Cause :=
  let first := fun (d : Field) => (s.x d).toNat
  if s.h.cfg.vl = 0 then []
  else match i with
    | .mrow o => when_ (n != some 0 && decide (255 < first o.d + n.getD 1 - 1)) (operand 0x07)
    | .mrowsl o => when_ (s.x o.b != 0 && decide (255 < first o.d + (s.x o.b).toNat - 1)) (operand 0x07)
    | _ => []

/-- The queues a body uses. -/
def usedQueues (ns : List Node) : List Nat := ((ns.map Node.writes).flatten ++ (ns.map Node.reads).flatten).eraseDups

/-- The formats of a body's operands. -/
def bodyFormats (ns : List Node) : List Fmt := (ns.map fun n => (n.srcs ++ n.dsts).map (·.2)).flatten

/-- The register inputs of a body. -/
def registerInputs (ns : List Node) : List Nat :=
  ((ns.map fun n => n.srcs.map (·.1)).flatten).filter fun r => decide (r < 48)

/-- The inbound and outbound queues of the hart's link bindings. -/
def Hart.linksIn (h : Hart) : List Nat := (h.chain.links.filter (·.inbound)).map (·.queue)
/-- The outbound queues of the hart's link bindings. -/
def Hart.linksOut (h : Hart) : List Nat := (h.chain.links.filter fun b => !b.inbound).map (·.queue)

/-- The hart with its shadow registers free of errors: a binding does not read them. -/
def Hart.dropShadowErr (h : Hart) (sb : Nat) (qs : List Nat) : Hart :=
  { h with vec := { h.vec with verr := qs.foldl (fun e q => Sparse.set false e (sb + q) false) h.vec.verr } }

/-- The conditions of CHRUN on the binding (R234, R235, R237, R262). -/
def bindCauses (s : State) (b : Body) (n : Option Nat) (res : Bool) : List Cause :=
  let ns := b.nodes.map (nodeOf b.rowMode s)
  let all := ns.filterMap id
  let h := s.h
  let qs := usedQueues all
  let t := { s with h := h.dropShadowErr b.sb qs }
  let nv := (all.filter Node.isVector).length
  let ins := registerInputs all
  let masked := all.any fun m => m.mask.on
  (match bodyFault ns b.units h.linksIn h.linksOut with | some k => [bodyCause k] | none => [])
    ++ when_ (res != !h.linksIn.isEmpty) (operand 0x06)
    ++ when_ ((qs.any fun q => decide (h.cfg.vnr ≤ b.sb + q)) || ins.any fun r => qs.any fun q => b.sb + q == r) (operand 0x03)
    ++ when_ (decide (2 * h.lanes < nv * nodeWidth b.wnc h.lanes nv)) (operand 0x05)
    ++ h.shapeCauses (bodyFormats all)
    ++ when_ (h.cfg.vl == 0 && !b.rowMode && (!ins.isEmpty || masked)) (operand 0x05)
    ++ (b.nodes.map fun i => nodeCauses t b.sb i ++ rowRange s n i).flatten

/-- The conditions of CHRUN on its word (R236, R262). -/
def chrunFields (o : FI) : List Cause :=
  let immf := bit o.f.toNat 0
  let res := bit o.f.toNat 1
  when_ (o.d != 0 || bits o.f.toNat 2 8 != 0 || (immf && res) || ((res || immf) && o.a != 0) || (!immf && o.imm != 0))
    (operand 0x01)

/-- The die class that a body needs and the hart's die lacks, with the SUB of R414 (R413, R414). -/
def bodyLacks (h : Hart) (b : Body) : Option (Nat × Nat) :=
  let merge := b.nodes.any fun i => match i with | .mgpush _ | .mgpull _ => true | _ => false
  let matrix := b.nodes.any fun i => match i with | .mrowsl _ => true | _ => false
  let sub := if merge && matrix then 3 else 0
  if isBandwidth h.die && matrix then some (1, sub) else if !isBandwidth h.die && merge then some (2, sub) else none

end Sys2Proof.Machine
end

