-- ==== Sys2Proof/Machine/ChainRun.lean ====
section
/-!
DEFINITION. Chain runs: queues and beats (R238 to R244), release and completion (R245 to R248), links between segments
(R255 to R258, R357), and the temporal remainder (R261, R436).
-/
namespace Sys2Proof.Machine

/-! ## Runs, queues and segments -/

/-- The hart as its run sees it: the values read by R237, at the pc, the level and the place in program order of its CHRUN. -/
def Run.view (r : Run) (h : Hart) : Hart :=
  { h with
    pc := r.pc, po := r.po, x := r.xs, plv := r.plv, cfg := r.cfg, vec := { v := r.vs, m := r.ms },
    ar := { h.ar with frm := r.frm, srseed := r.srseed }, tensors := r.tensors }

/-- The open run of the hart with a key. -/
def State.runOf (s : State) (k : Nat) : Option Run := (s.hartAt k).chain.run

/-- The state with the run of a hart replaced. -/
def State.setRun (s : State) (k : Nat) (r : Run) : State :=
  s.updHart k fun h => { h with chain := { h.chain with run := some r } }

/-- A segment of a chain: its hart and what the hart's run sees, the number of that run, its nodes, its inbound queues, and
its outbound queues with their ports. -/
structure Segment where
  key : Nat
  run : Nat
  h : Hart
  ns : List Node
  ins : List Nat
  outs : List (Nat × Nat)

/-- The segment that a run executes. -/
def State.segment (s : State) (k : Nat) (r : Run) : Segment :=
  let h := r.view (s.hartAt k)
  { key := k, run := r.id, h := h, ns := r.body.nodes.filterMap (nodeOf r.body.rowMode { s with h := h }), ins := h.linksIn,
    outs := (h.chain.links.filter fun b => !b.inbound).map fun b => (b.queue, portOf b.west false) }

/-- Queue q of a run. -/
def Run.queue (r : Run) (q : Nat) : Queue := r.queues.getD q {}

/-- The run with a queue changed. -/
def Run.updQueue (r : Run) (q : Nat) (f : Queue → Queue) : Run := { r with queues := r.queues.modify q f }

/-- The run with the progress of a node changed. -/
def Run.updNode (r : Run) (i : Nat) (f : NodeSt → NodeSt) : Run := { r with nodes := r.nodes.modify i f }

/-- Beats that a queue holds (R244). -/
def Queue.occ (q : Queue) : Nat := (q.toks.filter Tok.isBeat).length

/-- The next token for a reader. -/
def Queue.head (q : Queue) (rd : Nat) : Option Tok := q.toks[(q.taken.lookup rd).getD 0]?

/-- The queue after a reader has taken its next token; a token leaves once every reader has taken it (R244). -/
def Queue.take (q : Queue) (readers : List Nat) (rd : Nat) : Queue :=
  let t := readers.map fun k => (k, (q.taken.lookup k).getD 0 + if k = rd then 1 else 0)
  if t.all fun p => decide (0 < p.2) then { q with toks := q.toks.tail, taken := t.map fun p => (p.1, p.2 - 1) }
  else { q with taken := t }

/-- The queue with the next beat of a reader cut after n elements, where it is longer: two beats take its place (R260). -/
def Queue.cut (q : Queue) (rd n : Nat) : Queue :=
  let i := (q.taken.lookup rd).getD 0
  match q.toks[i]? with
  | some (.beat row start v) =>
    if n < v.length then
      { q with
        toks := q.toks.take i ++ [.beat row start (v.take n), .beat row (start + n) (v.drop n)] ++ q.toks.drop (i + 1),
        taken := q.taken.map fun p => (p.1, if i < p.2 then p.2 + 1 else p.2) }
    else q
  | _ => q

/-- The queue with a token added. -/
def Queue.put (q : Queue) (t : Tok) : Queue := { q with toks := q.toks ++ [t] }

/-- The queues that a node reads beat by beat together; MROW's scale operand comes apart from its A operand (R248). -/
def Node.mainReads (n : Node) : List Nat :=
  match n.role with
  | .mrow => ((n.srcs.take 1).filterMap fun o => queueOf o.1)
  | _ => n.reads

/-- The queue of MROW's scale operand. -/
def Node.scaleQueue (n : Node) : Option Nat :=
  match n.role, n.srcs with
  | .mrow, [_, b] => queueOf b.1
  | _, _ => none

/-- The reader that keeps what a temporal strip writes into a queue (R261). -/
def keeper : Nat := 99

/-- The readers of a queue: node i, 32 + i for the scale operand of node i, 16 + p for an outbound port, and the keeper of
temporal execution. -/
def Segment.readers (c : Segment) (mode : RunMode) (q : Nat) : List Nat :=
  let ns := c.ns.zipIdx
  (ns.filterMap fun p => if p.1.mainReads.contains q then some p.2 else none)
    ++ (ns.filterMap fun p => if p.1.scaleQueue = some q then some (32 + p.2) else none)
    ++ (c.outs.filterMap fun o => if o.1 = q then some (16 + o.2) else none)
    ++ (if mode = .temporal then [keeper] else [])

/-- The format of a queue's elements: that of its writer, or that of the first reader of an inbound queue (R440). -/
def Segment.queueFmt (c : Segment) (q : Nat) : Fmt :=
  match (c.ns.map (·.dsts)).flatten.find? (fun o => queueOf o.1 = some q) with
  | some o => o.2
  | none => match (c.ns.map (·.srcs)).flatten.find? (fun o => queueOf o.1 = some q) with
    | some o => o.2
    | none => .s8

/-- A load port that feeds the scale operand of MROW alone (R239). -/
def Segment.scalePort (c : Segment) (n : Node) : Bool :=
  match n.role, n.writes with
  | .load, [q] => (match c.readers .chained q with | [k] => decide (32 ≤ k) | _ => false)
  | _, _ => false

/-- The row length of what a node takes (R239), given the row lengths of queues written before it: that of its first queue, VL0 for
a source. DESIGN CHOICE (log entry 23): R239 gives no RL to an elementwise node whose operands are all registers, which takes VL0
as VSPLAT does, nor to a VLDX whose index is a queue, which takes that queue's. -/
def Segment.inLen (c : Segment) (rls : List (Nat × Nat)) (n : Node) : Nat :=
  match n.mainReads with
  | q :: _ => (rls.lookup q).getD 0
  | [] => if c.scalePort n then ceilDiv c.h.cfg.vl 32 else c.h.cfg.vl

/-- The row length of every queue (R239). -/
def Segment.rowLens (c : Segment) (r : Run) : List (Nat × Nat) :=
  c.ns.foldl (fun rls n =>
    let out := match n.role with | .red _ => 1 | _ => c.inLen rls n
    rls ++ n.writes.map fun q => (q, out)) (c.ins.map fun q => (q, (r.queue q).rl))

/-- Elements of a beat (R235); a temporal strip moves whole. -/
def Run.be (r : Run) : Nat := if r.mode = .temporal then 2 ^ 40 else 16 * r.wn

/-- The elements or rows that have begun to arrive at a resident segment (R256). -/
def Segment.fed (c : Segment) (r : Run) : Nat :=
  match c.ins.map fun q => (r.queue q).fed with
  | [] => 0
  | a :: l => l.foldl min a

/-! ## What a node takes -/

/-- What a node handles next: a beat with the elements of each queue it reads, a row mark, or the end of the stream. -/
inductive Item where
  | beat (row start cnt : Nat) (vals : List (Nat × List Nat))
  | mark (row : Nat)
  | eos

/-- Bounds on a run's progress: whether queues have room without limit, where sources stop, and where every node stops
(R260, R432). -/
structure Bounds where
  free : Bool := false
  source : Option Nat := none
  all : Option Nat := none

/-- A bound, or a number beyond every position. -/
def limitOf (b : Option Nat) : Nat := b.getD (2 ^ 70)

/-- The lowest element or row at which a port of a run found a fault. -/
def Run.faultAt (r : Run) : Option Nat :=
  match r.breaks.map (·.g) with
  | [] => none
  | a :: l => some (l.foldl min a)

/-- The next item of a node that reads no queue: a source, or a node of register inputs (R238, R239). -/
def Segment.produce (c : Segment) (r : Run) (len : Nat) (st : NodeSt) (b : Bounds) : Option Item :=
  let lim := min (min (limitOf b.source) (limitOf b.all)) (limitOf r.faultAt)
  let bound := min lim (r.n.getD (c.fed r))
  if r.body.rowMode then
    if r.n = some st.row then some .eos
    else if st.row < bound then
      (if st.col < len then some (.beat st.row st.col (min r.be (len - st.col)) []) else some (.mark st.row))
    else none
  else if r.n = some st.col then some .eos
  else if st.col < bound ∧ (r.n.isSome ∨ b.free ∨ st.col + r.be ≤ bound) then
    some (.beat 0 st.col (min r.be (bound - st.col)) [])
  else none

/-- A beat trimmed to the elements below a bound; none where it holds none (R432). -/
def trimBeat (rowMode : Bool) (lim row start : Nat) (vals : List (Nat × List Nat)) : Option Item :=
  let cnt := match vals with | (_, v) :: _ => v.length | [] => 0
  if rowMode then (if row < lim then some (.beat row start cnt vals) else none)
  else if start < lim then some (.beat 0 start (min cnt (lim - start)) vals)
  else none

/-- The item that the heads of a node's queues form together: none while one has nothing, or while they differ in place or in
the number of elements below the bound (log entry 36). -/
def itemOf (rowMode : Bool) (lim : Nat) (heads : List (Nat × Option Tok)) : Option Item :=
  match heads with
  | (_, some .eos) :: l => if l.all fun p => p.2 = some .eos then some .eos else none
  | (_, some (.mark row)) :: l =>
    if row < lim ∧ l.all fun p => p.2 = some (.mark row) then some (.mark row) else none
  | (_, some (.beat row start v)) :: l =>
    let size := fun (v : List Nat) => if rowMode then v.length else min v.length (lim - start)
    let same := l.all fun p => match p.2 with
      | some (.beat row' start' v') => row' == row && start' == start && size v' == size v
      | _ => false
    if same then
      trimBeat rowMode lim row start (heads.filterMap fun p => match p.2 with
        | some (.beat _ _ v) => some (p.1, v)
        | _ => none)
    else none
  | _ => none

/-- The elements that the beats at the heads of a node's queues all hold; none where one is no beat. -/
def commonPart (heads : List (Option Tok)) : Option Nat :=
  heads.foldl (fun (n : Option Nat) t => match n, t with
    | some n, some (.beat _ _ v) => some (min n v.length)
    | _, _ => none) (some (2 ^ 70))

/-- As a drain takes from every input of a node what all of them hold, beats at the heads of its queues are cut to the elements
that they share (R260, R432). -/
def Segment.share (c : Segment) (r : Run) (i : Nat) : Run :=
  match c.ns[i]? with
  | none => r
  | some n => match commonPart (n.mainReads.map fun q => (r.queue q).head i) with
    | none => r
    | some m => n.mainReads.foldl (fun r q => r.updQueue q fun x => x.cut i m) r

/-- What node i handles next (R244). -/
def Segment.item (c : Segment) (r : Run) (rls : List (Nat × Nat)) (i : Nat) (n : Node) (b : Bounds) : Option Item :=
  let st := r.nodes.getD i {}
  if st.ended then none
  else match n.mainReads with
    | [] => c.produce r (c.inLen rls n) st b
    | qs =>
      let it := itemOf r.body.rowMode (min (limitOf b.all) (limitOf r.faultAt)) (qs.map fun q => (q, (r.queue q).head i))
      match n.scaleQueue, it with
      | some q, some (.mark row) => if (r.queue q).head (32 + i) = some (.mark row) then it else none
      | some q, some .eos => if (r.queue q).head (32 + i) = some .eos then it else none
      | _, _ => it

/-- The run after node i has taken an item from its queues, or has moved on. -/
def Segment.consume (c : Segment) (r : Run) (i : Nat) (n : Node) (it : Item) : Run :=
  let pull := fun (r : Run) (q rd : Nat) => r.updQueue q fun x => x.take (c.readers r.mode q) rd
  let r := n.mainReads.foldl (fun r q => pull r q i) r
  match it with
  | .beat _ _ cnt _ => if n.mainReads = [] then r.updNode i fun st => { st with col := st.col + cnt } else r
  | .mark row =>
    let r := match n.scaleQueue with | some q => pull r q (32 + i) | none => r
    r.updNode i fun st => { st with row := row + 1, col := 0 }
  | .eos =>
    let r := match n.scaleQueue with | some q => pull r q (32 + i) | none => r
    r.updNode i fun st => { st with ended := true }

/-! ## Elements -/

/-- A position of a beat: its place in the row or stream, the index of register inputs and masks, its flat index, and the
element or row it is released with (R238, R239). -/
structure Pos where
  j : Nat
  e : Nat
  col : Nat
  g : Nat
  unit : Nat

/-- The positions of a beat. -/
def positionsOf (r : Run) (len row start cnt : Nat) : List Pos :=
  (List.range cnt).map fun j =>
    let e := start + j
    if r.body.rowMode then ⟨j, e, e, row * len + e, row⟩ else ⟨j, e, e % r.cfg.vl, e, e⟩

/-- Source operand k of a node at a position. -/
def Segment.src (c : Segment) (n : Node) (k : Nat) (vals : List (Nat × List Nat)) (p : Pos) : Nat :=
  match n.srcs[k]? with
  | none => 0
  | some (field, f) => match queueOf field with
    | none => c.h.elem f (c.h.img field) 0 p.col
    | some q =>
      let v := ((vals.lookup q).getD []).getD p.j 0
      let w := (c.queueFmt q).width
      if w = f.width then v else Config.mixedElement w f.width v % 2 ^ f.width

/-- A position is active under the node's mask (R238, R239). -/
def Segment.active (c : Segment) (n : Node) (p : Pos) : Bool := n.mask.sel c.h 0 p.col

/-- What a masked position carries: zero, or the first source operand (R240). -/
def maskedValue (n : Node) (dst : Fmt) (first : Nat) : Nat :=
  match n.srcs with
  | (_, f) :: _ => if n.mask.zm ∨ f ≠ dst then 0 else first
  | [] => if n.mask.zm then 0 else first

/-- The format a node writes. -/
def Node.dst (n : Node) : Fmt := match n.dsts with | o :: _ => o.2 | [] => .s8

/-- The draw of node i for flat index g (R242). -/
def Segment.draw (c : Segment) (n : Node) (i g : Nat) : Nat := if n.rm = .srn then chainDraw c.h.ar.srseed i g else 0

/-- The result of an elementwise node or a constant stream at a position, with its flags. -/
def Segment.result (c : Segment) (i : Nat) (n : Node) (vals : List (Nat × List Nat)) (p : Pos) : Nat × Flags :=
  match n.role with
  | .elem op =>
    if c.active n p then
      op.eval n.rm (if op.rounds then c.draw n i p.g else 0) (c.src n 0 vals p) (c.src n 1 vals p) (c.src n 2 vals p)
    else (maskedValue n n.dst (c.src n 0 vals p), 0#6)
  | .const value base => (if c.active n p then value p.g else maskedValue n n.dst base, 0#6)
  | _ => (0, 0#6)

/-- The run with a token put into every queue that a node writes; the beats of several destinations differ in values. -/
def Run.emit (r : Run) (n : Node) (t : Tok) : Run := n.writes.foldl (fun r q => r.updQueue q fun x => x.put t) r

/-- Every queue that a node writes has room (R244). -/
def Run.room (r : Run) (n : Node) (free : Bool) : Bool := free || n.writes.all fun q => decide ((r.queue q).occ < 8)

/-- The loads of a port in ascending order up to the first that faults (R432): the state, the values, and the fault with its
position. -/
def Segment.loads (c : Segment) (n : Node) (len row : Nat) (vals : List (Nat × List Nat)) :
    List Pos → State → State × List Nat × Option (Pos × Cause)
  | [], s => (s, [], none)
  | p :: ps, s =>
    if c.active n p then
      let f := n.dst
      let at_ := n.place row len p.e (c.src n 0 vals p)
      match vecRead s c.h { vecLoad with port := some (c.run, p.g) } n.tile (fun _ => []) [⟨p.g, at_.byte, eltBytes f⟩] with
      | .error (m, s') => (s', [], some (p, m))
      | .ok (vs, s') =>
        let v := takeElem f at_ ((vs.map (·.2)).headD 0)
        let rest := c.loads n len row vals ps s'
        (rest.1, v :: rest.2.1, rest.2.2)
    else
      let rest := c.loads n len row vals ps s
      (rest.1, 0 :: rest.2.1, rest.2.2)

/-- The break that a port's fault makes (R432). -/
def breakOf (unit : Nat) (m : Cause) : Break := ⟨m.code, unit, m.addr, m.asp, m.rd, m.wr, m.scope⟩

/-- When the unused sub-element beside an element is written with it (R247). -/
def finOf (rowMode strided : Bool) (len : Nat) (p : Pos) : Nat :=
  if strided then (if !rowMode || p.e + 1 = len then 2 else 0)
  else if !rowMode || p.e + 1 = len then 1 else 0

/-- The stores of a beat, held at the store port (R245). -/
def Segment.holds (c : Segment) (rowMode : Bool) (i : Nat) (n : Node) (op : Option Nat) (strided : Bool) (len row : Nat)
    (vals : List (Nat × List Nat)) (ps : List Pos) : List HeldStore :=
  (ps.filter (c.active n)).map fun p =>
    let at_ := n.place row len p.e (c.src n 1 vals p)
    { unit := p.unit, g := p.g, node := i, addr := at_.byte, upper := at_.upper, tile := n.tile, value := c.src n 0 vals p,
      fmt := match n.srcs with | o :: _ => o.2 | [] => .s8, fin := finOf rowMode strided len p, op := op }

/-- The session of a merge port, with its network's key (R304). -/
def Segment.session (c : Segment) (s : State) (w : Word) : Option (Nat × Session) := { s with h := c.h }.liveSession w

/-- The tokens of the output that MGPULL may take beside those it holds: none where no limit applies, since every further
position takes the filler (R299), or the session had failed before the run opened (R448, R451). -/
def Segment.available (c : Segment) (s : State) (r : Run) (w : Word) : List (Nat × Nat) × Bool :=
  match c.session s w with
  | none => ([], true)
  | some (_, x) =>
    let rest := x.outq.drop r.pulled.length
    (rest, { x with outq := [] }.over || (x.failed && decide (x.failNo ≤ r.id)))

/-! ## The matrix nodes -/

/-- A row committed at the unit of a hart, in order, with its flags (R227, R248). -/
def State.commitRow (s : State) (k : Nat) (j : JoinRow) : State :=
  let h := s.hartAt k
  let u := (s.coreAt h.coreKey).mu
  if u.owner = some k then
    let x := u.accept j
    ((s.updCore h.coreKey fun c => { c with mu := x.1 }).sendRows h.coreKey (if u.joined then u.jn - 1 else 0) [j]).updHart k
      fun h => { h with ar := h.ar.credit x.2 }
  else s

/-- The row that MROW forms from its staged elements (R220, R248); none where no position below K is active. -/
def Segment.mrowRow (c : Segment) (s : State) (n : Node) (st : NodeSt) (first row : Nat) : Option JoinRow :=
  let u := (s.coreAt c.h.coreKey).mu
  let scale := fun (k : Nat) => match n.srcs[1]? with
    | none => 0
    | some (field, _) => if (queueOf field).isSome then st.staged2.getD (k / 32) 0 else c.h.elem .z8 (c.h.img field) 0 (k / 32)
  let els := ((st.staged.take u.k).zipIdx).map fun p => p.1.map fun v => (v, scale p.2)
  if els.any Option.isSome then some ⟨u.step, first + row, els, c.key⟩ else none

/-- The error mark that the commit of a row reads at the unit of a hart or at another member of its join (R425, log entry 51):
the break it makes at an element or row. -/
def State.rowBreak (s : State) (k : Nat) (j : JoinRow) (at_ : Nat) : Option Break :=
  let t := s.select k
  let u := t.core.mu
  if u.owner = some k then
    ((u :: t.otherMembers).map fun m => m.errCauses [j.row]).flatten.head?.map fun _ => ⟨0x23, at_, j.row, 3, true, false, 0⟩
  else none

/-- The first accumulator row of an MROW node. -/
def firstRow (r : Run) (i : Nat) : Nat :=
  match r.body.nodes[i]? with
  | some (.mrow o) => (Run.view r {}).getX o.d.toNat |>.toNat
  | _ => 0

/-- The output rows that MROWSL has decided: those committed, and in the temporal remainder those that wait for the release of
their strip (R248, R436). -/
def Run.decided (r : Run) : Nat := r.jdone + if r.mode = .temporal then r.rows.length else 0

/-- The output rows that MROWSL commits now (R221, R248): row j once it holds the elements of its window, or the stream has
ended. In the temporal remainder a row waits for the release of the input row that its window begins in (R436; log entry 55). -/
def Segment.slide (c : Segment) (stride first n i : Nat) : Nat → State × Run → State × Run
  | 0, x => x
  | fuel + 1, (s, r) =>
    let u := (s.coreAt c.h.coreKey).mu
    let st := r.nodes.getD i {}
    let j := r.decided
    if j < n ∧ c.h.cfg.vl ≠ 0 ∧ (st.ended ∨ j * stride + u.k ≤ st.base + st.staged.length) then
      let els := (List.range u.k).map fun k => ((st.staged.getD (j * stride + k - st.base) none).map fun v => (v, 0))
      let row : JoinRow := ⟨u.step, first + j, els, c.key⟩
      if r.mode = .temporal then
        let at_ := min (j * stride / c.h.cfg.vl) (r.n.getD (2 ^ 70) - 1)
        c.slide stride first n i fuel (s, { r with rows := r.rows ++ [(at_, row)] })
      else if els.any Option.isSome then match s.rowBreak c.key row (j * stride / c.h.cfg.vl) with
        | some b => (s, if r.breaks.contains b then r else { r with breaks := r.breaks ++ [b] })
        | none => c.slide stride first n i fuel (s.commitRow c.key row, { r with jdone := j + 1 })
      else c.slide stride first n i fuel (s, { r with jdone := j + 1 })
    else (s, r)

/-- The input rows that MROWSL holds (R248). -/
def slideHeld (r : Run) (vl stride : Nat) (st : NodeSt) : Nat :=
  if st.ended then r.n.getD st.row else if vl = 0 then st.row else min st.row (r.decided * stride / vl)

/-! ## One step of a node -/

/-- The flags of results, by element or row. -/
def flagList (ps : List Pos) (rs : List (Nat × Flags)) : List (Nat × Flags) :=
  ((ps.zip rs).map fun x => (x.1.unit, x.2.2)).filter fun x => x.2 ≠ 0#6

/-- A beat at node i: none while a queue it writes has no room, or while MGPULL waits for tokens. -/
def Segment.onBeat (c : Segment) (s : State) (r : Run) (i : Nat) (n : Node) (len : Nat) (free : Bool) (row start cnt : Nat)
    (vals : List (Nat × List Nat)) : Option (State × Run) :=
  let it := Item.beat row start cnt vals
  let ps := positionsOf r len row start cnt
  let rm := r.body.rowMode
  let next := fun (_ : Unit) => c.consume r i n it
  let hold := fun (r : Run) => if rm then r else r.updNode i fun st => { st with held := start + cnt }
  match n.role with
  | .elem _ | .const _ _ =>
    if r.room n free then
      let rs := ps.map (c.result i n vals)
      let r' := (next ()).emit n (.beat row start (rs.map (·.1)))
      some (s, { r' with flags := r'.flags ++ flagList ps rs })
    else none
  | .load =>
    if r.room n free then
      match c.loads n len row vals ps s with
      | (s', vs, none) => some (s', (next ()).emit n (.beat row start vs))
      | (s', vs, some (p, m)) =>
        let r' := if rm ∨ vs = [] then next () else (next ()).emit n (.beat row start vs)
        some (s', { r' with breaks := r'.breaks ++ [breakOf p.unit m] })
    else none
  | .pull w =>
    let act := ps.filter (c.active n)
    let av := c.available s r w
    if r.room n free && (decide (act.length ≤ av.1.length) || av.2) then
      let got := (act.map (·.e)).zip (av.1 ++ List.replicate act.length filler)
      let val := fun (p : Pos) => (got.lookup p.e).getD (0, 0)
      let r' := next ()
      let r' := { r' with pulled := r'.pulled ++ ((act.take av.1.length).map (·.unit)) }
      match n.writes with
      | [q, q'] =>
        some (s, (r'.updQueue q fun x => x.put (.beat row start (ps.map fun p => (val p).1))).updQueue q' fun x =>
          x.put (.beat row start (ps.map fun p => (val p).2)))
      | _ => some (s, r')
    else none
  | .store op strided =>
    let r' := hold (next ())
    some (s, { r' with stores := r'.stores ++ c.holds rm i n op strided len row vals ps })
  | .qrd _ =>
    let r' := hold (next ())
    some (s, match ps.getLast? with
      | some p => r'.updNode i fun st => { st with last := c.src n 0 vals p }
      | none => r')
  | .push _ _ _ =>
    let r' := hold (next ())
    some (s, { r' with
      pushes := r'.pushes ++ ((ps.filter (c.active n)).map fun p => (p.unit, i, c.src n 0 vals p, c.src n 1 vals p)) })
  | .red _ | .scan _ _ | .mrow | .mrowsl _ _ _ =>
    let add := ps.map fun p => if c.active n p then some (c.src n 0 vals p) else none
    let r' := (next ()).updNode i fun st => { st with staged := st.staged ++ add }
    match n.role with
    | .scan _ _ => some (s, r'.updNode i fun st => { st with staged2 := st.staged2 ++ ps.map (c.src n 0 vals) })
    | .mrowsl stride first m =>
      let x := c.slide stride first m i m (s, r')
      some (x.1, x.2.updNode i fun st => { st with held := slideHeld x.2 c.h.cfg.vl stride st })
    | _ => some (s, r')

/-- The row that a reduction or a scan emits from its staged elements, with its flags; a masked position of a scan carries
what R240 gives for its operand (R196, R197, R239, R240). -/
def Segment.rowResult (c : Segment) (i : Nat) (n : Node) (vals : List (Option Nat)) (ops : List Nat) (row : Nat) :
    List (Nat × Flags) :=
  let f := n.dst
  match n.role with
  | .red k => [reduce k f n.rm (if k.rounds f then c.draw n i row else 0) (vals.filterMap id)]
  | .scan k excl =>
    let res := scanRow k f n.rm (fun e => if k.rounds f then c.draw n i (row * vals.length + e) else 0) excl 0 [] vals
    res.zipIdx.map fun v => v.1.getD (maskedValue n f (ops.getD v.2 0), 0#6)
  | _ => []

/-- A row mark at node i. -/
def Segment.onMark (c : Segment) (s : State) (r : Run) (i : Nat) (n : Node) (free : Bool) (row : Nat) : Option (State × Run) :=
  let st := r.nodes.getD i {}
  let next := fun (_ : Unit) => c.consume r i n (.mark row)
  let hold := fun (r : Run) => r.updNode i fun st => { st with held := row + 1 }
  match n.role with
  | .elem _ | .const _ _ | .load | .pull _ => some (s, (next ()).emit n (.mark row))
  | .store _ _ | .qrd _ | .push _ _ _ => some (s, hold (next ()))
  | .red _ | .scan _ _ =>
    let res := if c.h.cfg.vl = 0 then [] else c.rowResult i n st.staged st.staged2 row
    let at_ := st.last
    if at_ < res.length then
      if r.room n free then
        let part := (res.drop at_).take r.be
        some (s, (r.emit n (.beat row at_ (part.map (·.1)))).updNode i fun st => { st with last := at_ + part.length })
      else none
    else
      let r' := ((next ()).emit n (.mark row)).updNode i fun st => { st with staged := [], staged2 := [], last := 0 }
      some (s, { r' with flags := r'.flags ++ (res.map fun x => (row, x.2)).filter fun x => x.2 ≠ 0#6 })
  | .mrow =>
    let j := c.mrowRow s n st (firstRow r i) row
    if 255 < firstRow r i + row ∧ j.isSome then none
    else
      let r' := (hold (next ())).updNode i fun st => { st with staged := [], staged2 := [] }
      some (s, match j with | some j => { r' with rows := r'.rows ++ [(row, j)] } | none => r')
  | .mrowsl stride _ _ =>
    let r' := next ()
    some (s, r'.updNode i fun st => { st with held := slideHeld r' c.h.cfg.vl stride st })

/-- The end-of-stream token at node i (R244). -/
def Segment.onEos (c : Segment) (s : State) (r : Run) (i : Nat) (n : Node) : Option (State × Run) :=
  let r' := (c.consume r i n .eos).emit n .eos
  match n.role with
  | .mrowsl stride first m =>
    let x := c.slide stride first m i m (s, r')
    some (x.1, x.2.updNode i fun st => { st with held := slideHeld x.2 c.h.cfg.vl stride st })
  | _ => some (s, r'.updNode i fun st => { st with held := r'.n.getD st.held })

/-- One step of node i (R244): none where it can do nothing. -/
def Segment.stepNode (c : Segment) (s : State) (r : Run) (i : Nat) (b : Bounds) : Option (State × Run) :=
  match c.ns[i]? with
  | none => none
  | some n =>
    let rls := c.rowLens r
    let scale : Option (State × Run) := match n.scaleQueue with
      | none => none
      | some q => match (r.queue q).head (32 + i) with
        | some (.beat _ _ v) =>
          some (s, (r.updQueue q fun x => x.take (c.readers r.mode q) (32 + i)).updNode i fun st =>
            { st with staged2 := st.staged2 ++ v })
        | _ => none
    match scale with
    | some x => some x
    | none => match c.item r rls i n b with
      | none => none
      | some (.beat row start cnt vals) => c.onBeat s r i n (c.inLen rls n) b.free row start cnt vals
      | some (.mark row) => c.onMark s r i n b.free row
      | some .eos => c.onEos s r i n

/-! ## Links -/

/-- The neighbour of a core across its east or west lane link (R100, R255). -/
def neighbour (die core : Nat) (west : Bool) : Nat × Nat :=
  if west then (if core = 0 then (westDie die, coreCount (westDie die) - 1) else (die, core - 1))
  else if core + 1 < coreCount die then (die, core + 1) else (eastDie die, 0)

/-- The core key and the port that an end of a link pairs with (R255). -/
def Hart.farPort (h : Hart) (west inbound : Bool) : Nat × Nat :=
  let n := neighbour h.die h.core west
  (n.1 * 64 + n.2, portOf (!west) (!inbound))

/-- The hart at the far end of a link binding of a hart, where it has an open run. -/
def State.partner (s : State) (h : Hart) (b : LinkBind) : Option Nat :=
  let p := h.farPort b.west b.inbound
  match (s.port p.1 p.2).holder with
  | none => none
  | some k => if (s.runOf k).isSome then some k else none

/-- The segments linked to a list of harts, and whether every link leads to an open run. -/
def State.reachChain (s : State) : Nat → List Nat → List Nat → Bool → List Nat × Bool
  | 0, _, seen, whole => (seen, whole)
  | _, [], seen, whole => (seen, whole)
  | fuel + 1, k :: todo, seen, whole =>
    let h := s.hartAt k
    let ps := h.chain.links.map fun b => s.partner h b
    let new := ((ps.filterMap id).filter fun p => !seen.contains p).eraseDups
    s.reachChain fuel (todo ++ new) (seen ++ new) (whole && ps.all Option.isSome)

/-- The segments of the chain of a hart, the hart first, and whether each link's far port is bound to an open run. -/
def State.chainOf (s : State) (k : Nat) : List Nat × Bool := s.reachChain 512 [k] [k] true

/-- The segments with each behind those that feed it. -/
def State.upstreamFirst (s : State) : Nat → List Nat → List Nat
  | 0, ks => ks
  | fuel + 1, ks =>
    match ks.find? fun k =>
        (s.hartAt k).chain.links.all fun b => !b.inbound || !((s.partner (s.hartAt k) b).any fun p => ks.contains p) with
    | none => ks
    | some k => k :: s.upstreamFirst fuel (ks.erase k)

/-- A die that no token may cross into: PARK or PKD is 1 (R439). -/
def State.dieParked (s : State) (d : Nat) : Bool := (s.dieAt d).park || (s.dieAt d).pkd

/-- The chain-lane module that a link of a hart crosses, where it leaves the die. -/
def Hart.linkModule (h : Hart) (west : Bool) : Option Nat :=
  let far := (neighbour h.die h.core west).1
  if far = h.die then none else some (chainModule (if west then far else h.die))

/-- A link of a hart crosses an edge whose chain-lane module is down (R455). -/
def State.linkCut (s : State) (h : Hart) (west : Bool) : Bool := (h.linkModule west).any fun m => !s.linkUp m

/-- The direction of a chain-lane module that an outbound port of a hart sends over, where its link crosses an edge. -/
def Hart.laneOut (h : Hart) (p : Nat) : Option (Nat × Nat) := (h.linkModule (decide (p % 2 = 1))).map fun m => (m, p % 2)

/-- Nothing leaves by an outbound port: its link leads into a parked die (R439), or over a module that is down (R455). -/
def Segment.blocked (c : Segment) (s : State) (p : Nat) : Bool :=
  let die := (c.h.farPort (decide (p % 2 = 1)) false).1 / 64
  (die != c.h.die && s.dieParked die) || s.linkCut c.h (decide (p % 2 = 1))

/-- A record of a queue leaves by an outbound port (R257, R357): within a die into the FIFO of the far port, over an edge into the
byte stream of the chain lanes. -/
def Segment.sendOut (c : Segment) (s : State) (q p : Nat) (t : Tok) : State :=
  let x : LinkRec := ⟨t, widthCode (c.queueFmt q).width⟩
  let far := c.h.farPort (decide (p % 2 = 1)) false
  match c.h.laneOut p with
  | none => s.updPort far.1 far.2 fun y => { y with fifo := y.fifo ++ [x] }
  | some (m, w) => s.sendRecord m w x

/-- An outbound port can send a beat (R357): the FIFO of a far port within the die has room for 16; over an edge the sender holds a
beat permit. -/
def Segment.hasPermit (c : Segment) (s : State) (p : Nat) : Bool :=
  let far := c.h.farPort (decide (p % 2 = 1)) false
  match c.h.laneOut p with
  | none => decide (((s.port far.1 far.2).fifo.filter fun (y : LinkRec) => y.tok.isBeat).length < 16)
  | some (m, w) => decide ((s.pool (lanePool m w)).spent 0 < 16)

/-- The next token of an outbound port leaves on its link. -/
def Segment.forward (c : Segment) (s : State) (r : Run) (q p : Nat) (free : Bool) : Option (State × Run) :=
  match (r.queue q).head (16 + p) with
  | none => none
  | some t =>
    if !c.blocked s p && (free || !t.isBeat || c.hasPermit s p) then
      some (c.sendOut s q p t, r.updQueue q fun x => x.take (c.readers r.mode q) (16 + p))
    else none

/-- Whole beats formed from the elements that have arrived, and from what is left at a row's or the stream's end (R257). -/
def Queue.regroup (q : Queue) (be : Nat) (flush : Bool) : Nat → Queue
  | 0 => q
  | fuel + 1 =>
    let m := min be q.part.length
    if m = 0 ∨ (m < be ∧ !flush) then q
    else
      Queue.regroup { q with toks := q.toks ++ [.beat q.row q.next (q.part.take m)], part := q.part.drop m, next := q.next + m }
        be flush fuel

/-- A record enters an inbound queue (R256, R257). -/
def Run.arrive (r : Run) (q : Nat) (t : Tok) : Run :=
  let rm := r.body.rowMode
  let grow := fun (x : Queue) (flush : Bool) => x.regroup r.be flush (x.part.length + 1)
  match t with
  | .beat _ _ v =>
    r.updQueue q fun x =>
      grow { x with part := x.part ++ v, fed := if rm then x.row + 1 else x.fed + v.length } (decide (r.mode = .temporal))
  | .mark _ =>
    if rm then
      r.updQueue q fun x =>
        let y := grow { x with rl := x.next + x.part.length, fed := x.row + 1 } true
        { y with toks := y.toks ++ [.mark x.row], row := x.row + 1, next := 0 }
    else r
  | .checkpoint => r.updQueue q fun x => grow x true
  | .eos =>
    let x := r.queue q
    let n := if rm then x.row else x.next + x.part.length
    { r with n := some (r.n.getD n) }.updQueue q fun x => (grow x true).put .eos

/-- An inbound queue has room for a record. -/
def Run.canArrive (r : Run) (q : Nat) (t : Tok) (free : Bool) : Bool :=
  let x := r.queue q
  match t with
  | .beat _ _ v => free || decide (x.occ + (x.part.length + v.length) / r.be ≤ 8)
  | _ => free || decide (x.occ < 8) || x.part.isEmpty

/-- The next record of an inbound port enters its queue; none where there is none, it has no room, or its width differs. -/
def Segment.receive (c : Segment) (s : State) (r : Run) (q p : Nat) (free : Bool) : Option (State × Run) :=
  match (s.port c.h.coreKey p).fifo with
  | [] => none
  | x :: rest =>
    if x.ew = widthCode (c.queueFmt q).width ∧ r.canArrive q x.tok free then
      some ((s.updPort c.h.coreKey p fun y => { y with fifo := rest }).leaveFifo c.h.coreKey p x, r.arrive q x.tok)
    else none

/-- The inbound queues of a hart with their ports. -/
def Hart.inPorts (h : Hart) : List (Nat × Nat) := (h.chain.links.filter (·.inbound)).map fun b => (b.queue, portOf b.west true)

/-! ## Release -/

/-- The matrix node of a segment is an MROWSL. -/
def Segment.slides (c : Segment) : Bool := c.ns.any fun n => match n.role with | .mrowsl _ _ _ => true | _ => false

/-- The elements or rows that every sink of a segment holds, none for a segment without a sink (R245). -/
def Segment.held (c : Segment) (r : Run) : List Nat :=
  (c.ns.zipIdx.filter fun p => p.1.isSink).map fun p => (r.nodes.getD p.2 {}).held

/-- The elements or rows that every sink of a chain holds (R245, R257). -/
def State.heldBy (s : State) (ks : List Nat) : Nat :=
  match (ks.map fun k => match s.runOf k with | some r => (s.segment k r).held r | none => [0]).flatten with
  | [] => 0
  | a :: l => l.foldl min a

/-- N of a chain: that of the segment where it is known (R256). -/
def State.chainCount (s : State) (ks : List Nat) : Option Nat := ks.findSome? fun k => (s.runOf k).bind (·.n)

/-- The element access of a held store. -/
def HeldStore.elt (x : HeldStore) : Elt := ⟨x.g, x.addr, eltBytes x.fmt⟩

/-- What a held store leaves in its bytes, at the release of its element as the last of the run or not (R247). -/
def HeldStore.put (x : HeldStore) (last : Bool) : Nat × Nat :=
  putElem x.fmt ⟨x.addr, x.upper⟩ x.value (x.fin = 2 || (x.fin = 1 && last))

/-- The kind of the access of a held store of a run. -/
def HeldStore.acc (x : HeldStore) (run : Nat) : Acc :=
  { (if x.op.isSome then vecAtomic else vecStore) with port := some (run, x.g) }

/-- The fault that the stores of one element or row meet, with the state it leaves (R425, R430, R432). -/
def storesFault (s : State) (h : Hart) (run : Nat) : List HeldStore → Option (Cause × State)
  | [] => none
  | x :: l =>
    let xs := x :: l
    match resolveElts s h (x.acc run) x.tile (fun _ => []) (xs.map HeldStore.elt) with
    | .error c => some (c, s)
    | .ok es => es.findSome? fun e => performFaults s h (x.acc run) (e.1.addr % 2 ^ 64) e.2

/-- The stores of one element or row performed. -/
def State.perform (s : State) (h : Hart) (run : Nat) (last : Bool) (xs : List HeldStore) : State :=
  match xs with
  | [] => s
  | x :: _ =>
    let es := xs.map HeldStore.elt
    match (match x.op with
      | some op => vecModify s h (x.acc run) x.tile (scatterOp op x.fmt) es (xs.map HeldStore.value)
      | none => vecWrite s h (x.acc run) x.tile (fun _ => []) es (xs.map fun y => HeldStore.put y last)) with
    | .ok s' => s'
    | .error _ => s

/-- A merge session that a segment pushes into or pulls from is frozen: the port passes nothing. -/
def Segment.mergeStops (c : Segment) (s : State) : Bool :=
  c.ns.any fun n => match n.role with
    | .push w _ _ | .pull w => (match c.session s w with | some (_, x) => x.frozen | none => false)
    | _ => false

/-- The tokens that one element passes between a segment and its merge sessions (R298, R299); a stream that MGCLOSE has closed
takes none (R303, log entry 53). -/
def Segment.passTokens (c : Segment) (s : State) (r : Run) (u : Nat) : State :=
  c.ns.zipIdx.foldl (fun s p => match p.1.role with
    | .push w st _ => (r.pushes.filter fun t => t.1 = u ∧ t.2.1 = p.2).foldl (fun s t => match c.session s w with
        | some (key, x) =>
          s.setSession key (some (x.take ({ s with h := c.h }.pushItem st false [(t.2.2.1, t.2.2.2)])))
        | none => s) s
    | .pull w => if r.pulled.contains u then (match c.session s w with
        | some (key, x) => s.setSession key (some { x with outq := x.outq.drop 1, outCount := x.outCount + 1 })
        | none => s) else s
    | _ => s) s

/-- A matrix row that a run holds is committed as its input row is released: MROWSL, whose rows wait in the temporal remainder
alone, counts it in JDONE, and commits it where a position of its window is active (R221, R248, R436). -/
def State.releaseRow (s : State) (k : Nat) (j : JoinRow) : State := if j.els.any Option.isSome then s.commitRow k j else s

/-- One segment releases an element or a row: its stores, its matrix row, its tokens and its flags (R241, R245). -/
def State.releaseAt (s : State) (last : Bool) (k : Nat) : State :=
  match s.runOf k with
  | none => s
  | some r =>
    let c := s.segment k r
    let u := r.cur
    let s := s.perform c.h r.id last (r.stores.filter fun x => x.unit = u)
    let s := (r.rows.filter fun x => x.1 = u).foldl (fun s x => s.releaseRow k x.2) s
    let s := c.passTokens s r u
    let s := s.updHart k fun h =>
      { h with
        ar := h.ar.credit (r.flags.filter fun x => x.1 = u), chr := { h.chr with chcur := word (u + 1) } }
    s.setRun k { r with
      cur := u + 1, jdone := r.jdone + (if r.mode = .temporal ∧ c.slides then (r.rows.filter fun x => x.1 = u).length else 0),
      stores := r.stores.filter fun x => x.unit ≠ u, rows := r.rows.filter fun x => x.1 ≠ u,
      pushes := r.pushes.filter fun t => t.1 ≠ u, pulled := r.pulled.filter fun t => t ≠ u,
      flags := r.flags.filter fun x => x.1 ≠ u }

/-- The faults that the stores and the matrix row of the next element or row of each segment meet (R425, R432). -/
def State.releaseFaults (s : State) (ks : List Nat) : State × Bool :=
  ks.foldl (fun (st : State × Bool) k => match st.1.runOf k with
    | none => st
    | some r => match storesFault st.1 (r.view (st.1.hartAt k)) r.id (r.stores.filter fun x => x.unit = r.cur) with
      | some (m, s') => (s'.setRun k { r with breaks := r.breaks ++ [breakOf r.cur m] }, true)
      | none => match (r.rows.filter fun x => x.1 = r.cur).findSome? fun x => st.1.rowBreak k x.2 r.cur with
        | some b => (st.1.setRun k { r with breaks := r.breaks ++ [b] }, true)
        | none => st) (s, false)

/-- The next element or row of a chain is released once every sink holds it, and no port has found a fault at or below it
(R245, R257, R432). -/
def State.releaseOne (s : State) (ks : List Nat) : Option State :=
  match ks with
  | [] => none
  | k :: _ => match s.runOf k with
    | none => none
    | some r =>
      let stops := ks.any fun j => match s.runOf j with
        | some x => decide (limitOf x.faultAt ≤ x.cur) || (s.segment j x).mergeStops s || !(s.hartAt j).live
        | none => true
      if s.heldBy ks ≤ r.cur ∨ stops then none
      else match s.releaseFaults ks with
        | (s', true) => some s'
        | (_, false) => some (ks.foldl (State.releaseAt · (s.chainCount ks == some (r.cur + 1))) s)

/-- Everything that may be released is released. -/
def State.release (ks : List Nat) : Nat → State → State
  | 0, s => s
  | fuel + 1, s => match s.releaseOne ks with
    | some s' => State.release ks fuel s'
    | none => s

/-- More steps than a chain can take at once. -/
def chainFuel : Nat := 2 ^ 64

/-- The chain of a hart releases what it can. -/
def State.releaseChain (s : State) (k : Nat) : State :=
  let ch := s.chainOf k
  if ch.2 then State.release ch.1 chainFuel s else s

/-! ## Ends of a run -/

/-- What MROWSL keeps of its staging where its run goes on from the cursor: the flat elements of rows below the cursor from the
next window's first on, with the place of the first (R248, R435; log entry 55). -/
def Run.keptWindow (r : Run) (i stride : Nat) : Nat × List (Option Nat) :=
  let st := r.nodes.getD i {}
  let end_ := r.cur * r.cfg.vl
  let from_ := min (max (r.jdone * stride) st.base) end_
  (from_, (st.staged.take (end_ - st.base)).drop (from_ - st.base))

/-- A run made ready to go on from its cursor in a mode: queues empty, every node at the cursor (R260, R261). -/
def Run.restart (r : Run) (mode : RunMode) : Run :=
  let rm := r.body.rowMode
  { r with
    mode := mode, stores := [], rows := [], pushes := [], pulled := [], flags := [], breaks := [],
    queues := (List.range 16).map fun q =>
      { row := if rm then r.cur else 0, next := if rm then 0 else r.cur, rl := (r.queue q).rl, fed := r.cur },
    nodes := r.body.nodes.zipIdx.map fun p =>
      let kept := match p.1 with | .mrowsl o => r.keptWindow p.2 (o.c.toNat % 32 + 1) | _ => (0, [])
      { row := if rm then r.cur else 0, col := if rm then 0 else r.cur, held := r.cur, base := kept.1, staged := kept.2,
        last := match p.1 with | .qrd _ => (r.nodes.getD p.2 {}).last | _ => 0 } }

/-- The FIFOs of the inbound ports of a hart emptied. -/
def State.emptyPorts (s : State) (k : Nat) : State :=
  let h := s.hartAt k
  h.inPorts.foldl (fun s p => s.emptyPort h.coreKey p.2) s

/-- A run that has reached its end: the token has passed every node, or its temporal remainder is done; and every element is
released (R246). -/
def Run.finished (r : Run) : Bool :=
  r.n = some r.cur && (match r.mode with
    | .chained => r.nodes.all (·.ended)
    | .temporal => true
    | .parked => false)

/-- Whether the instruction of a node rounds, in the sense of R61. -/
def Node.rounds (n : Node) : Bool :=
  match n.role with
  | .elem op => op.rounds
  | .red k | .scan k _ => k.rounds n.dst
  | _ => false

/-- The shadow registers of a body zero in every bit (R246). -/
def Hart.zeroShadows (h : Hart) (sb : Nat) (qs : List Nat) : Hart :=
  { h with
    vec := { h.vec with
      v := qs.foldl (fun v q => Sparse.set 0 v (sb + q) 0) h.vec.v,
      vhw := qs.foldl (fun v q => Sparse.set 0 v (sb + q) 0) h.vec.vhw,
      verr := qs.foldl (fun v q => Sparse.set false v (sb + q) false) h.vec.verr } }

/-- The run of a hart completes (R246, R254, R298). -/
def State.completeRun (s : State) (k : Nat) : State :=
  match s.runOf k with
  | none => s
  | some r =>
    let c := s.segment k r
    let s := c.ns.foldl (fun s n => match n.role with
      | .push w st true => (match c.session s w with
        | some (key, x) => s.setSession key (some (x.take ({ s with h := c.h }.pushItem st true [])))
        | none => s)
      | _ => s) s
    (s.updHart k fun h =>
      let h := c.ns.zipIdx.foldl (fun h p => match p.1.role, p.1.srcs with
        | .qrd d, (_, f) :: _ => h.setX d (extend f (r.nodes.getD p.2 {}).last)
        | _, _ => h) h
      let steps := if r.n = some 0 then 0 else (c.ns.filter fun n => n.rounds && n.rm == .srn).length
      let h := h.zeroShadows r.body.sb (usedQueues c.ns)
      { h with
        ar := { h.ar with srseed := seedSteps steps h.ar.srseed }, chain := { h.chain with run := none },
        chr := { h.chr with run := false, tmp := false, qstat := if h.chr.deg then h.chr.qstat else 0 } }).emptyPorts k

/-- CHAIN_RUN_COMPLETE (R246, R257): every segment of the chain completes at once, unless one is frozen (R396). -/
def execChainRunComplete (s : State) : Out :=
  let ch := s.chainOf s.input.who
  if ch.2 ∧ ch.1.all fun k => match s.runOf k with | some r => r.finished && (s.hartAt k).live | none => false then
    .next (ch.1.foldl State.completeRun s)
  else .next s

/-! ## CHRUN and CHAIN_BEAT -/

/-- The count of a CHRUN, none for the resident form (R236). -/
def chrunCount (o : FI) (s : State) : Option Nat :=
  if bit o.f.toNat 1 then none else some (if bit o.f.toNat 0 then o.imm.toNat else (s.x o.a).toNat)

/-- The run that CHRUN opens (R235 to R237, R261). -/
def State.openRun (s : State) (b : Body) (n : Option Nat) : Run :=
  let h := s.h
  let nv := ((b.nodes.filterMap (nodeOf b.rowMode s)).filter Node.isVector).length
  Run.restart
    { id := s.serial, po := h.po, pc := h.pc, plv := h.plv, n := n, res := n.isNone, body := b, xs := h.x, vs := h.vec.v, ms := h.vec.m, cfg := h.cfg,
      frm := h.ar.frm, srseed := h.ar.srseed, tensors := h.tensors, wn := nodeWidth b.wnc h.lanes nv, mode := .chained,
      cur := 0, jdone := 0, queues := [], nodes := [], stores := [], rows := [], pushes := [], pulled := [], flags := [],
      breaks := [] }
    (if h.chr.noch then .temporal else .chained)

/-- A run of an unlinked hart that moves no data: N = 0, or rows without elements (R238, R239). -/
def Run.idle (r : Run) (h : Hart) : Bool :=
  h.chain.links.isEmpty && (r.n == some 0 || (r.body.rowMode && r.cfg.vl == 0 && r.n.isSome))

/-- The streams that the MGPUSH nodes of a body name are bound to the strip (R287, log entry 53). -/
def State.bindPushes (s : State) (b : Body) : State :=
  b.nodes.foldl (fun s i => match i with
    | .mgpush o => match s.liveSession (s.x o.a) with
      | some (key, x) =>
        s.setSession key (some (x.bind (bits o.f.toNat 0 4) (s.h.launch.getD 0) s.h.stripId.toNat))
      | none => s
    | _ => s) s

/-- A hart whose CHRUN has opened a run (R236, R251 to R254, R256). -/
def State.startRun (s : State) (r : Run) : State :=
  let s := s.bindPushes r.body
  let s1 : State := { s with serial := s.serial + 1, h := { s.h with
      chain := { s.h.chain with run := some r },
      chr := { s.h.chr with
        chcur := 0, brk := 0, deg := false, tmp := false, res := r.res, run := true, wn := log2 r.wn, qstat := 0 } } }
  if r.idle s.h then
    let done := { r with cur := r.n.getD 0 }
    ({ s1 with h := { s1.h with
        chain := { s1.h.chain with run := some done }, chr := { s1.h.chr with chcur := word (r.n.getD 0) } } }).completeRun s.h.key
  else s1

/-- The parked run of a hart goes on (R433). -/
def Hart.resumeRun (h : Hart) : Hart :=
  { h with chain := { h.chain with run := h.chain.run.map fun r => r.restart .temporal } }

/-- CHRUN (R236, R237, R262, R413, R433). -/
def execChrun (o : FI) (s : State) : Out :=
  let mine : Bool := match s.h.chain.run with | some r => r.mode == .parked && r.pc == s.h.pc | none => false
  match s.h.chain.body with
  | none => orTrap s (chrunFields o ++ [operand 0x06]) (.next s)
  | some b => match bodyLacks s.h b with
    | some l => .next (s.stopLacking l.1 l.2)
    | none =>
      if mine then orTrap s (chrunFields o) (.next ({ s with h := s.h.resumeRun }.advance 8))
      else
        let n := chrunCount o s
        orTrap s (chrunFields o ++ when_ s.h.parked (operand 0x06) ++ bindCauses s b n n.isNone)
          (.next ((s.startRun (s.openRun b n)).advance 8))

/-- A beat of the chain of a hart (R244, R245): node i takes what its queues hold, or the next token crosses link port
i - 16; then what every sink holds is released. -/
def State.beatAt (s : State) (k i : Nat) : State :=
  match s.runOf k with
  | none => s
  | some r =>
    if r.mode = .chained ∧ (s.hartAt k).live then
      let c := s.segment k r
      let step := if i < 16 then c.stepNode s r i {} else match c.outs.find? fun o => o.2 + 16 = i with
        | some o => c.forward s r o.1 o.2 false
        | none => none
      match step with
      | none => s.releaseChain k
      | some (s', r') => (s'.setRun k r').releaseChain k
    else s

/-- CHAIN_BEAT (R244, R245): a beat of the chain of the hart named, at the node or port named. -/
def execChainBeat (s : State) : Out := .next (s.beatAt s.input.who s.input.which)

/-- GATED_UNIT_RESUME (R258): a lane group or a core that gating had stopped resumes, and the token that it held back
proceeds; gating changes timing alone, and the input names the hart and the node or port of that token. -/
def execGatedUnitResume (s : State) : Out := .next (s.beatAt s.input.who s.input.which)

/-! ## Draining -/

/-- What is under way over the edges that the outbound ports of a segment cross arrives; none where there is nothing. -/
def State.pumpLanes (s : State) (c : Segment) : Option State :=
  (c.outs.findSome? fun o => (c.h.laneOut o.2).filter fun x => s.laneBusy x.1 x.2).map fun x => s.pumpLane x.1 x.2

/-- The first step that a segment of a chain can take under bounds. -/
def State.segmentStep (s : State) (b : Bounds) (k : Nat) : Option State :=
  match s.runOf k with
  | none => none
  | some r =>
    let c := s.segment k r
    let x : Option (State × Run) := match (List.range c.ns.length).findSome? fun i => c.stepNode s r i b with
      | some x => some x
      | none => match c.outs.findSome? fun o => c.forward s r o.1 o.2 b.free with
        | some x => some x
        | none => match s.pumpLanes c with
          | some s => some (s, r)
          | none => match c.h.inPorts.findSome? fun p => c.receive s r p.1 p.2 b.free with
            | some x => some x
            | none =>
              if b.free then
                ((List.range c.ns.length).map (c.share r)).findSome? fun r' => if r' = r then none else some (s, r')
              else none
    x.map fun x => x.1.setRun k x.2

/-- A chain moves under bounds until nothing can move. -/
def State.settleChain (ks : List Nat) (b : Bounds) : Nat → State → State
  | 0, s => s
  | fuel + 1, s => match ks.findSome? (s.segmentStep b) with
    | some s' => State.settleChain ks b fuel s'
    | none => s

/-- The checkpoint markers of a segment leave by its outbound ports, behind every element that it has sent (R257, R260, R357). -/
def State.sendMarkers (s : State) (k : Nat) : State :=
  match s.runOf k with
  | none => s
  | some r =>
    let c := s.segment k r
    c.outs.foldl (fun s o => if c.blocked s o.2 then s else c.sendOut s o.1 o.2 .checkpoint) s

/-- A chain drained (R260, R432): its sources have stopped; each node takes what it holds on all its inputs, and the markers of
each segment follow over its links, those that feed others first. -/
def State.drainChain (ks : List Nat) (b : Bounds) (s : State) : State :=
  (s.upstreamFirst 512 ks).foldl (fun s k => State.settleChain ks b chainFuel (s.sendMarkers k)) (State.settleChain ks b chainFuel s)

/-- QSTAT of a run (R254). -/
def Run.qstat (r : Run) : Word :=
  word ((List.range 16).foldl (fun n q => n + min 8 (r.queue q).occ * 16 ^ q) 0)

/-- A break recorded on a hart (R252, R254, R431). -/
def State.recordBreak (s : State) (k brk : Nat) (q : Word) : State :=
  s.updHart k fun h => { h with chr := { h.chr with brk := brk, deg := true, qstat := q } }

/-- The run of a hart goes on in a mode from its cursor. -/
def State.restartRun (s : State) (k : Nat) (mode : RunMode) : State :=
  match s.runOf k with
  | none => s
  | some r => (s.setRun k (r.restart mode)).emptyPorts k

/-- The queues of a run as a break finds them; none where it does not stream. -/
def State.streaming (s : State) (k : Nat) : Option Word :=
  match s.runOf k with
  | some r => if r.mode = .chained then some r.qstat else none
  | none => none

/-- The break by pre-emption (R259, R260): the chain of a hart that streams is drained, and each of its segments goes on
temporally. -/
def State.breakChain (s : State) (k : Nat) : State :=
  match s.streaming k with
  | none => s
  | some _ =>
    let ch := s.chainOf k
    let qs := ch.1.map fun j => (j, s.streaming j)
    let s := State.drainChain ch.1 { free := true, source := some 0 } s
    let s := if ch.2 then State.release ch.1 chainFuel s else s
    qs.foldl (fun s p => match p.2 with
      | some q => (s.recordBreak p.1 0x01 q).restartRun p.1 .temporal
      | none => s) s

/-- A trap of a chain break at the CHRUN of a hart (R433, R441); a freeze for KEY (R394). -/
def State.trapChain (s : State) (k : Nat) (pc : Word) (c : Cause) : State :=
  let t := s.select k
  let u := { t with h := { t.h with pc := pc, wait := none } }
  let v := if c.code = 0x72 then u.freezeHart c
    else u.enterTrap c pc false false (some (u.hartRec u.h c true false pc))
  v.select s.h.key

/-- The cause of STREAM from the faults of a segment's own ports (R402, R432): the lowest CODE, at the lowest element that
has it; KEY freezes (R394). -/
def streamCause (bs : List Break) (cur : Nat) : Option Cause :=
  match bs with
  | [] => none
  | b :: l =>
    let x := l.foldl (fun x y => if y.code < x.code ∨ (y.code = x.code ∧ y.g < x.g) then y else x) b
    some { code := if x.code = 0x72 then 0x72 else 0x30, sub := if x.code = 0x72 then 0 else x.code, tval := x.addr,
           addr := x.addr, asp := x.asp, rd := x.rd, wr := x.wr, scope := x.scope, index := cur, done := cur }

/-- One segment of a chain that a port's fault broke (R432 to R436): a segment whose own port faulted parks its run and
traps; another goes on temporally. A segment whose hart is frozen does neither (R396). -/
def State.endStream (s : State) (k : Nat) (q : Option Word) : State :=
  match s.runOf k with
  | none => s
  | some r =>
    if !(s.hartAt k).live then s
    else
    let brk := if r.breaks = [] then 0x05 else 0x02
    let s := match q with
      | some v => s.recordBreak k brk v
      | none => (s.recordBreak k brk (s.hartAt k).chr.qstat).updHart k fun h => { h with chr := { h.chr with tmp := true } }
    match streamCause r.breaks r.cur with
    | none => s.restartRun k .temporal
    | some c => (s.restartRun k .parked).trapChain k r.pc c

/-- The lowest element or row at which a port of a chain found a fault (R432). -/
def State.chainFault (s : State) (ks : List Nat) : Option Nat :=
  match ks.filterMap fun k => (s.runOf k).bind Run.faultAt with
  | [] => none
  | a :: l => some (l.foldl min a)

/-- Every run of a chain stands at a cursor. -/
def State.allAt (s : State) (ks : List Nat) (g : Nat) : Bool :=
  ks.all fun k => match s.runOf k with | some r => r.cur == g | none => false

/-- MROWSL holds every row that has reached it whole, as a drain ends: what its next windows need of them it keeps (R432, R435;
log entry 55). -/
def State.holdSlides (s : State) (k : Nat) : State :=
  match s.runOf k with
  | none => s
  | some r =>
    let c := s.segment k r
    s.setRun k { r with nodes := r.nodes.zipIdx.map fun p => match (c.ns[p.2]?).map (·.role) with
      | some (.mrowsl _ _ _) => { p.1 with held := max p.1.held p.1.row }
      | _ => p.1 }

/-- A chain that streams drained up to an element or row at which a port found a fault (R432). -/
def State.drainTo (s : State) (ks : List Nat) (g : Nat) : State :=
  let s := State.drainChain ks { free := true, source := some g, all := some g } s
  State.release ks chainFuel (ks.foldl State.holdSlides (State.release ks chainFuel s))

/-- CHAIN_STREAM_BREAK (R431 to R436): the chain in which a port found a fault drains up to the lowest faulting element, and
once the cursor stands there its segments trap or go on temporally; a chain in its temporal remainder does so at its cursor. -/
def execChainStreamBreak (s : State) : Out :=
  let ch := s.chainOf s.input.who
  let ks := ch.1
  match s.chainFault ks with
  | none => .next s
  | some g =>
    let qs := ks.map fun k => (k, s.streaming k)
    let stop := fun (t : State) => qs.foldl (fun s p => s.endStream p.1 p.2) t
    if !(s.hartAt s.input.who).live then .next s
    else if qs.all fun p => p.2.isSome then
      let t := if ch.2 then s.drainTo ks g else s
      match t.chainFault ks with
      | none => .next s
      | some g' => .next (if t.allAt ks g' then stop t else t)
    else .next (stop s)

/-! ## The temporal remainder -/

/-- TL of a segment: elements of its widest queue operand that a register holds, or the rows in force (R261). -/
def Segment.stripLen (c : Segment) (r : Run) : Nat :=
  if r.body.rowMode then r.cfg.vrows
  else
    let ws := (usedQueues c.ns).map fun q => (c.queueFmt q).width
    8 * c.h.cap / ws.foldl max 4

/-- A segment's nodes execute in body order, each over all it can take; then its outbound elements cross their links. -/
def State.exhaust (k : Nat) (b : Bounds) : Nat → State → State
  | 0, s => s
  | fuel + 1, s => match s.segmentStep b k with
    | some s' => State.exhaust k b fuel s'
    | none => s

/-- The elements from a cursor on for which MGPULL finds tokens, at most n. -/
def Segment.pullable (c : Segment) (s : State) (r : Run) (n : Nat) : Nat :=
  c.ns.foldl (fun n d => match d.role with
    | .pull w =>
      let av := c.available s r w
      if av.2 then n
      else
        let go := (List.range n).foldl (fun (st : Nat × Nat × Bool) j =>
          let p : Pos := ⟨0, r.cur + j, (r.cur + j) % r.cfg.vl, r.cur + j, r.cur + j⟩
          if st.2.2 then st
          else if !c.active d p then (st.1 + 1, st.2.1, false)
          else if st.2.1 < av.1.length then (st.1 + 1, st.2.1 + 1, false)
          else (st.1, st.2.1, true)) (0, 0, false)
        go.1
    | _ => n) n

/-- The shadow registers of a segment after a strip from element or row c0 (R261). -/
def Hart.writeShadows (h : Hart) (c : Segment) (r : Run) (c0 : Nat) : Hart :=
  (usedQueues c.ns).foldl (fun h q =>
    let f := c.queueFmt q
    let cells := (r.queue q).toks.map fun t => match t with
      | .beat row start v => v.zipIdx.map fun p =>
        (if r.body.rowMode then c.h.cellAt f (row - c0) (start + p.2) else (start - c0 + p.2) * f.width, f.width, p.1)
      | _ => []
    h.putV ⟨r.body.sb + q, cells.flatten⟩) h

/-- The state with what loads leave outside a run taken from another: accessed bits, cached entries and the record. -/
def State.withLoads (s t : State) : State :=
  { s with mem := t.mem, sectorKey := t.sectorKey, poison := t.poison, tlb := t.tlb, trace := t.trace }

/-- The faults that a strip found carried into runs that have not moved (R436). -/
def State.carryBreaks (s t : State) (ks : List Nat) : State :=
  ks.foldl (fun s k => match s.runOf k, t.runOf k with
    | some r, some x => s.setRun k { r with breaks := x.breaks }
    | _, _ => s) s

/-- One strip of the remainder of a chain over n elements or rows (R261, R436): none where it cannot execute whole yet; where
it leaves every sink short of a first element, a longer one does. -/
def State.runStrip (s : State) (ks : List Nat) (c0 total step : Nat) : Nat → Nat → Option State
  | 0, _ => none
  | fuel + 1, n =>
    let lim := c0 + n
    let b : Bounds := { free := true, source := some lim, all := some lim }
    let t := ks.foldl (fun s k => State.exhaust k b chainFuel s) s
    if (t.chainFault ks).isSome then some ((s.withLoads t).carryBreaks t ks)
    else if t.heldBy ks ≤ c0 then (if lim < total then s.runStrip ks c0 total step fuel (n + step) else none)
    else
      let t := ks.foldl (fun s k => match s.runOf k with
        | some r => s.updHart k fun h => { h.writeShadows (s.segment k r) r c0 with chr := { h.chr with tmp := true } }
        | none => s) t
      let u := State.release ks chainFuel t
      some (ks.foldl (fun s k => match s.runOf k with
        | some r => (s.setRun k { r.restart .temporal with breaks := r.breaks }).emptyPorts k
        | none => s) u)

/-- The run of a hart is bound anew and streams from its cursor (R235, R261). -/
def State.rebind (s : State) (k : Nat) : State :=
  match s.runOf k with
  | none => s
  | some r =>
    let c := s.segment k r
    let wn := nodeWidth r.body.wnc c.h.lanes (c.ns.filter Node.isVector).length
    (s.setRun k { r.restart .chained with wn := wn }).updHart k fun h =>
      { h with chr := { h.chr with tmp := false, wn := log2 wn } }

/-- TEMPORAL_STRIP (R229, R261, R434, R436): once each segment's hart holds the matrix unit that it was saved with, the chain of a
hart executes one strip of its remainder, segment by segment, or streams again at a strip boundary; where nothing remains, every
segment learns N (R246, R256). -/
def execTemporalStrip (s : State) : Out :=
  let k := s.input.who
  let ch := s.chainOf k
  let runs := ch.1.map fun j => (j, s.runOf j)
  let ready := ch.2 && runs.all fun p => match p.2 with
    | some r => r.mode != .parked && r.breaks.isEmpty && (s.hartAt p.1).live && (s.hartAt p.1).muSaved.isNone
    | none => false
  let some_ := runs.any fun p => match p.2 with | some r => r.mode == .temporal | none => false
  match s.runOf k, s.chainCount ch.1 with
  | some r, some total =>
    let s1 := runs.foldl (fun s p => match p.2 with
      | some x => s.setRun p.1 { x.restart .temporal with n := some total }
      | none => s) s
    let s1 := ch.1.foldl State.emptyPorts s1
    if ready && some_ && decide (total ≤ r.cur) then .next s1
    else if ready && some_ then
      let tls := runs.map fun p => match p.2 with | some x => (s.segment p.1 x).stripLen x | none => 1
      let tl := max 1 (tls.foldl min (tls.headD 1))
      let again := ch.1.all fun j => (s.hartAt j).chr.pol && !(s.hartAt j).chr.noch
      if again && decide (r.cur % tl = 0) then
        .next (runs.foldl (fun s p => match p.2 with
          | some x => if x.res then (s.rebind p.1).setRun p.1 { ((s.rebind p.1).runOf p.1).getD x with n := none }
            else s.rebind p.1
          | none => s) s1)
      else
        let want := min (tl - r.cur % tl) (total - r.cur)
        let n := runs.foldl (fun n p => match s1.runOf p.1 with
          | some x => (s1.segment p.1 x).pullable s1 x n
          | none => n) want
        if n = 0 then .next s
        else match s1.runStrip (s1.upstreamFirst 512 ch.1) r.cur total tl (total + 1) n with
          | some t => .next t
          | none => .next s
    else .next s
  | _, _ => .next s

/-! ## Closing breaks -/

/-- The run of a hart is closed, and its body uninstalled, by a closing break: what every sink holds has been released, and
the hart traps at its CHRUN (R431, R441), unless it is frozen (R396). -/
def State.closeRun (s : State) (k brk : Nat) (q : Option Word) (c : Cause) : State :=
  match s.runOf k with
  | none => s
  | some r =>
    let s := s.recordBreak k brk (q.getD (s.hartAt k).chr.qstat)
    let t := s.select k
    let t := ({ t with h := { t.h with
        chain := { t.h.chain with run := none }, chr := { t.h.chr with run := false, tmp := false } } }).uninstall
    let t := t.select s.h.key
    if r.mode = .parked ∨ !(s.hartAt k).live then t else t.trapChain k r.pc { c with done := r.cur }

/-- A closing break of the chain of a hart, each segment with its cause (R438 to R441). -/
def State.closeChain (s : State) (k brk : Nat) (cause : Nat → Nat → Cause) : State :=
  let ch := s.chainOf k
  let qs := ch.1.map fun j => (j, s.streaming j)
  let s := if ch.2 then State.release ch.1 chainFuel s else s
  qs.foldl (fun s p => s.closeRun p.1 brk p.2 (cause p.1 (match s.runOf p.1 with | some r => r.cur | none => 0))) s

/-- EW of the records that come over an inbound link of a hart, where their sender has an open run (R357). -/
def State.sentWidth (s : State) (h : Hart) (b : LinkBind) : Option Nat :=
  match s.partner h b with
  | none => none
  | some j => (s.runOf j).bind fun r =>
    let c := s.segment j r
    (c.outs.find? fun o => o.2 = (h.farPort b.west true).2).map fun o => widthCode (c.queueFmt o.1).width

/-- EW of the next record of an inbound port of a hart: that of the record that waits, or, in the temporal remainder, that of
the records of the strip to come (R261, R440). -/
def State.nextWidth (s : State) (h : Hart) (r : Run) (p : Nat) (fifo : List LinkRec) : Option Nat :=
  match r.mode with
  | .chained => fifo.head?.map (·.ew)
  | .temporal =>
    if r.n = some r.cur then none
    else (h.chain.links.find? fun b => b.inbound && portOf b.west true = p).bind (s.sentWidth h)
  | .parked => none

/-- LINK_RECORD_RECEIVE (R256, R257, R357, R440): the next record of an inbound port of a core enters its queue, or breaks the
chain where its width differs; in the temporal remainder records enter with the strip they belong to. -/
def execLinkRecordReceive (s : State) : Out :=
  let p := s.input.which
  let x := s.port s.input.who p
  match x.holder with
  | none => .next s
  | some k => match s.runOf k with
    | none => .next s
    | some r =>
      let c := s.segment k r
      match c.h.inPorts.find? (fun b => b.2 = p), s.nextWidth (s.hartAt k) r p x.fifo with
      | some b, some ew =>
        let want := widthCode (c.queueFmt b.1).width
        if !(s.hartAt k).live then .next s
        else if ew ≠ want then
          .next (s.closeChain k 0x07 fun j cur =>
            { code := 0x34, sub := if j = k then 0x01 else 0x02, tval := ew + 16 * want, addr := ew + 16 * want,
              index := cur, done := cur })
        else if r.mode ≠ .chained then .next s
        else match c.receive s r b.1 p false with
          | none => .next s
          | some (s', r') => .next (s'.setRun k r')
      | _, _ => .next s

/-- The far port of a link of a hart's open run is bound to none, and the port has elements not held downstream, or, inbound,
awaits its first beat (R438). -/
def State.portWaits (s : State) (h : Hart) (r : Run) (b : LinkBind) : Bool :=
  let far := h.farPort b.west b.inbound
  (s.partner h b).isNone &&
    (if b.inbound then (r.queue b.queue).fed = 0 && (s.port h.coreKey (portOf b.west true)).fifo.isEmpty
    else (r.mode == .temporal && r.n != some r.cur) || ((r.queue b.queue).head (16 + portOf b.west false)).isSome
      || !(s.port far.1 far.2).fifo.isEmpty
      || (h.laneOut (portOf b.west false)).any fun x => s.laneBusy x.1 x.2)

/-- The condition of LINKTMO that the input names holds for a hart (R438): a gated unit that a token waits on is known to the
outside alone. -/
def State.linkStuck (s : State) (k sub : Nat) : Bool :=
  let h := s.hartAt k
  match sub with
  | 1 => !h.chain.links.isEmpty
  | 2 => h.chain.links.any fun b => match s.runOf k with | some r => s.portWaits h r b | none => false
  | 4 => (s.chainOf k).1.any fun j => (s.hartAt j).chain.links.any fun b => s.linkCut (s.hartAt j) b.west
  | _ => false

/-- LINK_PORT_TIMEOUT (R438, R441; log entry 6): the limit of a condition has passed. -/
def execLinkPortTimeout (s : State) : Out :=
  let k := s.input.who
  let sub := s.input.which
  match s.runOf k with
  | none => .next s
  | some r =>
    if r.mode ≠ .parked ∧ (s.hartAt k).live ∧ s.linkStuck k sub then
      .next (s.closeChain k 0x03 fun j cur =>
        { code := 0x31, sub := if j = k ∨ sub = 4 then sub else 0x03, index := cur, done := cur })
    else .next s

/-- A token of an outbound port waits to cross, or, in the temporal remainder, is to cross with a strip to come (R261, R439). -/
def Run.sends (r : Run) (q p : Nat) : Bool :=
  match r.mode with
  | .chained => ((r.queue q).head (16 + p)).isSome
  | .temporal => r.n != some r.cur
  | .parked => false

/-- PEER_PARKED_BREAK (R439): the next token of an outbound port of the hart would cross into a parked die. -/
def execPeerParkedBreak (s : State) : Out :=
  let k := s.input.who
  match s.runOf k with
  | none => .next s
  | some r =>
    let c := s.segment k r
    let hit := c.outs.find? fun o =>
      let die := (c.h.farPort (decide (o.2 % 2 = 1)) false).1 / 64
      die != c.h.die && s.dieParked die && r.sends o.1 o.2
    match hit with
    | none => .next s
    | some o =>
      let die := (c.h.farPort (decide (o.2 % 2 = 1)) false).1 / 64
      if !(s.hartAt k).live then .next s
      else
        .next (s.closeChain k 0x04 fun _ cur =>
          { code := 0x32, sub := 0x01, die := some die, index := cur, done := cur })

/-- BODY_ERROR_BREAK (R442): an uncorrectable error is found in the installed body of the hart, at the node named. -/
def execBodyErrorBreak (s : State) : Out :=
  let k := s.input.who
  match (s.hartAt k).chain.body, s.runOf k with
  | none, _ => .next s
  | some _, none => .next (((s.select k).uninstall).select s.h.key)
  | some _, some r =>
    if !(s.hartAt k).live then .next s
    else
    let q := s.streaming k
    let s := s.releaseChain k
    .next (s.closeRun k 0x06 q { code := 0x33, sub := 0x02, index := s.input.which, done := r.cur })

/-! ## CHWAIT -/

/-- A run is open and not parked (R249). -/
def Hart.runOpen (h : Hart) : Bool := h.chain.run.isSome && !h.parked

/-- CHWAIT (R249). -/
def execChwait (o : FI) (s : State) : Out :=
  orTrap s (when_ (o.a != 0 || o.f != 0) (operand 0x01))
    (if s.h.runOpen then .next (s.startWait (.chwait o)) else .next ((s.setX o.d s.h.chwaitWord).advance 8))

/-- CHWAIT_WAKE (R249): no run of the hart is open any longer. -/
def execChwaitWake (s : State) : Out :=
  match s.selectLive s.input.who with
  | none => .next s
  | some t => match t.h.wait with
    | some (.chwait o) => if t.h.runOpen then .next s else .next ((t.endWait o.d t.h.chwaitWord).select s.h.key)
    | _ => .next s

end Sys2Proof.Machine
end

