-- ==== Sys2Proof/Machine/Launch.lean ====
section
/-!
DEFINITION. Launches: submission and its checks, predecessors, release, END, retirement and launch control (R33 to R43,
R162, R163, R337 to R341, R398, R399, R401, R411, R418).
-/
namespace Sys2Proof.Machine

/-! ## Records of the hub -/

/-- A fault record that the hub raises (R392, R401; log entry 14): MK is the hub's, and its die is 6. -/
def State.hubRec (s : State) (code sub : Nat) (recAddr : Nat := 0) : FaultRec :=
  { code := code, sub := sub, master := 5, die := 6, recAddr := recAddr, time := (s.cycle 6).toNat }

/-- The physical address of a virtual one under a root, where it has one. -/
def State.physOf (s : State) (root : Word) (va : Nat) : Option Nat :=
  match translate s root .exec { rd := true } (va % 2 ^ 64) with
  | .ok t => some t.pa
  | .error _ => none

/-- The bytes of a record as they are held, under whatever key they were written (log entry 44). -/
def State.hubHeld (s : State) (root : Word) (va n : Nat) : List Byte :=
  (List.range n).map fun i => match s.physOf root (va + i) with | some pa => s.byteAt pa | none => 0#8

/-- A translation that the hub has used is marked accessed (R82). -/
def State.hubTouch (s : State) (root : Word) (va : Nat) : State :=
  match translate s root .exec { rd := true } (va % 2 ^ 64) with
  | .ok t => s.touch t false
  | .error _ => s

/-- A read by the hub with the translation it uses marked (R82); under a slot without a key it reads the record as it is held,
so that the checks of R401 can name that slot (log entry 44). -/
def State.hubFetch (s : State) (root : Word) (slot va n : Nat) : Except Nat (List Byte × State) :=
  let bytes := match s.hubReadVa root slot va n with
    | .error c => if c = 0x72 then (s.hubReadVa root 0 va n).map fun _ => s.hubHeld root va n else .error c
    | .ok bs => .ok bs
  match bytes with
  | .error c => .error c
  | .ok bs => .ok (bs, s.hubTouch root va)

/-- Word i of a list of words. -/
def wordOf (ws : List Nat) (i : Nat) : Nat := ws.getD i 0

/-- The n words of a list of bytes (R6). -/
def wordsOfBytes (bs : List Byte) (n : Nat) : List Nat := (List.range n).map (bytesWord bs)

/-! ## The launch record -/

/-- A reserved field of a launch record is not zero, FMT is not 1, or STATUS is not zero (R33, R35, R401 SUB 0x01). -/
def recordReserved (ws : List Nat) : Bool :=
  let w := wordOf ws
  bits (w 0) 57 7 != 0 || bits (w 1) 48 16 != 1 || bits (w 1) 32 16 != 0 || bits (w 2) 32 32 != 0
    || bits (w 3) 32 32 != 0 || bits (w 3) 18 2 != 0 || bits (w 3) 4 4 != 0
    || bits (w 4) 54 10 != 0 || bits (w 4) 19 13 != 0 || bits (w 4) 12 4 != 0 || bit (w 4) 7 || bit (w 4) 3
    || ([5, 6, 7, 8, 10, 11, 24, 26, 28, 30].any fun i => bits (w i) 57 7 != 0) || w 9 != 0
    || [25, 27, 29, 31].any fun i => bits (w i) 42 22 != 0

/-- CODE, ENTRY, NPRED, TMEM or DCP of a launch record is out of range (R33, R401 SUB 0x04). -/
def recordRange (ws : List Nat) : Bool :=
  let w := wordOf ws
  bits (w 0) 0 6 != 0 || bits (w 1) 0 3 != 0 || decide (4 < bits (w 4) 16 3) || decide (512 < bits (w 3) 8 10)
    || bits (w 4) 4 2 == 3

/-- An entry of the data-placement map (R35). -/
def mapEntry (ws : List Nat) (i : Nat) : Nat × Nat × Nat × Bool × Bool :=
  let hi := wordOf ws (25 + 2 * i)
  (canon57 (wordOf ws (24 + 2 * i)), bits hi 0 32, bits hi 32 8, bit hi 40, bit hi 41)

/-- What a launch record takes from the queue or the strip that placed it (R36, R40, R83). -/
structure Placing where
  queue : Nat
  tenant : Nat
  keyid : Nat
  vmroot : Word
  htbase : Word
  gtbase : Word
  lqmask : Word
  syncs : List Nat
  deriving DecidableEq, Repr

/-- A launch as its record describes it (R33, R337). -/
def launchFrom (ws : List Nat) (va pmax : Nat) (p : Placing) : Launch :=
  let w := wordOf ws
  { recAddr := va, queue := p.queue, code := canon57 (w 0), entry := bits (w 1) 0 32, nstrip := bits (w 2) 0 32,
    stksz := bits (w 3) 20 12, tmem := bits (w 3) 8 10, nrc := bits (w 3) 2 2, pw := bits (w 3) 0 2, keyid := p.keyid,
    tenant := p.tenant, pcls := bits (w 4) 10 2, erl := bit (w 4) 9, gang := bit (w 4) 8, dcr := bit (w 4) 6,
    dcp := bits (w 4) 4 2, prio := min (bits (w 4) 0 3) pmax,
    preds := (List.range (min 4 (bits (w 4) 16 3))).map fun i => canon57 (w (5 + i)),
    argx := canon57 (w 10), stkb := canon57 (w 11), map := (List.range 4).map (mapEntry ws), vmroot := p.vmroot,
    htbase := p.htbase, gtbase := p.gtbase, lqmask := p.lqmask, state := .submitted, before := .submitted, nexit := 0,
    syncs := p.syncs }

/-! ## The checks of SUBMITTED -/

/-- The stamp of a code object header matches this part (R360, R362). -/
def stampMatches (bs : List Byte) : Bool :=
  let w := bytesWord bs
  bits (w 0) 0 32 == 0x43525445 && bits (w 0) 32 16 == 1 && bits (w 1) 0 16 == 0x0620 && bits (w 1) 16 8 == 1

/-- The dies that DCP and DCR of a launch permit (R344, R401). -/
def Launch.dies (x : Launch) : List Nat :=
  if x.dcr ∧ x.dcp = 1 then [0, 1, 2, 3] else if x.dcr ∧ x.dcp = 2 then [4, 5] else [0, 1, 2, 3, 4, 5]

/-- The partitions of a launch's width and window that its permitted dies offer when idle (R401 SUB 0x08). -/
def Launch.capacity (x : Launch) : Nat :=
  (x.dies.map fun d =>
    let slots := 8 / 2 ^ x.pw
    coreCount d * (if x.tmem = 0 then slots else min slots (tileBytes d / (x.tmem * 4096)))).sum

/-- The first predecessor record of a launch that cannot be read: the memory CODE and the address (R38). -/
def State.predFault (s : State) (x : Launch) : Option (Nat × Nat) :=
  x.preds.findSome? fun p => match s.hubReadVa x.vmroot x.keyid (p + 0x48) 8 with
    | .error c => some (c, p + 0x48)
    | .ok _ => none

/-- The lowest check of R401 that a launch fails: SUB, and INDEX and ADDR where a read failed. strict names the queue's
TENANT and KEYID for a record placed through a ring. -/
def State.submitCheck (s : State) (x : Launch) (ws : List Nat) (strict : Bool) : Option (Nat × Option (Nat × Nat)) :=
  let header := s.hubReadVa x.vmroot x.keyid x.code 64
  if recordReserved ws then some (1, none)
  else if strict ∧ (bits (wordOf ws 4) 32 16 ≠ x.tenant ∨ bits (wordOf ws 4) 48 6 ≠ x.keyid) then some (2, none)
  else if (match header with | .ok bs => !stampMatches bs | .error _ => false) then some (3, none)
  else if recordRange ws then some (4, none)
  else if (s.keySlot x.keyid).key.isNone then some (5, none)
  else if x.gang ∧ x.capacity < x.nstrip then some (8, none)
  else match header with
    | .error c => some (0xA, some (c, x.code))
    | .ok _ => match s.predFault x with
      | some f => some (0xB, some f)
      | none => none

/-- The state with the reads of the predecessor records of a launch marked, STATUS and POLICY of each (R38, R82). -/
def State.touchPreds (s : State) (x : Launch) : State :=
  x.preds.foldl (fun s p => (s.hubTouch x.vmroot (p + 0x48)).hubTouch x.vmroot (p + 0x20)) s

/-- The reads that the checks of SUBMITTED made, with the SUB they ended in: the code object header, and the predecessors'
records behind every other check (R82, R401). -/
def State.touchChecks (s : State) (x : Launch) (sub : Option Nat) : State :=
  let s := if sub = some 1 ∨ sub = some 2 then s else s.hubTouch x.vmroot x.code
  if sub = none ∨ sub = some 0xB then s.touchPreds x else s

/-! ## States -/

/-- The physical address of a launch's record, where it has one. -/
def State.recPhys (s : State) (l : Nat) : Option Nat :=
  match s.launches[l]? with
  | some x => s.physOf x.vmroot x.recAddr
  | none => none

/-- PRED for a launch, to its ring (R389, R398). -/
def State.predRecord (s : State) (l sub : Nat) (addr : Option Nat) : State :=
  match s.launches[l]? with
  | none => s
  | some x =>
    let r := s.hubRec 0x75 sub x.recAddr
    s.ringRecord x.queue { r with addr := addr.getD 0, asp := if addr.isSome then 0 else 3, rd := addr.isSome }

/-- Every launch in WAITING that names the record of a launch that became REJECTED or ABORTED becomes ABORTED in turn (R38,
R398). -/
def State.cascade : Nat → Nat → State → State
  | 0, _, s => s
  | n + 1, l, s => match s.recPhys l with
    | none => s
    | some pa =>
      (List.range s.launches.length).foldl (fun s d => match s.launches[d]? with
        | none => s
        | some x =>
          if x.state = .waiting && x.preds.any fun p => s.physOf x.vmroot p == some pa then
            State.cascade n d ((s.predRecord d 0x01 none).setLaunch d .aborted)
          else s) s

/-- A launch becomes REJECTED or ABORTED, and its dependants with it. -/
def State.endLaunch (s : State) (l : Nat) (st : LState) : State := (s.setLaunch l st).cascade s.launches.length l

/-- A launch enters READY, or RETIRED where it has no strip (R37, R340). -/
def State.enterReady (s : State) (l : Nat) : State :=
  match s.launches[l]? with
  | none => s
  | some x =>
    if x.nstrip = 0 then s.setLaunch l .retired
    else (s.updLaunch l fun x => { x with readyAt := s.time }).setLaunch l .ready

/-- STATE of a predecessor's record reads REJECTED or ABORTED (R398). -/
def State.predDead (s : State) (x : Launch) (p : Nat) : Bool :=
  match s.hubReadVa x.vmroot x.keyid (p + 0x48) 8 with
  | .ok st => decide (bits (ofBytes st) 0 4 = 8) || decide (bits (ofBytes st) 0 4 = 9)
  | .error _ => false

/-- A launch enters WAITING; where a predecessor is REJECTED or ABORTED already, it becomes ABORTED in turn (R398). -/
def State.enterWaiting (s : State) (l : Nat) : State :=
  let s := s.setLaunch l .waiting
  match s.launches[l]? with
  | none => s
  | some x => if x.preds.any (s.predDead x) then (s.predRecord l 0x01 none).endLaunch l .aborted else s

/-- A record read by the hub goes through SUBMITTED (R340, R401). -/
def State.submit (s : State) (va pmax : Nat) (p : Placing) (strict : Bool) (bs : List Byte) : State :=
  let ws := wordsOfBytes bs 32
  let x := launchFrom ws va pmax p
  let l := s.launches.length
  let s := { s with launches := s.launches ++ [x] }
  let check := s.submitCheck x ws strict
  let s := s.touchChecks x (check.map (·.1))
  match check with
  | some (sub, f) =>
    let r := s.hubRec 0x74 sub va
    let r := match f with | some (c, a) => { r with index := c, addr := a % 2 ^ 64, asp := 0, rd := true } | none => r
    (s.ringRecord p.queue r).endLaunch l .rejected
  | none => if x.preds = [] then s.enterReady l else s.enterWaiting l

/-- RING_ENTRY_ARRIVAL (R338, R339, R401): the hub looks at entry HEAD of the queue named, and takes it where V is 1 and no record
that arrived before it waits in the side buffer. -/
def execRingEntryArrival (s : State) : Out :=
  let q := s.input.who
  let x := s.queue q
  let pa := x.qbase + 8 * x.head
  let line := pa / 64 * 64
  if 64 ≤ q ∨ !x.en then .next s
  else match s.readPhys 0 line 64 with
    | .error f =>
      let r := s.hubRec 0x74 0x09
      .next ((s.updQueue q fun x => { x with en := false }).ringRecord 64
        { r with addr := line, asp := 1, rd := true, index := (f.cause (isTile line)).1 })
    | .ok bs =>
      let e := bytesWord bs (x.head % 8)
      if !bit e 63 ∨ x.side ≠ [] then .next s
      else
        let addr := bits e 0 57
        let s := s.record { agent := .hub, place := 384, rd := true, scope := 5, lo := pa, hi := pa + 8, sync := writesOf s.trace .host pa (pa + 8) }
        let got := s.hubFetch x.qroot x.keyid (canon57 addr) 256
        let take := fun (s : State) =>
          (match s.writePhys 0 pa (toBytes 8 0) with | .ok t => t | .error _ => s).updQueue q fun x =>
            { x with head := (x.head + 1) % (8 * 2 ^ x.logn) }
        let reject := fun (sub index : Nat) =>
          let r := s.hubRec 0x74 sub
          .next ((take s).ringRecord q { r with addr := addr, asp := 0, index := index, rd := decide (sub = 7) })
        if bits e 57 6 ≠ 0 ∨ addr % 256 ≠ 0 then reject 0x06 0
        else match got with
          | .error c => reject 0x07 c
          | .ok (rb, t) =>
            let p : Placing :=
              { queue := q, tenant := x.tenant, keyid := x.keyid, vmroot := x.qroot, htbase := x.qhtb, gtbase := x.qgtb,
                lqmask := x.qlqm, syncs := s.newest }
            .next ((take t).submit (canon57 addr) x.pmax p true rb)

/-- SIDE_BUFFER_TAKE (R36, R339, R401): the hub takes the oldest record of the side buffer of the queue named. -/
def execSideBufferTake (s : State) : Out :=
  let q := s.input.who
  let x := s.queue q
  match x.side with
  | [] => .next s
  | r :: rest =>
    if !x.en then .next s
    else
      let s := s.updQueue q fun x => { x with side := rest }
      match s.hubFetch r.vmroot r.keyid r.addr 256 with
      | .error c =>
        let f := s.hubRec 0x74 0x07
        .next (s.ringRecord q { f with
          strip := r.strip, die := r.hart / 512, core := r.hart / 8 % 64, slot := r.hart % 8,
          addr := r.addr % 2 ^ 64, asp := 0, rd := true, index := c })
      | .ok (bs, s) =>
        let p : Placing :=
          { queue := q, tenant := r.tenant, keyid := r.keyid, vmroot := r.vmroot, htbase := r.htbase, gtbase := r.gtbase,
            lqmask := r.lqmask, syncs := r.syncs }
        .next (s.submit r.addr x.pmax p false bs)

/-- LAUNCH (R36, R40, R163, R339, R411, R418, R422). -/
def execLaunch (o : FI) (s : State) : Out :=
  let q := o.imm.toNat
  let a := (s.x o.a).toNat
  let x := s.queue q
  orTrap s (when_ (decide (64 ≤ q)) (operand 0x02) ++ when_ (!bit s.h.sys.lqmask.toNat q) (privilege 0x10 q)
      ++ when_ (a % 256 ≠ 0) (accCause {} false a 0x22 8 0))
    (let s := s.recordRelease 5
    if !x.en ∨ 16 ≤ x.side.length then .next ((s.setX o.d 1).advance 8)
    else
      let r : SideRec :=
        { addr := a, hart := s.h.key, strip := s.h.stripId.toNat, vmroot := s.h.sys.vmroot, htbase := s.h.sys.htbase,
          gtbase := s.h.sys.gtbase, lqmask := s.h.sys.lqmask,
          tenant := match s.launchOf s.h with | some l => l.tenant | none => 0, keyid := s.keyOf s.h, syncs := s.newest }
      .next (((s.updQueue q fun x => { x with side := x.side ++ [r] }).setX o.d 0).advance 8))

/-! ## Predecessors -/

/-- The launch whose record lies at a physical address, the newest one. -/
def State.launchAt (s : State) (pa : Nat) : Option Nat :=
  (List.range s.launches.length).reverse.find? fun l => s.recPhys l == some pa

/-- Whether predecessor p of a launch is satisfied (R38); the CODE where its STATUS cannot be read. Of a record whose STATUS can
be read and whose POLICY cannot, the spec does not say what ERL is; the model takes 0, so that the launch waits for RETIRED
(log entry 46). -/
def State.predSatisfied (s : State) (x : Launch) (p : Nat) : Except Nat Bool :=
  match s.hubReadVa x.vmroot x.keyid (p + 0x48) 8, s.hubReadVa x.vmroot x.keyid (p + 0x20) 8 with
  | .error c, _ => .error c
  | .ok st, pol =>
    let erl := match pol with | .ok bs => bit (ofBytes bs) 9 | .error _ => false
    let state := bits (ofBytes st) 0 4
    .ok (state = 5 || (state = 4 && erl))

/-- The events that the strips of a dependant follow when a predecessor is satisfied (R43, R328). -/
def State.predEvents (s : State) (x : Launch) (p : Nat) : List Nat :=
  match (s.physOf x.vmroot p).bind s.launchAt with
  | none => []
  | some l => match s.launches[l]? with
    | none => []
    | some y => if y.state = .retired then s.launchEvents l else y.rels

/-- PREDECESSORS_SATISFIED (R38, R340): the launch named leaves WAITING once every predecessor is satisfied. -/
def execPredecessorsSatisfied (s : State) : Out :=
  let l := s.input.who
  match s.launches[l]? with
  | none => .next s
  | some x =>
    if x.state ≠ .waiting then .next s
    else if x.preds.all fun p => match s.predSatisfied x p with | .ok b => b | .error _ => false then
      .next (((s.touchPreds x).updLaunch l fun y =>
        { y with syncs := y.syncs ++ (x.preds.map (s.predEvents x)).flatten }).enterReady l)
    else .next (s.touchPreds x)

/-- PRED_READ_FAIL (R38, R398): a predecessor record of the launch named can no longer be read while it is WAITING. -/
def execPredReadFail (s : State) : Out :=
  let l := s.input.who
  match s.launches[l]? with
  | none => .next s
  | some x => match s.predFault x with
    | some (_, a) =>
      if x.state = .waiting then .next ((s.predRecord l 0x02 (some (a % 2 ^ 64))).endLaunch l .aborted) else .next s
    | none => .next s

/-! ## Release and END -/

/-- A launch enters RELEASED once every strip has been released (R42, R340); a suspended one, the state it goes back to. -/
def State.checkReleased (s : State) (l : Nat) : State :=
  match s.launches[l]? with
  | none => s
  | some x =>
    if x.erl ∧ x.releasedCount = x.nstrip then
      (if x.state = .running then s.setLaunch l .released
      else if x.state = .suspended ∧ x.before = .running then s.updLaunch l fun y => { y with before := .released }
      else s)
    else s

/-- The strip of the hart that issues is released (R42, R43); where that changes nothing, what waits for the vector queue has waited
all the same (R162, R327). -/
def State.releaseStrip (s : State) (l : Nat) : State :=
  match s.launches[l]? with
  | none => s
  | some x =>
    if x.erl ∧ !s.h.released then
      let s := s.recordRelease 5
      ({ s with h := { s.h with released := true } }.updLaunch l fun y =>
        { y with releasedCount := y.releasedCount + 1, rels := y.rels ++ s.newest }).checkReleased l
    else s.recordWait

/-- RELEASE (R42, R162): it waits for the vector queue. -/
def execRelease (_o : FI) (s : State) : Out :=
  if s.h.queueBusy then .next s
  else match s.h.launch with
    | none => .next (s.advance 8)
    | some l => .next ((s.releaseStrip l).advance 8)

/-- The waits of the hart that issues for units, ports and networks are withdrawn. -/
def State.leaveQueues (s : State) : State :=
  let k := s.h.key
  let s := s.updCore s.h.coreKey fun c =>
    { c with
      mu := { c.mu with waiters := c.mu.waiters.erase k },
      ports := c.ports.map fun p => (p.1, { p.2 with waiters := p.2.waiters.erase k }) }
  { s with netWait := Sparse.upd [] s.netWait s.h.die fun l => l.erase k }

/-- The hart that issues gives up all but its window: body, ports, matrix unit, waits (R41, R211, R250). -/
def State.giveUpUnits (s : State) : State :=
  let s := s.leaveQueues.uninstall
  if s.core.mu.owner = some s.h.key then s.setUnit s.core.mu.giveUp else s

/-- The hart as a strip leaves it: its registers stand until the next strip's first instruction sets them (R40, R41, R382, R383). -/
def Hart.left (h : Hart) : Hart :=
  { h with
    launch := none, winStart := 0, winPages := 0, winSet := [], released := false, frozen := false, preempt := false,
    forPark := none, bound := false, chain := {}, wait := none, vq := none, stalled := false, held := [], ovf := false,
    fences := [], groupless := false, muSaved := none, lacks := none, ctlErr := [], doubleCause := none }

/-- The hart that issues holds no strip any longer; its window is given up once nothing names it (R94). -/
def State.vacate (s : State) : State :=
  let k := s.h.key
  let core := s.h.coreKey
  let die := s.h.die
  let s := s.giveUpUnits
  let s := s.updCore core fun c =>
    { c with windows := c.windows.map fun w => if w.2.2 = some k then (w.1, w.2.1, none) else w }
  (({ s with h := s.h.left }).settleWindows core).retarget die

/-- A live session that the strip of the hart that issues owns, by its network. -/
def State.ownSession (s : State) : Option (Nat × Session) :=
  s.nets.findSome? fun n => match n.2.sess with
    | some x => if s.owns x then some (n.1, x) else none
    | none => none

/-- The strip of the hart that issues ends by END (R41, R42, R395). -/
def State.endStrip (s : State) (l : Nat) : State :=
  let i := s.h.stripId.toNat
  let s := s.releaseStrip l
  let s := s.h.held.foldl (fun s r => s.ringRecord (s.launchRing (some l)) r) s
  let s := s.vacate
  (s.updLaunch l fun x =>
    { x with nexit := x.nexit + 1, strips := Sparse.upd {} x.strips i fun y => { y with st := .ended } }).writeStatus l

/-- END (R41, R162, R231, R305): it waits for the vector queue; an owner's live session is closed first. -/
def execEndStrip (_o : FI) (s : State) : Out :=
  if s.h.queueBusy then .next s
  else orTrap s (when_ (match s.unit with | some u => u.joined | none => false) (operand 0x06))
    (match s.h.launch with
    | none => .next s
    | some l => match s.ownSession with
      | some (key, x) =>
        let w := word (sessionWord (Sparse.get {} s.nets key).seq key)
        let o : FX := { d := 0, a := 0, b := 0, c := 0, m := 0, z := 0, f := 0, imm := 0 }
        .next (((s.setSession key (some x.close)).hold (.mgclose o) [w] [] 0 0).setPc s.h.pc)
      | none => .next (s.endStrip l))

/-! ## Retirement and launch control -/

/-- Accepted commands and live sessions of a launch remain (R341). -/
def State.launchBusy (s : State) (l : Nat) : Bool :=
  (s.cores.any fun c => c.2.eng.any fun e => match e.2 with | some m => m.launch = l | none => false)
    || s.nets.any fun n => match n.2.sess with | some x => x.launch = l | none => false

/-- The resources of a launch are freed (R273, R318, R341). -/
def State.freeLaunch (s : State) (l : Nat) : State :=
  let free := fun (c : Core) =>
    let bars : Sparse Barrier := c.bars.map fun b => (b.1, if b.2.holder = some l then { ph := b.2.ph } else b.2)
    { c with bars := bars.filter fun b => b.2 != ({} : Barrier) }
  let s : State := { s with cores := s.cores.map fun c => (c.1, free c.2) }
  (s.updLaunch l fun x => { x with slots := [] }).settleAll

/-- LAUNCH_RETIRE (R37, R340, R341): the launch named retires once every strip has ended and all its work has. -/
def execLaunchRetire (s : State) : Out :=
  let l := s.input.who
  match s.launches[l]? with
  | none => .next s
  | some x =>
    if (x.state = .running ∨ x.state = .released) ∧ x.nexit = x.nstrip ∧ !s.launchBusy l then
      .next ((s.freeLaunch l).setLaunch l .retired)
    else .next s

/-- The launch that launch control names: the newest that arrived through a queue with a record address (R399). -/
def State.controlled (s : State) (q r : Nat) : Option (Nat × Launch) :=
  (s.launches.zipIdx.reverse.find? fun p => p.1.queue = q && bits p.1.recAddr 0 57 = r).map fun p => (p.2, p.1)

/-- The hub's oldest request of a kind, with the state in which it has been taken. Requests of different kinds are taken in either
order, with the registers as they stand then (R378, R399; DESIGN CHOICE: log entry 34). -/
def State.takeRequest {α : Type} (s : State) (f : Request → Option α) : Option (α × State) :=
  (s.hub.requests.findIdx? fun r => (f r).isSome).bind fun i =>
    (s.hub.requests[i]?.bind f).map fun a =>
      (a, { s with hub := { s.hub with requests := s.hub.requests.eraseIdx i } })

/-- LAUNCH_SUSPEND (R398, R399). -/
def execLaunchSuspend (s : State) : Out :=
  match s.takeRequest (fun r => match r with | .suspend q a => some (q, a) | _ => none) with
  | none => .next s
  | some ((q, a), s) => match s.controlled q a with
    | none => .next s
    | some (l, x) => match x.state with
      | .waiting | .ready | .running | .released =>
        .next (((s.updLaunch l fun y => { y with before := x.state }).setLaunch l .suspended).preemptLaunch l (2 ^ 64))
      | _ => .next s

/-- LAUNCH_RESUME (R398, R399). -/
def execLaunchResume (s : State) : Out :=
  match s.takeRequest (fun r => match r with | .resume q a => some (q, a) | _ => none) with
  | none => .next s
  | some ((q, a), s) => match s.controlled q a with
    | none => .next s
    | some (l, x) =>
      if x.state ≠ .suspended then .next s
      else .next (if x.before = .waiting then s.enterWaiting l else s.setLaunch l x.before)

/-- Every running strip of a launch is ended where it stands, and every saved one is discarded; the records that they hold go to
the launch's ring (R395, R399). -/
def State.endStrips (s : State) (l : Nat) : State :=
  let k0 := s.h.key
  let s := (s.running.filter fun p => p.2.launch = some l).foldl (fun s p =>
    let s := s.select p.1
    s.h.held.foldl (fun s r => s.ringRecord (s.launchRing (some l)) r) s |>.vacate) s
  let s := s.select k0
  let s := (s.contexts.filter fun c => c.live && c.out && c.launch = l).foldl (fun s c =>
    c.hart.held.foldl (fun s r => s.ringRecord (s.launchRing (some l)) r) s) s
  { s with contexts := s.contexts.map fun c => if c.launch = l then { c with live := false } else c }

/-- The frozen commands and walks of a launch are discarded (R396, R399). -/
def State.dropFrozen (s : State) (l : Nat) : State :=
  let s := s.cores.foldl (fun s c => c.2.eng.foldl (fun s e => match e.2 with
    | some m => if m.launch = l ∧ m.frozen then s.endCmd c.1 e.1 m else s
    | none => s) s) s
  { s with
    wk := if s.wk.launch = l ∧ s.wk.frozen then {} else s.wk,
    walks := s.walks.filter fun w => !(w.2.launch = l && w.2.frozen) }

/-- A session of an aborted launch moves towards its end: discarded if frozen, closed, and freed once it may be (R305,
R399). -/
def State.endSession (s : State) (l key : Nat) : State :=
  match s.sessionAt key with
  | none => s
  | some x =>
    if x.launch ≠ l then s
    else if x.frozen then s.setSession key none
    else
      let x := x.close
      if x.closable then
        let st := if x.failed || x.held then (s, x) else Session.finish (s, x)
        if st.2.fault.isSome && !st.2.failed then st.1.putSession key st.2 else st.1.setSession key none
      else s.setSession key (some x)

/-- LAUNCH_ABORT (R398, R399): its strips are ended, frozen masters are discarded, the other work runs to completion, and
then the launch is ABORTED; until then it is placed no more, and the request stands behind the others. -/
def execLaunchAbort (s : State) : Out :=
  match s.takeRequest (fun r => match r with | .abort q a => some (q, a) | _ => none) with
  | none => .next s
  | some ((q, a), t) => match t.controlled q a with
    | none => .next t
    | some (l, x) => match x.state with
      | .retired | .rejected | .aborted => .next t
      | _ =>
        let go := fun (s : State) =>
          let s := ((s.endStrips l).updLaunch l fun y => { y with state := .faulted }).dropFrozen l
          s.nets.foldl (fun s n => s.endSession l n.1) s
        let u := go t
        if u.launchBusy l then .next (u.request (.abort q a)) else .next ((u.freeLaunch l).endLaunch l .aborted)

end Sys2Proof.Machine
end

