-- ==== Sys2Proof/Machine/Place.lean ====
section
/-!
DEFINITION. Placement: which waiting strip the hub places, where, and how a strip starts; victims of pre-emption, and YIELD
(R35, R40, R44, R94, R164, R342 to R346, R353).
-/
namespace Sys2Proof.Machine

/-- An element put into a sorted list behind those it does not go before. -/
def insertBy {α : Type} (lt : α → α → Bool) (a : α) : List α → List α
  | [] => [a]
  | b :: bs => if lt a b then a :: b :: bs else b :: insertBy lt a bs

/-- A list sorted by an order. -/
def sortBy {α : Type} (lt : α → α → Bool) (l : List α) : List α := l.foldl (fun s a => insertBy lt a s) []

/-! ## Slots and windows -/

/-- The end of a window that meets a range of pages, where one does. -/
def windowClash (ws : List (Nat × Nat × Option Nat)) (p n : Nat) : Option Nat :=
  (ws.find? fun w => decide (w.1 < p + n) && decide (p < w.1 + w.2.1)).map fun w => w.1 + w.2.1

/-- The first free range of n pages at or above a page, trying each next candidate behind a clash. -/
def freeRange (ws : List (Nat × Nat × Option Nat)) (limit n : Nat) : Nat → Nat → Option Nat
  | 0, _ => none
  | fuel + 1, p =>
    if limit < p + n then none
    else match windowClash ws p n with
      | none => some p
      | some q => freeRange ws limit n fuel q

/-- A free window of n pages of a core of a die (R94, R345; log entry 10): the first at or above the page named, or the
first. -/
def freeWindow (ws : List (Nat × Nat × Option Nat)) (die n from_ : Nat) : Option Nat :=
  if n = 0 then some 0
  else
    let limit := tileBytes die / 4096
    match freeRange ws limit n (ws.length + 1) from_ with
    | some p => some p
    | none => freeRange ws limit n (ws.length + 1) 0

/-- The lane groups that the harts of a core hold. -/
def State.coreGroups (s : State) (core : Nat) : Nat :=
  (s.running.filter fun p => p.2.coreKey = core).foldl (fun g p => g ||| p.2.groups) 0

/-- The tenant binding of a core admits a tenant (R345). -/
def State.admits (s : State) (core tenant : Nat) : Bool :=
  let b := Sparse.get 0xFFFF (s.dieAt (core / 64)).tenants (core % 64)
  b = 0xFFFF || b = tenant

/-- Slot h of a core offers a partition of a width beside what is set aside: the lane groups, and the slots (R345). -/
def State.slotFree (s : State) (core wc : Nat) (groups : Nat) (taken : List Nat) (h : Nat) : Bool :=
  let e := psplitEntry (s.coreAt core).psplit h
  entryOn e && bits e.toNat 5 2 == wc && (s.hartAt (core * 8 + h)).launch.isNone && !taken.contains h
    && groups &&& entryGroups e == 0

/-- The slots of a core that offer a partition of a width with a window, in ascending order, each window set aside from the
next (R345). -/
def State.offers (s : State) (core wc pages tenant from_ : Nat) : List (Nat × Nat) :=
  if !s.admits core tenant then []
  else
    let c := s.coreAt core
    let step := fun (st : List (Nat × Nat) × Nat × List (Nat × Nat × Option Nat)) (h : Nat) =>
      if s.slotFree core wc st.2.1 [] h then
        match freeWindow st.2.2 (core / 64) pages from_ with
        | some p => (st.1 ++ [(h, p)], st.2.1 ||| entryGroups (psplitEntry c.psplit h), st.2.2 ++ [(p, pages, none)])
        | none => st
      else st
    ((List.range 8).foldl step ([], s.coreGroups core, c.windows)).1

/-- A slot and a window of a core for each strip of some widths, in their order: of each width the lowest slot that is left (R346,
R353). -/
def State.slotsFor (s : State) (core pages : Nat) : List Nat → List Nat → Nat → List (Nat × Nat × Option Nat) → Option (List (Nat × Nat))
  | [], _, _, _ => some []
  | wc :: wcs, taken, groups, ws =>
    match (List.range 8).find? (s.slotFree core wc groups taken), freeWindow ws (core / 64) pages 0 with
    | some h, some p =>
      (s.slotsFor core pages wcs (h :: taken) (groups ||| entryGroups (psplitEntry (s.coreAt core).psplit h))
        (ws ++ [(p, pages, none)])).map fun l => (h, p) :: l
    | _, _ => none

/-- The free slots of a width that a die offers (R344): those that could be taken together, each with its window (DESIGN CHOICE: log
entry 10). -/
def State.freeSlots (s : State) (die wc pages tenant : Nat) : Nat :=
  ((List.range (coreCount die)).map fun c => (s.offers (die * 64 + c) wc pages tenant 0).length).sum

/-! ## Dies -/

/-- The pages that entry e of a map declares for a strip: the first and their number (R35). -/
def Launch.declared (x : Launch) (strip : Nat) (e : Nat × Nat × Nat × Bool × Bool) : Nat × Nat :=
  if e.2.2.2.2 then
    let a := strip * e.2.1 / x.nstrip
    (a, (strip + 1) * e.2.1 / x.nstrip - a)
  else (0, e.2.1)

/-- The physical address that a root maps a virtual one to, whatever the page permits. -/
def State.mappedAt (s : State) (root : Word) (va : Nat) : Option Nat :=
  match translate s root .exec {} (va % 2 ^ 64) with
  | .ok t => some t.pa
  | .error _ => none

/-- The affinity of a strip for a die (R35): every declared page that the die homes counts, readable or not. -/
def State.affinity (s : State) (x : Launch) (strip die : Nat) : Nat :=
  (x.map.map fun e =>
    let r := x.declared strip e
    e.2.2.1 * ((List.range r.2).filter fun i => match s.mappedAt x.vmroot (e.1 + 16384 * (r.1 + i)) with
      | some pa => decide (pa / 0x10000000000 = die)
      | none => false).length).sum

/-- The class of a die as DCP codes it (R14, R33): 1 matrix, 2 bandwidth. -/
def dieClass (die : Nat) : Nat := if isBandwidth die then 2 else 1

/-- The rank of a die for a strip (R344): the higher one is tried first. -/
def State.dieRank (s : State) (x : Launch) (strip wc die : Nat) : Nat :=
  s.affinity x strip die * 2 ^ 24 + ofBool (x.dcp != 0 && dieClass die == x.dcp) * 2 ^ 20
    + s.freeSlots die wc x.tmem x.tenant * 8 + (7 - die)

/-- The best-ranked of some dies. -/
def State.bestDie (s : State) (x : Launch) (strip wc : Nat) : List Nat → Option Nat
  | [] => none
  | d :: ds => match s.bestDie x strip wc ds with
    | none => some d
    | some e => if s.dieRank x strip wc e < s.dieRank x strip wc d then some d else some e

/-- A die takes strips: it is out of reset and not parked (R373, R457). -/
def State.dieOpen (s : State) (d : Nat) : Bool := (s.dieAt d).up && !s.dieParked d && !(s.dieAt d).busy

/-- The dies of a class, or those a launch permits, among those that take strips (R344, R347). -/
def State.eligibleDies (s : State) (x : Launch) (cls : Nat) : List Nat :=
  ((if cls = 0 then x.dies else [0, 1, 2, 3, 4, 5]).filter fun d => cls = 0 || dieClass d = cls).filter s.dieOpen

/-! ## Who waits -/

/-- A strip, or a GANG farm by its lowest strip, that waits for a place: its context, where it has one, the time at which it
became eligible, and its effective priority (R342). -/
structure Waiter where
  launch : Nat
  strip : Nat
  context : Option Nat
  eligible : Nat
  ep : Nat
  deriving DecidableEq, Repr

/-- A launch whose strips may be placed (R340, R398). -/
def Launch.placeable (x : Launch) : Bool := x.state == .ready || x.state == .running || x.state == .released

/-- The contexts of a launch, by number. -/
def State.saved (s : State) (l : Nat) : List (Nat × Context) :=
  (s.contexts.zipIdx.filter fun p => p.1.live && p.1.out && p.1.launch = l).map fun p => (p.2, p.1)

/-- A waiter with its effective priority (R342). -/
def State.waiter (s : State) (l : Nat) (x : Launch) (strip : Nat) (ctx : Option Nat) (eligible : Nat) : Waiter :=
  ⟨l, strip, ctx, eligible, min 8 (x.prio + Config.elapsed eligible s.time)⟩

/-- The lowest strip of some contexts. -/
def lowestStrip : List (Nat × Context) → Option (Nat × Context)
  | [] => none
  | c :: cs => match lowestStrip cs with
    | none => some c
    | some d => if d.2.strip < c.2.strip then some d else some c

/-- The waiting strips of a launch (R342, R343). -/
def State.waitersOf (s : State) (l : Nat) (x : Launch) : List Waiter :=
  if !x.placeable then []
  else
    let cs := s.saved l
    let since := fun (i : Nat) => (Sparse.get {} x.strips i).eligible
    if x.gang then
      match lowestStrip cs with
      | some c => if s.running.any fun p => p.2.launch = some l then [] else [s.waiter l x c.2.strip (some c.1) (since c.2.strip)]
      | none => if x.placedCount = 0 then [s.waiter l x 0 none x.readyAt] else []
    else
      (cs.map fun c => s.waiter l x c.2.strip (some c.1) (since c.2.strip))
        ++ (if x.placedCount < x.nstrip then [s.waiter l x x.placedCount none x.readyAt] else [])

/-- Every waiting strip. -/
def State.waiters (s : State) : List Waiter := (s.launches.zipIdx.map fun p => s.waitersOf p.2 p.1).flatten

/-- The time at which a launch was last placed, one later for each unit; 0 for never (R342). -/
def State.lastOf (s : State) (l : Nat) : Nat :=
  match s.launches[l]? with
  | some x => match x.lastPlaced with | some t => t + 1 | none => 0
  | none => 0

/-- A waiting strip goes before another (R342); the lower launch where the rule leaves a tie. -/
def State.before (s : State) (a b : Waiter) : Bool :=
  if a.ep ≠ b.ep then decide (b.ep < a.ep)
  else if a.ep = 8 ∧ a.eligible ≠ b.eligible then decide (a.eligible < b.eligible)
  else if a.launch = b.launch then
    (if a.context.isSome = b.context.isSome then decide (a.strip < b.strip) else a.context.isSome)
  else if a.ep ≠ 8 ∧ s.lastOf a.launch ≠ s.lastOf b.launch then decide (s.lastOf a.launch < s.lastOf b.launch)
  else decide (a.launch < b.launch)

/-! ## Where it goes -/

/-- The width a context resumes in: that of the partition it held (R32, R353). -/
def Context.width (c : Context) : Nat := bits c.hart.part.toNat 5 2

/-- The strip of a context owns a live session, or its body names one (R305, R353). -/
def State.inSession (s : State) (c : Context) : Bool :=
  (s.nets.any fun n => match n.2.sess with | some x => x.launch = c.launch && x.strip = c.strip | none => false)
    || match c.hart.chain.body with
      | some b => b.nodes.any fun i => match i with | .mgpush _ | .mgpull _ => true | _ => false
      | none => false

/-- The dies and, where it is bound, the one core on which a context may resume (R273, R353): dies of its former class, or of the
class that it, or under GANG its farm, requires (R347). -/
def State.homes (s : State) (x : Launch) (c : Context) : List Nat × Option Nat :=
  let own := if c.cls = 0 then dieClass c.die else c.cls
  let cls := if x.gang then x.needClass.getD own else own
  let ds := s.eligibleDies { x with dcr := false } cls
  let ds := if s.inSession c then ds.filter fun d => d = c.die else ds
  if c.hart.bound then (ds.filter fun d => d = c.die, some c.hart.coreKey) else (ds, none)

/-- A core can take what a context brings besides its partition: its link ports and its barriers are free (R255, R273). -/
def State.coreTakes (s : State) (core : Nat) (c : Context) : Bool :=
  (c.hart.chain.links.all fun b => (s.port core (portOf b.west b.inbound)).holder.isNone)
    && c.bars.all fun b => (Sparse.get {} (s.coreAt core).bars b.1).holder.isNone

/-- The lowest core of a die, and its lowest slot, that takes a strip (R345): the hart and the window. -/
def State.slotOn (s : State) (die wc pages tenant from_ : Nat) (core : Option Nat) (ctx : Option Context) :
    Option (Nat × Nat) :=
  ((List.range (coreCount die)).map (die * 64 + ·)).findSome? fun c =>
    if (match core with | some b => b != c | none => false) || (match ctx with | some x => !s.coreTakes c x | none => false) then
      none
    else (s.offers c wc pages tenant from_).head?.map fun o => (c * 8 + o.1, o.2)

/-- The place of a strip of a launch without GANG (R344, R345, R353): the hart and the window. -/
def State.placeOne (s : State) (x : Launch) (strip from_ : Nat) (ctx : Option Context) : Option (Nat × Nat) :=
  let wc := match ctx with | some c => c.width | none => x.pw
  let home : List Nat × Option Nat := match ctx with
    | some c => s.homes x c
    | none => (s.eligibleDies x (x.needClass.getD 0), none)
  let at_ := fun d => s.slotOn d wc x.tmem x.tenant from_ home.2 ctx
  (s.bestDie x strip wc (home.1.filter fun d => (at_ d).isSome)).bind at_

/-- The core after one in a run: core 0 of the die to the east after the highest of a die (R346). -/
def nextCore (c : Nat) : Nat := if c % 64 + 1 < coreCount (c / 64) then c + 1 else eastDie (c / 64) * 64

/-- A run of n cores from one. -/
def coreRun : Nat → Nat → List Nat
  | 0, _ => []
  | n + 1, c => c :: coreRun n (nextCore c)

/-- A run of cores crosses an edge whose chain-lane module is down (R455). -/
def State.runCut (s : State) (cores : List Nat) : Bool :=
  (cores.zip (cores.drop 1)).any fun p => p.1 / 64 != p.2 / 64 && !s.linkUp (chainModule (p.1 / 64))

/-- What a GANG farm needs of a place: its contexts in the order of their strips, where it resumes; the width of a strip that starts,
the dies that may take the farm, and the numbers G of strips per core to try (R44, R346, R347). -/
structure Farm where
  ctxs : List Context
  wc : Nat
  dies : List Nat
  gs : List Nat

/-- The farm of a launch with GANG. The dies of one that resumes are those of each of its strips (R353). -/
def State.farm (s : State) (l : Nat) (x : Launch) : Farm :=
  let ctxs := sortBy (fun a b => decide (a.strip < b.strip)) ((s.saved l).map (·.2))
  { ctxs := ctxs, wc := x.pw,
    dies := if ctxs = [] then s.eligibleDies x (x.needClass.getD 0) else s.eligibleDies { x with dcr := false } 0,
    gs := if ctxs = [] then (List.range (8 / 2 ^ x.pw)).reverse.map (· + 1) else [max 1 x.perCore] }

/-- The widths of the partitions that the strips of a farm take (R32, R345, R353). -/
def Farm.widths (f : Farm) : List Nat := if f.ctxs = [] then [f.wc] else f.ctxs.map Context.width

/-- The places that core i of a run offers to its strips of a farm with G strips per core: G slots for a farm that starts; for one
that resumes, a slot of its own width on a die of its own for each strip that it has there (R346, R353). -/
def State.corePlaces (s : State) (x : Launch) (f : Farm) (g core i : Nat) : Option (List (Nat × Nat × Nat)) :=
  if f.ctxs = [] then
    let offer := s.offers core f.wc x.tmem x.tenant 0
    if g ≤ offer.length then
      some ((((List.range x.nstrip).filter fun t => t / g = i).zip offer).map fun q => (q.1, core * 8 + q.2.1, q.2.2))
    else none
  else
    let mine := f.ctxs.filter fun c => c.strip / g = i
    if mine.all fun c => (s.homes x c).1.contains (core / 64) && s.coreTakes core c && s.admits core x.tenant then
      (s.slotsFor core x.tmem (mine.map Context.width) [] (s.coreGroups core) (s.coreAt core).windows).map fun offer =>
        (mine.zip offer).map fun q => (q.1.strip, core * 8 + q.2.1, q.2.2)
    else none

/-- The cores of a run for a farm with G strips per core from a core on, where its dies and links allow one (R346, R455); those of a
farm that resumes are seen at each core. -/
def State.farmRun (s : State) (x : Launch) (f : Farm) (g c0 : Nat) : Option (List Nat) :=
  let n := ceilDiv x.nstrip g
  let cores := coreRun n c0
  if 320 < n ∨ (f.ctxs = [] ∧ cores.any fun c => !f.dies.contains (c / 64)) ∨ s.runCut cores then none else some cores

/-- A run offers a place for each strip of a farm: the strips with hart and window. -/
def State.runPlaces (s : State) (x : Launch) (f : Farm) (g c0 : Nat) : Option (List (Nat × Nat × Nat)) :=
  (s.farmRun x f g c0).bind fun cores =>
    let per := cores.zipIdx.map fun p => s.corePlaces x f g p.1 p.2
    if per.any Option.isNone then none else some (per.filterMap id).flatten

/-- The starting cores of a die: multiples of 4 (R346). -/
def startCores (die : Nat) : List Nat := (List.range (coreCount die / 4)).map fun i => die * 64 + 4 * i

/-- The places of a GANG farm (R346): the first G and, on the best-ranked die that has one, the first starting core that
give a run. -/
def State.placeGang (s : State) (l : Nat) (x : Launch) : Option (Nat × List (Nat × Nat × Nat)) :=
  let f := s.farm l x
  f.gs.findSome? fun g =>
    let at_ := fun d => (startCores d).findSome? fun c => s.runPlaces x f g c
    ((s.bestDie x 0 f.wc (f.dies.filter fun d => (at_ d).isSome)).bind at_).map fun ps => (g, ps)

/-- The places that a waiting strip or farm can take now: strips with hart and window; and strips per core of a farm. -/
def State.placesFor (s : State) (w : Waiter) (from_ : Nat) : Option (Nat × List (Nat × Nat × Nat)) :=
  match s.launches[w.launch]? with
  | none => none
  | some x =>
    if x.gang then s.placeGang w.launch x
    else (s.placeOne x w.strip from_ (w.context.bind fun c => s.contexts[c]?)).map fun p => (0, [(w.strip, p.1, p.2)])

/-- The waiting strip that the hub places next, of those for which there is a place (R342). -/
def State.chosen (s : State) (from_ : Nat) : Option (Waiter × Nat × List (Nat × Nat × Nat)) :=
  (s.waiters.filterMap fun w => (s.placesFor w from_).map fun p => (w, p)).foldl
    (fun best c => match best with
      | none => some c
      | some b => if s.before c.1 b.1 then some c else some b) none

/-! ## Starting a strip -/

/-- The scalar registers at a strip's first instruction (R40). -/
def Launch.firstX (x : Launch) (strip : Nat) : Vector Word 32 :=
  let sp := if x.stkb = 0 ∨ x.stksz = 0 then 0 else x.stkb + (strip + 1) * x.stksz * 4096
  ((((Vector.replicate 32 (0 : Word)).set 2 (word sp)).set 5 (word (x.recAddr + 0x60))).set 6 (word x.argx)).set 7
    (word x.nstrip)

/-- The hart of a strip at its first instruction (R40). -/
def Launch.firstHart (x : Launch) (l strip key win : Nat) (part : BitVec 8) : Hart :=
  { idleHart key with
    launch := some l, stripId := BitVec.ofNat 32 strip, winStart := win, winPages := x.tmem, part := part,
    pc := word (x.code + x.entry), x := x.firstX strip, cfg := { vnr := vnrOf x.nrc },
    sys := { vmroot := x.vmroot, htbase := x.htbase, gtbase := x.gtbase, lqmask := x.lqmask } }

/-- A window granted to a hart: it reads zero (R94). -/
def State.grantWindow (s : State) (key win pages : Nat) : State :=
  if pages = 0 then s
  else
    (s.clearTile (tileBase (key / 512) (key / 8 % 64) + 4096 * win) (4096 * pages)).updCore (key / 8) fun c =>
      { c with windows := c.windows ++ [(win, pages, some key)] }

/-- A strip stands on a hart from now on (R342, R369). -/
def State.placedAt (s : State) (l strip key : Nat) : State :=
  (s.updLaunch l fun x =>
    { x with
      lastPlaced := some s.time,
      strips := Sparse.upd {} x.strips strip fun y => { y with st := .onHart key, placed := s.time } }).retarget (key / 512)

/-- A strip starts on a hart (R40, R94, R328, R345). -/
def State.startStrip (s : State) (l strip key win : Nat) : State :=
  match s.launches[l]? with
  | none => s
  | some x =>
    let h := x.firstHart l strip key win (psplitEntry (s.coreAt (key / 8)).psplit (key % 8))
    let s := (s.grantWindow key win x.tmem).setHart key h
    let s := s.record { agent := h.agent, place := key / 8, acq := true, scope := 5, sync := x.syncs }
    (s.placedAt l strip key).updLaunch l fun x => { x with placedCount := x.placedCount + 1 }

/-- STRIP_PLACE (R39, R40, R44, R342 to R346): the hub places the strip that is next, or a GANG farm whole, and it starts;
the first placement makes the launch RUNNING (R340). The input names a page of tile memory from which windows are sought. -/
def execStripPlace (s : State) : Out :=
  match s.chosen s.input.at_ with
  | some (w, g, ps) =>
    if w.context.isSome then .next s
    else
      let s := ps.foldl (fun s p => s.startStrip w.launch p.1 p.2.1 p.2.2) s
      let s := s.updLaunch w.launch fun x => { x with perCore := g }
      match s.launches[w.launch]? with
      | some x => .next (if x.state = .ready then s.setLaunch w.launch .running else s)
      | none => .next s
  | none => .next s

/-! ## Victims -/

/-- P of the launch of a hart. -/
def State.prioOf (s : State) (h : Hart) : Nat := match s.launchOf h with | some x => x.prio | none => 0

/-- The time at which a hart's strip was last placed. -/
def State.placedTime (s : State) (h : Hart) : Nat :=
  match s.launchOf h with
  | some x => (Sparse.get {} x.strips h.stripId.toNat).placed
  | none => 0

/-- A running strip that may be swapped out for one of effective priority e and one of some widths (R343). -/
def State.isVictim (s : State) (e : Nat) (wcs : List Nat) (h : Hart) : Bool :=
  h.live && wcs.contains (bits h.part.toNat 5 2) && decide (s.prioOf h < e) && decide (2 ≤ Config.elapsed (s.placedTime h) s.time)

/-- A victim goes before another (R343): the lower P, then the one placed later, then the higher place. -/
def State.victimBefore (s : State) (a b : Nat × Hart) : Bool :=
  if s.prioOf a.2 ≠ s.prioOf b.2 then decide (s.prioOf a.2 < s.prioOf b.2)
  else if s.placedTime a.2 ≠ s.placedTime b.2 then decide (s.placedTime b.2 < s.placedTime a.2)
  else decide (b.1 < a.1)

/-- The first victim of some. -/
def State.firstVictim (s : State) (hs : List (Nat × Hart)) : Option (Nat × Hart) :=
  hs.foldl (fun best c => match best with
    | none => some c
    | some b => if s.victimBefore c b then some c else some b) none

/-- The barriers of a core that GANG farms with no strip on it hold, free (R273). -/
def State.freeBarriers (s : State) (core : Nat) : State :=
  let stays := fun (l : Nat) => s.running.any fun p => p.2.coreKey = core && p.2.launch = some l
  s.updCore core fun c => { c with bars := c.bars.map fun b => match b.2.holder with
    | some l => if ((s.launches[l]?).any fun x => x.gang) && !stays l then (b.1, { ph := b.2.ph }) else b
    | none => b }

/-- The state as it would stand with some strips swapped out, to look for places only: their windows, their link ports and the
barriers of their farms are free. -/
def State.without (s : State) (ks : List Nat) : State :=
  let k0 := s.h.key
  (ks.foldl (fun s k =>
    ((s.setHart k (idleHart k)).updCore (k / 8) fun c =>
      { c with
        windows := c.windows.filter fun w => w.2.2 != some k,
        ports := c.ports.map fun p => (p.1, if p.2.holder = some k then { p.2 with holder := none } else p.2) }).freeBarriers
      (k / 8)) s).select k0

/-- The subsets of a list, each element's place in the list as a bit. -/
def choose {α : Type} (xs : List α) (m : Nat) : List α := (xs.zipIdx.filter fun p => bit m p.2).map (·.1)

/-- The fewest victims of core i of a run that let it take its strips of a farm; of equally small sets the first, counting in the order
of the victims (R343; DESIGN CHOICE: log entry 10). -/
def State.coreVictims (s : State) (x : Launch) (f : Farm) (g core i : Nat) (vs : List (Nat × Hart)) : Option (List Nat) :=
  let mine := sortBy s.victimBefore (vs.filter fun v => v.2.coreKey = core)
  let ok := (List.range (2 ^ mine.length)).filter fun m =>
    ((s.without ((choose mine m).map (·.1))).corePlaces x f g core i).isSome
  (ok.foldl (fun best m => match best with
    | none => some m
    | some b => if popCount 8 m < popCount 8 b then some m else some b) none).map fun m => (choose mine m).map (·.1)

/-- The victims of a run of cores for a GANG farm. -/
def State.runVictims (s : State) (x : Launch) (f : Farm) (g c0 : Nat) (vs : List (Nat × Hart)) : Option (List Nat) :=
  (s.farmRun x f g c0).bind fun cores =>
    let per := cores.zipIdx.map fun p => s.coreVictims x f g p.1 p.2 vs
    if per.any Option.isNone then none else some (per.filterMap id).flatten

/-- The fewest victims that free a run for a GANG farm, the first in the order of R346 among equals (R343). -/
def State.gangVictims (s : State) (w : Waiter) (x : Launch) : Option (List Nat) :=
  let f := s.farm w.launch x
  let vs := s.running.filter fun p => s.isVictim w.ep f.widths p.2
  let ranked := sortBy (fun a b => decide (s.dieRank x 0 f.wc b < s.dieRank x 0 f.wc a)) f.dies
  let runs := (f.gs.map fun g => (ranked.map fun d => (startCores d).filterMap fun c => s.runVictims x f g c vs).flatten).flatten
  runs.foldl (fun best r => match best with
    | none => some r
    | some b => if r.length < b.length then some r else some b) none

/-- PREEMPT_VICTIM (R343): a waiting strip that finds no place takes its victims; the input names its launch and strip. -/
def execPreemptVictim (s : State) : Out :=
  match s.waiters.find? fun w => w.launch = s.input.who && w.strip = s.input.which with
  | none => .next s
  | some w => match s.launches[w.launch]? with
    | none => .next s
    | some x =>
      if (s.placesFor w 0).isSome then .next s
      else if x.gang then
        match s.gangVictims w x with
        | some ks => .next (ks.foldl State.askOut s)
        | none => .next s
      else
        let ctx := w.context.bind fun c => s.contexts[c]?
        let home := match ctx with | some c => s.homes x c | none => (s.eligibleDies x (x.needClass.getD 0), none)
        let wc := match ctx with | some c => c.width | none => x.pw
        let vs := s.running.filter fun p => s.isVictim w.ep [wc] p.2 && home.1.contains p.2.die
          && (match home.2 with | some c => p.2.coreKey = c | none => true)
        match s.firstVictim vs with
        | some v => .next (s.askOut v.1)
        | none => .next s

/-- A strip of priority at least that of the hart that issues waits for a partition of its width on its core (R164): one that starts,
one that resumes, or one of a farm that does. -/
def State.yieldsTo (s : State) : Bool :=
  s.waiters.any fun w => match s.launches[w.launch]? with
    | none => false
    | some x =>
      let cs := if x.gang then (s.saved w.launch).map (·.2) else (w.context.bind fun c => s.contexts[c]?).toList
      let fits := fun (wc : Nat) (home : List Nat × Option Nat) =>
        wc == bits s.h.part.toNat 5 2 && home.1.contains s.h.die && home.2.all fun c => decide (c = s.h.coreKey)
      decide (s.prioOf s.h ≤ w.ep) && s.admits s.h.coreKey x.tenant
        && if cs = [] then fits x.pw (s.eligibleDies x (x.needClass.getD 0), none)
          else cs.any fun c => fits c.width (s.homes x c)

/-- YIELD (R164; log entry 39): it waits for the vector queue; then the scheduler may swap the strip out. -/
def execYield (_o : FI) (s : State) : Out :=
  if s.h.queueBusy then .next s
  else
    let s := s.recordWait.advance 8
    .next (if s.yieldsTo && Config.yields s.time then s.askOut s.h.key else s)

end Sys2Proof.Machine
end

