-- ==== Sys2Proof/Machine/Walk.lean ====
section
/-!
DEFINITION. Bindweed: walks, their rules, their endings, and the program slots (R307 to R321, R449, R450).
-/
namespace Sys2Proof.Machine

/-! ## Walks by number -/

/-- The walk with a number. -/
def State.walkAt (s : State) (k : Nat) : Walk := if k = s.wkNo then s.wk else Sparse.get {} s.walks k

/-- The state with a walk replaced. -/
def State.setWalk (s : State) (k : Nat) (w : Walk) : State :=
  if k = s.wkNo then { s with wk := w } else { s with walks := Sparse.set {} s.walks k w }

/-- The state in which a walk is the one whose rule runs. -/
def State.selectWalk (s : State) (k : Nat) : State :=
  if k = s.wkNo then s
  else
    { s with
      wk := s.walkAt k, wkNo := k, walks := Sparse.set {} (Sparse.set {} s.walks s.wkNo s.wk) k {} }

/-- The home engine of a root (R14, R86, R307): die * 4 + stack; on a matrix die, engine 0 of the bandwidth die it
borders. -/
def homeEngine (pa : Nat) : Nat :=
  match homeOf pa with
  | .dram d => match d with
    | 0 | 2 => 16
    | 1 | 3 => 20
    | _ => d * 4 + pa % 0x10000000000 / 0xC00000000
  | _ => 16

/-- Walks in progress at an engine (R307). -/
def State.engineLoad (s : State) (e : Nat) : Nat :=
  (((s.wkNo, s.wk) :: s.walks).filter fun w => w.2.active && w.2.engine = e).length

/-- The walk a command begins (R308, R310). -/
def Cmd.begin_ (c : Cmd) (core entry : Nat) : Walk :=
  let w3 := c.words.getD 3 0
  let reg := fun i => word (c.words.getD i 0)
  { active := true, core := core, entry := entry, engine := homeEngine c.src.pa, cmd := c.id, launch := c.launch,
    strip := c.strip, base := c.region.1, len := c.region.2.1, rd := c.region.2.2, key := c.src.key, scope := c.scope,
    fg := bit w3 11, fpol := bits w3 8 3, limit := if bits w3 16 16 = 0 then 64 else bits w3 16 16, prog := c.rules,
    w := #v[word (bits c.srcWord 0 46), reg 5, reg 6, reg 7, 0, 0, 0, 0] }

/-- WALK (R307, R308): an accepted walk command of the entry named starts at its home engine, which holds 1,024 walks and
starts none while its die is parked (R374). -/
def execWalk (s : State) : Out :=
  onCmd s fun core e c =>
    let w := c.begin_ core e
    let die := s.dieAt (w.engine / 4)
    if c.op ≠ 4 ∨ c.walk.isSome ∨ 1024 ≤ s.engineLoad w.engine ∨ die.pkd ∨ die.busy ∨ !die.up then s
    else
      let (k, s) := s.fresh
      (s.setCmd core e (some { c with walk := some k })).setWalk k w

/-! ## Rules -/

/-- w[r] of a walk. -/
def Walk.reg (w : Walk) (r : BitVec 3) : Word := w.w[r.toNat]

/-- The walk with w[r] replaced. -/
def Walk.setReg (w : Walk) (r : BitVec 3) (v : Word) : Walk := { w with w := w.w.set r.toNat v }

/-- The walk with the next rule to run. -/
def Walk.goTo (w : Walk) (t : Nat) : Walk := { w with rpc := t, executed := w.executed + 1 }

/-- A rule of the walk that runs (R310): the walk after it goes on with the next rule. -/
def onRule (s : State) (f : Walk → Walk) : Out :=
  if s.wk.active && !s.wk.frozen && s.wk.ended.isNone then
    let w := f s.wk
    .next { s with wk := w.goTo (s.wk.rpc + 1) }
  else .next s

/-- A rule that jumps where a condition holds. -/
def onJump (s : State) (c : Walk → Bool) (t : BitVec 5) : Out :=
  if s.wk.active && !s.wk.frozen && s.wk.ended.isNone then
    .next { s with wk := s.wk.goTo (if c s.wk then t.toNat else s.wk.rpc + 1) }
  else .next s

/-- The command a walk carries out. -/
def State.walkCmd (s : State) (w : Walk) : Option Cmd := s.cmdAt w.core w.entry

/-- The agent of a walk (R322). -/
def Walk.agent (w : Walk) : Agent := .command w.launch w.strip w.cmd

/-- The location word of a pointer of a walk (R264, R309). -/
def State.pointerWord (s : State) (w : Walk) (p : Nat) : Nat :=
  match s.walkCmd w with
  | some c => 2 ^ 62 + bits c.srcWord 46 16 * 2 ^ 46 + bits p 0 46
  | none => 0

/-- A read of n bytes at a pointer (R309, R316, R449): the walk that ends, or the bytes. -/
def State.walkRead (s : State) (p n : Nat) : Except State (List Byte × State) :=
  let w := s.wk
  let pa := w.base + p
  let addr := s.pointerWord w p
  let stop := fun (t : State) (outc sub : Nat) =>
    { t with wk := { w with ended := some { outc := outc, code := 0x44, sub := sub, addr := addr, asp := 2 } } }
  let chk := fun (q : Nat) => match s.walkCmd w with
    | some c => s.cmdChecked c q
    | none => s.windowChecked q
  if w.len < p + n then .error (stop s 6 0x25)
  else if !w.rd then .error (stop s 6 0x21)
  else match s.deviceFault w.agent w.core chk false w.key pa n with
    | some (none, t) =>
      let t := { t with wk := { w with frozen := true } }
      .error (match s.walkCmd w with
        | some c => t.freezeCmd w.core w.entry c addr false 2 w.rpc w.steps
        | none => t)
    | some (some sub, t) => .error (stop t (if sub = 0x23 ∨ sub = 0x24 then 7 else 6) sub)
    | none =>
      .ok (s.readBytes w.key pa n, (piecesOf pa n).foldl (fun s q =>
        s.record { deviceEv w.agent w.core false chk q with acq := true, scope := w.scope }) s)

/-- A rule that reads n bytes at wA + OFS. -/
def onRead (s : State) (a : BitVec 3) (ofs : BitVec 15) (n : Nat) (f : Walk → List Byte → Walk) : Out :=
  if s.wk.active && !s.wk.frozen && s.wk.ended.isNone then
    match s.walkRead (s.wk.reg a + ofs.setWidth 64).toNat n with
    | .error t => .next t
    | .ok (bs, t) => .next { t with wk := (f s.wk bs).goTo (s.wk.rpc + 1) }
  else .next s

/-- LDF (R312). -/
def execWalkLdf (d a : BitVec 3) (z : BitVec 2) (x : BitVec 1) (o : BitVec 15) (s : State) : Out :=
  let n := 2 ^ z.toNat
  onRead s a o n fun w bs =>
    w.setReg d (if x = 1 then BitVec.ofInt 64 (signed (8 * n) (ofBytes bs)) else word (ofBytes bs))

/-- A condition of CMP (R312). -/
def ruleCond (c : BitVec 3) (a b : Word) : Bool :=
  match c.toNat with
  | 0 => a == b
  | 1 => a != b
  | 2 => decide (a.toInt < b.toInt)
  | 3 => decide (b.toInt ≤ a.toInt)
  | 4 => decide (a.toNat < b.toNat)
  | _ => decide (b.toNat ≤ a.toNat)

/-- CMP of two registers (R312). -/
def execWalkCmp (a b c : BitVec 3) (s : State) : Out := onRule s fun w => { w with c := ruleCond c (w.reg a) (w.reg b) }
/-- CMP with an immediate (R312). -/
def execWalkCmpi (a c : BitVec 3) (i : BitVec 15) (s : State) : Out :=
  onRule s fun w => { w with c := ruleCond c (w.reg a) (i.signExtend 64) }
/-- HASH (R312). -/
def execWalkHash (d a : BitVec 3) (n : BitVec 6) (s : State) : Out :=
  onRule s fun w => w.setReg d ((w.reg a * 0x9E3779B97F4A7C15#64) >>> (64 - n.toNat))
/-- ADD of two registers (R312). -/
def execWalkAdd (d a b : BitVec 3) (s : State) : Out := onRule s fun w => w.setReg d (w.reg a + w.reg b)
/-- ADD of an immediate (R312). -/
def execWalkAddi (d a : BitVec 3) (i : BitVec 18) (s : State) : Out :=
  onRule s fun w => w.setReg d (w.reg a + i.signExtend 64)
/-- SHADD (R312). -/
def execWalkShadd (d a b : BitVec 3) (sh : BitVec 6) (s : State) : Out :=
  onRule s fun w => w.setReg d (w.reg a + (w.reg b <<< sh.toNat))
/-- LI (R312). -/
def execWalkLi (d : BitVec 3) (i : BitVec 25) (s : State) : Out := onRule s fun w => w.setReg d (i.signExtend 64)
/-- SEL (R312). -/
def execWalkSel (d a b : BitVec 3) (s : State) : Out := onRule s fun w => w.setReg d (if w.c then w.reg a else w.reg b)
/-- TNUL (R312). -/
def execWalkTnul (a : BitVec 3) (s : State) : Out := onRule s fun w => { w with c := w.reg a == 0 }
/-- JT (R312). -/
def execWalkJt (t : BitVec 5) (s : State) : Out := onJump s (fun w => w.c) t
/-- JF (R312). -/
def execWalkJf (t : BitVec 5) (s : State) : Out := onJump s (fun w => !w.c) t
/-- JMP (R312). -/
def execWalkJmp (t : BitVec 5) (s : State) : Out := onJump s (fun _ => true) t

/-- The walk ends abnormally at its rule. -/
def Walk.stop (w : Walk) (outc : Nat) : Walk := { w with ended := some { outc := outc, code := 0x45, sub := outc } }

/-- STEP (R312, R313, R449): the step that would pass the limit is not executed. -/
def execWalkStep (_a : BitVec 3) (s : State) : Out :=
  if s.wk.limit ≤ s.wk.steps then
    .next (if s.wk.active && !s.wk.frozen && s.wk.ended.isNone then { s with wk := s.wk.stop 2 } else s)
  else onRule s fun w => { w with steps := w.steps + 1 }

/-- EMITF (R312, R313, R449): a fourth payload word ends the walk. -/
def execWalkEmitf (a : BitVec 3) (s : State) : Out :=
  if s.wk.np = 3 then
    .next (if s.wk.active && !s.wk.frozen && s.wk.ended.isNone then { s with wk := s.wk.stop 5 } else s)
  else onRule s fun w => { w with pay := w.pay.set (w.np % 3) (w.reg a) (Nat.mod_lt _ (by decide)), np := w.np + 1 }

/-- EMITR (R312). -/
def execWalkEmitr (a : BitVec 3) (n : BitVec 2) (o : BitVec 15) (s : State) : Out :=
  onRead s a o (8 * n.toNat) fun w bs =>
    { w with
      pay := Vector.ofFn fun j => if j.val < n.toNat then word (bytesWord bs j.val) else 0,
      np := n.toNat }

/-! ## Endings -/

/-- The result record of a walk (R314). -/
def Walk.recordBytes (w : Walk) (outc : Nat) : List Byte :=
  wordsBytes [w.steps % 2 ^ 16 * 2 ^ 48 + w.rpc % 32 * 2 ^ 32 + w.np * 2 ^ 6 + outc,
    w.pay[0].toNat, w.pay[1].toNat, w.pay[2].toNat]

/-- The strip's counters as a walk completes (R319): its ending as counted, and its steps. -/
def Hart.countWalk (h : Hart) (outc steps : Nat) : Hart :=
  let c := h.walks
  { h with walks := { c with
    outst := c.outst - 1,
    found := if outc = 0 then satAdd c.found 1 else c.found,
    missed := if outc = 1 then satAdd c.missed 1 else c.missed,
    other := if 2 ≤ outc then satAdd c.other 1 else c.other,
    steps := satAdd c.steps steps } }

/-- The counters of a strip raised as a walk of it completes: those of its hart, or those of its saved context, in its save
slot too (R315, R351). -/
def State.countWalk (s : State) (launch strip outc steps : Nat) : State :=
  let s := s.updStrip launch strip fun h => h.countWalk outc steps
  match s.hartOf launch strip, (s.contextOf launch strip).bind fun i => s.contexts[i]? with
  | none, some c =>
    let w := c.hart.walks
    s.put 0 (c.base + 0x300) (wordsBytes [w.outst.toNat, w.found.toNat, w.missed.toNat, w.other.toNat, w.steps.toNat])
  | _, _ => s

/-- The record of a walk (R392, R402, R449, R450). -/
def State.walkRec (s : State) (w : Walk) (f : CmdFault) : FaultRec := s.cmdRec f 2 w.rpc w.steps false

/-- What follows the result record of a walk (R315, R449, R450): the counters, its report, its arrival word, and the end of its
command. A record that is written counts the ending it shows (log entry 31). -/
def State.afterRecord (s : State) (k shown : Nat) (w : Walk) (c : Cmd) (ending : Option WalkEnd) (limit : Bool) : State :=
  let fault := fun (code sub addr asp : Nat) (rd wr : Bool) =>
    ({ code := code, sub := sub, addr := addr, asp := asp, rd := rd, wr := wr, by_ := c.issuer w.entry } : CmdFault)
  let s := s.countWalk w.launch w.strip shown w.steps
  let s := match ending with
    | none => s
    | some e =>
      let fr := s.walkRec w (fault e.code e.sub e.addr e.asp (e.code = 0x44) false)
      if w.fpol = 1 ∨ (w.fpol = 2 ∧ limit) then s
      else if w.fpol = 3 then s.ringRecord (s.launchRing (some w.launch)) fr
      else s.holdFor w.launch w.strip fr
  let s := match s.updArrival w.core c true fun a => a.add 32 with
    | .ok t => t
    | .error (sub, t) => t.holdFor w.launch w.strip (t.walkRec w (fault 0x44 sub c.awWord 2 true true))
  (s.endCmd w.core w.entry c).setWalk k {}

/-- A walk whose result record cannot be written ends (R450). It counts the ending it has reached (DESIGN CHOICE: log entry 31). -/
def State.loseWalk (s : State) (k shown sub : Nat) (w : Walk) (c : Cmd) : State :=
  let t := (s.countWalk w.launch w.strip shown w.steps).flagArrival w.core c
  let f : CmdFault := { code := 0x44, sub := sub, addr := c.dstWord, asp := 2, wr := true, by_ := c.issuer w.entry }
  ((t.holdFor w.launch w.strip (t.walkRec w f)).endCmd w.core w.entry c).setWalk k {}

/-- A walk completes (R315, R449, R450): its result record is written, one granule and then the other, with the outcome shown; and
what follows the record. The ending is none for MISS and END. The checks of the record are made, and it counts as performed in the
record of races, with its first granule (log entry 18). -/
def State.endWalk (s : State) (k : Nat) (outc : Nat) (ending : Option WalkEnd) : State :=
  let w := s.walkAt k
  match s.walkCmd w with
  | none => s.setWalk k {}
  | some c =>
    let limit := decide (2 ≤ outc) && decide (outc ≤ 5)
    let shown := if limit && w.fpol = 2 then 1 else outc
    let pa := c.dst.pa + if w.half then 16 else 0
    let chk := if w.half then fun _ => false else s.cmdChecked c
    match s.deviceFault w.agent w.core chk true c.dst.key pa (if w.half then 16 else 32) with
    | some (none, t) => (t.freezeCmd w.core w.entry c c.dstWord true 2 w.rpc w.steps).setWalk k { w with frozen := true }
    | some (some sub, t) => t.loseWalk k shown sub w c
    | none =>
      if w.half then
        ((s.store c.dst.key pa ((w.recordBytes shown).drop 16)).clearPoisonRange c.dst.pa 32).afterRecord k shown w c ending limit
      else
        ((s.recordDevice w.agent w.core chk true pa 32).store c.dst.key pa ((w.recordBytes shown).take 16)).setWalk k
          { w with half := true }

/-- A rule that ends the walk that runs with an outcome (R314). -/
def endRule (outc : Nat) (s : State) : Out :=
  .next (if s.wk.active && !s.wk.frozen && s.wk.ended.isNone then s.endWalk s.wkNo outc none else s)

/-- MISS (R312, R314). -/
def execWalkMiss (s : State) : Out := endRule 1 s
/-- END (R312, R314). -/
def execWalkEndRule (s : State) : Out := endRule 0 s

/-- The ending of R449 a walk has met. -/
def Walk.ending (w : Walk) : Option WalkEnd :=
  match w.ended with
  | some e => some e
  | none =>
    if 16 * (w.limit + 1) ≤ w.executed then some { outc := 3, code := 0x45, sub := 3 }
    else if w.prog.length ≤ w.rpc then some { outc := 4, code := 0x45, sub := 4 }
    else none

/-- WALK_ABNORMAL_END (R449): the walk named ends by the limit or the fault it has met. -/
def execWalkAbnormalEnd (s : State) : Out :=
  let w := s.walkAt s.input.who
  match w.ending with
  | none => .next s
  | some e => .next (if w.active && !w.frozen then s.endWalk s.input.who e.outc (some e) else s)

/-! ## Program slots -/

/-- A rule word that TVLD accepts in a program of nr rules (R321). -/
def ruleOk (nr : Nat) (w : BitVec 32) : Bool :=
  match decodeRule w with
  | some (.walkCmp _ _ c) => decide (c.toNat < 6)
  | some (.walkCmpi _ c _) => decide (c.toNat < 6)
  | some (.walkHash _ _ n) => decide (0 < n.toNat) && decide (n.toNat ≤ 32)
  | some (.walkEmitr _ n _) => n != 0
  | some (.walkJt t) => decide (t.toNat < nr)
  | some (.walkJf t) => decide (t.toNat < nr)
  | some (.walkJmp t) => decide (t.toNat < nr)
  | some _ => true
  | none => false

/-- TVLD (R318). -/
def execTvld (o : FX) (s : State) : Out :=
  let nr := bits o.imm.toNat 0 6
  let a := (s.x o.a).toNat
  let acc : Acc := { rd := true, cls := .vector }
  let cs := when_ (o.d != 0 || o.b != 0 || o.c != 0 || o.m != 0 || o.z != 0 || decide (16 ≤ o.f.toNat)
      || decide (64 ≤ o.imm.toNat)) (operand 0x01) ++ when_ (nr == 0 || decide (32 < nr)) (operand 0x07)
  if cs ≠ [] then orTrap s cs (.next s)
  else match hartRead s s.h s.h.plv acc false a (4 * nr) (when_ (decide (a % 64 ≠ 0)) (accCause acc false a 0x22 6 0)) with
    | .error e => trapOut e
    | .ok (bs, s1) =>
      let ws := (List.range nr).map fun j => BitVec.ofNat 32 (ofBytes ((bs.drop (4 * j)).take 4))
      match (List.range nr).find? fun j => !ruleOk nr (ws.getD j 0) with
      | some j => orTrap s1 [content j] (.next s1)
      | none =>
        .next ((match s1.h.launch with
          | some l => s1.updLaunch l fun x => { x with slots := Sparse.set [] x.slots o.f.toNat ws }
          | none => s1).advance 8)

/-- SLOTS: the program slots of the launch that hold a program (R319). -/
def State.slotSet (s : State) : Nat :=
  match s.launchOf s.h with
  | some l => (List.range 16).foldr (fun p n => ofBool (Sparse.get [] l.slots p != []) + 2 * n) 0
  | none => 0

/-- TVSTAT (R319). -/
def execTvstat (o : FX) (s : State) : Out :=
  orTrap s (when_ (fxOther o true false false || o.m != 0 || o.z != 0 || o.f != 0 || decide (8 ≤ o.imm.toNat)) (operand 0x01)
      ++ when_ (decide (6 ≤ bits o.imm.toNat 0 3)) (operand 0x02))
    (let c := s.h.walks
    .next ((s.setX o.d (match bits o.imm.toNat 0 3 with
      | 0 => c.outst
      | 1 => c.found
      | 2 => c.missed
      | 3 => c.other
      | 4 => c.steps
      | _ => word s.slotSet)).advance 8))

end Sys2Proof.Machine
end

