-- ==== Sys2Proof/Machine/Swap.lean ====
section
/-!
DEFINITION. Swap-out and resumption: what a save slot holds, what a swap-out waits for, and how a strip goes on (R32, R46,
R229, R273, R305, R347 to R353, R395, R403, R413, R414, R443 to R445); freezes by VIOLATION and the wait watchdog (R396,
R400).
-/
namespace Sys2Proof.Machine

/-! ## The image of a context (R351, R352) -/

/-- A piece of a save slot: its offset, its bytes, and whether it is written poisoned (R443). -/
structure Section where
  ofs : Nat
  bytes : List Byte
  bad : Bool := false
  deriving DecidableEq, Repr

/-- The vector-configuration code NRC of a number of registers (R33). -/
def nrcOf (vnr : Nat) : Nat := log2 vnr - 3

/-- The header of a context (R352). -/
def State.headerWords (s : State) (l : Launch) (owned : Bool) : List Nat :=
  let h := s.h
  let ss := (s.ownSession).isSome || match h.chain.body with
    | some b => b.nodes.any fun i => match i with | .mgpush _ | .mgpull _ => true | _ => false
    | none => false
  [ bits l.recAddr 0 57, h.stripId.toNat, h.pc.toNat,
    2 ^ 63 + ofBool h.chain.run.isSome * 2 ^ 62 + ofBool h.vq.isSome * 2 ^ 61 + ofBool owned * 2 ^ 60 + ofBool ss * 2 ^ 59
      + (if ss then h.die else 0) * 2 ^ 56 + ofBool h.bound * 2 ^ 55 + (if h.bound then h.core else 0) * 2 ^ 48
      + h.plv.code * 2 ^ 8 + h.held.length * 2 ^ 4 + bits h.part.toNat 5 2 * 2 ^ 2 + nrcOf h.cfg.vnr ]

/-- The numbers of the control registers in the order of the save slot, before MSTATE (R351). -/
def savedCsrs : List Nat :=
  [0x000, 0x001, 0x002, 0x008, 0x009, 0x00A, 0x00B, 0x00C, 0x00D, 0x010, 0x011, 0x012, 0x014, 0x020, 0x021, 0x022, 0x023, 0x030]

/-- Those behind ROWCNT (R351). -/
def savedCsrs2 : List Nat :=
  [0x050, 0x051, 0x100, 0x101, 0x200, 0x201, 0x202, 0x203, 0x204, 0x206, 0x210, 0x212, 0x205]

/-- The control words of a context (R351). -/
def State.controlWords (s : State) : List Nat :=
  let csr := fun n => (s.csrRead n).toNat
  let w := s.h.walks
  savedCsrs.map csr ++ [(match s.unit with | some u => u.rowcnt.toNat | none => 0)] ++ savedCsrs2.map csr
    ++ [w.outst.toNat, w.found.toNat, w.missed.toNat, w.other.toNat, w.steps.toNat] ++ [csr 0x216, csr 0x003]

/-- The window map of a context (R351). -/
def Hart.windowMap (h : Hart) : Nat := h.winSet.foldl (fun m p => if p.2 ∧ p.1 < 512 then setBit m p.1 true else m) 0

/-- A list cut into pieces of n. -/
def cut {α : Type} (n : Nat) (l : List α) : List (List α) := (List.range (ceilDiv l.length n)).map fun i => (l.drop (n * i)).take n

/-- Bytes of a save slot whose format is the part's own (R351, log entry 40). -/
def State.ownBytes (s : State) (ofs n : Nat) : List Byte := (List.range n).map fun i => Config.savedByte s.time (ofs + i)

/-- A part of a save slot in a format of the part's own, where it is written (R351, log entry 40). -/
def State.ownSection (s : State) (written : Bool) (ofs n : Nat) (bad : Bool) : List Section :=
  if written then [⟨ofs, s.ownBytes ofs n, bad⟩] else []

/-- The sections of matrix state (R229, R352). -/
def State.matrixSections (s : State) (m : MatrixUnit) : List Section :=
  ((List.range 16).filterMap fun b =>
    if bit m.dirty.toNat b then
      some ⟨0x30000 + 0x2000 * b, ((List.range 16).map fun r => toBytes 512 (Sparse.get 0 m.acc (16 * b + r))).flatten,
        Sparse.get false m.accErr b⟩
    else none)
    ++ s.ownSection m.tv 0x50000 0x6000 m.tileErr ++ s.ownSection (m.tv && m.spar != 0) 0x56000 0x6000 false
    ++ s.ownSection m.sv 0x5C000 0x2000 false

/-- The control section of a context as 32-byte pieces, those with an error poisoned (R351, R443). -/
def State.controlSections (s : State) : List Section :=
  let words := wordsBytes s.controlWords
  (cut 32 (words ++ s.ownBytes (0x200 + words.length) (0x200 - words.length))).zipIdx.map fun p =>
    ⟨0x200 + 32 * p.2, p.1, (List.range 4).any fun i => Sparse.get false s.h.ctlErr (4 * p.2 + i)⟩

/-- The sections of a save slot but for its window (R351, R352); bars says whether barriers are saved with the context. -/
def State.sections (s : State) (l : Launch) (bars : Bool) : List Section :=
  let h := s.h
  let c := h.cap
  let u := s.unit
  let masks := h.vec.mset.foldl (fun m p => if p.2 then setBit m p.1 true else m) 0
  [ ⟨0, wordsBytes (s.headerWords l u.isSome) ++ s.ownBytes 0x20 0xE0, false⟩,
    ⟨0x100, wordsBytes ((List.range 32).map fun i => (h.getX i).toNat), false⟩,
    ⟨0x400, ((List.range 64).map fun n => toBytes 4 (Sparse.get 0 h.vec.vhw n)).flatten, false⟩,
    ⟨0x500, toBytes 1 masks ++ s.ownBytes 0x501 0x3F ++ toBytes 64 h.windowMap ++ s.ownBytes 0x580 0x80, false⟩ ]
    ++ (h.tensors.filterMap fun t => if bit t.2.toNat 511 then some ⟨0x1000 + 64 * t.1, toBytes 64 t.2.toNat, false⟩ else none)
    ++ (h.vec.mset.filterMap fun p =>
        if p.2 then some ⟨0x2000 + 0x1000 * p.1, toBytes (c / 4) (Sparse.get 0 h.vec.m p.1), Sparse.get false h.vec.merr p.1⟩
        else none)
    ++ (h.held.zipIdx.map fun r => ⟨0xA000 + 0x40 * r.2, r.1.bytes, false⟩)
    ++ (h.vec.vhw.filterMap fun p =>
        if p.2 = 0 then none
        else some ⟨0x10000 + p.1 * c, toBytes p.2 (Sparse.get 0 h.vec.v p.1), Sparse.get false h.vec.verr p.1⟩)
    ++ s.controlSections ++ s.ownSection bars 0x600 0x100 false
    ++ s.ownSection (h.chain.body.isSome || !h.chain.links.isEmpty || h.chain.run.isSome || h.vq.isSome) 0x700 0x900 false
    ++ (match u with | none => [] | some m => s.matrixSections m)

/-- The pages of a window that are saved. -/
def Hart.savedPages (h : Hart) : List Nat := h.winSet.filterMap fun p => if p.2 ∧ p.1 < h.winPages then some p.1 else none

/-- The 32-byte sectors of a range are poisoned. -/
def State.setPoison (s : State) (pa n : Nat) : State :=
  (List.range (ceilDiv n 32)).foldl (fun s i => s.setPoisonAt (pa / 32 + i) true) s

/-- A section is written to a slot under key slot 0 (R443). -/
def State.saveSection (s : State) (base : Nat) (x : Section) : State :=
  match s.writePhys 0 (base + x.ofs) x.bytes with
  | .ok t => if x.bad then t.setPoison (base + x.ofs) x.bytes.length else t
  | .error _ => s

/-- A page copied from one place to another, its poisoned sectors with it (R443, R444). -/
def State.copyPage (s : State) (src dst : Nat) : State :=
  match s.writePhys 0 dst (s.readBytes 0 src 4096) with
  | .ok t => (List.range 128).foldl (fun t i => if s.poisoned (src + 32 * i) then t.setPoison (dst + 32 * i) 32 else t) t
  | .error _ => s

/-- The place of window page p in a slot (R351). -/
def slotPage (base p : Nat) : Nat := base + 0x100000 + 0x1000 * p

/-! ## Swapping out -/

/-- A slot holds a context: until its strip is resumed and its matrix state has a unit again (R229, R350). -/
def State.holdsSlot (s : State) (c : Context) : Bool :=
  c.live && (c.out || match s.hartOf c.launch c.strip with | some k => (s.hartAt k).muSaved.isSome | none => false)

/-- The lowest save slot of a die's pool that holds no context (R350). -/
def State.freeSave (s : State) (die : Nat) : Option Nat :=
  (List.range (s.dieAt die).nslot).find? fun n => !s.contexts.any fun c => s.holdsSlot c && c.die = die && c.slotNo = n

/-- The matrix state of the strip of the hart that issues: that of its unit, or that which waits for one (R229). -/
def State.matrixOf (s : State) : Option MatrixUnit := match s.unit with | some u => some u | none => s.h.muSaved

/-- The state as a context is written or read: the strip's matrix state stands in the unit of its core. -/
def State.withMatrix (s : State) (m : Option MatrixUnit) : State :=
  s.updCore s.h.coreKey fun y => { y with mu := match m with | some m => { m with owner := some s.h.key } | none => {} }

/-- The hart as its context keeps it: what a resumed strip does not take with it is gone, and a VWAIT starts again with every
element unsatisfied (R281, R349). -/
def Hart.kept (h : Hart) : Hart :=
  { h with
    preempt := false, forPark := none, lacks := none, muSaved := none,
    vq := h.vq.map fun p => match p.instr with | .vwait _ => { p with sat := 0 } | _ => p }

/-- Accepted commands name a byte of a range (R265). -/
def State.commandsName (s : State) (base len : Nat) : Bool :=
  s.cores.any fun c => c.2.eng.any fun e => match e.2 with
    | some m => m.ranges.any (rangesMeet (base, len))
    | none => false

/-- Rows are in flight at a member of the join that the hart that issues belongs to (R229). -/
def State.rowsInFlight (s : State) : Bool :=
  match s.unit with
  | some u =>
    if u.joined then
      (members (s.h.coreKey - u.jp) u.jn).any fun c => s.ownerLaunch c = s.h.launch && (s.coreAt c).mu.rows != []
    else u.rows != []
  | none => false

/-- The leader of the join that the hart that issues belongs to stands on its core and can still send rows: a member leaves behind
it, so that no row of the leader misses a member (R229; log entry 56). -/
def State.leaderSends (s : State) : Bool :=
  match s.unit with
  | some u =>
    let c := s.h.coreKey - u.jp
    let lead := (s.coreAt c).mu
    u.joined && u.jp != 0 && lead.joined && s.ownerLaunch c = s.h.launch && lead.owner.any fun k => !(s.hartAt k).frozen
  | none => false

/-- Rows that have come to the member of a join whose hart issues wait for a tile that it has still to load (R227). -/
def State.rowsWait (s : State) : Bool :=
  match s.unit with
  | some u => u.joined && match u.rows with | r :: _ => !u.ready r | [] => false
  | none => false

/-- The hart that issues abandons a scalar wait; its pc points at it (R349). -/
def Hart.abandon (h : Hart) : Hart :=
  match h.wait with
  | some (.htsync _ _) | none => h
  | some _ => { h with wait := none, stalled := false }

/-- A swap-out of the hart that issues can go on: its matrix rows are committed, no command names its window, no fault of its
chain waits to be raised, no write of HTSYNC waits, and a save slot is free (R265, R349, R350; log entry 41). -/
def State.canSave (s : State) : Bool :=
  (match s.h.abandon.wait with | some _ => false | none => true) && !s.rowsInFlight && !s.leaderSends
    && (s.h.winPages = 0 || !s.commandsName s.h.winBase s.h.winBytes)
    && (match s.h.chain.run with | some _ => (s.chainFault (s.chainOf s.h.key).1).isNone | none => true)
    && (s.freeSave s.h.die).isSome

/-- The barriers of the core of the hart that issues that its GANG farm holds, saved with the farm's last strip there
(R273). -/
def State.farmBarriers (s : State) : List (Nat × Barrier) :=
  if s.isGang s.h && !s.others.any fun p => p.2.coreKey = s.h.coreKey && p.2.launch = s.h.launch then
    s.core.bars.filter fun b => b.2.holder = s.h.launch && b.2.holder.isSome
  else []

/-- The saved strip of the farm of the hart that issues, of its core and below it, with the lowest STRIPID: its slot takes the
barriers that the farm holds on the core (R351). -/
def State.barrierSlot (s : State) (l strip : Nat) : Option Nat :=
  (lowestStrip ((s.saved l).filter fun c => c.2.hart.coreKey = s.h.coreKey && decide (c.2.strip < strip))).map (·.1)

/-- Barriers of a farm saved in the slot of a context (R273, R351). -/
def State.saveBarriers (s : State) (ci : Nat) (bars : List (Nat × Barrier)) : State :=
  match s.contexts[ci]? with
  | none => s
  | some c =>
    let t := (s.ownSection true 0x600 0x100 false).foldl (fun (s : State) y => s.saveSection c.base y) s
    { t with contexts := t.contexts.modify ci fun d => { d with bars := bars } }

/-- The strip of the hart that issues saved and taken off its hart (R349 to R352), to resume on a die of a class, 0 for its
own. -/
def State.saveStrip (s : State) (cls : Nat) : State :=
  match s.h.launch, s.freeSave s.h.die with
  | some l, some n =>
    let k := s.h.key
    let s : State := { s.breakChain k with h := (s.breakChain k).h.abandon }
    let h : Hart := s.h
    let strip := h.stripId.toNat
    let x := s.launchOf h
    let base := (s.dieAt h.die).poolBase + n * 2 ^ 22
    let bars := s.farmBarriers
    let lower := if bars = [] then none else s.barrierSlot l strip
    let ctx : Context :=
      { hart := h.kept, mu := s.matrixOf.map fun u => { u with owner := none, waiters := [] },
        die := h.die, slotNo := n, launch := l, strip := strip, bars := if lower.isNone then bars else [], cls := cls,
        base := base }
    let secs : List Section := match x with | some x => (s.withMatrix s.matrixOf).sections x (ctx.bars != []) | none => []
    let s := secs.foldl (fun (s : State) y => s.saveSection base y) s
    let s := h.savedPages.foldl (fun s p => s.copyPage (h.winBase + 4096 * p) (slotPage base p)) s
    let s := match lower with | some ci => s.saveBarriers ci bars | none => s
    let s := bars.foldl (fun s b => s.updCore h.coreKey fun y => { y with bars := Sparse.set {} y.bars b.1 { ph := b.2.ph } }) s
    let s := s.giveUpUnits.updCore h.coreKey fun c => { c with windows := c.windows.filter fun w => w.2.2 != some k }
    let s := if h.winPages = 0 then s else s.clearTile h.winBase h.winBytes
    ({ s with h := idleHart k, contexts := s.contexts ++ [ctx] }.updLaunch l fun x =>
      { x with strips := Sparse.upd {} x.strips strip fun y => { y with st := .swapped s.contexts.length, eligible := s.time } }).retarget
        h.die
  | _, _ => s

/-- A hart as it stands after the request that took it, with the issuing hart as before. -/
def State.onHart (s : State) (k : Nat) (f : State → State) : State := (f (s.select k)).select s.h.key

/-- A pre-emption request of a hart can be taken: nothing holds it back (R349, R403, R445). -/
def State.swapReady (s : State) (k : Nat) : Bool :=
  let t := s.select k
  t.h.live && t.h.preempt && t.h.lacks.isNone && t.canSave

/-- The state with the wait of the hart named completed, where the event it awaits has arrived (R46, R403); none where it has not,
or where the hart waits for nothing. -/
def State.wakeNow (s : State) (k : Nat) : Option State :=
  let h := s.hartAt k
  let run := fun (f : State → Out) (who which : Nat) =>
    match f { s with input := { s.input with who := who, which := which, value := 2 ^ 4096 - 1 } } with
    | .next t => some ({ t with input := s.input }.select s.h.key)
    | _ => none
  match h.wait with
  | some w =>
    (match w with
    | .chwait _ => run execChwaitWake k 0
    | .bwait _ => run execBwaitWake k 0
    | .sywt _ => run execSywtWake k 0
    | _ => none).bind fun t => if (t.hartAt k).wait.isNone then some t else none
  | none => match h.vq with
    | none => none
    | some p =>
      (match p.instr, p.xs with
      | .await _, _ => run execAwaitWake k 0
      | .vwait _, _ => run execVwaitEnd k 0
      | .mcfg _, _ => run execMatrixUnitGrant h.coreKey 0
      | .mjoin _, _ => run execJoinComplete (h.coreKey - (s.coreAt h.coreKey).mu.jp) 0
      | .chlnk o, _ => run execLinkPortGrant h.coreKey (portOf (bit o.imm.toNat 4) (bit o.imm.toNat 5))
      | .mgcfg _, _ => run execMergeNetworkGrant h.die 0
      | .mgfeed _, _ => run execMgfeedAccept k 0
      | .mgclose _, [a] => run execMgcloseComplete (h.die * 4 + a.toNat % 4) 0
      | _, _ => run (fun s => .next ((s.select k).retryLoad.retryCmd.retryPull false)) k 0).bind fun t =>
        if (t.hartAt k).vq.isNone then some t else none

/-- SWAP_OUT (R46, R349, R443): where the event that the hart awaits has arrived, its wait completes first; else the strip of the
hart named is swapped out; the step looks at the boundary first (R403). A run is drained first, and the rows that this sends to the
members of a join are committed before the strip is saved (R229). -/
def execSwapOut (s : State) : Out :=
  let k := s.input.who
  if s.swapReady k then match s.wakeNow k with
    | some t => .next t
    | none =>
    let t := (s.select k).breakChain k
    .next ((if t.rowsInFlight then t else t.saveStrip 0).select s.h.key)
  else .next s

/-- The SUBs of R414 that hold for a strip that stopped before a unit which needs a class. -/
def State.requeueSubs (s : State) (cls sub : Nat) : List Nat :=
  let x := s.launchOf s.h
  (match x with | some x => if x.dcr ∧ x.dcp ≠ 0 ∧ x.dcp ≠ cls then [1] else [] | none => [])
    ++ (if sub == 2 || (match s.unit with | some u => u.joined | none => false) then [2] else [])
    ++ (if sub = 3 then [3] else []) ++ (if cls = 1 ∧ s.ownSession.isSome then [4] else [])

/-- FEATURE_REQUEUE (R347, R413, R414): the strip that stopped before a unit its die class lacks is saved, to resume on the
other class; where it cannot, FEATURE goes to the ring and the launch is FAULTED. -/
def execFeatureRequeue (s : State) : Out :=
  let k := s.input.who
  let t := s.select k
  match t.h.lacks, t.h.launch with
  | some (cls, sub), some l =>
    let t := if t.h.live && t.canSave then t.breakChain k else t
    if !t.h.live ∨ !t.canSave then .next (t.select s.h.key)
    else match t.requeueSubs cls sub with
      | f :: _ =>
        let r := t.hartRec t.h { code := 0x04, sub := f } false false t.h.pc
        let u := ((t.ringRecord (t.launchRing (some l)) r).saveStrip 0).faultLaunch l
        .next ((u.preemptLaunch l k).select s.h.key)
      | [] =>
        let u := (t.saveStrip cls).updLaunch l fun x => { x with needClass := some cls }
        let u := if t.isGang t.h then u.preemptLaunch l k else u
        .next (u.select s.h.key)
  | _, _ => .next s

/-! ## Resumption -/

/-- The offset of the first poisoned piece of a section of a slot (R444). -/
def State.badIn (s : State) (base : Nat) (x : Section) : Option Nat :=
  ((List.range (ceilDiv (x.ofs % 32 + x.bytes.length) 32)).find? fun i => s.poisoned (base + x.ofs + 32 * i)).map fun i =>
    (x.ofs + 32 * i) / 32 * 32

/-- The first poisoned piece of a slot, but for its window, in ascending offset: its physical address and its offset (R444). -/
def State.badPiece (s : State) (base : Nat) (secs : List Section) : Option (Nat × Nat) :=
  match secs.filterMap (s.badIn base) with
  | [] => none
  | o :: os =>
    let m := os.foldl min o
    some (base + m, m)

/-- The header of a slot does not fit the launch its context is resumed for (R444). -/
def State.badHeader (s : State) (c : Context) (x : Launch) : Bool :=
  let w := wordsOfBytes (s.readBytes 0 c.base 32) 4
  !bit (wordOf w 3) 63 || bits (wordOf w 0) 0 57 != bits x.recAddr 0 57 || bits (wordOf w 1) 0 32 != c.strip
    || bits (wordOf w 3) 2 2 != c.width || bits (wordOf w 3) 0 2 != nrcOf c.hart.cfg.vnr

/-- Why a context cannot be restored (R444): SUB, the physical address and DONE. The sections that were saved are those of
its hart, written as they were then. -/
def State.restoreFault (s : State) (c : Context) (x : Launch) : Option (Nat × Nat × Nat) :=
  let t : State := { s with h := c.hart }.withMatrix c.mu
  match s.badPiece c.base (t.sections x (c.bars != [])) with
  | some p => some (1, p.1, p.2)
  | none => if s.badHeader c x then some (2, c.base, 0) else none

/-- A context that cannot be restored: UNCORR in the launch's ring, and the launch FAULTED; the slot is kept (R444). -/
def State.failRestore (s : State) (c : Context) (f : Nat × Nat × Nat) : State :=
  let r : FaultRec :=
    { code := 0x62, sub := f.1, strip := c.strip, die := c.die, core := c.hart.core, slot := c.hart.slot,
      recAddr := s.recOf (some c.launch), addr := f.2.1, asp := 1, done := f.2.2, time := (s.cycle c.die).toNat }
  (s.ringRecord (s.launchRing (some c.launch)) r).faultLaunch c.launch

/-- The hart of a context on its new place (R345, R349, R353): what was not saved holds zero, and no error (R352). A strip that
left at a VSETL whose entry has EN = 0 takes the entry of its new slot here, so that the VSETL it resumes at finds no change
and keeps the restored registers (log entry 47). -/
def Context.placed (c : Context) (key win : Nat) (part : BitVec 8) : Hart :=
  { c.hart with
    die := key / 512, core := key / 8 % 64, slot := key % 8, winStart := win, part := part, groupless := false,
    vec := { c.hart.vec with verr := [], merr := [] }, ctlErr := [],
    muSaved := c.mu.map fun m => { m with accErr := [], tileErr := false } }

/-- What the pending instruction of a resumed hart waits for again (R349). -/
def State.rejoin (s : State) (key : Nat) (h : Hart) : State :=
  let core := key / 8
  let line := h.muSaved.isSome || (match (h.vq.map (·.instr) : Option Instr) with | some (.mcfg _) => true | _ => false)
  let s := if line then s.updCore core fun c => { c with mu := { c.mu with waiters := c.mu.waiters ++ [key] } } else s
  match (h.vq.map (·.instr) : Option Instr) with
  | some (.chlnk o) =>
    s.updPort core (portOf (bit o.imm.toNat 4) (bit o.imm.toNat 5)) fun p => { p with waiters := p.waiters ++ [key] }
  | some (.mgcfg _) => { s with netWait := Sparse.upd [] s.netWait (key / 512) fun l => l ++ [key] }
  | _ => s

/-- The sessions of a strip that resumes are placed on its new core (R323). -/
def State.moveSessions (s : State) (launch strip key : Nat) : State :=
  { s with nets := s.nets.map fun n =>
      (n.1, { n.2 with sess := n.2.sess.map fun x => if x.launch = launch ∧ x.strip = strip then { x with hart := key } else x }) }

/-- A context is restored on a hart (R229, R273, R349, R353, R444). -/
def State.restoreStrip (s : State) (ci key win : Nat) : State :=
  match s.contexts[ci]? with
  | none => s
  | some c => match s.launches[c.launch]? with
    | none => s
    | some x => match s.restoreFault c x with
      | some f => s.failRestore c f
      | none =>
        let core := key / 8
        let h := c.placed key win (psplitEntry (s.coreAt core).psplit (key % 8))
        let s := (s.grantWindow key win x.tmem).setHart key h
        let s := h.savedPages.foldl (fun s p => s.copyPage (slotPage c.base p) (h.winBase + 4096 * p)) s
        let s := h.chain.links.foldl (fun s b => s.updPort core (portOf b.west b.inbound) fun p => { p with holder := some key }) s
        let s := c.bars.foldl (fun s b => s.updCore core fun y => { y with bars := Sparse.set {} y.bars b.1 b.2 }) s
        let s := ((s.rejoin key h).moveSessions c.launch c.strip key).placedAt c.launch c.strip key
        let old := s.contexts.map fun d =>
          if d.launch = c.launch ∧ d.strip = c.strip ∧ !d.out then { d with live := false } else d
        { s with contexts := old.modify ci fun d => { d with out := false } }

/-- STRIP_RESUME (R44, R342, R344, R353, R444, R445): the hub resumes the swapped-out strip that is next, or a GANG farm
whole. The input names a page of tile memory from which windows are sought. -/
def execStripResume (s : State) : Out :=
  match s.chosen s.input.at_ with
  | some (w, _, ps) =>
    if w.context.isNone then .next s
    else .next (ps.foldl (fun s p => match s.contextOf w.launch p.1 with
      | some ci => match s.launches[w.launch]? with
        | some x => if x.placeable then s.restoreStrip ci p.2.1 p.2.2 else s
        | none => s
      | none => s) s)
  | none => .next s

/-! ## Freezes and the watchdog -/

/-- The scope of the access that the input of FREEZE brings. -/
def Input.scope (i : Input) : Nat := bits i.value 3 3

/-- The record of a freeze by VIOLATION (R389, R392, R396): the physical address that no table grants, and what the access does, as
the input brings them: bit 0 of the value for a read, bit 1 for a write. -/
def violation (r : FaultRec) (i : Input) : FaultRec :=
  { r with code := 0x73, sub := 0, frz := true, addr := i.addr, asp := 1, rd := bit i.value 0, wr := bit i.value 1 }

/-- A launch is FAULTED by a freeze of a master of its own, and its running strips are swapped out (R396, R398). -/
def State.freezeLaunch (s : State) (l : Nat) : State := (s.faultLaunch l).preemptLaunch l (2 ^ 64)

/-- A command frozen, with the progress its record states (R396, R402). -/
def State.violateCmd (s : State) (core e : Nat) (master index done : Nat) : State :=
  match s.cmdAt core e with
  | none => s
  | some c =>
    let s' := (s.setCmd core e (some { c with frozen := true })).flagArrival core c
    let f : CmdFault := { code := 0x73, sub := 0, addr := s.input.addr, by_ := c.issuer e }
    (s'.ringRecord (s'.launchRing (some c.launch)) (violation (s'.cmdRec f master index done true) s.input)).freezeLaunch
      c.launch

/-- FREEZE (R389, R396, R397): a master reaches a physical range that none of its tables grants. The input names the kind of
master (0 hart, 1 engine command, 2 walk, 3 merge session, 4 host port), the master and the address; a command by its core,
with its entry in place of the kind's own number; and of the access whether it reads, writes or fetches, bits 0 to 2 of the value,
and above them the scope of an access of a hart or the host, since a command and a session bring their own (R392). -/
def execFreeze (s : State) : Out :=
  let who := s.input.who
  match s.input.which with
  | 0 => .next (if (s.hartAt who).live then s.onHart who fun t =>
      t.freezeHart { code := 0x73, addr := s.input.addr, tval := s.input.addr, asp := 1, rd := bit s.input.value 0,
                     wr := bit s.input.value 1, ex := bit s.input.value 2, scope := s.input.scope } else s)
  | 1 => match s.cmdAt who s.input.at_ with
    | some c => .next (if c.frozen then s else s.violateCmd who s.input.at_ 1 0 c.done)
    | none => .next s
  | 2 =>
    let w := s.walkAt who
    .next (if w.active && !w.frozen then (s.setWalk who { w with frozen := true }).violateCmd w.core w.entry 2 w.rpc w.steps else s)
  | 3 => match s.sessionAt who with
    | some x =>
      if x.frozen then .next s
      else
        let t := s.setSession who (some { x with frozen := true })
        let f : SesFault := { code := 0x73, sub := 0, addr := s.input.addr, asp := 1, pc := x.pc, scope := x.scope }
        let r := violation (t.sessionRec x f true) s.input
        .next ((t.ringRecord (t.launchRing (some x.launch)) r).freezeLaunch x.launch)
    | none => .next s
  | 4 =>
    .next (if s.hub.hostFrozen then s
      else ({ s with hub := { s.hub with hostFrozen := true } }).ringRecord 64
        (violation { s.hubRec 0x73 0 with master := 4, scope := s.input.scope } s.input))
  | _ => .next s

/-- The wait of a hart that has no timeout, by the pc of its instruction (R400): of those in the vector queue AWAIT and VWAIT alone
may have one; VSETL waits for lane groups without one (R32). -/
def Hart.endlessWait (h : Hart) : Option Word :=
  if h.groupless then some h.pc else match h.wait with
  | some (.chwait o) => if o.imm = 0 then some h.pc else none
  | some (.bwait o) => if o.imm = 0 then some h.pc else none
  | some (.sywt o) => if h.getX o.c.toNat = 0 then some h.pc else none
  | some (.wfi o) => if o.imm = 0 then some h.pc else none
  | some (.htsync _ _) => some h.pc
  | _ => match h.vq with
    | none => none
    | some p => match p.instr, p.xs with
      | .await o, _ => if o.imm = 0 then some p.pc else none
      | .vwait _, [n] => if n = 0 then some p.pc else none
      | _, _ => some p.pc

/-- WATCHDOG_STALL (R400; log entry 6): a wait without a timeout has lasted WDOG ms of running time; STALL is held, and
written to the launch's ring at once. -/
def execWatchdogStall (s : State) : Out :=
  let k := s.input.who
  let h := s.hartAt k
  match h.endlessWait with
  | none => .next s
  | some pc =>
    if s.hub.wdog = 0 ∨ h.stalled ∨ !h.live then .next s
    else
      let r := s.hartRec h { code := 0x52 } false false pc
      .next (((s.ringRecord (s.launchRing h.launch) r).holdRecord k r).updHart k fun h => { h with stalled := true })

/-- The hart takes its oldest held record at its next boundary: it stands below exec, and STALL waits for the end of the wait
it tells of (R395, R400). -/
def Hart.takesHeld (h : Hart) : Bool :=
  h.live && h.wait.isNone && h.lacks.isNone && h.plv != .exec && match h.held with
    | [] => false
    | r :: _ => !(r.code = 0x52 && h.stalled && h.endlessWait.isSome)

/-- IMPRECISE_TRAP (R395, R403): the hart named takes its oldest held record at a boundary at which it stands below exec. -/
def execImpreciseTrap (s : State) : Out :=
  .next (if (s.hartAt s.input.who).takesHeld then s.onHart s.input.who State.takeImprecise else s)

end Sys2Proof.Machine
end

