-- ==== Sys2Proof/Machine/Hub.lean ====
section
/-!
DEFINITION. Register writes that reach the hub from outside the harts, key slots, and the host's accesses and snoops (R7,
R85, R337, R359, R364, R365, R371, R376, R378, R393, R397, R422).
-/
namespace Sys2Proof.Machine

/-! ## Register writes -/

/-- HUB_REGISTER_WRITE (R7, R85): a 64-bit word of the hub window is written; the input gives its address. -/
def execHubRegisterWrite (s : State) : Out :=
  let a := s.input.addr
  .next (if homeOf a = .hub ∧ a % 8 = 0 then hubWrite s (a - hubBase) (bits s.input.value 0 64) else s)

/-- QUEUE_CONFIG_WRITE (R337): the first word of the queue named is written. -/
def execQueueConfigWrite (s : State) : Out :=
  .next (if s.input.who < 64 then writeQueueConfig s s.input.who s.input.value else s)

/-- FAULT_RING_CONFIG_WRITE (R393): the first word of the fault ring named is written. -/
def execFaultRingConfigWrite (s : State) : Out :=
  .next (if s.input.who < 65 then writeRingConfig s s.input.who s.input.value else s)

/-- REGION_TABLE_COMMIT (R359): 1 is written to the commit bit of the region table of the die named. -/
def execRegionTableCommit (s : State) : Out := .next (if s.input.who < 6 then commitRegions s s.input.who else s)

/-- CEIL_WRITE (R371, R372). -/
def execCeilWrite (s : State) : Out := .next (writeCeil s s.input.value)

/-- HOST_PORT_UNFREEZE (R397): 1 is written to HUNF. -/
def execHostPortUnfreeze (s : State) : Out := .next (unfreezeHost s)

/-! ## Key slots -/

/-- A key slot installs the keys written to it (R378). -/
def State.commitKey (s : State) (n : Nat) : State :=
  let k := s.keySlot n
  { s with keys := s.keys ++ [(k.kd, k.kt)] }.updKey n fun k => { k with key := some (s.keys.length + 1) }

/-- A key slot loses its key; slot 0 keeps its own (R378). -/
def State.clearKey (s : State) (n : Nat) : State :=
  if n = 0 then s else s.updKey n fun _ => {}

/-- KEY_COMMIT (R378): the oldest commit asked for is carried out; every cached sector has been written back. -/
def execKeyCommit (s : State) : Out :=
  match s.takeRequest (fun r => match r with | .keyCommit n => some n | _ => none) with
  | none => .next s
  | some (n, s) => .next (s.commitKey n)

/-- KEY_CLEAR (R378): the oldest clear asked for is carried out. -/
def execKeyClear (s : State) : Out :=
  match s.takeRequest (fun r => match r with | .keyClear n => some n | _ => none) with
  | none => .next s
  | some (n, s) => .next (s.clearKey n)

/-! ## The host -/

/-- The package address that a host access names, where the window answers (R364, R365). -/
def State.hostTarget (s : State) (a : Nat) : Option Nat :=
  let base := s.hub.hbar * 2 ^ 44
  if s.hub.hen ∧ base ≤ a ∧ a - base < 0x070000000000 then some (a - base) else none

/-- The answer to a host access: bytes, or none for a completer abort. -/
def State.answerHost (s : State) (r : Option (List Byte)) : State := { s with hub := { s.hub with hostReply := r } }

/-- The event of a host access in the record of races (R323, R364): a read that returns what the hub wrote, such as STATE, is
ordered behind that write (R328, log entry 9). -/
def hostEv (s : State) (pa n : Nat) (wr : Bool) : Ev :=
  { agent := .host, place := 448, rd := !wr, wr := wr, tile := isTile pa, lo := pa, hi := pa + n, scope := 5,
    sync := if wr then [] else writesOf s.trace .hub pa (pa + n) }

/-- The record of the pieces of a host access (R324). -/
def State.recordHost (s : State) (pa n : Nat) (wr : Bool) : State :=
  (piecesOf pa n).foldl (fun s p => s.record (hostEv s p.1 p.2 wr)) s

/-- KEY for a host access: the host port freezes, and the record goes to ring 64 (R389, R396, R397). -/
def State.freezeHost (s : State) (pa : Nat) (wr : Bool) : State :=
  let r := s.hubRec 0x72 0
  (({ s with hub := { s.hub with hostFrozen := true } }).ringRecord 64
    { r with frz := true, master := 4, addr := pa, asp := 1, rd := !wr, wr := wr }).answerHost none

/-- A sector of host memory turned to what lies in memory, which is how the host sees its own (R364, R376). -/
def State.rawSector (s : State) (sector : Nat) : State :=
  { s.setBytes (32 * sector) (s.sectorRaw sector) with sectorKey := Sparse.set 0 s.sectorKey sector rawTag }

/-- A write by the host of bytes of one granule: through the window under HKEY, or to its own memory as it lies there (R364,
R376). -/
def State.hostPut (s : State) (own : Bool) (pa : Nat) (bs : List Byte) : State :=
  let s := s.recordHost pa bs.length true
  if own then (s.rawSector (pa / 32)).setBytes pa bs else s.store s.hub.hkey pa bs

/-- The host access in progress ends with an answer. -/
def State.endHost (s : State) (r : Option (List Byte)) : State :=
  ({ s with hub := { s.hub with hostJob := none } }).answerHost r

/-- The bytes of the next granule of a host access (R324). -/
def HostJob.next (j : HostJob) : Nat := min (j.len - j.at_) (16 - (j.pa + j.at_) % 16)

/-- The next granule of a host access (R324, R364, R376, R422, R427): what cannot be reached, and poison, is answered with a
completer abort. -/
def State.hostPart (s : State) (j : HostJob) : State :=
  let a := j.pa + j.at_
  let n := j.next
  let last := j.at_ + n = j.len
  match if j.own then none else s.reachRange s.hub.hkey a n with
  | some .key => (s.endHost none).freezeHost a j.wr
  | some _ => s.endHost none
  | none =>
    if j.wr then
      let s := s.hostPut j.own a (j.bytes.take n)
      if last then (s.clearPoisonRange j.pa j.len).endHost (if j.own then s.hub.hostReply else some [])
      else { s with hub := { s.hub with hostJob := some { j with at_ := j.at_ + n, bytes := j.bytes.drop n } } }
    else match s.readPhys s.hub.hkey a n with
      | .error _ => s.endHost none
      | .ok bs =>
        let s := s.recordHost a n false
        if last then s.endHost (some (j.bytes ++ bs))
        else { s with hub := { s.hub with hostJob := some { j with at_ := j.at_ + n, bytes := j.bytes ++ bs } } }

/-- A host access to package memory under HKEY begins (R364, R376, R422): the whole of it is checked, and its first granule is
performed. -/
def State.hostAt (s : State) (pa n : Nat) (wr : Bool) (data : List Byte) : State :=
  match s.reachRange s.hub.hkey pa n with
  | some .key => s.freezeHost pa wr
  | some _ => s.answerHost none
  | none =>
    if !wr && s.rangePoisoned pa n then s.answerHost none
    else s.hostPart { pa := pa, len := n, at_ := 0, bytes := data, wr := wr, own := false }

/-- HOST_ACCESS (R324, R364, R365, R397, R422, R455): a host request of bytes of one 64-byte line, one granule a step; while one is
in progress, its next granule. The input gives the host address, whether it writes, and its bytes or their number. A request that
the Skoah Link's fall overtakes goes no further. -/
def execHostAccess (s : State) : Out :=
  let n := if s.input.flag then s.input.data.length else s.input.value
  match s.hub.hostJob with
  | some j => .next (if s.linkUp skoahLink then s.hostPart j else s.endHost s.hub.hostReply)
  | none => match s.hostTarget s.input.addr with
    | none => .next s
    | some pa =>
      if !s.linkUp skoahLink ∨ n = 0 ∨ 64 < pa % 64 + n then .next s
      else if s.hub.hostFrozen then .next (s.answerHost none)
      else .next (s.hostAt pa n s.input.flag (if s.input.flag then s.input.data else []))

/-- The host stores bytes of one line into its own memory, as an agent of system scope, one granule a step (R324, R364, R427). -/
def State.hostStore (s : State) (pa : Nat) (bs : List Byte) : State :=
  s.hostPart { pa := pa, len := bs.length, at_ := 0, bytes := bs, wr := true, own := true }

/-- HOST_SNOOP (R364): the host's home agent snoops a host line. The hub snoops the cores that its filter names for it, and
answers with what they hold, which is what memory holds, or with nothing where no core holds the line. A snoop that takes the line
away leaves no core holding it, and the host then stores the bytes that the input holds. The input gives the host address, inside
one line. -/
def execHostSnoop (s : State) : Out :=
  let a := s.input.addr
  let pa := 0x8000000000000 + a
  let line := pa / 64
  let bs := s.input.data
  if !s.linkUp skoahLink ∨ s.hub.hostJob.isSome ∨ homeOf pa ≠ .host ∨ 64 < pa % 64 + bs.length then .next s
  else
    let held := s.hub.filter.any fun e => e.1 = line
    let s := s.answerHost (some (if held then s.sectorRaw (2 * line) ++ s.sectorRaw (2 * line + 1) else []))
    if !s.input.flag then .next s
    else
      let s := { s with hub := { s.hub with filter := s.hub.filter.filter fun e => e.1 != line } }
      .next (if bs = [] then s else s.hostStore pa bs)

end Sys2Proof.Machine
end

