-- ==== Sys2Proof/Machine/Power.lean ====
section
/-!
DEFINITION. Power: the ends of P-state transitions, the Cowslip governor, temperature, and the parking of dies (R366, R368 to
R375, R452, R459).
-/
namespace Sys2Proof.Machine

/-- Every die's target taken anew (R369). -/
def State.retargetAll (s : State) : State := (List.range 6).foldl State.retarget s

/-- PSTATE_TRANSITION_END (R368): the transition of the die named ends, and the latest target set meanwhile starts its own. -/
def execPstateTransitionEnd (s : State) : Out :=
  .next (s.updDie s.input.who fun x =>
    if x.trn then
      let y := { x with cur := x.target, trn := false, latest := none }
      match x.latest with
      | some p => y.turnTo p
      | none => y
    else x)

/-! ## The governor (R370, R372) -/

/-- One step of the fast loop. -/
def Power.stepUp (p : Power) : Power :=
  if p.g < 7 then { p with g := p.g + 1, stepped := true }
  else if p.gl < 7 then { p with gl := p.gl + 1, stepped := true }
  else if p.thr < 7 then { p with thr := p.thr + 1, stepped := true }
  else p

/-- n steps of the fast loop. -/
def Power.stepUps : Nat → Power → Power
  | 0, p => p
  | n + 1, p => Power.stepUps n p.stepUp

/-- One step back of the slow loop. -/
def Power.stepDown (p : Power) : Power :=
  if 0 < p.thr then { p with thr := p.thr - 1 }
  else if 0 < p.gl then { p with gl := p.gl - 1 }
  else if 0 < p.g then { p with g := p.g - 1 }
  else p

/-- The end of a window of average pw, in units of 0.25 W. Power is counted in those units and E in such units times 100 us,
so that D is E / 10. -/
def Power.window (p : Power) (pw : Nat) : Power :=
  let c := 4 * p.ceilNow
  let e := p.e + pw - c
  let q := { p with pw := pw, e := e }
  let q := if 10 * c < 10 * pw + e then q.stepUps (1 + 4 * (10 * pw + e - 10 * c) / (10 * c)) else q
  { q with ceilNow := p.ceil, wins := p.wins + 1, sum := p.sum + pw, sinceCeil := min 10 (p.sinceCeil + 1) }

/-- Windows in an interval: 10 ms of 100 us each (R370). -/
def intervalWindows : Nat := 100

/-- PA at the end of an interval: the average of its windows; where the interval began at least 1 ms after the last write of
CEIL, the device holds it at CEIL or below (R370, R372). DESIGN CHOICE (log entry 29): R371 gives the unit of PA, 0.25 W, and not
how an average between two units is rounded; it is rounded down. -/
def Power.average (p : Power) : Nat :=
  let a := p.sum / intervalWindows
  if p.calm then min a (4 * p.ceilNow) else a

/-- The end of an interval: the slow loop compares the exact average of its windows with 0.95 of CEIL (R370). -/
def Power.interval (p : Power) : Power :=
  let q := { p with pa := p.average }
  let q := if 100 * p.sum ≤ 95 * (4 * p.ceilNow) * intervalWindows ∧ !p.stepped then q.stepDown else q
  { q with e := 0, stepped := false, wins := 0, sum := 0, calm := decide (10 ≤ p.sinceCeil) }

/-- GOVERNOR_WINDOW (R370, R372): a window of 100 us ends; the input gives its average power. Behind the last window of an
interval the interval ends first. -/
def execGovernorWindow (s : State) : Out :=
  .next (if s.hub.power.wins < intervalWindows then
      ({ s with hub := { s.hub with power := s.hub.power.window s.input.value } }).retargetAll
    else s)

/-- GOVERNOR_INTERVAL (R370, R372): an interval of 10 ms ends, once its windows have. -/
def execGovernorInterval (s : State) : Out :=
  .next (if s.hub.power.wins < intervalWindows then s
    else ({ s with hub := { s.hub with power := s.hub.power.interval } }).retargetAll)

/-! ## Parking (R373 to R375) -/

/-- The harts on a die that hold a strip. -/
def State.stripsOn (s : State) (d : Nat) : List (Nat × Hart) := s.running.filter fun p => p.2.die = d

/-- The strip of a hart owns a live merge session. -/
def State.ownerOf (s : State) (h : Hart) : Bool :=
  s.nets.any fun n => match n.2.sess with
    | some x => some x.launch = h.launch && x.strip = h.stripId.toNat
    | none => false

/-- The strip of a hart on a die, or under GANG one of its farm on that die, which leaves as a whole, owns a live merge session
(R44, R373). -/
def State.mustStay (s : State) (h : Hart) : Bool :=
  s.ownerOf h || (s.isGang h && s.running.any fun p => p.2.launch = h.launch && p.2.die = h.die && s.ownerOf p.2)

/-- A strip is asked to leave for the parking of a die, and marked so where nothing else had asked it (R373, R375). -/
def State.askForPark (s : State) (d k : Nat) : State :=
  let t := s.askOut k
  let mark := fun (h new : Hart) =>
    if h.preempt then { new with forPark := h.forPark } else if new.preempt then { new with forPark := some d } else new
  { t with h := mark s.h t.h, harts := t.harts.map fun p => (p.1, mark (Sparse.get {} s.harts p.1) p.2) }

/-- Every strip on a die that owns no live session is asked to be swapped out (R373). -/
def State.clearDie (s : State) (d : Nat) : State :=
  ((s.stripsOn d).filter fun p => !p.2.frozen && !s.mustStay p.2).foldl (fun s p => s.askForPark d p.1) s

/-- Work that keeps a die from being parked: strips, accepted commands, live sessions, and walks at its engines (R373,
R452). -/
def State.dieWorks (s : State) (d : Nat) : Bool :=
  (s.stripsOn d != [])
    || (s.cores.any fun c => c.1 / 64 = d && c.2.eng.any fun e => e.2.isSome)
    || (s.nets.any fun n => n.1 / 4 = d && n.2.sess.isSome)
    || (((s.wkNo, s.wk) :: s.walks).any fun w => w.2.active && w.2.engine / 4 = d)

/-- PARK of a die written, its bounds kept (R371, R375). -/
def State.writePark (s : State) (d : Nat) (b : Bool) : State := writeDieWord s d (setBit (dieWord (s.dieAt d)) 63 b)

/-- DIE_PARK (R373): PARK = 1 is written for the die named; unless it is being unparked, its strips without live sessions are
asked to be swapped out. The hub repeats the step as sessions end. -/
def execDiePark (s : State) : Out :=
  let d := s.input.who
  let t := s.writePark d true
  .next (if 6 ≤ d then s else if (t.dieAt d).pkd then t else t.clearDie d)

/-- DIE_PARKED (R373, R374): the work of the die named has ended; PKD becomes 1, and CYCLE stands still. -/
def execDieParked (s : State) : Out :=
  let d := s.input.who
  let x := s.dieAt d
  .next (if x.park && !x.pkd && !s.dieWorks d then
      s.updDie d fun x => { x with cycleOff := s.cycle d, pkd := true }
    else s)

/-- DIE_UNPARK (R375): PARK = 0 is written for the die named; a parked one begins its unpark, another abandons its parking. -/
def execDieUnpark (s : State) : Out := .next (if 6 ≤ s.input.who then s else s.writePark s.input.who false)

/-- DIE_UNPARKED (R375): the unpark of the die named completes, and CYCLE goes on; a PARK = 1 written meanwhile now takes
effect, on a die that no strip stands on. -/
def execDieUnparked (s : State) : Out :=
  let d := s.input.who
  let x := s.dieAt d
  .next (if x.pkd && x.unparking then
      (s.updDie d fun x => { x with pkd := false, unparking := false, cycleStart := s.time }).retarget d
    else s)

/-! ## Temperature (R459) -/

/-- The record of an entry of a die into a range of temperature, in units of 0.125 degrees. -/
def State.thermalRec (s : State) (d sub t : Nat) : State :=
  s.ringRecord 64 { s.hubRec 0x63 sub with die := d, done := t, time := (s.cycle d).toNat }

/-- THERMAL_STEP: the die named measures the temperature given, at 100 degrees or above, on entry or 1 ms after its last step:
it takes one P-state slower; at 110 degrees it throttles itself and is parked. -/
def execThermalStep (s : State) : Out :=
  let d := s.input.who
  let t := s.input.at_
  if t < 800 ∨ 6 ≤ d then .next s
  else
    let heat := (s.dieAt d).heat
    let s := if heat = 0 then s.thermalRec d 1 t else s
    let s := (s.updDie d fun x => { x with thermal := min 7 (x.thermal + 1), heat := max 1 x.heat }).retarget d
    if t < 880 then .next (s.updDie d fun x => { x with heat := 1 })
    else if heat = 2 then .next s
    else
      let s := (s.thermalRec d 2 t).updDie d fun x => { x with heat := 2, thr := 7 }
      let s := s.writePark d true
      .next (if (s.dieAt d).pkd then s else s.clearDie d)

/-- THERMAL_RECOVER: the die named measures the temperature given, below 100 degrees; below 95 degrees, on entry or 10 ms after
its last step back, it takes one step back. -/
def execThermalRecover (s : State) : Out :=
  let d := s.input.who
  let t := s.input.at_
  if 800 ≤ t ∨ 6 ≤ d then .next s
  else
    let s := s.updDie d fun x => { x with heat := 0, thr := 0 }
    .next (if t < 760 then (s.updDie d fun x => { x with thermal := x.thermal - 1 }).retarget d else s)

end Sys2Proof.Machine
end

