-- ==== Sys2Proof/Machine/Links.lean ====
section
/-!
DEFINITION. Steps of the links between dies, to the hub and to the host: flits that are composed, sent, received and sent again,
retraining, starvation, and modules that go down (R17, R354 to R357, R363, R366, R453 to R456). Where messages come from, and which
bits a flit loses on its way, the input says (log entries 30 and 42).
-/
namespace Sys2Proof.Machine

/-- The modules of a link. -/
def LinkKind.modules : LinkKind → List Nat
  | .memory d => [4 * d, 4 * d + 1, 4 * d + 2]
  | .chain d => [chainModule d]
  | .hub d => [24 + 2 * d, 25 + 2 * d]
  | .skoah => [skoahLink]

/-- The number of a direction of a module's link. -/
def LinkKind.side (k : LinkKind) (w : Nat) : Nat := 2 * k.way + w

/-- The ACK that flits of a direction carry: the last SEQ received intact over the other one, 0 before any (R354, R453). -/
def State.ackOf (s : State) (m w : Nat) : BitVec 16 := ((s.link m).dir (1 - w)).expect - 1

/-- A module that must retrain: sixteen replays without progress, or forced (R454, R456). -/
def Link.retrains (l : Link) : Bool := decide (16 ≤ l.out.replays) || decide (16 ≤ l.back.replays) || l.forced

/-! ## Messages that wait (R16, R355, R455) -/

/-- One memory module of the east edge of a die is up. -/
def State.edgeUp (s : State) (d : Nat) : Bool := (List.range 3).any fun i => s.linkUp (4 * d + i)

/-- The edge by which a message leaves a die in a direction of the ring. -/
def edgeFrom (d w : Nat) : Nat := if w = 0 then d else westDie d

/-- A message waits to leave a die in a direction of the ring; where that edge is lost it takes the other one, the long way round
(R455). -/
def State.queueMsg (s : State) (d w : Nat) (x : LinkMsg) : State :=
  if s.edgeUp (edgeFrom d w) then
    s.updPool ((LinkKind.memory (edgeFrom d w)).side w) fun p => { p with waiting := p.waiting ++ [x] }
  else
    s.updPool ((LinkKind.memory (edgeFrom d (1 - w))).side (1 - w)) fun p =>
      { p with waiting := p.waiting ++ [{ x with hops := 4 - x.hops }] }

/-- A message waits at the sender of a direction of a link. -/
def State.enqueue (s : State) (k : LinkKind) (w : Nat) (x : LinkMsg) : State :=
  match k with
  | .memory d => s.queueMsg (if w = 0 then d else eastDie d) w x
  | _ => s.updPool (k.side w) fun p => { p with waiting := p.waiting ++ [x] }

/-- The ring edges that a message can have to go beyond the first: between dies it takes the direction with fewer edges, and
east where both have three (R16). -/
def LinkKind.hops (k : LinkKind) (w : Nat) : Nat := match k with | .memory _ => if w = 0 then 2 else 1 | _ => 0

/-- New messages come to wait at the sender of a direction of a link: six bits each of a code, the class in the low three and above
it the ring edges beyond the first, where the class has a pool (R16, R355). -/
def State.newMessages (s : State) (k : LinkKind) (w : Nat) : Nat → Nat → State
  | 0, _ => s
  | n + 1, code =>
    let c := bits code 0 3
    let hops := min (k.hops w) (bits code 3 2)
    let s := match k with
      | .chain _ => s
      | _ =>
        if 1 ≤ c ∧ 0 < k.pools.getD (c - 1) 0 then
          let no := s.hub.msgNo
          ({ s with hub := { s.hub with msgNo := no + 1 } }).enqueue k w { cls := c, no := no, hops := hops }
        else s
    s.newMessages k w n (code / 64)

/-! ## The sender (R354 to R357, R453) -/

/-- The order in which classes take a slot: SYS, RSP, SNP, LCH, ENG, REQ (R356). -/
def slotOrder : List Nat := [6, 2, 3, 5, 4, 1]

/-- The message of a class that can be placed next: one waits, and the sender holds a permit (R355). -/
def LinkPool.ready (p : LinkPool) (sizes : List Nat) (c : Nat) : Option LinkMsg :=
  if p.spent (c - 1) < sizes.getD (c - 1) 0 then p.waiting.find? fun x => x.cls = c else none

/-- A message placed in a slot spends a permit (R355). -/
def LinkPool.place (p : LinkPool) (x : LinkMsg) : LinkPool :=
  { p with used := onClass p.used (x.cls - 1) (· + 1), waiting := p.waiting.erase x }

/-- n slots filled, the classes that are due before the order of R356. -/
def LinkPool.fillSlots (sizes : List Nat) : Nat → List Nat → LinkPool → List (Option LinkMsg) × LinkPool
  | 0, _, p => ([], p)
  | n + 1, due, p => match (due ++ slotOrder).findSome? (p.ready sizes) with
    | none => let y := LinkPool.fillSlots sizes n due p; (none :: y.1, y.2)
    | some x => let y := LinkPool.fillSlots sizes n (due.erase x.cls) (p.place x); (some x :: y.1, y.2)

/-- The classes whose turn has come: REQ and ENG get a slot in every 8 flits (R356). -/
def LinkDir.due (d : LinkDir) : List Nat := (if 7 ≤ d.reqAge then [1] else []) ++ (if 7 ≤ d.engAge then [4] else [])

/-- Flits since a class last had a slot, after one more: none where it had nothing to place. -/
def ageAfter (p : LinkPool) (sizes : List Nat) (xs : List (Option LinkMsg)) (c age : Nat) : Nat :=
  if (p.ready sizes c).isNone ∨ (xs.any fun x => x.any fun y => y.cls = c) then 0 else age + 1

/-- Permits of REQ, RSP, SNP and ENG, or of beats, that the next flit returns (R354, R357). -/
def LinkPool.returns (p : LinkPool) : List Nat := (p.owed.toList.take 4).map (min 255)

/-- A new flit of a direction of a module (R354 to R357): it returns permits, takes four messages, each with the permit it spends,
or 240 bytes of chain records, and is held. The buffer that a message still occupied is free (R355). -/
def State.compose (s : State) (m w : Nat) (k : LinkKind) : Flit × State :=
  let d := (s.link m).dir w
  let p := s.pool (k.side w)
  let rets := (s.pool (k.side (1 - w))).returns
  let y := match k with
    | .chain _ => ([], p)
    | _ => p.fillSlots k.pools 4 d.due
  let f : Flit := { seq := d.seq, rets := rets, slots := y.1, fill := d.stream.take 240 }
  let s := s.updPool (k.side (1 - w)) fun q => { q with owed := q.owed.mapIdx fun i n => n - rets.getD i 0 }
  let s := s.updPool (k.side w) fun _ => y.2
  let s := y.1.foldl (fun s x => match x with
    | some { cls := c, buf := some b, .. } => s.updPool b fun q => q.free (c - 1)
    | _ => s) s
  (f, s.updDir m w fun d =>
    { d with
      seq := d.seq + 1, held := d.held ++ [f], stream := d.stream.drop 240, reqAge := ageAfter p k.pools y.1 1 d.reqAge,
      engAge := ageAfter p k.pools y.1 4 d.engAge })

/-- The flit that a direction of a module sends next: one that is sent again, or a new one, up to 64 held (R453). -/
def State.nextFlit (s : State) (m w : Nat) (k : LinkKind) : Option (Flit × State) :=
  let d := (s.link m).dir w
  if 0 < d.resend then
    (d.held[d.held.length - d.resend]?).map fun f => (f, s.updDir m w fun d => { d with resend := d.resend - 1 })
  else if d.held.length < 64 then some (s.compose m w k)
  else none

/-- A direction has more to send than empty flits: messages, permits to return, an ACK not yet told, flits to send again. -/
def State.hasNews (s : State) (m w : Nat) (k : LinkKind) : Bool :=
  let d := (s.link m).dir w
  (s.pool (k.side w)).waiting != [] || (s.pool (k.side (1 - w))).owed.toList.any (· != 0) || s.ackOf m w != d.told
    || decide (0 < d.resend) || d.stream != []

/-! ## The receiver (R354, R355, R453) -/

/-- How many of the flits held an ACK covers. -/
def LinkDir.acked (d : LinkDir) (ack : BitVec 16) : Nat :=
  let n := (ack + 1 + BitVec.ofNat 16 d.held.length - d.seq).toNat
  if n ≤ d.held.length then n else 0

/-- Messages of a class in flits, class 0 for REQ. -/
def carried (fs : List Flit) (c : Nat) : Nat :=
  ((fs.map (·.slots)).flatten.filter fun x => x.any fun y => y.cls = c + 1).length

/-- What an intact flit of a direction tells the sender of the other one: the flits acknowledged, and the permits returned; those
of LCH and SYS, which no field returns, come back with the acknowledgement of their flit (log entry 42). -/
def State.hear (s : State) (m w : Nat) (k : LinkKind) (f : Flit) (ack : BitVec 16) : State :=
  let e := (s.link m).dir (1 - w)
  let n := e.acked ack
  (s.updDir m (1 - w) fun e =>
    { e with
      held := e.held.drop n, resend := min e.resend (e.held.length - n), replays := if n = 0 then e.replays else 0 }).updPool
    (k.side (1 - w)) fun p =>
      { p with used := p.used.mapIdx fun c u => u - if c < 4 then f.rets.getD c 0 else carried (e.held.take n) c }

/-- A message arrives over a direction of a link: one that travels on waits for the next edge, and occupies its buffer until it has
a permit there; the buffer of any other is free (R16, R355). -/
def State.deliver (s : State) (k : LinkKind) (w : Nat) (x : LinkMsg) : State :=
  match k with
  | .memory d =>
    if 0 < x.hops then
      s.queueMsg (if w = 0 then eastDie d else d) w { x with hops := x.hops - 1, buf := some (k.side w) }
    else s.updPool (k.side w) fun p => p.free (x.cls - 1)
  | _ => if x.cls ≤ 4 then s.updPool (k.side w) fun p => p.free (x.cls - 1) else s

/-- An intact flit arrives (R453): in its turn it takes effect, else it is discarded. -/
def State.landFlit (s : State) (m w : Nat) (k : LinkKind) (f : Flit) (ack : BitVec 16) : State :=
  if f.seq ≠ ((s.link m).dir w).expect then s
  else
    let s := (s.updDir m w fun d => { d with expect := d.expect + 1 }).hear m w k f ack
    match k with
    | .chain _ => s.landRecords m w f.fill
    | _ => f.slots.foldl (fun s x => match x with
      | some x => s.deliver k w x
      | none => s) s

/-- The bytes of a flit with bits changed on its way. -/
def disturbed (bs pattern : List Byte) : List Byte := List.zipWith (· ^^^ ·) bs (pattern ++ List.replicate 256 0)

/-- FLIT_RECEIVE (R354 to R357, R366, R453): the next flit of the direction of the module named is sent and arrives. The input
gives four codes of messages that come to wait, and the bits that change on the way: a flit whose CRC then fails is discarded. A
change that the CRC does not find does not occur (log entry 42). A direction in standby sends no empty flit. -/
def execFlitReceive (s : State) : Out :=
  let m := s.input.who
  let w := s.input.which % 2
  match linkKind m with
  | none => .next s
  | some k =>
    if !(s.link m).up then .next s
    else
      let s := s.newMessages k w 4 s.input.value
      if k = .skoah ∧ s.hub.standby[w]! ∧ !s.hasNews m w k then .next s
      else match s.nextFlit m w k with
        | none => .next s
        | some (f, t) =>
          let ack := s.ackOf m w
          let t := t.updDir m w fun d => { d with told := ack }
          let t := if k = .skoah then { t with hub := { t.hub with standby := t.hub.standby.set! w false } } else t
          let sent := f.bytes k ack
          let bs := disturbed sent s.input.data
          if s.input.data = [] ∨ bs = sent then .next (t.landFlit m w k f ack)
          else if flitIntact bs then .next s
          else .next t

/-- FLIT_REPLAY (R453): ACK has not advanced for 1 us, and every flit held is to be sent again, in order. -/
def execFlitReplay (s : State) : Out :=
  .next (if (s.link s.input.who).up then
      s.updDir s.input.who (s.input.which % 2) fun d =>
        if d.held = [] then d else { d with replays := d.replays + 1, resend := d.held.length }
    else s)

/-! ## Retraining -/

/-- LINK of a module, to ring 64 (R454 to R456). -/
def State.linkRec (s : State) (k : LinkKind) (sub index : Nat) : State :=
  s.ringRecord 64 { s.hubRec 0x60 sub with master := 6, die := k.die, index := index }

/-- A direction of a module is drained: what is under way arrives (R456). -/
def State.drainDir (s : State) (m w : Nat) (k : LinkKind) : State :=
  (((s.link m).dir w).unseen.foldl (fun s f => s.landFlit m w k f (s.ackOf m w)) s).updDir m w fun d =>
    { d with held := [], resend := 0, replays := 0 }

/-- A link with both directions drained and every pool full, as at training (R456). -/
def State.drainLink (s : State) (k : LinkKind) : State :=
  let s := k.modules.foldl (fun s m => (s.drainDir m 0 k).drainDir m 1 k) s
  let full := fun (p : LinkPool) => { p with used := Vector.replicate 6 0, owed := Vector.replicate 6 0 }
  let s := (s.updPool (k.side 0) full).updPool (k.side 1) full
  let mine := fun (x : LinkMsg) => if x.buf = some (k.side 0) ∨ x.buf = some (k.side 1) then { x with buf := none } else x
  { s with hub := { s.hub with pools := s.hub.pools.map fun p => (p.1, { p.2 with waiting := p.2.waiting.map mine }) } }

/-- LINK_RETRAIN (R454, R456): the module named retrains; the input gives whether it can, and whether the Skoah Link trains 16
lanes alone. One that cannot goes down by a step of its own. -/
def execLinkRetrain (s : State) : Out :=
  let m := s.input.who
  let l := s.link m
  match linkKind m with
  | none => .next s
  | some k =>
    if !l.up ∨ !l.retrains ∨ !s.input.flag then .next s
    else
      let half := k = .skoah && s.input.at_ = 16
      let s := if l.forced then s.drainLink k else s
      let s := s.updLink m fun l =>
        { l with
          out := { l.out with replays := 0 }, back := { l.back with replays := 0 }, forced := false, half := l.half || half }
      .next (s.linkRec k (if half then 6 else 1) 0)

/-- PERMIT_STARVATION (R456): the pool of a class has stayed empty for 10 ms while messages of the class wait. The input names the
module, the direction and the class, REQ 1 to SYS 6. -/
def execPermitStarvation (s : State) : Out :=
  let m := s.input.who
  let c := s.input.value
  match linkKind m with
  | none | some (.chain _) => .next s
  | some k =>
    let p := s.pool (k.side (s.input.which % 2))
    let size := k.pools.getD (c - 1) 0
    if (s.link m).up ∧ 1 ≤ c ∧ 0 < size ∧ size ≤ p.spent (c - 1) ∧ p.waiting.any fun x => x.cls = c then
      .next ((s.linkRec k 9 c).updLink m fun l => { l with forced := true })
    else .next s

/-! ## Modules that go down -/

/-- What a direction of a module that is down had under way (R455): the messages of flits that have not arrived, with their permits,
and the permits that those flits were to return. -/
def State.recall (s : State) (m w : Nat) (k : LinkKind) : List LinkMsg × State :=
  let d := (s.link m).dir w
  let lost := d.unseen
  let s := s.updPool (k.side w) fun p =>
    { p with used := p.used.mapIdx fun c n => n - carried (if c < 4 then lost else d.held) c }
  let s := s.updPool (k.side (1 - w)) fun p =>
    { p with owed := p.owed.mapIdx fun c n => n + (lost.map fun f => f.rets.getD c 0).sum }
  (((lost.map (·.slots)).flatten.filterMap id).map fun x => { x with buf := none },
    s.updDir m w fun d => { d with held := [], resend := 0, replays := 0, expect := d.seq })

/-- The messages of a lost module go on (R455): over the link's other modules, or, where an edge is lost, with all that waits for
it the other way round the ring. -/
def State.resend (s : State) (m w : Nat) (k : LinkKind) : State :=
  let y := s.recall m w k
  if k.modules.any y.2.linkUp then y.2.updPool (k.side w) fun p => { p with waiting := y.1 ++ p.waiting }
  else match k with
    | .memory _ =>
      let xs := y.1 ++ (y.2.pool (k.side w)).waiting
      xs.foldl (fun s x => s.enqueue k w x) (y.2.updPool (k.side w) fun p => { p with waiting := [] })
    | _ => y.2

/-- The closing breaks of the chains that cross a module (R438, R441, R455). -/
def State.cutChains (s : State) (m : Nat) : State :=
  (s.running.map (·.1)).foldl (fun s k =>
    if (s.runOf k).isSome ∧ (s.hartAt k).chain.links.any fun b => (s.hartAt k).linkModule b.west == some m then
      s.closeChain k 0x03 fun _ cur => { code := 0x31, sub := 0x04, index := cur, done := cur }
    else s) s

/-- LINK_MODULE_DOWN (R455): the module named cannot retrain. What it had under way is sent again once, and memory traffic of a
lost edge goes the other way round, which changes timing alone. -/
def execLinkModuleDown (s : State) : Out :=
  let m := s.input.who
  match linkKind m with
  | none => .next s
  | some k =>
    if !(s.link m).up ∨ !(s.link m).retrains then .next s
    else
      let s := s.updLink m fun l => { l with up := false }
      match k with
      | .memory d => .next ((((s.linkRec k (if s.edgeUp d then 2 else 3) 0).resend m 0 k).resend m 1 k))
      | .chain _ => .next ((s.linkRec k 4 0).cutChains m)
      | .hub d =>
        if k.modules.any s.linkUp then .next (((s.linkRec k 5 0).resend m 0 k).resend m 1 k)
        else .next ((s.linkRec k 7 0).request (.dieReset d))
      | .skoah => .next (s.linkRec k 8 0)

/-- LINK_STANDBY (R366): a direction of the Skoah Link enters standby, where it has only empty flits to send, or leaves it for
what it has to send. -/
def execLinkStandby (s : State) : Out :=
  let w := s.input.who % 2
  let idle := (s.pool (LinkKind.skoah.side w)).waiting = []
    && ((s.link skoahLink).dir w).held.all fun f => f.slots.all Option.isNone
  let ok := if s.input.flag then idle else s.hasNews skoahLink w .skoah
  .next (if ok then { s with hub := { s.hub with standby := s.hub.standby.set! w s.input.flag } } else s)

end Sys2Proof.Machine
end

