-- ==== Sys2Proof/Machine/Sha.lean ====
section
/-!
DEFINITION. SHA-256 of FIPS 180-4, which the images, the measurements and SPDM use (R379, R380).
-/
namespace Sys2Proof.Machine

/-- The k-th root of n, rounded down, from a lower bound and the bits that may yet be added to it. -/
def rootFrom (k n : Nat) : Nat → Nat → Nat
  | 0, r => r
  | b + 1, r => rootFrom k n b (if (r + 2 ^ b) ^ k ≤ n then r + 2 ^ b else r)

/-- The first 32 bits behind the point of the k-th root of p. -/
def rootBits (k p : Nat) : BitVec 32 := BitVec.ofNat 32 (rootFrom k (p * 2 ^ (32 * k)) 38 0)

/-- The first 64 primes. -/
def shaPrimes : List Nat := (List.range 312).filter fun p => 1 < p && (List.range p).all fun d => d < 2 || p % d != 0

/-- The round constants: of the cube roots of the primes. -/
def shaK : List (BitVec 32) := shaPrimes.map (rootBits 3)

/-- The initial hash value: of the square roots of the first eight. -/
def shaInit : List (BitVec 32) := (shaPrimes.take 8).map (rootBits 2)

/-- The exclusive or of a word's rotations to the right. -/
def rotations (rs : List Nat) (x : BitVec 32) : BitVec 32 := rs.foldl (fun y r => y ^^^ x.rotateRight r) 0

/-- The working variables after a round, a first; x is the round constant plus the schedule word. -/
def shaRound (v : List (BitVec 32)) (x : BitVec 32) : List (BitVec 32) :=
  let n := fun i => v.getD i 0
  let t := x + n 7 + rotations [6, 11, 25] (n 4) + (n 6 ^^^ (n 4 &&& (n 5 ^^^ n 6)))
  (t + rotations [2, 13, 22] (n 0) + (n 0 &&& n 1 ||| n 2 &&& (n 0 ||| n 1))) :: (v.take 7).modify 3 (· + t)

/-- The rounds with the constants given; w holds the next sixteen words of the schedule. -/
def shaRounds : List (BitVec 32) → List (BitVec 32) → List (BitVec 32) → List (BitVec 32)
  | [], _, v => v
  | k :: ks, w, v =>
    let n := fun i => w.getD i 0
    let new := n 9 + (rotations [17, 19] (n 14) ^^^ n 14 >>> 10) + (rotations [7, 18] (n 1) ^^^ n 1 >>> 3) + n 0
    shaRounds ks (w.drop 1 ++ [new]) (shaRound v (k + n 0))

/-- A 64-byte block taken into a hash value; its words have the most significant byte first. -/
def shaBlock (h : List (BitVec 32)) (bs : List Byte) : List (BitVec 32) :=
  let w := (List.range 16).map fun i => BitVec.ofNat 32 (ofBytes ((bs.drop (4 * i)).take 4).reverse)
  List.zipWith (· + ·) h (shaRounds shaK w h)

/-- A message padded to whole blocks. -/
def shaPad (bs : List Byte) : List Byte :=
  bs ++ [0x80#8] ++ List.replicate ((119 - bs.length % 64) % 64) 0#8 ++ (toBytes 8 (8 * bs.length)).reverse

/-- SHA-256 of a byte string, its first byte the most significant. -/
def sha256 (bs : List Byte) : BitVec 256 :=
  let m := shaPad bs
  let h := (List.range (m.length / 64)).foldl (fun h i => shaBlock h ((m.drop (64 * i)).take 64)) shaInit
  BitVec.ofNat 256 (h.foldl (fun n w => n * 2 ^ 32 + w.toNat) 0)

/-- The bytes of a digest in the order of the hash. -/
def digestBytes (d : BitVec 256) : List Byte := (toBytes 32 d.toNat).reverse

end Sys2Proof.Machine
end

