-- ==== Sys2Proof/Machine/Security.lean ====
section
/-!
DEFINITION. Secure boot, the management sideband, and attestation by SPDM 1.2 (R379 to R381, R460). The bytes of SPDM messages
are those of DMTF DSP0274 1.2 (log entry 11).
-/
namespace Sys2Proof.Machine

/-! ## Boot and the sideband -/

/-- The state with the security controller changed. -/
def State.updSec (s : State) (f : Security → Security) : State := { s with hub := { s.hub with sec := f s.hub.sec } }

/-- A measurement register extended by a digest (R379). -/
def extendMeas (m d : BitVec 256) : BitVec 256 := sha256 (digestBytes m ++ digestBytes d)

/-- Measurement register i + 1 extended by a digest. -/
def Security.extend (x : Security) (i : Nat) (d : BitVec 256) : Security :=
  { x with meas := x.meas.set (i % 4) (extendMeas x.meas[i % 4] d) (Nat.mod_lt _ (by decide)) }

/-- The controller measures its ROM before anything else (R379). -/
def Security.boot (x : Security) : Security := if x.rom then x else { x.extend 0 Config.romDigest with rom := true }

/-- A compute die leaves reset (R169, R379). -/
def State.raiseDie (s : State) (d : Nat) : State :=
  (s.updDie d fun x => { x with up := true, cycleOff := 0, cycleStart := s.time }).retarget d

/-- The next image is loaded (R379, R460): hub firmware, Cowslip policy, die firmware. The last one accepted lets every die
leave reset; one refused leaves the controller in recovery. -/
def State.loadImage (s : State) (image : List Byte) : State :=
  let s := s.updSec Security.boot
  if Config.imageAccepted image then
    let n := s.hub.sec.stage
    let s := s.updSec fun x => { x.extend (n + 1) (sha256 image) with stage := n + 1, recovery := false }
    if n = 2 then (List.range 6).foldl State.raiseDie s else s
  else s.updSec fun x => { x with recovery := true }

/-- POWER_ON_BOOT (R379): the controller loads the next image through the sideband; the input holds its bytes. -/
def execPowerOnBoot (s : State) : Out :=
  .next (if s.hub.sec.stage < 3 ∧ !s.hub.sec.recovery then s.loadImage s.input.data else s)

/-- SIDEBAND_FIRMWARE_LOAD (R381, R460): an image is loaded, in recovery too. After boot it is die firmware for a die whose
reset met a refused image. -/
def execSidebandFirmwareLoad (s : State) : Out :=
  if s.hub.sec.stage < 3 then .next (s.loadImage s.input.data)
  else if s.hub.sec.recovery ∧ Config.imageAccepted s.input.data then .next (s.updSec fun x => { x with recovery := false })
  else .next s

/-- SIDEBAND_WRITE (R371, R381, R460): an access of the sideband to a word at the address that the input gives. A write of the
value given reaches CEIL, or PARK, SLOW and FAST of a die; any other is ignored and answered with an error completion. The flag
makes it a read, which the power registers answer. -/
def execSidebandWrite (s : State) : Out :=
  let off := s.input.addr - hubBase
  let ok := fun (t : State) => t.updSec fun x => { x with refused := false }
  if s.input.addr < hubBase ∨ s.hub.sec.recovery then .next (s.updSec fun x => { x with refused := true, reply := none })
  else if s.input.flag then
    let here := decide (0x40000 ≤ off) && decide (off < 0x400A0) && off % 8 = 0
    .next (s.updSec fun x => { x with refused := !here, reply := if here then some (word (hubRead s off)) else none })
  else if off = 0x40000 then .next (ok (writeCeil s s.input.value))
  else if 0x40040 ≤ off ∧ off < 0x400A0 ∧ off % 0x10 = 0 then .next (ok (writeDieWord s ((off - 0x40040) / 0x10) s.input.value))
  else .next (s.updSec fun x => { x with refused := true })

/-! ## SPDM (R380, R460) -/

/-- A message: version, code and the two parameters, then its body. -/
def spdm (version code p1 p2 : Nat) (body : List Byte) : List Byte :=
  [BitVec.ofNat 8 version, BitVec.ofNat 8 code, BitVec.ofNat 8 p1, BitVec.ofNat 8 p2] ++ body

/-- Byte i of the request. -/
def State.reqByte (s : State) (i : Nat) : Nat := (s.input.data.getD i 0).toNat

/-- n bytes of the request from byte i, as a number. -/
def State.reqField (s : State) (i n : Nat) : Nat := ofBytes ((s.input.data.drop i).take n)

/-- The response is sent, and the controller's state changed. -/
def State.respond (s : State) (r : List Byte) (f : Security → Security) : Out :=
  .next (s.updSec fun x => { f x with response := r })

/-- ERROR with a code; the state of the responder stays (R460). -/
def State.spdmError (s : State) (code : Nat) : Out := s.respond (spdm 0x12 0x7F code 0 []) id

/-- The request codes of SPDM 1.2 that the controller supports (R380). -/
def spdmCodes : List Nat := [0x81, 0x82, 0x83, 0x84, 0xE0, 0xE1, 0xE3]

/-- A request that has come in its turn, with its code and its version (R380, R460): in recovery GET_VERSION alone is
answered. ERROR names the code of a request that is not supported. -/
def State.spdmRequest (s : State) (code version : Nat) (inTurn : Bool) (f : Out) : Out :=
  if s.input.data.length < 4 then s.spdmError 0x01
  else if !spdmCodes.contains (s.reqByte 1) then s.respond (spdm 0x12 0x7F 0x07 (s.reqByte 1) []) id
  else if s.reqByte 1 ≠ code then s.spdmError 0x01
  else if !inTurn ∨ (s.hub.sec.recovery ∧ code ≠ 0x84) then s.spdmError 0x04
  else if s.reqByte 0 ≠ version then s.spdmError 0x41
  else f

/-- GET_VERSION (R380): version 1.2 is offered, and the connection begins anew. -/
def execGetVersion (s : State) : Out :=
  let r := spdm 0x10 0x04 0 0 ([0#8, 1#8] ++ toBytes 2 0x1200)
  s.spdmRequest 0x84 0x10 true
    (s.respond r fun x =>
      { x with version := true, caps := false, algs := false, msgA := s.input.data ++ r, msgB := [], msgL := [] })

/-- GET_CAPABILITIES (R380): certificates, challenges and signed measurements; no session, no key, no mutual
authentication. -/
def execGetCapabilities (s : State) : Out :=
  let r := spdm 0x12 0x61 0 0 (toBytes 4 0 ++ toBytes 4 0x16 ++ toBytes 4 4096 ++ toBytes 4 4096)
  s.spdmRequest 0xE1 0x12 s.hub.sec.version
    (s.respond r fun x => { x with caps := true, algs := false, msgA := x.msgA ++ s.input.data ++ r })

/-- NEGOTIATE_ALGORITHMS (R380): ECDSA P-256 and SHA-256, which the request must offer. -/
def execNegotiateAlgorithms (s : State) : Out :=
  let r := spdm 0x12 0x63 0 0
    (toBytes 2 36 ++ [1#8, 0#8] ++ toBytes 4 2 ++ toBytes 4 0x10 ++ toBytes 4 1 ++ List.replicate 16 0#8)
  s.spdmRequest 0xE3 0x12 s.hub.sec.caps
    (if bit (s.reqField 8 4) 4 && bit (s.reqField 12 4) 0 then
      s.respond r fun x => { x with algs := true, msgA := x.msgA ++ s.input.data ++ r }
    else s.spdmError 0x01)

/-- GET_DIGESTS (R380): the digest of the certificate chain, in slot 0. -/
def execGetDigests (s : State) : Out :=
  let r := spdm 0x12 0x01 0 1 (digestBytes (sha256 Config.certificate))
  s.spdmRequest 0x81 0x12 s.hub.sec.algs (s.respond r fun x => { x with msgB := x.msgB ++ s.input.data ++ r })

/-- GET_CERTIFICATE (R380): a portion of the certificate chain in slot 0. -/
def execGetCertificate (s : State) : Out :=
  let ofs := s.reqField 4 2
  let part := (Config.certificate.drop ofs).take (s.reqField 6 2)
  let r := spdm 0x12 0x02 0 0
    (toBytes 2 part.length ++ toBytes 2 (Config.certificate.length - ofs - part.length) ++ part)
  s.spdmRequest 0x82 0x12 s.hub.sec.algs
    (if s.reqByte 2 % 16 = 0 ∧ part ≠ [] then s.respond r fun x => { x with msgB := x.msgB ++ s.input.data ++ r }
    else s.spdmError 0x01)

/-- The block of measurement index i + 1 (R379, R380). -/
def Security.block (x : Security) (i : Nat) : List Byte :=
  [BitVec.ofNat 8 (i + 1), 1#8] ++ toBytes 2 35 ++ [if i = 0 then 0#8 else 1#8] ++ toBytes 2 32
    ++ digestBytes (x.meas.toList.getD i 0)

/-- CHALLENGE (R380): the chain's digest, a nonce, the summary of measurements asked for, and the signature over the
connection's messages. -/
def execChallenge (s : State) : Out :=
  let x := s.hub.sec
  let all := ((List.range 4).map x.block).flatten
  let summary : List Byte := match s.reqByte 3 with
    | 0x00 => []
    | 0x01 => digestBytes (sha256 (x.block 0))
    | _ => digestBytes (sha256 all)
  let r := spdm 0x12 0x03 0 1
    (digestBytes (sha256 Config.certificate) ++ digestBytes (Config.nonce s.time) ++ summary ++ toBytes 2 0)
  let sig := Config.sign (sha256 (x.msgA ++ x.msgB ++ s.input.data ++ r)) s.time
  s.spdmRequest 0x83 0x12 x.algs
    (if s.reqByte 2 = 0 ∧ (s.reqByte 3 = 0 ∨ s.reqByte 3 = 1 ∨ s.reqByte 3 = 0xFF) then
      s.respond (r ++ sig) fun x => { x with msgB := [], msgL := [] }
    else s.spdmError 0x01)

/-- GET_MEASUREMENTS (R379, R380): the number of indices, one measurement or all four, signed where the request asks. -/
def execGetMeasurements (s : State) : Out :=
  let x := s.hub.sec
  let op := s.reqByte 3
  let blocks : List Nat := if op = 0xFF then [0, 1, 2, 3] else if 1 ≤ op ∧ op ≤ 4 then [op - 1] else []
  let recd := (blocks.map x.block).flatten
  let r := spdm 0x12 0x60 (if op = 0 then 4 else 0) 0
    (toBytes 1 blocks.length ++ toBytes 3 recd.length ++ recd ++ digestBytes (Config.nonce s.time) ++ toBytes 2 0)
  let log := x.msgL ++ s.input.data ++ r
  s.spdmRequest 0xE0 0x12 x.algs
    (if 4 < op ∧ op ≠ 0xFF then s.spdmError 0x01
    else if bit (s.reqByte 2) 0 then
      s.respond (r ++ Config.sign (sha256 (x.msgA ++ log)) s.time) fun x => { x with msgL := [] }
    else s.respond r fun x => { x with msgL := log })

end Sys2Proof.Machine
end

