-- ==== Sys2Proof/Machine/Reset.lean ====
section
/-!
DEFINITION. Resets of compute dies: the emergency save, what is lost, and how a die comes back (R446, R448, R449, R451, R457,
R458, R460).
-/
namespace Sys2Proof.Machine

/-- NEXIT of a launch (R33). -/
def State.exits (s : State) (l : Nat) : Nat := match s.launches[l]? with | some x => x.nexit | none => 0

/-- The strip of a hart is lost: DIE-RESET to its launch's ring, and the launch FAULTED (R402, R451, R458). -/
def State.loseStrip (s : State) (k : Nat) : State :=
  let h := s.hartAt k
  match h.launch with
  | none => s
  | some l =>
    let r := s.hubRec 0x61 0x02 (s.recOf (some l))
    let s := s.ringRecord (s.launchRing (some l)) 
      { r with strip := h.stripId.toNat, die := h.die, core := h.core, slot := h.slot, done := s.exits l }
    let s := h.held.foldl (fun s r => s.ringRecord (s.launchRing (some l)) r) s
    let s := s.onHart k fun s => { s.vacate with h := idleHart k }
    (s.updLaunch l fun x => { x with strips := Sparse.upd {} x.strips h.stripId.toNat fun y => { y with st := .lost } }).faultLaunch l

/-- Every strip that stands on a die is lost. -/
def State.loseStrips (s : State) (d : Nat) : State := (s.stripsOn d).foldl (fun s p => s.loseStrip p.1) s

/-- The reset of a die begins (R458, steps 1 and 2): its strips are asked to be swapped out, or are lost at once where the save
is skipped or the die cannot execute. -/
def State.beginReset (s : State) (d : Nat) (dead : Bool) : State :=
  if 6 ≤ d ∨ (s.dieAt d).busy then s
  else
    let skip := (s.dieAt d).nsv = 1 ∨ dead = true
    let s := s.updDie d fun x => { x with busy := true }
    if skip then s.loseStrips d
    else ((s.stripsOn d).filter fun p => !p.2.frozen).foldl (fun s p => s.askOut p.1) s

/-- DIE_RESET (R457, R458): the oldest reset asked for begins, or one of the die named after an uncorrectable error in its
control state, which the value 1 brings. The flag tells that the die cannot execute. -/
def execDieReset (s : State) : Out :=
  match s.takeRequest (fun r => match r with | .dieReset d => some d | _ => none) with
  | some (d, s) => .next (s.beginReset d s.input.flag)
  | none => .next (if s.input.value = 1 then s.beginReset s.input.who s.input.flag else s)

/-- DIE_FIRMWARE_WATCHDOG (R457): the watchdog of the die named expires, and the hub resets it. -/
def execDieFirmwareWatchdog (s : State) : Out :=
  .next (if s.input.who < 6 ∧ (s.dieAt s.input.who).up then s.request (.dieReset s.input.who) else s)

/-- EMERGENCY_SAVE_TIMEOUT (R458): 100 ms have passed; the strips that still stand on the die named are lost. -/
def execEmergencySaveTimeout (s : State) : Out :=
  .next (if (s.dieAt s.input.who).busy then s.loseStrips s.input.who else s)

/-- A command accepted on a die that is reset fails (R446, R458). A walk counts in OTHER and adds nothing to STEPS (DESIGN CHOICE:
log entry 31). -/
def State.resetCmd (s : State) (core e : Nat) (c : Cmd) : State :=
  let f : CmdFault :=
    { code := 0x40, sub := 0x61, addr := c.wordOf true (c.byteAddr true c.done), wr := true, by_ := c.issuer e }
  let s := s.flagArrival core c
  let s := match c.walk with
    | some k => s.setWalk k {}
    | none => s
  let s := if c.op = 4 then s.countWalk c.launch c.strip 8 0 else s
  (if c.frozen then s else s.holdFor c.launch c.strip (s.cmdRec f 1 0 c.done false)).endCmd core e c

/-- The commands accepted on a die fail (R458). -/
def State.resetCmds (s : State) (d : Nat) : State :=
  (s.cores.filter fun c => c.1 / 64 = d).foldl (fun s c => c.2.eng.foldl (fun s e => match e.2 with
    | some m => s.resetCmd c.1 e.1 m
    | none => s) s) s

/-- The walks at a die's engines end with outcome 8 (R449, R458). -/
def State.resetWalks (s : State) (d : Nat) : State :=
  ((((s.wkNo, s.wk) :: s.walks).filter fun w => w.2.active && !w.2.frozen && w.2.engine / 4 = d)).foldl
    (fun s w =>
      let go := fun (s : State) => s.endWalk w.1 8 (some { outc := 8, code := 0x61, sub := 4 })
      if ((go s).walkAt w.1).half then go (go s) else go s) s

/-- The sessions on a die's networks fail (R448, R458). -/
def State.resetSessions (s : State) (d : Nat) : State :=
  { s with nets := s.nets.map fun n =>
      if n.1 / 4 = d then (n.1, { n.2 with sess := n.2.sess.map fun x => x.failOf 0x43 0x61 0 })
      else n }

/-- The cores of a die after its reset: every barrier is as at reset, tile memory holds nothing (R273, R458; log entry 43). -/
def State.resetCores (s : State) (d : Nat) : State :=
  let s : State := { s with cores := s.cores.filter fun c => decide (c.1 / 64 ≠ d) }
  s.clearTile (tileBase d 0) (0x200000 * coreCount d)

/-- The memory of a die has lost its content: every sector of it holds poison (R458). -/
def State.wipe (s : State) (d : Nat) : State :=
  { s.updDie d fun x => { x with wiped := true } with poison := s.poison.filter fun p => homeOf (32 * p.1) != .dram d }

/-- The sectors of a die's memory that its cache holds modified and cannot write back hold poison (R458, step 3). -/
def State.poisonUnwritten (s : State) (d : Nat) (ks : List Nat) : State :=
  (ks.filter fun k => homeOf (32 * k) = .dram d).foldl (fun s k => s.setPoisonAt k true) s

/-- DIE_RESET_DONE (R458, R460): the die named resets, once no strip stands on it: its work ends, and the sectors that the input
names are lost with its cache. It comes back with the firmware image that the input holds; the flag tells that its DRAM lost its
content. An image that is refused leaves it in reset. -/
def execDieResetDone (s : State) : Out :=
  let d := s.input.who
  if 6 ≤ d ∨ !(s.dieAt d).busy ∨ s.stripsOn d ≠ [] ∨ s.hub.sec.recovery then .next s
  else
    let s := ((s.resetWalks d).resetCmds d).resetSessions d
    let s := (s.resetCores d).poisonUnwritten d s.input.sectors
    let s := if s.input.flag then s.wipe d else s
    if !Config.imageAccepted s.input.data then
      .next ((s.updSec fun x => { x with recovery := true }).updDie d fun x => { x with up := false })
    else
      let s := (s.updSec fun x => x.extend 3 (sha256 s.input.data)).updDie d fun x =>
        { x with busy := false, pkd := false, unparking := false, trn := false, cur := 7, latest := none }
      let s := s.raiseDie d
      .next (s.ringRecord 64 { s.hubRec 0x61 (if s.input.flag then 3 else 1) with die := d, time := (s.cycle d).toNat })

end Sys2Proof.Machine
end

