-- ==== Sys2Proof/Machine/Dispatch.lean ====
section
/-!
DEFINITION. The one match over the instructions: each arm calls its meaning.
-/
namespace Sys2Proof.Machine

/-- The meaning of an instruction at a state. -/
def exec (i : Instr) (s : State) : Host.Outcome State Fault Refusal :=
  match i with
  | .add o => Sys2Proof.Machine.execAdd o s
  | .sub o => Sys2Proof.Machine.execSub o s
  | .mul o => Sys2Proof.Machine.execMul o s
  | .mulh o => Sys2Proof.Machine.execMulh o s
  | .mulhz o => Sys2Proof.Machine.execMulhz o s
  | .div o => Sys2Proof.Machine.execDiv o s
  | .divz o => Sys2Proof.Machine.execDivz o s
  | .rem o => Sys2Proof.Machine.execRem o s
  | .remz o => Sys2Proof.Machine.execRemz o s
  | .and o => Sys2Proof.Machine.execAnd o s
  | .or o => Sys2Proof.Machine.execOr o s
  | .xor o => Sys2Proof.Machine.execXor o s
  | .shl o => Sys2Proof.Machine.execShl o s
  | .shr o => Sys2Proof.Machine.execShr o s
  | .sra o => Sys2Proof.Machine.execSra o s
  | .clz o => Sys2Proof.Machine.execClz o s
  | .ctz o => Sys2Proof.Machine.execCtz o s
  | .popc o => Sys2Proof.Machine.execPopc o s
  | .min o => Sys2Proof.Machine.execMin o s
  | .max o => Sys2Proof.Machine.execMax o s
  | .minz o => Sys2Proof.Machine.execMinz o s
  | .maxz o => Sys2Proof.Machine.execMaxz o s
  | .slt o => Sys2Proof.Machine.execSlt o s
  | .sltz o => Sys2Proof.Machine.execSltz o s
  | .sel o => Sys2Proof.Machine.execSel o s
  | .nop => Sys2Proof.Machine.execNop s
  | .addi o => Sys2Proof.Machine.execAddi o s
  | .andi o => Sys2Proof.Machine.execAndi o s
  | .ori o => Sys2Proof.Machine.execOri o s
  | .xori o => Sys2Proof.Machine.execXori o s
  | .shli o => Sys2Proof.Machine.execShli o s
  | .shri o => Sys2Proof.Machine.execShri o s
  | .srai o => Sys2Proof.Machine.execSrai o s
  | .slti o => Sys2Proof.Machine.execSlti o s
  | .li o => Sys2Proof.Machine.execLi o s
  | .lih o => Sys2Proof.Machine.execLih o s
  | .addpc o => Sys2Proof.Machine.execAddpc o s
  | .ldb o => Sys2Proof.Machine.execLdb o s
  | .ldbz o => Sys2Proof.Machine.execLdbz o s
  | .ldh o => Sys2Proof.Machine.execLdh o s
  | .ldhz o => Sys2Proof.Machine.execLdhz o s
  | .ldw o => Sys2Proof.Machine.execLdw o s
  | .ldwz o => Sys2Proof.Machine.execLdwz o s
  | .ldd o => Sys2Proof.Machine.execLdd o s
  | .stb o => Sys2Proof.Machine.execStb o s
  | .sth o => Sys2Proof.Machine.execSth o s
  | .stw o => Sys2Proof.Machine.execStw o s
  | .std o => Sys2Proof.Machine.execStd o s
  | .lda o => Sys2Proof.Machine.execLda o s
  | .stl o => Sys2Proof.Machine.execStl o s
  | .pref o => Sys2Proof.Machine.execPref o s
  | .fence o => Sys2Proof.Machine.execFence o s
  | .ifence o => Sys2Proof.Machine.execIfence o s
  | .beq o => Sys2Proof.Machine.execBeq o s
  | .bne o => Sys2Proof.Machine.execBne o s
  | .blt o => Sys2Proof.Machine.execBlt o s
  | .bge o => Sys2Proof.Machine.execBge o s
  | .blo o => Sys2Proof.Machine.execBlo o s
  | .bhs o => Sys2Proof.Machine.execBhs o s
  | .jmp o => Sys2Proof.Machine.execJmp o s
  | .jal o => Sys2Proof.Machine.execJal o s
  | .jalr o => Sys2Proof.Machine.execJalr o s
  | .call o => Sys2Proof.Machine.execCall o s
  | .callr o => Sys2Proof.Machine.execCallr o s
  | .ret o => Sys2Proof.Machine.execRet o s
  | .gate o => Sys2Proof.Machine.execGate o s
  | .gret o => Sys2Proof.Machine.execGret o s
  | .endStrip o => Sys2Proof.Machine.execEndStrip o s
  | .release o => Sys2Proof.Machine.execRelease o s
  | .launch o => Sys2Proof.Machine.execLaunch o s
  | .yield o => Sys2Proof.Machine.execYield o s
  | .csrr o => Sys2Proof.Machine.execCsrr o s
  | .csrw o => Sys2Proof.Machine.execCsrw o s
  | .csrs o => Sys2Proof.Machine.execCsrs o s
  | .csrc o => Sys2Proof.Machine.execCsrc o s
  | .trap o => Sys2Proof.Machine.execTrap o s
  | .xret o => Sys2Proof.Machine.execXret o s
  | .wfi o => Sys2Proof.Machine.execWfi o s
  | .vcfg o => Sys2Proof.Machine.execVcfg o s
  | .vsetl o => Sys2Proof.Machine.execVsetl o s
  | .vsett o => Sys2Proof.Machine.execVsett o s
  | .vld o => Sys2Proof.Machine.execVld o s
  | .vlds o => Sys2Proof.Machine.execVlds o s
  | .vldtr o => Sys2Proof.Machine.execVldtr o s
  | .vst o => Sys2Proof.Machine.execVst o s
  | .vsts o => Sys2Proof.Machine.execVsts o s
  | .vldx o => Sys2Proof.Machine.execVldx o s
  | .vstx o => Sys2Proof.Machine.execVstx o s
  | .vstxa o => Sys2Proof.Machine.execVstxa o s
  | .vldk o => Sys2Proof.Machine.execVldk o s
  | .vstk o => Sys2Proof.Machine.execVstk o s
  | .tset o => Sys2Proof.Machine.execTset o s
  | .tget o => Sys2Proof.Machine.execTget o s
  | .vadd o => Sys2Proof.Machine.execVadd o s
  | .vsub o => Sys2Proof.Machine.execVsub o s
  | .vmul o => Sys2Proof.Machine.execVmul o s
  | .vma o => Sys2Proof.Machine.execVma o s
  | .vms o => Sys2Proof.Machine.execVms o s
  | .vnma o => Sys2Proof.Machine.execVnma o s
  | .vdiv o => Sys2Proof.Machine.execVdiv o s
  | .vsqrt o => Sys2Proof.Machine.execVsqrt o s
  | .vmin o => Sys2Proof.Machine.execVmin o s
  | .vmax o => Sys2Proof.Machine.execVmax o s
  | .vabs o => Sys2Proof.Machine.execVabs o s
  | .vneg o => Sys2Proof.Machine.execVneg o s
  | .vclamp o => Sys2Proof.Machine.execVclamp o s
  | .vrcp o => Sys2Proof.Machine.execVrcp o s
  | .vrsq o => Sys2Proof.Machine.execVrsq o s
  | .vexp2 o => Sys2Proof.Machine.execVexp2 o s
  | .vlog2 o => Sys2Proof.Machine.execVlog2 o s
  | .vtanh o => Sys2Proof.Machine.execVtanh o s
  | .vsigm o => Sys2Proof.Machine.execVsigm o s
  | .vand o => Sys2Proof.Machine.execVand o s
  | .vor o => Sys2Proof.Machine.execVor o s
  | .vxor o => Sys2Proof.Machine.execVxor o s
  | .vnot o => Sys2Proof.Machine.execVnot o s
  | .vshl o => Sys2Proof.Machine.execVshl o s
  | .vshr o => Sys2Proof.Machine.execVshr o s
  | .vsra o => Sys2Proof.Machine.execVsra o s
  | .vwadd o => Sys2Proof.Machine.execVwadd o s
  | .vwmul o => Sys2Proof.Machine.execVwmul o s
  | .vwmac o => Sys2Proof.Machine.execVwmac o s
  | .vsatn o => Sys2Proof.Machine.execVsatn o s
  | .vcmp o => Sys2Proof.Machine.execVcmp o s
  | .vclass o => Sys2Proof.Machine.execVclass o s
  | .vcvt o => Sys2Proof.Machine.execVcvt o s
  | .vqnt o => Sys2Proof.Machine.execVqnt o s
  | .vdqnt o => Sys2Proof.Machine.execVdqnt o s
  | .vrsum o => Sys2Proof.Machine.execVrsum o s
  | .vrmax o => Sys2Proof.Machine.execVrmax o s
  | .vrmin o => Sys2Proof.Machine.execVrmin o s
  | .vscan o => Sys2Proof.Machine.execVscan o s
  | .vsplat o => Sys2Proof.Machine.execVsplat o s
  | .vmv o => Sys2Proof.Machine.execVmv o s
  | .vmvx o => Sys2Proof.Machine.execVmvx o s
  | .vins o => Sys2Proof.Machine.execVins o s
  | .vslup o => Sys2Proof.Machine.execVslup o s
  | .vsldn o => Sys2Proof.Machine.execVsldn o s
  | .vperm o => Sys2Proof.Machine.execVperm o s
  | .vcmpr o => Sys2Proof.Machine.execVcmpr o s
  | .vxpnd o => Sys2Proof.Machine.execVxpnd o s
  | .mand o => Sys2Proof.Machine.execMand o s
  | .mor o => Sys2Proof.Machine.execMor o s
  | .mxor o => Sys2Proof.Machine.execMxor o s
  | .mnot o => Sys2Proof.Machine.execMnot o s
  | .mpop o => Sys2Proof.Machine.execMpop o s
  | .mfrst o => Sys2Proof.Machine.execMfrst o s
  | .mset o => Sys2Proof.Machine.execMset o s
  | .mclr o => Sys2Proof.Machine.execMclr o s
  | .mcfg o => Sys2Proof.Machine.execMcfg o s
  | .mjoin o => Sys2Proof.Machine.execMjoin o s
  | .mldb o => Sys2Proof.Machine.execMldb o s
  | .mldbs o => Sys2Proof.Machine.execMldbs o s
  | .mscl o => Sys2Proof.Machine.execMscl o s
  | .mrow o => Sys2Proof.Machine.execMrow o s
  | .mrowsl o => Sys2Proof.Machine.execMrowsl o s
  | .mzero o => Sys2Proof.Machine.execMzero o s
  | .mrd o => Sys2Proof.Machine.execMrd o s
  | .mwr o => Sys2Proof.Machine.execMwr o s
  | .mstat o => Sys2Proof.Machine.execMstat o s
  | .chcfg o => Sys2Proof.Machine.execChcfg o s
  | .chrun o => Sys2Proof.Machine.execChrun o s
  | .chwait o => Sys2Proof.Machine.execChwait o s
  | .chend o => Sys2Proof.Machine.execChend o s
  | .chlnk o => Sys2Proof.Machine.execChlnk o s
  | .qrd o => Sys2Proof.Machine.execQrd o s
  | .qwr o => Sys2Proof.Machine.execQwr o s
  | .engq o => Sys2Proof.Machine.execEngq o s
  | .ecp o => Sys2Proof.Machine.execEcp o s
  | .tcopy o => Sys2Proof.Machine.execTcopy o s
  | .trot o => Sys2Proof.Machine.execTrot o s
  | .awset o => Sys2Proof.Machine.execAwset o s
  | .awadd o => Sys2Proof.Machine.execAwadd o s
  | .await o => Sys2Proof.Machine.execAwait o s
  | .binit o => Sys2Proof.Machine.execBinit o s
  | .barv o => Sys2Proof.Machine.execBarv o s
  | .bdrop o => Sys2Proof.Machine.execBdrop o s
  | .bwait o => Sys2Proof.Machine.execBwait o s
  | .sytas o => Sys2Proof.Machine.execSytas o s
  | .syfad o => Sys2Proof.Machine.execSyfad o s
  | .sycas o => Sys2Proof.Machine.execSycas o s
  | .syrd o => Sys2Proof.Machine.execSyrd o s
  | .sywt o => Sys2Proof.Machine.execSywt o s
  | .amoadd o => Sys2Proof.Machine.execAmoadd o s
  | .amomin o => Sys2Proof.Machine.execAmomin o s
  | .amomax o => Sys2Proof.Machine.execAmomax o s
  | .amominz o => Sys2Proof.Machine.execAmominz o s
  | .amomaxz o => Sys2Proof.Machine.execAmomaxz o s
  | .amoand o => Sys2Proof.Machine.execAmoand o s
  | .amoor o => Sys2Proof.Machine.execAmoor o s
  | .amoxor o => Sys2Proof.Machine.execAmoxor o s
  | .amoswp o => Sys2Proof.Machine.execAmoswp o s
  | .amocas o => Sys2Proof.Machine.execAmocas o s
  | .amocasq o => Sys2Proof.Machine.execAmocasq o s
  | .vwait o => Sys2Proof.Machine.execVwait o s
  | .mgcfg o => Sys2Proof.Machine.execMgcfg o s
  | .mgfeed o => Sys2Proof.Machine.execMgfeed o s
  | .mgpush o => Sys2Proof.Machine.execMgpush o s
  | .mgpull o => Sys2Proof.Machine.execMgpull o s
  | .mgclose o => Sys2Proof.Machine.execMgclose o s
  | .mgstat o => Sys2Proof.Machine.execMgstat o s
  | .tvld o => Sys2Proof.Machine.execTvld o s
  | .tvstat o => Sys2Proof.Machine.execTvstat o s
  | .walkLdf d a z x o => Sys2Proof.Machine.execWalkLdf d a z x o s
  | .walkCmp a b c => Sys2Proof.Machine.execWalkCmp a b c s
  | .walkCmpi a c n => Sys2Proof.Machine.execWalkCmpi a c n s
  | .walkHash d a n => Sys2Proof.Machine.execWalkHash d a n s
  | .walkAdd d a b => Sys2Proof.Machine.execWalkAdd d a b s
  | .walkAddi d a n => Sys2Proof.Machine.execWalkAddi d a n s
  | .walkShadd d a b sh => Sys2Proof.Machine.execWalkShadd d a b sh s
  | .walkLi d n => Sys2Proof.Machine.execWalkLi d n s
  | .walkSel d a b => Sys2Proof.Machine.execWalkSel d a b s
  | .walkTnul a => Sys2Proof.Machine.execWalkTnul a s
  | .walkJt t => Sys2Proof.Machine.execWalkJt t s
  | .walkJf t => Sys2Proof.Machine.execWalkJf t s
  | .walkJmp t => Sys2Proof.Machine.execWalkJmp t s
  | .walkStep a => Sys2Proof.Machine.execWalkStep a s
  | .walkEmitf a => Sys2Proof.Machine.execWalkEmitf a s
  | .walkEmitr a n o => Sys2Proof.Machine.execWalkEmitr a n o s
  | .walkMiss => Sys2Proof.Machine.execWalkMiss s
  | .walkEndRule => Sys2Proof.Machine.execWalkEndRule s
  | .vdot o => Sys2Proof.Machine.execVdot o s
  | .chrunx o => Sys2Proof.Machine.execChrunx o s
  | .illegalWord sub slot w => Sys2Proof.Machine.execIllegalWord sub slot w s
  | .matrixUnitGrant => Sys2Proof.Machine.execMatrixUnitGrant s
  | .joinComplete => Sys2Proof.Machine.execJoinComplete s
  | .joinRowCommit => Sys2Proof.Machine.execJoinRowCommit s
  | .chainBeat => Sys2Proof.Machine.execChainBeat s
  | .chainRunComplete => Sys2Proof.Machine.execChainRunComplete s
  | .temporalStrip => Sys2Proof.Machine.execTemporalStrip s
  | .linkPortGrant => Sys2Proof.Machine.execLinkPortGrant s
  | .linkRecordReceive => Sys2Proof.Machine.execLinkRecordReceive s
  | .engineNone => Sys2Proof.Machine.execEngineNone s
  | .copy => Sys2Proof.Machine.execCopy s
  | .tensorCopy => Sys2Proof.Machine.execTensorCopy s
  | .rotation => Sys2Proof.Machine.execRotation s
  | .walk => Sys2Proof.Machine.execWalk s
  | .engineBlockLand => Sys2Proof.Machine.execEngineBlockLand s
  | .engineCommandComplete => Sys2Proof.Machine.execEngineCommandComplete s
  | .copyFail => Sys2Proof.Machine.execCopyFail s
  | .awaitWake => Sys2Proof.Machine.execAwaitWake s
  | .bwaitWake => Sys2Proof.Machine.execBwaitWake s
  | .sywtWake => Sys2Proof.Machine.execSywtWake s
  | .vwaitEnd => Sys2Proof.Machine.execVwaitEnd s
  | .wfiWake => Sys2Proof.Machine.execWfiWake s
  | .chwaitWake => Sys2Proof.Machine.execChwaitWake s
  | .waitTimeout => Sys2Proof.Machine.execWaitTimeout s
  | .mergeNetworkGrant => Sys2Proof.Machine.execMergeNetworkGrant s
  | .mgfeedAccept => Sys2Proof.Machine.execMgfeedAccept s
  | .mergeFeedRead => Sys2Proof.Machine.execMergeFeedRead s
  | .mergeTokenEnter => Sys2Proof.Machine.execMergeTokenEnter s
  | .mergePass => Sys2Proof.Machine.execMergePass s
  | .mgcloseComplete => Sys2Proof.Machine.execMgcloseComplete s
  | .mergeFail => Sys2Proof.Machine.execMergeFail s
  | .walkAbnormalEnd => Sys2Proof.Machine.execWalkAbnormalEnd s
  | .impreciseTrap => Sys2Proof.Machine.execImpreciseTrap s
  | .freeze => Sys2Proof.Machine.execFreeze s
  | .chainStreamBreak => Sys2Proof.Machine.execChainStreamBreak s
  | .linkPortTimeout => Sys2Proof.Machine.execLinkPortTimeout s
  | .peerParkedBreak => Sys2Proof.Machine.execPeerParkedBreak s
  | .bodyErrorBreak => Sys2Proof.Machine.execBodyErrorBreak s
  | .watchdogStall => Sys2Proof.Machine.execWatchdogStall s
  | .ringEntryArrival => Sys2Proof.Machine.execRingEntryArrival s
  | .sideBufferTake => Sys2Proof.Machine.execSideBufferTake s
  | .predecessorsSatisfied => Sys2Proof.Machine.execPredecessorsSatisfied s
  | .predReadFail => Sys2Proof.Machine.execPredReadFail s
  | .stripPlace => Sys2Proof.Machine.execStripPlace s
  | .preemptVictim => Sys2Proof.Machine.execPreemptVictim s
  | .swapOut => Sys2Proof.Machine.execSwapOut s
  | .stripResume => Sys2Proof.Machine.execStripResume s
  | .featureRequeue => Sys2Proof.Machine.execFeatureRequeue s
  | .launchRetire => Sys2Proof.Machine.execLaunchRetire s
  | .launchSuspend => Sys2Proof.Machine.execLaunchSuspend s
  | .launchResume => Sys2Proof.Machine.execLaunchResume s
  | .launchAbort => Sys2Proof.Machine.execLaunchAbort s
  | .psplitWrite => Sys2Proof.Machine.execPsplitWrite s
  | .vminvWrite => Sys2Proof.Machine.execVminvWrite s
  | .htsyncWrite => Sys2Proof.Machine.execHtsyncWrite s
  | .rtsyncSync => Sys2Proof.Machine.execRtsyncSync s
  | .queueConfigWrite => Sys2Proof.Machine.execQueueConfigWrite s
  | .faultRingConfigWrite => Sys2Proof.Machine.execFaultRingConfigWrite s
  | .regionTableCommit => Sys2Proof.Machine.execRegionTableCommit s
  | .ceilWrite => Sys2Proof.Machine.execCeilWrite s
  | .diePark => Sys2Proof.Machine.execDiePark s
  | .dieParked => Sys2Proof.Machine.execDieParked s
  | .dieUnpark => Sys2Proof.Machine.execDieUnpark s
  | .keyCommit => Sys2Proof.Machine.execKeyCommit s
  | .keyClear => Sys2Proof.Machine.execKeyClear s
  | .hostPortUnfreeze => Sys2Proof.Machine.execHostPortUnfreeze s
  | .dieReset => Sys2Proof.Machine.execDieReset s
  | .emergencySaveTimeout => Sys2Proof.Machine.execEmergencySaveTimeout s
  | .dieResetDone => Sys2Proof.Machine.execDieResetDone s
  | .dieFirmwareWatchdog => Sys2Proof.Machine.execDieFirmwareWatchdog s
  | .hubRegisterWrite => Sys2Proof.Machine.execHubRegisterWrite s
  | .hostAccess => Sys2Proof.Machine.execHostAccess s
  | .linkStandby => Sys2Proof.Machine.execLinkStandby s
  | .flitReceive => Sys2Proof.Machine.execFlitReceive s
  | .flitReplay => Sys2Proof.Machine.execFlitReplay s
  | .linkRetrain => Sys2Proof.Machine.execLinkRetrain s
  | .linkModuleDown => Sys2Proof.Machine.execLinkModuleDown s
  | .permitStarvation => Sys2Proof.Machine.execPermitStarvation s
  | .governorWindow => Sys2Proof.Machine.execGovernorWindow s
  | .governorInterval => Sys2Proof.Machine.execGovernorInterval s
  | .pstateTransitionEnd => Sys2Proof.Machine.execPstateTransitionEnd s
  | .thermalStep => Sys2Proof.Machine.execThermalStep s
  | .thermalRecover => Sys2Proof.Machine.execThermalRecover s
  | .powerOnBoot => Sys2Proof.Machine.execPowerOnBoot s
  | .getVersion => Sys2Proof.Machine.execGetVersion s
  | .getCapabilities => Sys2Proof.Machine.execGetCapabilities s
  | .negotiateAlgorithms => Sys2Proof.Machine.execNegotiateAlgorithms s
  | .getDigests => Sys2Proof.Machine.execGetDigests s
  | .getCertificate => Sys2Proof.Machine.execGetCertificate s
  | .challenge => Sys2Proof.Machine.execChallenge s
  | .getMeasurements => Sys2Proof.Machine.execGetMeasurements s
  | .sidebandFirmwareLoad => Sys2Proof.Machine.execSidebandFirmwareLoad s
  | .sidebandWrite => Sys2Proof.Machine.execSidebandWrite s
  | .dieUnparked => Sys2Proof.Machine.execDieUnparked s
  | .hostSnoop => Sys2Proof.Machine.execHostSnoop s
  | .gatedUnitResume => Sys2Proof.Machine.execGatedUnitResume s
  | .fetchFault => Sys2Proof.Machine.execFetchFault s

end Sys2Proof.Machine
end

