-- ==== Sys2Proof/Machine/Issue.lean ====
section
/-!
DEFINITION. Issue: the unit at the pc, the vector queue, pairs, and the order of what meets a hart at a boundary (R11, R44, R106,
R116 to R118, R150, R151, R167, R274, R277, R348, R349, R394, R403 to R406, R410, R429).
-/
namespace Sys2Proof.Machine

/-! ## What an instruction waits for -/

/-- A step of the device, which no instruction word names. -/
def isDevice : Instr → Bool
  | .matrixUnitGrant | .joinComplete | .joinRowCommit | .chainBeat | .chainRunComplete | .temporalStrip
  | .linkPortGrant | .linkRecordReceive | .engineNone | .copy | .tensorCopy | .rotation | .walk | .engineBlockLand
  | .engineCommandComplete | .copyFail | .awaitWake | .bwaitWake | .sywtWake | .vwaitEnd | .wfiWake | .chwaitWake
  | .waitTimeout | .mergeNetworkGrant | .mgfeedAccept | .mergeFeedRead | .mergeTokenEnter | .mergePass
  | .mgcloseComplete | .mergeFail | .walkAbnormalEnd | .impreciseTrap | .freeze | .chainStreamBreak
  | .linkPortTimeout | .peerParkedBreak | .bodyErrorBreak | .watchdogStall | .ringEntryArrival | .sideBufferTake
  | .predecessorsSatisfied | .predReadFail | .stripPlace | .preemptVictim | .swapOut | .stripResume | .featureRequeue
  | .launchRetire | .launchSuspend | .launchResume | .launchAbort | .psplitWrite | .vminvWrite | .htsyncWrite
  | .rtsyncSync | .queueConfigWrite | .faultRingConfigWrite | .regionTableCommit | .ceilWrite | .diePark | .dieParked
  | .dieUnpark | .keyCommit | .keyClear | .hostPortUnfreeze | .dieReset | .emergencySaveTimeout | .dieResetDone
  | .dieFirmwareWatchdog | .hubRegisterWrite | .hostAccess | .linkStandby | .flitReceive | .flitReplay | .linkRetrain
  | .linkModuleDown | .permitStarvation | .governorWindow | .governorInterval | .pstateTransitionEnd | .thermalStep
  | .thermalRecover | .powerOnBoot | .getVersion | .getCapabilities | .negotiateAlgorithms | .getDigests
  | .getCertificate | .challenge | .getMeasurements | .sidebandFirmwareLoad | .sidebandWrite | .dieUnparked
  | .hostSnoop | .gatedUnitResume => true
  | _ => false

/-- Instructions that enter the vector queue (R26, R348). -/
def entersQueue : Instr → Bool
  | .vadd _ | .vsub _ | .vmul _ | .vma _ | .vms _ | .vnma _ | .vdiv _ | .vsqrt _ | .vmin _ | .vmax _ | .vabs _
  | .vneg _ | .vclamp _ | .vrcp _ | .vrsq _ | .vexp2 _ | .vlog2 _ | .vtanh _ | .vsigm _ | .vand _ | .vor _ | .vxor _
  | .vnot _ | .vshl _ | .vshr _ | .vsra _ | .vwadd _ | .vwmul _ | .vwmac _ | .vsatn _ | .vcmp _ | .vclass _ | .vcvt _
  | .vrsum _ | .vrmax _ | .vrmin _ | .vscan _ | .vsplat _ | .vmv _ | .vmvx _ | .vins _ | .vslup _ | .vsldn _
  | .vperm _ | .vcmpr _ | .vxpnd _ | .mand _ | .mor _ | .mxor _ | .mnot _ | .mpop _ | .mfrst _ | .mset _ | .mclr _
  | .mrow _ | .mrowsl _ | .mzero _ | .qrd _ | .qwr _ | .vcfg _ | .vsetl _ | .vsett _ | .vld _ | .vlds _ | .vldx _
  | .vldtr _ | .vldk _ | .vst _ | .vsts _ | .vstx _ | .vstxa _ | .vstk _ | .tset _ | .tget _ | .vqnt _ | .vdqnt _
  | .mcfg _ | .mjoin _ | .mldb _ | .mldbs _ | .mrd _ | .mwr _ | .mscl _ | .mstat _ | .chcfg _ | .chrun _ | .chend _
  | .chlnk _ | .engq _ | .ecp _ | .tcopy _ | .trot _ | .awset _ | .awadd _ | .await _ | .vwait _ | .mgcfg _
  | .mgfeed _ | .mgpush _ | .mgpull _ | .mgclose _ | .mgstat _ | .tvld _ | .tvstat _ | .vdot _ => true
  | _ => false

/-- Instructions of the scalar sequencer that wait for the vector queue (R93, R128, R152, R162 to R164, R167, R170, R174, R274). -/
def waitsQueue : Instr → Bool
  | .ifence _ | .endStrip _ | .release _ | .launch _ | .yield _ | .trap _ | .xret _ | .chrunx _
  | .illegalWord _ _ _ | .barv _ | .bdrop _ => true
  | .csrr o | .csrw o | .csrs o | .csrc o => queuedCsr o.csr.toNat
  | _ => false

/-- Instructions of the scalar sequencer that wait until the vector queue has completed every earlier memory instruction (R148,
R278, R279). -/
def waitsMemory : Instr → Bool
  | .lda _ | .stl _ | .sytas _ | .syfad _ | .sycas _ => true
  | .amoadd o | .amomin o | .amomax o | .amominz o | .amomaxz o | .amoand o | .amoor o | .amoxor o | .amoswp o | .amocas o
  | .amocasq o => decide (2 ≤ amoOrd o)
  | _ => false

/-- An instruction that waits in the vector queue has memory still to access: all but those that wait for a unit, a port, a network
or the tokens of a session (R148, R211, R217, R226, R255, R283, R299, R348). -/
def Pending.memory (p : Pending) : Bool :=
  match p.instr with
  | .mcfg _ | .mjoin _ | .mldb _ | .mldbs _ | .chlnk _ | .mgcfg _ | .mgpull _ => false
  | _ => true

/-- The vector queue of a hart holds a memory instruction: one that waits, or an open run with a memory port (R148, R247). -/
def Hart.memoryBusy (h : Hart) : Bool :=
  h.vq.any Pending.memory
    || h.chain.run.any fun r => decide (r.mode ≠ .parked) && r.body.nodes.any fun i => portClasses i != 0

/-- The classes of R151 that an instruction of the scalar sequencer accesses: scalar loads and scalar stores. -/
def scalarClasses : Instr → Nat
  | .ldb _ | .ldbz _ | .ldh _ | .ldhz _ | .ldw _ | .ldwz _ | .ldd _ | .lda _ | .ret _ => 1
  | .stb _ | .sth _ | .stw _ | .std _ | .stl _ | .call _ | .callr _ => 2
  | .amoadd _ | .amomin _ | .amomax _ | .amominz _ | .amomaxz _ | .amoand _ | .amoor _ | .amoxor _ | .amoswp _
  | .amocas _ | .amocasq _ => 3
  | _ => 0

/-- The scalar registers that an instruction reads or writes. -/
def touched (i : Instr) : List Nat :=
  let fs := (scalarFields i).map (·.toNat)
  match i with
  | .call _ | .ret _ => [2]
  | .callr _ => 2 :: fs
  | .amocasq _ => fs ++ fs.map (· + 1)
  | _ => fs

/-- The scalar register that an instruction which waits in the vector queue will write (R348). -/
def Pending.dst (p : Pending) : Nat :=
  match p.instr with
  | .mgcfg o => o.d.toNat
  | .mgpull o => o.b.toNat
  | .mgclose o => o.d.toNat
  | .await o => o.d.toNat
  | _ => 0

/-- An instruction of the vector queue after whose wait alone later memory accesses take effect: an acquire (R272, R281, R300,
R328). -/
def Pending.acquires (p : Pending) : Bool :=
  match p.instr with
  | .await _ => true
  | .vwait _ => true
  | .mgclose _ => true
  | _ => false

/-! ## Scalar accesses behind an open run (R82, R96) -/

/-- The access of an instruction of the scalar sequencer that does not wait for the vector queue's own: the space, the location and
the bytes. -/
def scalarRange (s : State) : Instr → Option (Bool × Nat × Nat)
  | .ldb o | .ldbz o | .stb o => some (o.sp = 1, s.fmLoc o, 1)
  | .ldh o | .ldhz o | .sth o => some (o.sp = 1, s.fmLoc o, 2)
  | .ldw o | .ldwz o | .stw o => some (o.sp = 1, s.fmLoc o, 4)
  | .ldd o | .std o => some (o.sp = 1, s.fmLoc o, 8)
  | .call _ | .callr _ => some (false, (s.h.getX 2 - 16).toNat, 16)
  | .ret _ => some (false, (s.h.getX 2).toNat, 16)
  | .amoadd o | .amomin o | .amomax o | .amominz o | .amomaxz o | .amoand o | .amoor o | .amoxor o | .amoswp o | .amocas o =>
    some (false, s.fxAddr o, 8)
  | .amocasq o => some (false, s.fxAddr o, 16)
  | .syrd o | .sywt o => some (false, s.fxAddr o, 8)
  | _ => none

/-- The physical place of a byte of a hart, where it has one. -/
def State.placeOf (s : State) (h : Hart) (tile : Bool) (a : Nat) : Option Nat :=
  if tile then some (h.winBase + a) else s.mappedAt h.sys.vmroot a

/-- The physical places of consecutive bytes. -/
def State.placesOf (s : State) (h : Hart) (tile : Bool) (a n : Nat) : List Nat :=
  (List.range n).filterMap fun i => s.placeOf h tile (a + i)

/-- The bytes of the table entries that a walk reads from a table of a level down (R80). -/
def walkBytes (s : State) (va : Nat) : Nat → Nat → List Nat
  | 0, _ => []
  | n + 1, table =>
    let epa := table + 8 * levelIndex n va
    let e := ofBytes (s.readBytes 0 epa 8)
    (List.range 8).map (epa + ·) ++ if bit e 0 && !bit e 2 then walkBytes s va n (bits e 14 38 * 2 ^ 14) else []

/-- The bytes of the table entries that the walk of an address of the hart that issues reads. -/
def State.entriesOf (s : State) (va : Nat) : List Nat := walkBytes s va 4 (bits s.h.sys.vmroot.toNat 14 38 * 2 ^ 14)

/-- The first element or row that a port of a run has still to access, and the end of those to come: as far as any address
leads where their number is not known (R256). -/
def Segment.leftOf (c : Segment) (r : Run) (n : Node) (i : Nat) : Nat × Nat :=
  let st := r.nodes.getD i {}
  let rows := r.body.rowMode
  let lo := match n.role, r.mode with
    | .load, .chained => if rows then st.row else st.col
    | _, _ => r.cur
  (lo, r.n.getD (r.cur + 2 ^ 22 / if rows then max 1 (c.inLen (c.rowLens r) n) else 1))

/-- The positions that a port of a run has still to access, with their places. -/
def Segment.toCome (c : Segment) (r : Run) (n : Node) (i : Nat) : List Place :=
  let len := c.inLen (c.rowLens r) n
  let b := c.leftOf r n i
  let ps := if r.body.rowMode then ((List.range (b.2 - b.1)).map fun j => positionsOf r len (b.1 + j) 0 len).flatten
    else positionsOf r len 0 b.1 (b.2 - b.1)
  (ps.filter (c.active n)).map fun p => n.place (if r.body.rowMode then p.unit else 0) len p.e 0

/-- Some byte of a range of a hart may lie among physical bytes: a test by pages of what is exact byte by byte. -/
def State.mayMeet (s : State) (h : Hart) (tile : Bool) (lo hi : Nat) (xs : List Nat) : Bool :=
  if tile then xs.any fun x => decide (h.winBase + lo ≤ x) && decide (x ≤ h.winBase + hi)
  else decide (2 ^ 26 < hi - lo)
    || (List.range (hi / 16384 - lo / 16384 + 1)).any fun i => match s.mappedAt h.sys.vmroot (16384 * (lo / 16384 + i)) with
      | some pa => xs.any fun x => x / 16384 = pa / 16384
      | none => false

/-- A port of a run has still to access one of some physical bytes; where the elements lie by an index that has not come, it may. -/
def State.portMeets (s : State) (c : Segment) (r : Run) (n : Node) (i : Nat) (xs : List Nat) : Bool :=
  match r.body.nodes[i]? with
  | some (.vldx _) | some (.vstx _) | some (.vstxa _) => true
  | _ =>
    let len := c.inLen (c.rowLens r) n
    let b := c.leftOf r n i
    let size := eltBytes (match n.role, n.srcs with | .store _ _, o :: _ => o.2 | _, _ => n.dst)
    let at_ := fun (j : Nat) => if r.body.rowMode then n.place (j / len) len (j % len) 0 else n.place 0 len j 0
    let k := if r.body.rowMode then len else 1
    let ends := [at_ (b.1 * k), at_ (b.1 * k + (k - 1)), at_ (b.2 * k - k), at_ (b.2 * k - 1)].map (·.byte)
    let lo := ends.foldl min (ends.headD 0)
    let hi := ends.foldl max 0 + size
    decide (b.1 < b.2) && s.mayMeet c.h n.tile lo hi xs
      && (c.toCome r n i).any fun p => (s.placesOf c.h n.tile p.byte size).any xs.contains

/-- The open run of the hart that issues has still to access one of some physical bytes, in storing to it or, where all counts, in
any way. -/
def State.runMeets (s : State) (all : Bool) (xs : List Nat) : Bool :=
  xs != [] && match s.h.chain.run with
    | none => false
    | some r =>
      let c := s.segment s.h.key r
      decide (r.mode ≠ .parked) && c.ns.zipIdx.any fun p => match p.1.role with
        | .store _ _ => s.portMeets c r p.1 p.2 xs
        | .load => all && s.portMeets c r p.1 p.2 xs
        | _ => false

/-- The open run of the hart that issues has still to access tile memory among some bytes of the hart, in storing or, where all
counts, in any way; or to store to an entry that their translation walks (R82, R96). -/
def State.rangeBehind (s : State) (all tile : Bool) (a n : Nat) : Bool :=
  s.h.chain.run.isSome
    && (s.runMeets all ((s.placesOf s.h tile a n).filter isTile)
      || (!tile && (s.runMeets false (s.entriesOf a) || s.runMeets false (s.entriesOf (a + n - 1)))))

/-- A scalar access waits behind the open run of its hart: they meet in tile memory, which sees them in program order (R96), or the
run has still to store to an entry that the access walks (R82). -/
def State.behindRun (s : State) (i : Instr) : Bool :=
  match scalarRange s i with
  | none => false
  | some (tile, a, n) => s.rangeBehind (scalarClasses i != 1) tile a n

/-- The writes of a trap entry of the hart that issues, of the frame and of the fault record, meet what its open run has still to
perform (R82, R96, R172, R390). -/
def State.trapBehind (s : State) : Bool :=
  s.rangeBehind true false (s.h.sys.tsp - 128).toNat 128
    || (s.h.sys.frarea != 0 && s.rangeBehind true false s.h.sys.frarea.toNat 64)

/-- An instruction that cannot issue while the vector queue holds what it holds (R82, R96, R148, R150, R151, R167, R348). -/
def State.stalls (s : State) (i : Instr) : Bool :=
  let h := s.h
  scalarClasses i &&& h.fenced != 0 || (waitsMemory i && h.memoryBusy)
    || (h.queueBusy && (entersQueue i || waitsQueue i || s.behindRun i
      || match h.vq with
        | some p => (p.dst != 0 && (touched i).contains p.dst) || (p.acquires && scalarClasses i != 0)
        | none => false))

/-! ## The unit at the pc -/

/-- The issue unit at the pc, or why there is none: the cause of a word that is none, with the word; and the state after its
fetch (R105, R118, R408). A word behind a prefixed one that cannot be fetched is none that joins it. -/
def unitAt (s : State) (w : Word) : Except (DecodeError × Word) IssueUnit × State :=
  if w.extractLsb' 62 2 = 2#2 then
    match fetchWord s (s.h.pc + 8) with
    | .ok (n, t) => match decodeUnit w (some n) with
      | .ok u => (.ok u, t)
      | .error d => (.error (d, if d.second then n else w), t)
    | .error _ => match decodeUnit w none with
      | .ok u => (.ok u, s)
      | .error d => (.error (d, w), s)
  else match decodeUnit w none with
    | .ok u => (.ok u, s)
    | .error d => (.error (d, w), s)

/-- The causes of a half with its slot: false for A. -/
def halfCauses (slot : Bool) : HalfRes → List (Cause × Bool)
  | .error cs => match minCause cs with
    | some c => [(c, slot)]
    | none => []
  | .ok _ => []

/-- The lowest cause of a pair: slot A before slot B among equal codes (R404, R406). -/
def minSlot : List (Cause × Bool) → Option (Cause × Bool)
  | [] => none
  | c :: cs => match minSlot cs with
    | none => some c
    | some d => if d.1.code < c.1.code then some d else some c

/-- A half that the class of the hart's die lacks (R221, R413). -/
def halfLacks (s : State) (i : Instr) : Bool :=
  match i with
  | .mrowsl _ => isBandwidth s.h.die
  | _ => false

/-- The word that holds slot B of a pair of n bytes: the pair word, or the second word of a joined pair (R409). -/
def pairWord (s : State) (n : Nat) : Nat :=
  match fetchWord s (s.h.pc + BitVec.ofNat 64 (n - 8)) with
  | .ok (w, _) => w.toNat
  | .error _ => 0

/-- A pair of n bytes (R116, R117, R406, R407, R410): both halves read before either writes; what the die class lacks is tested
after PAIR and before every other condition. -/
def execPair (a b : Instr) (n : Nat) (s : State) : Out :=
  match evalHalf a s, evalHalf b s with
  | some ra, some rb =>
    let ra := s.withTraps ra
    let rb := s.withTraps rb
    let pair : List (Cause × Bool) := match pairSub false a b with
      | some sub => [({ code := 0x01, sub := sub, tval := pairWord s n }, true)]
      | none => []
    if pair = [] ∧ (halfLacks s a ∨ halfLacks s b) then .next (s.stopLacking 1 0)
    else match minSlot (halfCauses false ra ++ halfCauses true rb ++ pair), ra, rb with
      | some (c, slot), _, _ => .next (s.raise c true slot)
      | none, .ok oa, .ok ob => .next (((s.commit oa).commit ob).advance n)
      | none, _, _ => .next s
  | _, _ => .next s

/-- The instruction that a unit issues as one, or the halves that it issues as a pair, with its length. -/
def unitParts : IssueUnit → Instr ⊕ (Instr × Instr × Nat)
  | .full i => .inl i
  | .prefixed i => .inl i
  | .pair a b => if b = .nop then .inl a else .inr (a, b, 8)
  | .joined p b => .inr (p, b, 16)

/-- A unit of the hart that issues stalls behind the vector queue. -/
def State.unitStalls (s : State) (u : IssueUnit) : Bool :=
  match unitParts u with
  | .inl i => s.stalls i
  | .inr (a, b, _) => s.stalls a || s.stalls b

/-- A unit that issues has its effect. A trap that waits for the queue leaves nothing, so that a race it reports is found again (R394,
R430). -/
def runUnit (u : IssueUnit) (s : State) : Out :=
  if s.unitStalls u then .next s
  else
    let out := match unitParts u with
      | .inl i => exec i s
      | .inr (a, b, n) => execPair a b n s
    if s.h.queueBusy then
      match out with
      | .next t => if t.trace.length = s.trace.length ∧ t.trace ≠ s.trace then .next s else .next t
      | o => o
    else out

/-! ## Boundaries -/

/-- Codes of the precise causes that stand determined before a unit begins (R403, R406). -/
def determinedCode (c : Nat) : Bool :=
  decide (c ≤ 0x05) || c = 0x11 || c = 0x12 || c = 0x22 || c = 0x25 || c = 0x50 || c = 0x51

/-- A unit's step enters a trap whose cause stood determined at the boundary, or stops in entering it (R391, R403). -/
def entersDetermined (s : State) (o : Out) : Bool :=
  match o with
  | .next t =>
    t.h.key = s.h.key
      && ((t.h.sys.tsp == s.h.sys.tsp - 128 && t.h.plv == .exec && determinedCode (t.h.sys.tcause.toNat % 256))
        || (s.h.doubleCause.isNone && t.h.doubleCause.any determinedCode))
  | _ => false

/-- The hart that issues without what its vector queue holds. -/
def State.quiet (s : State) : State :=
  if s.h.queueBusy then { s with h := { s.h with vq := none, muSaved := none, chain := { s.h.chain with run := none } } } else s

/-- A cause of a unit stands determined at the boundary, whether or not its trap waits for earlier units (R394, R403, R404): the unit
has reached the point at which it reads its operands (R406). -/
def determined (u : IssueUnit) (s : State) : Bool := !s.unitStalls u && entersDetermined s.quiet (runUnit u s.quiet)

/-- A unit is END, which retires at this boundary (R403). -/
def retires (u : IssueUnit) (s : State) : Bool :=
  match u with
  | .full (.endStrip _) => !s.h.queueBusy && s.ownSession.isNone
  | _ => false

/-- A pre-emption request of the hart that issues will be taken: a save slot is free for it (R349, R350). A member of a join goes on
while rows that are in flight to it wait for a tile that it has still to load (R229). -/
def State.mustLeave (s : State) : Bool := s.h.preempt && (s.freeSave s.h.die).isSome && !s.rowsWait

/-- The hart that issues takes its oldest held record: a wait whose event has arrived completes first (R46, R403), and the trap waits
for accesses of the open run that its own meet (R82, R96). -/
def State.takeHeld (s : State) : State :=
  match s.wakeNow s.h.key with
  | some t => t
  | none => if s.trapBehind then s else s.takeImprecise

/-- What the hart does at the boundary before a unit (R403): a determined trap and END go before held records, and those before
a pre-emption request, for which it stands. -/
def atBoundary (u : IssueUnit) (s : State) : Out :=
  if s.h.takesHeld ∨ s.mustLeave then
    if determined u s ∨ retires u s then runUnit u s
    else if s.h.takesHeld then .next s.takeHeld
    else .next s
  else runUnit u s

/-- The hart that issues turns to the unit at its pc: a fetch fault and a word that is no instruction are determined causes
(R403, R408, R429). A fetch waits for stores of the open run to the entries that it walks (R82). -/
def issue (s : State) : Out :=
  let behind := fun (a : Word) => s.h.queueBusy && s.runMeets false (s.entriesOf a.toNat)
  if behind s.h.pc then .next s
  else match fetchWord s s.h.pc with
  | .error _ => exec .fetchFault s
  | .ok (w, t) =>
    if w.extractLsb' 62 2 = 2#2 ∧ behind (s.h.pc + 8) then .next s
    else match unitAt t w with
      | (.ok u, t) => atBoundary u t
      | (.error (d, w), t) => if t.h.queueBusy then .next t else exec (.illegalWord d.sub d.slot w) t

/-- The instruction that waits in the vector queue tries again; FENCEs whose earlier accesses have been performed take effect. -/
def State.advanceQueue (s : State) : State :=
  let s := if s.h.muSaved.isSome then s else match s.h.vq with
    | some _ => s.retryLoad.retryCmd.retryPull false
    | none => s
  s.settleFences

/-- A turn of the hart that issues: it runs where it holds a strip that is neither frozen, stopped by its die class, nor in a
wait. -/
def hartTurn (s : State) : Out :=
  if !s.h.live ∨ s.h.lacks.isSome then .next s
  else
    let s := ({ s with h := { s.h with po := s.h.po + 1 } }).advanceQueue
    if s.h.wait.isSome then .next s else issue s

/-- Nothing goes before a held record or a swap-out of the hart named at the boundary it stands at (R403): it waits, or the
unit at its pc neither traps by a determined cause nor is END. A swap-out stands before the units behind the vector queue, whose
causes are met once it has resumed (R349). -/
def boundaryFree (s : State) (k : Nat) (leaving : Bool) : Bool :=
  let t := s.select k
  if t.h.wait.isSome || t.h.lacks.isSome || (leaving && t.h.queueBusy) then true
  else match fetchWord t t.h.pc with
    | .error _ => false
    | .ok (w, t) => match unitAt t w with
      | (.ok u, t) => !determined u t && !retires u t
      | (.error _, _) => false

/-- A step of the device: one that a boundary of its hart holds back does not take place; a wait whose event has arrived completes
before a trap or a swap-out takes its hart (R46, R403). -/
def deviceTurn (i : Instr) (s : State) : Out :=
  match i with
  | .swapOut => if boundaryFree s s.input.who true && !(s.hartAt s.input.who).takesHeld then exec i s else .next s
  | .impreciseTrap => match if (s.hartAt s.input.who).takesHeld then s.wakeNow s.input.who else none with
    | some t => .next t
    | none =>
      if boundaryFree s s.input.who false && !(s.select s.input.who).trapBehind then exec i s else .next s
  | i => if isDevice i then exec i s else .next s

/-- A turn of the walk selected (R310, R313): its next rule, or the ending it has met. -/
def walkTurn (s : State) : Out :=
  match s.wk.ending with
  | some _ => exec .walkAbnormalEnd { s with input := { s.input with who := s.wkNo } }
  | none => match s.wk.prog[s.wk.rpc]? with
    | none => .next s
    | some w => match decodeRule w with
      | some i => exec i s
      | none => .next s

/-! ## Cycles -/

/-- A key put into a list of keys in ascending order. -/
def insertKey (k : Nat) : List Nat → List Nat
  | [] => [k]
  | j :: js => if k ≤ j then k :: j :: js else j :: insertKey k js

/-- The keys of the turns that go on a cycle, in ascending order, and the turns after them. -/
def cycleKeys : List Turn → List Nat × List Turn
  | .same k :: ts => (insertKey k (cycleKeys ts).1, (cycleKeys ts).2)
  | ts => ([], ts)

/-- The turns with those of the cycle that comes next in ascending order of die, core and slot (R211, R255, R265, R283, R339). -/
def orderCycle : List Turn → List Turn
  | .hart k :: ts => match insertKey k (cycleKeys ts).1 with
    | j :: js => .hart j :: js.map .same ++ (cycleKeys ts).2
    | [] => .hart k :: ts
  | ts => (cycleKeys ts).1.map .same ++ (cycleKeys ts).2

/-- The next turn belongs to the cycle of the last one (R275). -/
def sameCycle : List Turn → Bool
  | .same _ :: _ => true
  | _ => false

end Sys2Proof.Machine
end

