-- ==== Sys2Proof/Machine/Step.lean ====
section
/-!
DEFINITION. One step of the package: the next turn of State.turns, or a turn of the hart that issues (log entries 1 and 2).
-/
namespace Sys2Proof.Machine

/-- The turn that stands first in a list of turns, or that of the hart that issues. -/
def turnOf (ts : List Turn) (s : State) : Out :=
  match ts with
  | [] => hartTurn s
  | .hart k :: _ | .same k :: _ => hartTurn (s.select k)
  | .walk k :: _ => walkTurn (s.selectWalk k)
  | .event i inp :: _ => deviceTurn i { s with input := inp }

/-- One step: the clock of the model ticks, and the agent whose turn it is acts; the harts of one cycle act in the order of their
die, core and slot, and a cycle ends where the next turn belongs to another (R211, R275). -/
def step (s : State) : Host.Outcome State Fault Refusal :=
  match turnOf (orderCycle s.turns) { s with turns := (orderCycle s.turns).drop 1, time := s.time + 1 } with
  | .next t => .next (if sameCycle t.turns then t else t.closeCycle)
  | o => o

/-- The launch of the strip that fetches a placed instruction. -/
def placedLaunch : Launch :=
  { recAddr := 0, queue := 0, code := 0x1000, entry := 0, nstrip := 1, stksz := 0, tmem := 0, nrc := 0, pw := 3, keyid := 0,
    tenant := 0, pcls := 0, erl := false, gang := false, dcr := false, dcp := 0, prio := 0, preds := [], argx := 0, stkb := 0,
    map := [], vmroot := 0x4000, htbase := 0, gtbase := 0, lqmask := 0, state := .running, before := .submitted, nexit := 0 }

/-- Bytes placed in memory from outside, readable under every key. -/
def State.placeBytes (s : State) (pa : Nat) (bs : List Byte) : State :=
  { s.setBytes pa bs with
    sectorKey := Sparse.set 0 s.sectorKey (pa / 32) 0, poison := Sparse.set false s.poison (pa / 32) (s.wipedAt pa) }

/-- The strip that fetches a placed instruction stands on the hart that issues, its queue empty. -/
def Hart.placeStrip (h : Hart) (l : Nat) : Hart :=
  { h with
    launch := some l, pc := 0x1000, frozen := false, preempt := false, wait := none, vq := none, muSaved := none, lacks := none,
    held := [], fences := [], chain := {}, sys := { h.sys with vmroot := 0x4000 } }

/-- An instruction placed where the next step fetches: a rule word in the program of the walk that runs, an instruction word at
the pc of a strip that stands on the hart that issues, its pages mapped (log entry 2). -/
def State.withFetchWord (s : State) (nbits w : Nat) : State :=
  if nbits ≤ 32 then
    { s with wk := { active := true, prog := [BitVec.ofNat 32 w] }, turns := [.walk s.wkNo] }
  else
    let s := { s with launches := s.launches ++ [placedLaunch], h := s.h.placeStrip s.launches.length, turns := [], tlb := [] }
    let s := s.updDie s.h.die fun x => { x with up := true, busy := false, pkd := false }
    ((s.placeBytes 0x1000 (toBytes 16 (w % 2 ^ nbits))).placeBytes 0x4000 (toBytes 8 0x8001)).placeBytes 0x8000 (toBytes 8 0x63D)

end Sys2Proof.Machine
end

