-- ==== Sys2Proof/Safety.lean ====
section
/-!
DEFINITION. The vocabulary of the statements: canonical forms, safe steps, and which instructions a frame speaks of.
-/
namespace Sys2Proof.Machine

/-- The canonical form of memory: addresses strictly rising, no entry equal to the zero that an unlisted address reads as. -/
abbrev Memory.wf (m : List Host.Cell) : Bool := Sparse.wf (0#8) m

/-- Memory, the keys that sectors are held under, and poison are each in their canonical form. -/
def State.canonical (s : State) : Prop :=
  Memory.wf s.mem = true ∧ Sparse.wf 0 s.sectorKey = true ∧ Sparse.wf false s.poison = true

/-- A step that is safe: it gives a next state, one turn later. -/
def StepsSafely (s : State) : Prop := ∃ t, step s = .next t ∧ t.time = s.time + 1

/-- The destination of a scalar half or of a scalar immediate instruction; none for every other instruction. -/
def scalarDest : Instr → Option Field
  | .add o | .sub o | .mul o | .mulh o | .mulhz o | .div o | .divz o | .rem o | .remz o | .and o | .or o | .xor o | .shl o
  | .shr o | .sra o | .clz o | .ctz o | .popc o | .min o | .max o | .minz o | .maxz o | .slt o | .sltz o | .sel o => some o.d
  | .addi o | .andi o | .ori o | .xori o | .shli o | .shri o | .srai o | .slti o | .li o | .lih o | .addpc o => some o.d
  | _ => none

/-- An access of n bytes by the hart that issues can be performed: every piece is translated and permitted, at the places given,
and none meets poison or a race. -/
def State.canAccess (s : State) (a : Acc) (tile : Bool) (addr n : Nat) (ps : List PieceRef) : Prop :=
  resolveAccess s s.h s.h.plv a tile addr n = .ok ps ∧ performFaults s s.h a (addr % 2 ^ 64) ps = none

/-- The location of an FM word in the spaces 0b00 and 0b01: x[A] + x[B] * 2^SC + OFS modulo 2^64. -/
def fmAddr (s : State) (o : FM) : Nat := (s.x o.a + (s.x o.b <<< o.sc.toNat) + o.ofs.signExtend 64).toNat

/-- The scalar stores with their width, the kind of their access and the address they store to; STL where its scope names one, SC is
0 and the address is a multiple of 8. -/
def scalarStoreForm (s : State) : Instr → Option (FM × Nat × Acc × Nat)
  | .stb o => some (o, 1, { wr := true }, fmAddr s o)
  | .sth o => some (o, 2, { wr := true }, fmAddr s o)
  | .stw o => some (o, 4, { wr := true }, fmAddr s o)
  | .std o => some (o, 8, { wr := true }, fmAddr s o)
  | .stl o =>
    let addr := (s.x o.a + o.ofs.signExtend 64).toNat
    if o.b.toNat < 6 ∧ o.sc = 0 ∧ addr % 8 = 0 then
      some (o, 8, { wr := true, scope := o.b.toNat, atomic := true, rel := true, vqWait := true }, addr)
    else none
  | _ => none

/-- A byte address that a list of pieces covers. -/
def covered (ps : List PieceRef) (a : Nat) : Prop := ∃ r ∈ ps, r.pa ≤ a ∧ a < r.pa + r.len

/-- A byte that lies in the 32-byte sector of a translation entry whose A or D bit a write through it sets. -/
def inEntry (ps : List PieceRef) (a : Nat) : Prop :=
  ∃ r ∈ ps, ∃ t, r.trans = some t ∧ t.leaf &&& 0x600 ≠ 0x600 ∧ ∃ i, i < 8 ∧ a / 32 = (t.leafPa + i) / 32

/-- Every piece lies in attached memory, in tile memory, or in host memory behind a Skoah Link that is up. -/
def plainHomes (s : State) (ps : List PieceRef) : Prop :=
  ∀ r ∈ ps, (∃ d, homeOf r.pa = .dram d) ∨ (∃ d c, homeOf r.pa = .tile d c) ∨ (homeOf r.pa = .host ∧ s.linkUp skoahLink = true)

/-- The hart that issues holds a window of its core's tile memory. -/
def Hart.windowOk (h : Hart) : Prop :=
  h.die < 6 ∧ h.core < coreCount h.die ∧ 4096 * h.winStart + h.winBytes ≤ tileBytes h.die

/-! ## Floating-point values -/

/-- The code of the largest finite magnitude (R51, R54). -/
def Fmt.topCode (f : Fmt) : Nat := if f = .k8 then 127 else f.param.maxMag

/-- Values of a format are whole multiples of 2^-grain: its smallest subnormal, or the smallest magnitude of k8 (R51, R54). -/
def Fmt.grain (f : Fmt) : Nat := if f = .k8 then 12 else f.param.bias + f.param.frac - 1

/-- The magnitude of code c in multiples of 2^-grain: the exponent and the fraction of R51, or the run, the marker, the exponent bit
and the fraction of R54. -/
def Fmt.steps (f : Fmt) (c : Nat) : Nat :=
  if f = .k8 then
    let run := ((List.range 7).takeWhile fun i => c.testBit (6 - i) = c.testBit 6).length
    let k := if c.testBit 6 then 10 + 2 * run else 12 - 2 * run
    if c = 0 then 0 else if 6 ≤ run then 2 ^ k
    else (2 ^ (5 - run) + c % 2 ^ (5 - run)) * 2 ^ (k + (c.testBit (5 - run)).toNat) / 2 ^ (5 - run)
  else
    let one := 2 ^ f.param.frac
    if c < one then c else (one + c % one) * 2 ^ (c / one - 1)

/-- The sign bit of a pattern. -/
def Fmt.neg (f : Fmt) (v : Nat) : Bool := v.testBit (f.width - 1)

/-- A pattern with its sign bit inverted. -/
def Fmt.flip (f : Fmt) (v : Nat) : Nat := v ^^^ 2 ^ (f.width - 1)

/-- The magnitude code of a pattern. -/
def Fmt.mag (f : Fmt) (v : Nat) : Nat := v % 2 ^ (f.width - 1)

/-- A pattern of a sign and a magnitude code. -/
def Fmt.pattern (f : Fmt) (neg : Bool) (c : Nat) : Nat := (if neg then 2 ^ (f.width - 1) else 0) + c

/-- The value of a finite pattern in multiples of 2^-grain; none for infinities, NaNs and NaR (R51, R52, R54). -/
def Fmt.units (f : Fmt) (v : Nat) : Option Int :=
  if f.topCode < f.mag v ∨ (f = .k8 ∧ f.mag v = 0 ∧ f.neg v = true) then none
  else some (if f.neg v then -(f.steps (f.mag v) : Int) else f.steps (f.mag v))

/-- A pattern is an infinity (R51). -/
def Fmt.infinite (f : Fmt) (v : Nat) : Bool := f.infMag != 0 && f.mag v == f.infMag

/-- A pattern is a NaN or NaR. -/
def Fmt.notNumber (f : Fmt) (v : Nat) : Bool := !f.isInt && f.units v == none && !f.infinite v

/-- A pattern is a signalling NaN: one of f32, bf16 and f16 whose highest fraction bit is 0 (R51). -/
def Fmt.signals (f : Fmt) (v : Nat) : Bool := f.isFloat && f.notNumber v && !v.testBit (f.param.frac - 1)

/-- An exact magnitude, as the order of s times it and t, for each s and t: a quotient, or the root of one. -/
abbrev Versus := Nat → Nat → Ordering

/-- The magnitude num / den. -/
def quotientOf (num den : Nat) : Versus := fun s t => compare (s * num) (t * den)

/-- The magnitude whose square is num / den. -/
def rootOf (num den : Nat) : Versus := fun s t => compare (s * s * num) (t * t * den)

/-- Whether a magnitude between two neighbours goes to the upper one (R59, R61); odd tells of the lower one's code, and draw is S[31:8]. -/
def goesUp (rm : RMode) (neg odd : Bool) (draw : Nat) (x : Versus) (lo hi : Nat) : Bool :=
  match rm with
  | .rne => x 2 (lo + hi) == .gt || (x 2 (lo + hi) == .eq && odd)
  | .rtz => false
  | .rdn => neg && x 1 lo == .gt
  | .rup => !neg && x 1 lo == .gt
  | .rna => x 2 (lo + hi) != .lt
  | .srn => x (2 ^ 24) (lo * 2 ^ 24 + (draw + 1) * (hi - lo)) != .lt

/-- The magnitude code that a finite overflow leaves (R64): the largest finite one in a saturating conversion, in e2m1 and k8 and in the
modes that round it toward zero, and the one above, an infinity or the NaN of e4m3, otherwise. -/
def Fmt.overCode (f : Fmt) (rm : RMode) (sat neg : Bool) : Nat :=
  let away := match rm with
    | .rne | .rna => true
    | .rtz | .srn => false
    | .rdn => neg
    | .rup => !neg
  if away = true ∧ f ≠ .e2m1 ∧ f ≠ .k8 ∧ ¬(sat = true ∧ f.isSmall = true) then f.topCode + 1 else f.topCode

/-- r is RoundF of an exact value that is not zero (R60, R61, R64), its magnitude x in multiples of 2^-grain: the code of that magnitude
without a flag, or one of the two codes around it with NX, and with UF where x rounded with an unbounded exponent range lies below the
least normal magnitude; past the largest finite magnitude, and where the upper neighbour would be past it, what overflow leaves. -/
def roundedTo (f : Fmt) (rm : RMode) (sat : Bool) (draw : Nat) (neg : Bool) (x : Versus) (r : Nat × Flags) : Prop :=
  let one := 2 ^ f.param.frac
  let past := (f.pattern neg (f.overCode rm sat neg), Flag.of ||| Flag.nx)
  if f = .k8 ∧ x 1 (f.steps f.topCode) = .gt then r = past
  else if f = .k8 ∧ x 1 (f.steps 1) = .lt then r = (f.pattern neg 1, Flag.uf ||| Flag.nx)
  else
    (∀ c, c ≤ f.topCode → x 1 (f.steps c) = .eq → r = (f.pattern neg c, 0#6)) ∧
    (f ≠ .k8 → x 1 (f.steps (f.topCode + 1)) ≠ .lt → r = past) ∧
    ∀ c, c ≤ f.topCode → x 1 (f.steps c) = .gt → x 1 (f.steps (c + 1)) = .lt →
      let up := goesUp rm neg (c % 2 = 1) draw x (f.steps c) (f.steps (c + 1)) && !(decide (rm = .srn) && decide (c = f.topCode))
      let half : Versus := fun s t => x (2 * s) t
      let least := half 1 (2 * one - 1) != .lt && goesUp rm neg true draw half (2 * one - 1) (2 * one)
      let tiny := decide (f ≠ .k8) && (decide (c + 1 < one) || (decide (c + 1 = one) && !least))
      if up = true ∧ c = f.topCode then r = past
      else r = (f.pattern neg (if up then c + 1 else c), if tiny then Flag.uf ||| Flag.nx else Flag.nx)

/-- r is the exact value num / den, in multiples of 2^-grain, rounded once; an exact zero is a zero of the sign given, and k8 has one
zero (R54, R60, R64, R66). -/
def exactly (f : Fmt) (rm : RMode) (sat : Bool) (draw : Nat) (num : Int) (den : Nat) (zeroNeg : Bool) (r : Nat × Flags) : Prop :=
  if num = 0 then r = (f.pattern (zeroNeg && decide (f ≠ .k8)) 0, 0#6)
  else roundedTo f rm sat draw (decide (num < 0)) (quotientOf num.natAbs den) r

/-- The result of an operation that has a NaN among its operands, or is invalid: the default NaN (R65). -/
def nanResult (g : Fmt) (invalid : Bool) : Nat × Flags := (g.defaultNaN, if invalid then Flag.nv else 0#6)

/-- An infinity of a sign, with no flag. -/
def infResult (g : Fmt) (neg : Bool) : Nat × Flags := (g.pattern neg g.infMag, 0#6)

/-- r is a + b of two patterns of f in the format g, at least as fine: g is f, or its wide partner (R65, R66, R184, R189). -/
def sumIs (g f : Fmt) (rm : RMode) (draw a b : Nat) (r : Nat × Flags) : Prop :=
  if f.notNumber a ∨ f.notNumber b then r = nanResult g (f.signals a || f.signals b)
  else match f.units a, f.units b with
    | some u, some v => exactly g rm false draw ((u + v) * (2 ^ (g.grain - f.grain) : Nat)) 1
        (if f.neg a = f.neg b then f.neg a else decide (rm = .rdn)) r
    | none, some _ => r = infResult g (f.neg a)
    | some _, none => r = infResult g (f.neg b)
    | none, none => r = if f.neg a = f.neg b then infResult g (f.neg a) else nanResult g true

/-- r is a × b (R65, R66, R184, R189). -/
def productIs (g f : Fmt) (rm : RMode) (draw a b : Nat) (r : Nat × Flags) : Prop :=
  let sign := f.neg a != f.neg b
  if f.notNumber a ∨ f.notNumber b then r = nanResult g (f.signals a || f.signals b)
  else match f.units a, f.units b with
    | some u, some v => exactly g rm false draw (u * v * (2 ^ g.grain : Nat)) (2 ^ (2 * f.grain)) sign r
    | none, some v => r = if v = 0 then nanResult g true else infResult g sign
    | some u, none => r = if u = 0 then nanResult g true else infResult g sign
    | none, none => r = infResult g sign

/-- r is a × b + c rounded once, c a pattern of g (R65, R66, R184, R189): 0 times an infinity is invalid whatever c is. -/
def productSumIs (g f : Fmt) (rm : RMode) (draw a b c : Nat) (r : Nat × Flags) : Prop :=
  let sign := f.neg a != f.neg b
  let bad := (f.infinite a && f.units b == some 0) || (f.units a == some 0 && f.infinite b)
  if f.notNumber a ∨ f.notNumber b ∨ g.notNumber c ∨ bad then
    r = nanResult g (f.signals a || f.signals b || g.signals c || bad)
  else match f.units a, f.units b, g.units c with
    | some u, some v, some w => exactly g rm false draw (u * v * (2 ^ g.grain : Nat) + w * (2 ^ (2 * f.grain) : Nat)) (2 ^ (2 * f.grain))
        (if sign = g.neg c then sign else decide (rm = .rdn)) r
    | some _, some _, none => r = infResult g (g.neg c)
    | _, _, some _ => r = infResult g sign
    | _, _, none => r = if sign = g.neg c then infResult g sign else nanResult g true

/-- r is a / b (R65, R184). -/
def quotientIs (f : Fmt) (rm : RMode) (draw a b : Nat) (r : Nat × Flags) : Prop :=
  let sign := f.neg a != f.neg b
  if f.notNumber a ∨ f.notNumber b then r = nanResult f (f.signals a || f.signals b)
  else match f.units a, f.units b with
    | some u, some v =>
      if v = 0 then r = if u = 0 then nanResult f true else (f.pattern sign f.infMag, Flag.dz)
      else if u = 0 then r = (f.pattern sign 0, 0#6)
      else roundedTo f rm false draw sign (quotientOf (u.natAbs * 2 ^ f.grain) v.natAbs) r
    | none, some _ => r = infResult f sign
    | some _, none => r = (f.pattern sign 0, 0#6)
    | none, none => r = nanResult f true

/-- r is the square root of a (R65, R184): that of -0 is -0, and a value below zero is invalid. -/
def rootIs (f : Fmt) (rm : RMode) (draw a : Nat) (r : Nat × Flags) : Prop :=
  if f.notNumber a then r = nanResult f (f.signals a)
  else match f.units a with
    | some u =>
      if u = 0 then r = (f.pattern (f.neg a) 0, 0#6) else if u < 0 then r = nanResult f true
      else roundedTo f rm false draw false (rootOf (u.natAbs * 2 ^ f.grain) 1) r
    | none => r = if f.neg a then nanResult f true else infResult f false

/-- The pattern of 1. -/
def Fmt.one (f : Fmt) : Nat := f.param.bias * 2 ^ f.param.frac

/-- The special functions at the special cases of R185, whatever the mode and the draw. -/
def specialCases (f : Fmt) (rm : RMode) (draw a : Nat) : Prop :=
  let gives := fun (op : ElemOp) (r : Nat × Flags) => ∀ b c, op.eval rm draw a b c = r
  let value := fun (op : ElemOp) (neg : Bool) (m : Nat) => gives op (f.pattern neg m, 0#6)
  let pole := fun (op : ElemOp) (neg : Bool) => gives op (f.pattern neg f.infMag, Flag.dz)
  (f.notNumber a = true → ∀ op ∈ [opVrcp f, opVrsq f, opVexp2 f, opVlog2 f, opVtanh f, opVsigm f],
    gives op (nanResult f (f.signals a))) ∧
  (f.mag a = 0 → pole (opVrcp f) (f.neg a) ∧ pole (opVrsq f) (f.neg a) ∧ value (opVexp2 f) false f.one ∧ pole (opVlog2 f) true ∧
    value (opVtanh f) (f.neg a) 0 ∧ value (opVsigm f) false (f.one - 2 ^ f.param.frac)) ∧
  (f.infinite a = true → value (opVrcp f) (f.neg a) 0 ∧ value (opVtanh f) (f.neg a) f.one) ∧
  (f.infinite a = true → f.neg a = false → value (opVrsq f) false 0 ∧ value (opVexp2 f) false f.infMag ∧
    value (opVlog2 f) false f.infMag ∧ value (opVsigm f) false f.one) ∧
  (f.infinite a = true → f.neg a = true → value (opVexp2 f) false 0 ∧ value (opVsigm f) false 0) ∧
  (f.notNumber a = false → f.neg a = true → f.mag a ≠ 0 →
    gives (opVrsq f) (nanResult f true) ∧ gives (opVlog2 f) (nanResult f true)) ∧
  (a = f.one → value (opVlog2 f) false 0)

/-- The place of a pattern that is no NaN in the order of R186: -0 below +0. -/
def Fmt.place (f : Fmt) (v : Nat) : Int := if f.neg v then -(f.mag v : Int) - 1 else f.mag v

/-- The smaller or the larger of two patterns that are no NaNs (R186). -/
def Fmt.choose (f : Fmt) (larger : Bool) (a b : Nat) : Nat := if decide (f.place a < f.place b) == larger then b else a

/-- The class of a pattern (R192). -/
def Fmt.classOf (f : Fmt) (v : Nat) : Nat :=
  let m := f.mag v
  if f.infinite v then (if f.neg v then 0 else 7)
  else if f.notNumber v then (if f.signals v then 8 else 9)
  else if m = 0 then (if f.neg v then 3 else 4)
  else if m < 2 ^ f.param.frac then (if f.neg v then 2 else 5)
  else if f.neg v then 1 else 6

/-- r is a finite value num / den rounded to a whole number in a mode and saturated into an integer format (R61, R63, R64): SRN is RTZ
above the format's largest magnitude, that of the most negative value of a signed one (log entry 50). -/
def wholeIs (g : Fmt) (rm : RMode) (draw : Nat) (num : Int) (den : Nat) (r : Nat × Flags) : Prop :=
  let x := quotientOf num.natAbs den
  let lo := num.natAbs / den
  let past := decide (rm = .srn) && decide (max g.minInt.natAbs g.maxInt.natAbs * den < num.natAbs)
  let m := if goesUp rm (decide (num < 0)) (lo % 2 = 1) draw x lo (lo + 1) && !past then lo + 1 else lo
  let v : Int := if num < 0 then -m else m
  let kept := max g.minInt (min g.maxInt v)
  r = (g.ofInt kept, if kept ≠ v then Flag.nv else if num.natAbs % den = 0 then 0#6 else Flag.nx)

/-- The value of a finite pattern, an integer or a float, as a whole number over 2^grain; none for infinities, NaNs and NaR. -/
def Fmt.value (f : Fmt) (v : Nat) : Option Int := if f.isInt then some (f.toInt v) else f.units v

/-- The scale of Fmt.value: integers are whole. -/
def Fmt.scale (f : Fmt) : Nat := if f.isInt then 1 else 2 ^ f.grain

/-- r is the conversion of a pattern of src into dst, not both of them integer formats (R52, R63, R64). -/
def convertIs (dst src : Fmt) (rm : RMode) (sat : Bool) (draw a : Nat) (r : Nat × Flags) : Prop :=
  let small := dst.pattern (src.neg a) dst.topCode
  match src.value a with
  | some u =>
    if dst.isInt then wholeIs dst rm draw u src.scale r
    else exactly dst rm sat draw (u * (2 ^ dst.grain : Nat)) src.scale (src.neg a && !src.isInt) r
  | none =>
    if src.infinite a then
      r = if dst.isInt then (dst.ofInt (if src.neg a then dst.minInt else dst.maxInt), Flag.nv)
        else if dst = .e2m1 ∨ (dst.isSmall = true ∧ dst ≠ .k8 ∧ sat = true) then (small, Flag.of)
        else if dst = .e4m3 then (small + 1, Flag.nv)
        else if dst = .k8 then nanResult dst true
        else infResult dst (src.neg a)
    else r = if dst.isInt ∨ dst = .e2m1 then (0, Flag.nv) else nanResult dst (src.signals a)

/-- The order of numbers by pattern: integers by what they stand for, floats by sign and magnitude code, the two zeros equal (R191). -/
def Fmt.number (f : Fmt) (v : Nat) : Int := if f.isInt then f.toInt v else if f.neg v then -(f.mag v : Int) else f.mag v

/-- r is the sum of a list of patterns rounded once, by the rules of R72: an exact zero sum is -0 only where every term is. -/
def groupSumIs (f : Fmt) (rm : RMode) (draw : Nat) (es : List Nat) (r : Nat × Flags) : Prop :=
  let inf := fun (neg : Bool) => es.any fun a => f.infinite a && f.neg a == neg
  if es.any f.notNumber = true ∨ (inf false && inf true) = true then r = nanResult f (es.any f.signals || (inf false && inf true))
  else if inf false ∨ inf true then r = infResult f (inf true)
  else exactly f rm false draw ((es.map fun a => (f.units a).getD 0).sum) 1 (!es.isEmpty && es.all fun a => f.neg a && f.mag a == 0) r

/-! ## Vector halves -/

/-- The elementwise halves with the use of C[4:0], the registers of their sources and their operation in the format in force. -/
def elementHalf (s : State) : Instr → Option (VHalf × CUse × List Nat × ElemOp)
  | .vadd o => some (o, .unused, [o.a.toNat, o.b.toNat], opVadd (s.h.halfFmt o))
  | .vsub o => some (o, .unused, [o.a.toNat, o.b.toNat], opVsub (s.h.halfFmt o))
  | .vmul o => some (o, .unused, [o.a.toNat, o.b.toNat], opVmul (s.h.halfFmt o))
  | .vdiv o => some (o, .unused, [o.a.toNat, o.b.toNat], opVdiv (s.h.halfFmt o))
  | .vmin o => some (o, .unused, [o.a.toNat, o.b.toNat], opVmin (s.h.halfFmt o))
  | .vmax o => some (o, .unused, [o.a.toNat, o.b.toNat], opVmax (s.h.halfFmt o))
  | .vand o => some (o, .unused, [o.a.toNat, o.b.toNat], opVand (s.h.halfFmt o))
  | .vor o => some (o, .unused, [o.a.toNat, o.b.toNat], opVor (s.h.halfFmt o))
  | .vxor o => some (o, .unused, [o.a.toNat, o.b.toNat], opVxor (s.h.halfFmt o))
  | .vshl o => some (o, .unused, [o.a.toNat, o.b.toNat], opVshl (s.h.halfFmt o))
  | .vshr o => some (o, .unused, [o.a.toNat, o.b.toNat], opVshr (s.h.halfFmt o))
  | .vsra o => some (o, .unused, [o.a.toNat, o.b.toNat], opVsra (s.h.halfFmt o))
  | .vwadd o => some (o, .unused, [o.a.toNat, o.b.toNat], opVwadd (s.h.halfFmt o))
  | .vwmul o => some (o, .unused, [o.a.toNat, o.b.toNat], opVwmul (s.h.halfFmt o))
  | .vsqrt o => some (o, .unused, [o.a.toNat], opVsqrt (s.h.halfFmt o))
  | .vabs o => some (o, .unused, [o.a.toNat], opVabs (s.h.halfFmt o))
  | .vneg o => some (o, .unused, [o.a.toNat], opVneg (s.h.halfFmt o))
  | .vrcp o => some (o, .unused, [o.a.toNat], opVrcp (s.h.halfFmt o))
  | .vrsq o => some (o, .unused, [o.a.toNat], opVrsq (s.h.halfFmt o))
  | .vexp2 o => some (o, .unused, [o.a.toNat], opVexp2 (s.h.halfFmt o))
  | .vlog2 o => some (o, .unused, [o.a.toNat], opVlog2 (s.h.halfFmt o))
  | .vtanh o => some (o, .unused, [o.a.toNat], opVtanh (s.h.halfFmt o))
  | .vsigm o => some (o, .unused, [o.a.toNat], opVsigm (s.h.halfFmt o))
  | .vnot o => some (o, .unused, [o.a.toNat], opVnot (s.h.halfFmt o))
  | .vsatn o => some (o, .unused, [o.a.toNat], opVsatn (s.h.halfFmt o))
  | .vclass o => some (o, .unused, [o.a.toNat], opVclass (s.h.halfFmt o))
  | .vmv o => some (o, .unused, [o.a.toNat], opVmv (s.h.halfFmt o))
  | .vma o => some (o, .reg, [o.a.toNat, o.b.toNat, fourth o], opVma (s.h.halfFmt o))
  | .vms o => some (o, .reg, [o.a.toNat, o.b.toNat, fourth o], opVms (s.h.halfFmt o))
  | .vnma o => some (o, .reg, [o.a.toNat, o.b.toNat, fourth o], opVnma (s.h.halfFmt o))
  | .vclamp o => some (o, .reg, [o.a.toNat, o.b.toNat, fourth o], opVclamp (s.h.halfFmt o))
  | .vwmac o => some (o, .unused, [o.a.toNat, o.b.toNat, o.d.toNat], opVwmac (s.h.halfFmt o))
  | .vcvt o => some (o, .field, [o.a.toNat], opVcvt (s.h.halfFmt o) (Fmt.ofCode (o.c.toNat % 16)) (bit o.c.toNat 4))
  | _ => none

/-- The fields that a vector half does not use are zero. -/
def fieldsUnused (o : VHalf) (c : CUse) (unary : Prop) : Prop :=
  (unary → o.b = 0) ∧ (c = .unused → o.c.toNat % 32 = 0) ∧ (c ≠ .reg → evOf o = false)

/-- The shape fits the formats, the vector registers are below VNR, and no register read holds an error. -/
def Hart.fits (h : Hart) (fs : List Fmt) (dsts srcs : List Nat) : Prop :=
  (∀ f ∈ fs, h.cfg.vl ≤ h.vlMax f) ∧ (∀ n ∈ dsts ++ srcs, n < h.cfg.vnr) ∧ ∀ n ∈ srcs, Sparse.get false h.vec.verr n = false

/-- The mask in force, where there is one, holds no error. -/
def Hart.maskFine (h : Hart) (m : Mask) : Prop := m.on = true → Sparse.get false h.vec.merr m.reg = false

/-- An elementwise half meets no condition that traps. -/
def elemAllowed (s : State) (o : VHalf) (c : CUse) (srcs : List Nat) (op : ElemOp) : Prop :=
  fieldsUnused o c (srcs.length ≤ 1) ∧ op.accept = true ∧ s.h.fits (op.dst :: op.srcs) [o.d.toNat] srcs ∧
    s.h.maskFine (s.h.halfMask o)

/-- The result and the flags of an elementwise half at a position: its operation on the elements of its sources there. -/
def elemResult (s : State) (o : VHalf) (srcs : List Nat) (op : ElemOp) (row e : Nat) : Nat × Flags :=
  let rm := s.h.halfMode o
  let src := fun (i : Nat) => s.h.elem (op.srcs.getD i op.dst) ((srcs.map s.h.img).getD i 0) row e
  op.eval rm (if op.rounds ∧ rm = .srn then tileDraw s.h op.dst.width row e else 0) (src 0) (src 1) (src 2)

/-- What a masked write leaves in element (row, e): the result where the mask selects the position, zero where it does not and zeroing
is asked for, and the old element otherwise. -/
def maskedElem (s : State) (m : Mask) (f : Fmt) (d row e : Nat) (v : Option Nat) : Nat :=
  if m.sel s.h row e then (v.map (· % 2 ^ f.width)).getD (s.h.elem f (s.h.img d) row e)
  else if m.on ∧ m.zm then 0 else s.h.elem f (s.h.img d) row e

/-- A bit of a register image lies in an element of the tile in force. -/
def inTile (h : Hart) (f : Fmt) (k : Nat) : Prop :=
  ∃ row e, row < h.cfg.vrows ∧ e < h.cfg.vl ∧ h.cellAt f row e ≤ k ∧ k < h.cellAt f row e + f.width

/-- Vector register d holds given elements over the tile in force, every other bit of it and every other vector register are as
before. -/
def tileWritten (s t : State) (f : Fmt) (d : Nat) (val : Nat → Nat → Nat) : Prop :=
  (∀ row e, row < s.h.cfg.vrows → e < s.h.cfg.vl → s.h.elem f (t.h.img d) row e = val row e) ∧
  (∀ k, ¬ inTile s.h f k → (t.h.img d).testBit k = (s.h.img d).testBit k) ∧ ∀ n, n ≠ d → t.h.img n = s.h.img n

/-- Only vector state, the arithmetic registers and the pc, which goes on to the next word, may differ; the masks do not. -/
def vectorFrame (s t : State) : Prop :=
  { t with h := s.h } = s ∧ { t.h with vec := s.h.vec, ar := s.h.ar, pc := s.h.pc } = s.h ∧ t.h.vec.m = s.h.vec.m ∧
    t.h.pc = s.h.pc + 8

/-- The flags of the results in a grid of rows and columns: FFLAGS joins them, and each of the six counters rises by the number of
results that raise its flag, to all ones at most. -/
def flagsCounted (s t : State) (rows cols : Nat) (res : Nat → Nat → Option Flags) : Prop :=
  let hit := fun (k row e : Nat) => match res row e with | some f => f.getLsbD k | none => false
  (∀ k, k < 6 → (t.h.ar.fflags.getLsbD k = true ↔ s.h.ar.fflags.getLsbD k = true ∨
    ∃ row e, row < rows ∧ e < cols ∧ hit k row e = true)) ∧
  ∀ k : Fin 6, t.h.ar.fcnt[k].toNat = min (s.h.ar.fcnt[k].toNat
    + ((List.range rows).map fun row => (List.range cols).countP (hit k row)).sum) (2 ^ 64 - 1)

/-- What a move leaves in element (row, e): a position to which it gives nothing keeps its element whatever the mask. -/
def movedElem (s : State) (m : Mask) (f : Fmt) (d row e : Nat) (v : Option Nat) : Nat :=
  match v with
  | none => s.h.elem f (s.h.img d) row e
  | some x => maskedElem s m f d row e (some x)

/-- The moves and permutations that sweep the tile under the mask, with the use of B, their vector sources, the further formats they
read, and the element they give a position, if any. -/
def moveHalf (s : State) : Instr → Option (VHalf × Prop × List Nat × List Fmt × (Nat → Nat → Option Nat))
  | .vsplat o => some (o, True, [], [], fun _ _ => some (s.x o.a).toNat)
  | .vslup o => some (o, False, [o.a.toNat], [], fun row e =>
      let n := (s.x o.b).toNat
      if n ≤ e then some (s.h.elem (s.h.halfFmt o) (s.h.img o.a.toNat) row (e - n)) else none)
  | .vsldn o => some (o, False, [o.a.toNat], [], fun row e =>
      let n := (s.x o.b).toNat
      some (if e + n < s.h.cfg.vl then s.h.elem (s.h.halfFmt o) (s.h.img o.a.toNat) row (e + n) else 0))
  | .vperm o =>
    let fi : Fmt := if (s.h.halfFmt o).width ≤ 16 then .z16 else .z32
    some (o, False, [o.a.toNat, o.b.toNat], [fi], fun row e =>
      let i := s.h.elem fi (s.h.img o.b.toNat) row e
      some (if i < s.h.cfg.vl then s.h.elem (s.h.halfFmt o) (s.h.img o.a.toNat) row i else 0))
  | .vxpnd o => some (o, True, [o.a.toNat], [], fun row e =>
      some (s.h.elem (s.h.halfFmt o) (s.h.img o.a.toNat) row
        (((List.range e).filter fun j => (s.h.halfMask o).sel s.h row j).length)))
  | .qwr o =>
    if (s.h.halfFmt o).isInt then
      some (o, False, [], [], fun row e => some ((s.x o.a).toNat + (row * s.h.cfg.vl + e) * (s.x o.b).toNat))
    else none
  | _ => none

/-- The mask halves that write a mask register, with the number of their sources and their operation. -/
def maskHalf : Instr → Option (VHalf × Nat × (Bool → Bool → Bool))
  | .mand o => some (o, 2, fun a b => a && b)
  | .mor o => some (o, 2, fun a b => a || b)
  | .mxor o => some (o, 2, fun a b => a ^^ b)
  | .mnot o => some (o, 1, fun a _ => !a)
  | .mset o => some (o, 0, fun _ _ => true)
  | .mclr o => some (o, 0, fun _ _ => false)
  | _ => none

/-- Bit (row, e) of a mask register. -/
def Hart.mAt (h : Hart) (n row e : Nat) : Bool := h.maskBit (Sparse.get 0 h.vec.m n) row e

/-! ## Vector memory -/

/-- A vector access of a tile: the register, the mask, the format, the space, the place of each position, none where it accesses
nothing, what a load gives there, and the positions of a store whose byte ends in an unused sub-element. -/
structure TileMove where
  d : Nat
  mask : Mask
  fmt : Fmt
  tile : Bool
  place : Nat → Nat → Option Place
  dflt : Nat := 0
  last : Nat → Nat → Bool := fun _ _ => false

/-- An FM vector form meets no condition on its space, its tensor entry, its fields, its shape and its registers. -/
def fmAllowed (o : FM) (s : State) (strided : Bool) (dsts srcs : List Nat) : Prop :=
  o.sp ≠ 2 ∧ (o.sp = 3 → (s.h.tensor o.a.toNat).space ≠ 2 ∧ (s.h.tensor o.a.toNat).broken = none) ∧
    (strided = true → o.sc = 0) ∧ s.h.fits [s.h.cfg.vtype] dsts srcs ∧ s.h.maskFine s.h.fmMask

/-- An indexed form meets no condition on its fields, its shape and its registers. -/
def indexAllowed (o : FX) (s : State) (fg atomic : Bool) (dsts srcs : List Nat) : Prop :=
  o.c = 0 ∧ bits o.f.toNat 8 2 = 0 ∧ bits o.f.toNat 6 2 ≠ 3 ∧ (atomic = false → bits o.f.toNat 6 2 = 0) ∧
    (fg = false → bit o.f.toNat 4 = false) ∧ s.h.fits [s.h.cfg.vtype, ixFmt o] dsts srcs ∧ s.h.maskFine (s.h.fxMask o)

/-- A tensor form meets no condition on its fields, its entry, its format, its shape and its registers. -/
def tensorAllowed (o : FX) (s : State) (dsts srcs : List Nat) : Prop :=
  let k := s.h.tensor o.a.toNat
  bits o.f.toNat 1 9 = 0 ∧ o.imm = 0 ∧ k.broken = none ∧ k.space ≠ 2 ∧
    (if bit o.f.toNat 0 then s.h.cfg.vtype = .z8 else s.h.cfg.vtype.code = k.fmt) ∧ s.h.fits [s.h.cfg.vtype] dsts srcs ∧
    s.h.maskFine (s.h.fxMask o)

/-- loc of an FM vector form (R88, R204): the base register, or BASE of the tensor entry, with OFS and where it counts the index. -/
def vecLoc (s : State) (o : FM) (indexed : Bool) : Nat :=
  let k := s.h.tensor o.a.toNat
  let base := if o.sp = 3 then (if k.space = 0 then canon57 k.base else k.base) else (s.x o.a).toNat
  (base + (if indexed then s.x o.b <<< o.sc.toNat else 0).toNat + (o.ofs.signExtend 64).toNat) % 2 ^ 64

/-- Whether an FM vector form lies in the tile window. -/
def vecTile (s : State) (o : FM) : Bool := if o.sp = 3 then decide ((s.h.tensor o.a.toNat).space = 1) else decide (o.sp = 1)

/-- The place of element i of a row that begins at byte a, modulo 2^64 (R53, R204). -/
def elemPlace (f : Fmt) (a i : Nat) : Place := ⟨(a + i * f.width / 8) % 2 ^ 64, decide (i * f.width % 8 = 4)⟩

/-- The place of a position under an indexed form (R206): x[A] + index × 2^SH + IMM, the index and IMM with their signs. -/
def indexedPlace (o : FX) (s : State) (row e : Nat) : Place :=
  let ix : Fmt := [.z16, .z32, .s32, .s64].getD (bits o.f.toNat 0 2) .z16
  let i := ix.toInt (s.h.elem ix (s.h.img o.b.toNat) row e) * (2 ^ bits o.f.toNat 2 2 : Nat)
  ⟨(((s.x o.a).toNat + i + o.imm.toInt) % (2 ^ 64 : Nat)).toNat, false⟩

/-- The place of element (i0 + e, i1 + row, i2, i3) of a tensor, or with SCL of the scale byte of element (i0 + 32e, i1 + row, i2, i3),
none beyond an extent (R75, R76, R207). -/
def coordinatePlace (o : FX) (s : State) (row e : Nat) : Option Place :=
  let k := s.h.tensor o.a.toNat
  let b := (s.x o.b).toNat
  let c := (s.x o.c).toNat
  let scl := o.f.getLsbD 0
  let i0 := b % 2 ^ 32 + (if scl then 32 * e else e)
  let i1 := b / 2 ^ 32 + row
  let i2 := c % 2 ^ 32
  let i3 := c / 2 ^ 32
  let from_ := fun (v : Nat) => if k.space = 0 then canon57 v else v
  let outer := i2 * k.st 1 + i3 * k.st 2
  if i0 < k.dim 0 ∧ i1 < k.dim 1 ∧ i2 < k.dim 2 ∧ i3 < k.dim 3 then
    some (if scl then ⟨(from_ k.scb + (i1 + k.dim 1 * (i2 + k.dim 2 * i3)) * k.spitch + i0 / 32) % 2 ^ 64, false⟩
      else if k.layout = 0 then elemPlace k.format (from_ k.base + i1 * k.st 0 + outer) i0
      else
        let rows := if k.layout = 1 then 16 else 12
        let line := 512 / k.format.width
        elemPlace k.format (from_ k.base + i1 / rows * k.st 0 + i0 / line * (64 * rows) + i1 % rows * 64 + outer) (i0 % line))
  else none

/-- An instruction is a vector load with what it accesses, and meets no condition that traps before its accesses. -/
def tileLoad (s : State) (i : Instr) (m : TileMove) : Prop :=
  let f := s.h.cfg.vtype
  (∃ o, i = .vld o ∧ fmAllowed o s false [o.d.toNat] [] ∧
    m = { d := o.d.toNat, mask := s.h.fmMask, fmt := f, tile := vecTile s o,
          place := fun r e => some (elemPlace f (vecLoc s o true) (r * s.h.cfg.vl + e)) }) ∨
  (∃ o, i = .vlds o ∧ fmAllowed o s true [o.d.toNat] [] ∧
    m = { d := o.d.toNat, mask := s.h.fmMask, fmt := f, tile := vecTile s o,
          place := fun r e => some (elemPlace f (vecLoc s o false + r * (s.x o.b).toNat) e) }) ∨
  (∃ o, i = .vldtr o ∧ fmAllowed o s true [o.d.toNat] [] ∧ f ≠ .e2m1 ∧
    m = { d := o.d.toNat, mask := s.h.fmMask, fmt := f, tile := vecTile s o,
          place := fun r e => some (elemPlace f (vecLoc s o false + e * (s.x o.b).toNat) r) }) ∨
  (∃ o, i = .vldx o ∧ indexAllowed o s true false [o.d.toNat] [o.b.toNat] ∧ f ≠ .e2m1 ∧
    m = { d := o.d.toNat, mask := s.h.fxMask o, fmt := f, tile := bit o.f.toNat 5,
          place := fun r e => some (indexedPlace o s r e) }) ∨
  (∃ o, i = .vldk o ∧ tensorAllowed o s [o.d.toNat] [] ∧
    m = { d := o.d.toNat, mask := s.h.fxMask o, fmt := f, tile := (s.h.tensor o.a.toNat).space = 1, place := coordinatePlace o s,
          dflt := if bit o.f.toNat 0 then 0x7F else 0 })

/-- An instruction is a vector store with what it accesses, and meets no condition that traps before its accesses. -/
def tileStore (s : State) (i : Instr) (m : TileMove) : Prop :=
  let f := s.h.cfg.vtype
  (∃ o, i = .vst o ∧ fmAllowed o s false [] [o.d.toNat] ∧
    m = { d := o.d.toNat, mask := s.h.fmMask, fmt := f, tile := vecTile s o,
          place := fun r e => some (elemPlace f (vecLoc s o true) (r * s.h.cfg.vl + e)),
          last := fun r e => decide (r + 1 = s.h.cfg.vrows) && decide (e + 1 = s.h.cfg.vl) }) ∨
  (∃ o, i = .vsts o ∧ fmAllowed o s true [] [o.d.toNat] ∧
    m = { d := o.d.toNat, mask := s.h.fmMask, fmt := f, tile := vecTile s o,
          place := fun r e => some (elemPlace f (vecLoc s o false + r * (s.x o.b).toNat) e),
          last := fun _ e => decide (e + 1 = s.h.cfg.vl) }) ∨
  (∃ o, i = .vstx o ∧ indexAllowed o s false false [] [o.d.toNat, o.b.toNat] ∧ f ≠ .e2m1 ∧
    m = { d := o.d.toNat, mask := s.h.fxMask o, fmt := f, tile := bit o.f.toNat 5,
          place := fun r e => some (indexedPlace o s r e) }) ∨
  (∃ o, i = .vstk o ∧ tensorAllowed o s [] [o.d.toNat] ∧
    m = { d := o.d.toNat, mask := s.h.fxMask o, fmt := f, tile := (s.h.tensor o.a.toNat).space = 1, place := coordinatePlace o s,
          last := fun _ e => decide (e + 1 = s.h.cfg.vl) ||
            decide (bits (s.x o.b).toNat 0 32 + e + 1 = (s.h.tensor o.a.toNat).dim 0) })

/-- The element accesses of a vector access: one for each selected position that has a place, in ascending flat index. -/
def TileMove.elts (m : TileMove) (s : State) : List Elt := (s.h.spots m.mask m.place).map (s.h.eltOf m.fmt)

/-- The values a vector store leaves, each with the bits of its byte that it keeps: none, but for a 4-bit element those of the other
half of its byte, where that half is used (R53; log entry 16). -/
def TileMove.values (m : TileMove) (s : State) : List (Nat × Nat) :=
  (s.h.spots m.mask m.place).map fun p =>
    let v := s.h.elem m.fmt (s.h.img m.d) p.row p.e
    if m.fmt ≠ .e2m1 then (v, 0) else if p.place.upper then (16 * v, 0x0F) else (v, if m.last p.row p.e then 0 else 0xF0)

/-! ## Matrix unit -/

/-- The hart that issues owns its core's matrix unit, which is u. -/
def State.ownsUnit (s : State) (u : MatrixUnit) : Prop := s.core.mu = u ∧ u.owner = some s.h.key

/-- An FX instruction names no mask and no form. -/
def fxPlain (o : FX) : Prop := o.c = 0 ∧ o.m = 0 ∧ o.z = 0 ∧ o.f = 0

/-- Bit k of the logical bytes of a register group from base (R215): rows of 256 bytes, each of which lies 64 bytes to a quarter of
the register. -/
def groupBit (h : Hart) (base k : Nat) : Bool :=
  let b := k / 8 % 3072
  (h.img (base + k / 24576)).testBit (8 * (b % 256 / 64 * 768 + b / 256 * 64 + b % 64) + k % 8)

/-- The registers of a group that hold the first bytes given can be read. -/
def groupReadable (h : Hart) (base bytes : Nat) : Prop :=
  3072 ≤ h.cap ∧ ∀ g, g < ceilDiv bytes 3072 → base + g < h.cfg.vnr ∧ Sparse.get false h.vec.verr (base + g) = false

/-- Metadata nibble i of a group. -/
def groupNibble (h : Hart) (base i : Nat) : Nat :=
  ofBool (groupBit h base (4 * i)) + 2 * ofBool (groupBit h base (4 * i + 1)) + 4 * ofBool (groupBit h base (4 * i + 2))
    + 8 * ofBool (groupBit h base (4 * i + 3))

/-- The unit is not joined, its tile is loaded, with its scales where it has scales, and no row waits at it. -/
def MatrixUnit.takesRows (u : MatrixUnit) : Prop :=
  u.joined = false ∧ u.rows = [] ∧ u.tv = true ∧ (u.bsc = true → u.sv = true) ∧ u.tileErr = false

/-- The rows of a row instruction as a function of the accumulator row: none, or what its positions hold. -/
abbrev RowsOf := Nat → Option (List (Option (Nat × Nat)))

/-- The accumulator element that a row leaves at column n. -/
def MatrixUnit.added (u : MatrixUnit) (els : List (Option (Nat × Nat))) (r n : Nat) : Nat × Flags :=
  u.column (els.map fun e => e.map fun p =>
    if u.asc then scaleByte (decodeF (mfmt u.afmt) p.1) p.2 else decodeF (mfmt u.afmt) p.1) n (u.accAt r n)

/-- The operand of a row at position k: its pattern and its scale byte, 127 where A is not scaled. -/
def MatrixUnit.rowOperand (u : MatrixUnit) (els : List (Option (Nat × Nat))) (k : Nat) : Option (Nat × Nat) :=
  (els.getD k none).map fun p => (p.1, if u.asc then p.2 else 127)

/-- The operand of the stationary tile at position k and column n: its pattern and its scale byte, 127 where B is not scaled; none
where the position is pruned. -/
def MatrixUnit.tileOperand (u : MatrixUnit) (k n : Nat) : Option (Nat × Nat) :=
  let w := (mfmt u.bfmt).width
  let i := k * 128 + n
  if u.spar ≠ 0 ∧ u.kept.testBit i = false then none
  else some (u.tile / 2 ^ (i * w) % 2 ^ w, if u.bsc then u.scales / 2 ^ (8 * (k / 32 * 128 + n)) % 256 else 127)

/-- p is the sum of group g of a row at column n: the exact products of positions 16g to 16g + 15 below K that A and B both have, added
exactly and rounded once into f32 under RNE (R71), with the NaNs, infinities and zeros of R72. -/
def MatrixUnit.groupIs (u : MatrixUnit) (els : List (Option (Nat × Nat))) (n g : Nat) (p : Nat × Flags) : Prop :=
  let fa := mfmt u.afmt
  let fb := mfmt u.bfmt
  let terms := (List.range 16).filterMap fun j =>
    let k := 16 * g + j
    match u.rowOperand els k, (if k < u.k then u.tileOperand k n else none) with
    | some a, some b => some (a, b)
    | _, _ => none
  let nan := fun (t : (Nat × Nat) × (Nat × Nat)) => fa.notNumber t.1.1 || t.1.2 == 255 || fb.notNumber t.2.1 || t.2.2 == 255
  let signals := fun (t : (Nat × Nat) × (Nat × Nat)) => (t.1.2 != 255 && fa.signals t.1.1) || (t.2.2 != 255 && fb.signals t.2.1)
  let infinite := fun (t : (Nat × Nat) × (Nat × Nat)) => !nan t && (fa.infinite t.1.1 || fb.infinite t.2.1)
  let zero := fun (t : (Nat × Nat) × (Nat × Nat)) => fa.value t.1.1 == some 0 || fb.value t.2.1 == some 0
  let sign := fun (t : (Nat × Nat) × (Nat × Nat)) => fa.neg t.1.1 != fb.neg t.2.1
  let has := fun (neg : Bool) => terms.any fun t => infinite t && !zero t && sign t == neg
  let invalid := terms.any (fun t => infinite t && zero t) || (has false && has true)
  if terms.any nan ∨ invalid then p = nanResult .f32 (terms.any signals || invalid)
  else if has false ∨ has true then p = infResult .f32 (has true)
  else exactly .f32 .rne false 0
    ((terms.map fun t => (fa.value t.1.1).getD 0 * (fb.value t.2.1).getD 0 * (2 ^ (t.1.2 + t.2.2) : Nat)).sum * (2 ^ 149 : Nat))
    (fa.scale * fb.scale * 2 ^ 254) (!terms.isEmpty && terms.all fun t => zero t && sign t) p

/-- r is what a row leaves at column n of an accumulator row that holds acc there (R71): the sums of its groups added one after another,
each sum and each addition rounded into f32 under RNE; NV, OF and UF are raised, NX never is (R69). -/
def MatrixUnit.columnIs (u : MatrixUnit) (els : List (Option (Nat × Nat))) (n acc : Nat) (r : Nat × Flags) : Prop :=
  ∃ st : Nat → Nat × Flags, st 0 = (acc, 0#6) ∧
    (∀ g, g < ceilDiv u.k 16 → ∃ p q, u.groupIs els n g p ∧ sumIs .f32 .f32 .rne 0 (st g).1 p.1 q ∧
      st (g + 1) = (q.1, (st g).2 ||| p.2 ||| q.2)) ∧
    r = ((st (ceilDiv u.k 16)).1, (st (ceilDiv u.k 16)).2 &&& (Flag.nv ||| Flag.of ||| Flag.uf))

/-- The rows of a row instruction have been committed at the unit of the hart that issues: every element of a row of them is what the
row leaves, the other elements of the accumulator are as before, the blocks of the rows are dirty, ROWCNT counts them and FFLAGS joins
their flags; beside these only the pc differs. -/
def rowsCommitted (s t : State) (u : MatrixUnit) (first count : Nat) (rows : RowsOf) : Prop :=
  let v := t.core.mu
  let here := fun (r : Nat) => if first ≤ r ∧ r < first + count then rows (r - first) else none
  { t with h := s.h, cores := s.cores } = s ∧ { t.h with ar := s.h.ar, pc := s.h.pc } = s.h ∧ t.h.pc = s.h.pc + 8 ∧
  (∀ c, c ≠ s.h.coreKey → t.coreAt c = s.coreAt c) ∧ { t.core with mu := u } = s.core ∧
  { v with acc := u.acc, dirty := u.dirty, rowcnt := u.rowcnt } = u ∧
  (∀ r n, n < 128 → v.accAt r n = match here r with
    | some els => (u.added els r n).1 % 2 ^ 32
    | none => u.accAt r n) ∧
  (∀ b, b < 16 → (v.dirty.getLsbD b = true ↔ u.dirty.getLsbD b = true ∨ ∃ r, r / 16 = b ∧ (here r).isSome)) ∧
  v.rowcnt = satAdd u.rowcnt ((List.range count).countP fun j => (rows j).isSome) ∧
  flagsCounted s t (first + count) 128 (fun r n => (here r).map fun els => (u.added els r n).2)

/-! ## Synchronisation -/

/-- The memory atomics on w bits that read one register: the instruction, whether x[D] receives the old value zero-extended, and the
value stored, from the old one and the operand. -/
def amoForm (w : Nat) : Instr → Option (FX × Bool × (BitVec w → BitVec w → BitVec w))
  | .amoadd o => some (o, false, fun old v => old + v)
  | .amomin o => some (o, false, fun old v => if v.slt old then v else old)
  | .amomax o => some (o, false, fun old v => if old.slt v then v else old)
  | .amominz o => some (o, true, fun old v => if v < old then v else old)
  | .amomaxz o => some (o, true, fun old v => if old < v then v else old)
  | .amoand o => some (o, false, fun old v => old &&& v)
  | .amoor o => some (o, false, fun old v => old ||| v)
  | .amoxor o => some (o, false, fun old v => old ^^^ v)
  | .amoswp o => some (o, false, fun _ v => v)
  | _ => none

/-- The access of a memory atomic, from its ORD and SCOPE fields. -/
def atomicAcc (o : FX) : Acc :=
  { rd := true, wr := true, atomic := true, amo := true, scope := bits o.f.toNat 2 3, acq := bit o.f.toNat 5,
    rel := bit o.f.toNat 6, vqWait := bit o.f.toNat 6 }

/-- The calls, TGET and the memory atomics, where they meet no condition that traps, with the number of their bytes, the kind of their
access and the address they store to. -/
def wordStoreForm (s : State) (i : Instr) : Option (Nat × Acc × Nat) :=
  let amo := fun (o : FX) (n : Nat) (c : Bool) =>
    if o.m = 0 ∧ o.z = 0 ∧ (c = true ∨ o.c = 0) ∧ bits o.f.toNat 7 3 = 0 ∧ bits o.f.toNat 2 3 < 6 ∧ bits o.f.toNat 0 2 = n.log2 - 2 ∧
        s.fxAddr o % n = 0 then
      some (n, atomicAcc o, s.fxAddr o)
    else none
  let sized := fun (o : FX) (c : Bool) => amo o (if bits o.f.toNat 0 2 = 0 then 4 else 8) c
  let call := if (s.h.getX 2).toNat % 16 = 0 then some (16, ({ wr := true } : Acc), (s.h.getX 2 - 16).toNat) else none
  match i with
  | .call _ | .callr _ => call
  | .tget o =>
    if o.f = 0 ∧ o.imm = 0 ∧ (s.x o.a).toNat % 64 = 0 then some (64, { wr := true, cls := .vector }, (s.x o.a).toNat) else none
  | .amoadd o | .amomin o | .amomax o | .amominz o | .amomaxz o | .amoand o | .amoor o | .amoxor o | .amoswp o => sized o false
  | .amocas o => sized o true
  | .amocasq o =>
    let even := fun (r : Field) => r.toNat % 2 = 0 ∧ r ≠ 0 ∧ r.toNat ≤ 30
    if even o.d ∧ even o.b ∧ even o.c then amo o 16 true else none
  | _ => none

/-- The bytes that checked pieces hold. -/
def State.held (s : State) (ps : List PieceRef) : Nat := ofBytes ((ps.map (s.load (s.keyOf s.h))).flatten)

/-- The Sorrel operations that write a register with their instruction, and the value they leave from the old one. -/
def sorrelForm (s : State) : Instr → Option (FX × (Word → Word))
  | .sytas o => if o.b = 0 ∧ o.c = 0 then some (o, fun old => if old = 0 then 1 else old) else none
  | .syfad o => if o.c = 0 then some (o, fun old => old + s.x o.b) else none
  | .sycas o => some (o, fun old => if old = s.x o.b then s.x o.c else old)
  | _ => none

/-- The address of an FX word translates to Sorrel register n, for reading or for writing too. -/
def State.reachesSorrel (s : State) (o : FX) (wr : Bool) (n : Nat) : Prop :=
  ∃ t, (s.fxAddr o) % 8 = 0 ∧ translate s s.h.sys.vmroot s.h.plv { rd := true, wr := wr, scope := 4 } (s.fxAddr o) = .ok t ∧
    homeOf t.pa = .sorrel ∧ n = (t.pa - sorrelBase) / 8

/-- What an access notes beside its bytes may differ, and the scalar registers and the pc of the hart that issues. -/
def accessFrame (s t : State) : Prop :=
  { t with
    mem := s.mem, sectorKey := s.sectorKey, poison := s.poison, tlb := s.tlb, trace := s.trace, harts := s.harts
    hub := { t.hub with filter := s.hub.filter }
    h := { t.h with pc := s.h.pc, x := s.h.x, winSet := s.h.winSet } } = s

/-- The condition of SYWT and VWAIT on two values of w bits. -/
def holdsCond {w : Nat} (c : Nat) (a b : BitVec w) : Prop :=
  match c with
  | 0 => a = b
  | 1 => a ≠ b
  | 2 => a < b
  | 3 => b ≤ a
  | 4 => a.slt b = true
  | _ => b.sle a = true

/-! ## Chains -/

/-- An open run goes on as another: what CHRUN read is the same, and the cursor has not gone back. -/
def Run.goesOn (r r' : Run) : Prop :=
  r'.pc = r.pc ∧ r'.plv = r.plv ∧ r'.res = r.res ∧ r'.body = r.body ∧ r'.xs = r.xs ∧ r'.vs = r.vs ∧ r'.ms = r.ms ∧
    r'.cfg = r.cfg ∧ r'.frm = r.frm ∧ r'.srseed = r.srseed ∧ r'.tensors = r.tensors ∧ r.cur ≤ r'.cur

/-- A hart stands in t as a trap with a cause to come back to a pc leaves it, taken from its trap registers in s (R172). -/
def State.trapsTo (s t : State) (k : Nat) (c : Cause) (pc : Word) : Prop :=
  let h := s.hartAt k
  let h' := t.hartAt k
  let frame := h.sys.tsp - 128
  h'.pc = h.sys.tvec ∧ h'.plv = .exec ∧ h'.wait = none ∧ h'.getX 2 = frame ∧ h'.sys.tsp = frame ∧ h'.sys.tpc = pc ∧
    h'.sys.tcause = word (c.sub * 2 ^ 8 + c.code) ∧ h'.sys.tval = word c.tval

/-- The run r of a hart stands closed in t by a closing break, its body uninstalled (R431, R441). -/
def State.closedAs (s t : State) (k brk : Nat) (r : Run) : Prop :=
  let h := t.hartAt k
  t.runOf k = none ∧ h.chain.body = none ∧ h.chain.links = [] ∧ h.chr.brk = brk ∧ h.chr.deg = true ∧ h.chr.run = false ∧
    h.chr.inst = false ∧ (r.mode = .parked → h.pc = (s.hartAt k).pc ∧ h.plv = (s.hartAt k).plv)

/-- The queues that a run's nodes use. -/
def State.runQueues (s : State) (k : Nat) (r : Run) : List Nat := usedQueues (s.segment k r).ns

/-- The queue that an inbound port of a hart feeds. -/
def Hart.queueAt (h : Hart) (p : Nat) : Option Nat := (h.inPorts.find? fun b => b.2 = p).map (·.1)

/-! ## Walks -/

/-- The walk of a rule is in progress and has met no ending. -/
def Walk.running (w : Walk) : Prop := w.active = true ∧ w.frozen = false ∧ w.ended = none

/-- Whether an access of a walk to an address is checked (R333, R334): as one of its command. -/
def State.walkChecked (s : State) (w : Walk) (pa : Nat) : Bool :=
  match s.walkCmd w with
  | some c => s.cmdChecked c pa
  | none => s.windowChecked pa

/-- The walk with a register replaced, at the next rule. -/
def Walk.writes (w : Walk) (r : BitVec 3) (v : Word) : Walk :=
  { w with w := w.w.set r.toNat v, rpc := w.rpc + 1, executed := w.executed + 1 }

/-- The walk with its condition bit replaced, at the next rule. -/
def Walk.tests (w : Walk) (b : Bool) : Walk := { w with c := b, rpc := w.rpc + 1, executed := w.executed + 1 }

/-- The walk at a rule. -/
def Walk.jumps (w : Walk) (t : Nat) : Walk := { w with rpc := t, executed := w.executed + 1 }

/-- A condition of a CMP rule on two words. -/
def ruleHolds (c : Nat) (a b : Word) : Bool :=
  match c with
  | 0 => decide (a = b)
  | 1 => decide (a ≠ b)
  | 2 => a.slt b
  | 3 => b.sle a
  | 4 => a.ult b
  | _ => b.ule a

/-- What a rule that reads no memory and ends no walk leaves of its walk; none for a rule that would pass a limit, and for others. -/
def Walk.after (w : Walk) : Instr → Option Walk
  | .walkCmp a b c => some (w.tests (ruleHolds c.toNat w.w[a.toNat] w.w[b.toNat]))
  | .walkCmpi a c i => some (w.tests (ruleHolds c.toNat w.w[a.toNat] (i.signExtend 64)))
  | .walkHash d a n => some (w.writes d (word (w.w[a.toNat].toNat * 0x9E3779B97F4A7C15 % 2 ^ 64 / 2 ^ (64 - n.toNat))))
  | .walkAdd d a b => some (w.writes d (w.w[a.toNat] + w.w[b.toNat]))
  | .walkAddi d a i => some (w.writes d (w.w[a.toNat] + i.signExtend 64))
  | .walkShadd d a b sh => some (w.writes d (w.w[a.toNat] + (w.w[b.toNat] <<< sh.toNat)))
  | .walkLi d i => some (w.writes d (i.signExtend 64))
  | .walkSel d a b => some (w.writes d (if w.c then w.w[a.toNat] else w.w[b.toNat]))
  | .walkTnul a => some (w.tests (w.w[a.toNat] == 0))
  | .walkJt t => some (w.jumps (if w.c then t.toNat else w.rpc + 1))
  | .walkJf t => some (w.jumps (if w.c then w.rpc + 1 else t.toNat))
  | .walkJmp t => some (w.jumps t.toNat)
  | .walkStep _ =>
    if w.steps < w.limit then some { w with steps := w.steps + 1, rpc := w.rpc + 1, executed := w.executed + 1 } else none
  | .walkEmitf a =>
    if h : w.np < 3 then
      some { w with pay := w.pay.set w.np w.w[a.toNat] h, np := w.np + 1, rpc := w.rpc + 1, executed := w.executed + 1 }
    else none
  | _ => none

/-- The record of a walk's result: OUTC, NP, RPC and STEPS, then the three payload words. -/
def Walk.result (w : Walk) (outc : Nat) : List Byte :=
  (toBytes 8 (outc + w.np * 2 ^ 6 + w.rpc % 32 * 2 ^ 32 + w.steps % 2 ^ 16 * 2 ^ 48)) ++ toBytes 8 w.pay[0].toNat ++
    toBytes 8 w.pay[1].toNat ++ toBytes 8 w.pay[2].toNat

end Sys2Proof.Machine
end

