-- ==== Sys2Proof/Certificates/Slice0/Obligations.lean ====
section
/-!
DEFINITION. The statements about the model, for the provers. Each is a Prop; its docstring names the rules of spec/ it rests on and,
where it rests on a convention of the model, the log entry.
-/

open Sys2Proof Sys2Proof.Machine

/-- R142, R143, R144: each two-source scalar half of the arithmetic and logical rows writes the result of the table to x[D] and goes
on to the next word; b is x[B], or B sign-extended where C[5] is 1. MULH and MULHZ give bits [127:64] of the product. CLZ, CTZ and
POPC give the number of leading zero bits, of trailing zero bits and of one bits of a, from 0 to 64; NOP changes nothing but the pc.
-/
def Obligations.ScalarHalves : Prop :=
  (
  ∀ (o : Half) (s : State),
    let a := s.x o.a
    let b : Word := if o.c.getLsbD 5 then o.b.signExtend 64 else s.x o.b
    let gives : Word → Out := fun v => .next ((s.setX o.d v).advance 8)
    exec (.add o) s = gives (a + b) ∧ exec (.sub o) s = gives (a - b) ∧ exec (.mul o) s = gives (a * b) ∧
    exec (.mulh o) s = gives ((a.signExtend 128 * b.signExtend 128).extractLsb' 64 64) ∧
    exec (.mulhz o) s = gives ((a.setWidth 128 * b.setWidth 128).extractLsb' 64 64) ∧
    exec (.div o) s = gives (if b = 0 then BitVec.allOnes 64 else a.sdiv b) ∧
    exec (.divz o) s = gives (if b = 0 then BitVec.allOnes 64 else a / b) ∧
    exec (.rem o) s = gives (if b = 0 then a else a.srem b) ∧
    exec (.remz o) s = gives (if b = 0 then a else a % b) ∧
    exec (.and o) s = gives (a &&& b) ∧ exec (.or o) s = gives (a ||| b) ∧ exec (.xor o) s = gives (a ^^^ b) ∧
    exec (.shl o) s = gives (a <<< (b.toNat % 64)) ∧ exec (.shr o) s = gives (a >>> (b.toNat % 64)) ∧
    exec (.sra o) s = gives (a.sshiftRight (b.toNat % 64)) ∧
    exec (.min o) s = gives (if a.slt b then a else b) ∧ exec (.max o) s = gives (if a.slt b then b else a) ∧
    exec (.minz o) s = gives (if a.ult b then a else b) ∧ exec (.maxz o) s = gives (if a.ult b then b else a) ∧
    exec (.slt o) s = gives (if a.slt b then 1 else 0) ∧ exec (.sltz o) s = gives (if a.ult b then 1 else 0) ∧
    exec (.sel o) s = gives (if s.h.getX (o.c.toNat % 32) ≠ 0 then a else b)) ∧
  (
  ∀ (o : Half) (s : State),
    let a := s.x o.a
    let gives : Nat → Out := fun n => .next ((s.setX o.d (BitVec.ofNat 64 n)).advance 8)
    (∃ n, exec (.clz o) s = gives n ∧ n ≤ 64 ∧ (∀ i, 64 - n ≤ i → i < 64 → a.getLsbD i = false) ∧
      (n < 64 → a.getLsbD (63 - n) = true)) ∧
    (∃ n, exec (.ctz o) s = gives n ∧ n ≤ 64 ∧ (∀ i, i < n → a.getLsbD i = false) ∧ (n < 64 → a.getLsbD n = true)) ∧
    exec (.popc o) s = gives ((List.range 64).countP fun i => a.getLsbD i) ∧
    exec .nop s = .next (s.advance 8))

/-- R145: each scalar immediate instruction writes the result of its row to x[D] and goes on to the next word. -/
def Obligations.ScalarImmediates : Prop :=
  ∀ (o : FI) (s : State),
    let a := s.x o.a
    let imm : Word := o.imm.signExtend 64
    let gives : Word → Out := fun v => .next ((s.setX o.d v).advance 8)
    exec (.addi o) s = gives (a + imm) ∧ exec (.andi o) s = gives (a &&& imm) ∧ exec (.ori o) s = gives (a ||| imm) ∧
    exec (.xori o) s = gives (a ^^^ imm) ∧ exec (.shli o) s = gives (a <<< (o.imm.toNat % 64)) ∧
    exec (.shri o) s = gives (a >>> (o.imm.toNat % 64)) ∧ exec (.srai o) s = gives (a.sshiftRight (o.imm.toNat % 64)) ∧
    exec (.slti o) s = gives (if a.slt imm then 1 else 0) ∧ exec (.li o) s = gives imm ∧
    exec (.lih o) s = gives (o.imm ++ a.setWidth 32) ∧ exec (.addpc o) s = gives (s.h.pc + imm)

/-- R142, R143, R145: what a scalar half or a scalar immediate instruction leaves unchanged: every scalar register but x[D], x0
above all, every flag and control register, every other piece of the hart and of the package, and every byte of memory; the pc goes
on to the next word. -/
def Obligations.ScalarResultFrame : Prop :=
  ∀ (i : Instr) (d : Field) (s t : State), scalarDest i = some d → exec i s = .next t →
    (∀ r, r < 32 → r ≠ d.toNat → t.h.getX r = s.h.getX r) ∧ t.h.getX 0 = 0 ∧ t.h.pc = s.h.pc + 8 ∧
    { t with h := { t.h with x := s.h.x, pc := s.h.pc } } = s ∧ ∀ a, t.byteAt a = s.byteAt a

/-- R153: a branch goes to pc + 8 * OFS when its condition holds and to pc + 8 otherwise; JMP, JAL and JALR go to their targets, and
JAL and JALR link pc + 8. Nothing else changes. -/
def Obligations.BranchesAndJumps : Prop :=
  (∀ (o : FB) (s : State),
    let a := s.x o.a
    let b := s.x o.b
    let target : Word := s.h.pc + 8 * o.ofs.signExtend 64
    let goes : Bool → Out := fun c => .next (s.setPc (if c then target else s.h.pc + 8))
    exec (.beq o) s = goes (a == b) ∧ exec (.bne o) s = goes (a != b) ∧ exec (.blt o) s = goes (a.slt b) ∧
    exec (.bge o) s = goes (b.sle a) ∧ exec (.blo o) s = goes (a.ult b) ∧ exec (.bhs o) s = goes (b.ule a) ∧
    exec (.jmp o) s = .next (s.setPc target) ∧ exec (.jal o) s = .next ((s.setX o.a (s.h.pc + 8)).setPc target)) ∧
  (∀ (o : FI) (s : State),
    exec (.jalr o) s =
      .next ((s.setX o.d (s.h.pc + 8)).setPc ((s.x o.a + o.imm.signExtend 64) &&& ~~~(7#64))))

/-- R88, R146, R148: where its bytes can be read, a scalar load writes them to x[D], sign-extended, zero-extended or whole as its
row says, and goes on; LDA reads 8 bytes at x[A] + OFS, a multiple of 8, as an acquire at the scope in B. -/
def Obligations.ScalarLoadsGiveTheBytes : Prop :=
  (∀ (o : FM) (s : State) (n : Nat) (ps : List PieceRef), o.sp.toNat < 2 →
    s.canAccess { rd := true } (o.sp == 1) (fmAddr s o) n ps →
    let r := readPieces s s.h { rd := true } ps
    let gives : Word → Out := fun v => .next ((r.2.setX o.d v).advance 8)
    let v := ofBytes r.1
    (n = 1 → exec (.ldb o) s = gives ((BitVec.ofNat 8 v).signExtend 64)) ∧
    (n = 1 → exec (.ldbz o) s = gives (BitVec.ofNat 64 v)) ∧
    (n = 2 → exec (.ldh o) s = gives ((BitVec.ofNat 16 v).signExtend 64)) ∧
    (n = 2 → exec (.ldhz o) s = gives (BitVec.ofNat 64 v)) ∧
    (n = 4 → exec (.ldw o) s = gives ((BitVec.ofNat 32 v).signExtend 64)) ∧
    (n = 4 → exec (.ldwz o) s = gives (BitVec.ofNat 64 v)) ∧
    (n = 8 → exec (.ldd o) s = gives (BitVec.ofNat 64 v))) ∧
  (∀ (o : FM) (s : State) (ps : List PieceRef),
    let a : Acc := { rd := true, scope := o.b.toNat, atomic := true, acq := true, vqWait := true }
    let addr := (s.x o.a + o.ofs.signExtend 64).toNat
    o.sp.toNat < 2 → o.b.toNat < 6 → o.sc = 0 → addr % 8 = 0 → s.canAccess a (o.sp == 1) addr 8 ps →
    let r := readPieces s s.h a ps
    exec (.lda o) s = .next ((r.2.setX o.d (BitVec.ofNat 64 (ofBytes r.1))).advance 8))

/-- R88, R146, R148: where its bytes can be written, a scalar store writes the low bytes of x[D], the lowest first, and goes on; STL
writes 8 bytes at x[A] + OFS, a multiple of 8, as a release at the scope in B. -/
def Obligations.ScalarStoresWriteTheBytes : Prop :=
  (∀ (o : FM) (s : State) (n : Nat) (ps : List PieceRef), o.sp.toNat < 2 →
    s.canAccess { wr := true } (o.sp == 1) (fmAddr s o) n ps →
    let t : Out := .next ((writePieces s s.h { wr := true } ps (toBytes n (s.x o.d).toNat)).advance 8)
    (n = 1 → exec (.stb o) s = t) ∧ (n = 2 → exec (.sth o) s = t) ∧ (n = 4 → exec (.stw o) s = t) ∧
    (n = 8 → exec (.std o) s = t)) ∧
  (∀ (o : FM) (s : State) (ps : List PieceRef),
    let a : Acc := { wr := true, scope := o.b.toNat, atomic := true, rel := true, vqWait := true }
    let addr := (s.x o.a + o.ofs.signExtend 64).toNat
    o.sp.toNat < 2 → o.b.toNat < 6 → o.sc = 0 → addr % 8 = 0 → s.canAccess a (o.sp == 1) addr 8 ps →
    exec (.stl o) s = .next ((writePieces s s.h a ps (toBytes 8 (s.x o.d).toNat)).advance 8))

/-- R82, R88, R146, R148, R425: what a scalar store that completes leaves unchanged. The bytes stored are those of the pieces that
the address formed by R88 translates to. Every other byte reads as before under the hart's key slot, but for the sector of a
translation entry whose A or D bit the store sets. Nothing else of the package changes but the pc, which goes on to the next word,
and what an access notes beside its bytes: poison cleared, cached walks, the hub's filter, the record of races, window pages
written. The same holds of memory for CALL and CALLR, TGET and the memory atomics, of which beside the pc only scalar registers may
differ. -/
def Obligations.ScalarStoreFrame : Prop :=
  (∀ (i : Instr) (o : FM) (n : Nat) (a : Acc) (addr : Nat) (s t : State) (ps : List PieceRef),
    scalarStoreForm s i = some (o, n, a, addr) → s.canAccess a (o.sp == 1) addr n ps → plainHomes s ps →
    o.sp.toNat < 2 → exec i s = .next t →
    (∀ b, ¬ covered ps b → ¬ inEntry ps b → homeOf b ≠ .hub →
      t.readByte (s.keyOf s.h) b = s.readByte (s.keyOf s.h) b) ∧
    t.h.pc = s.h.pc + 8 ∧
    { t with
      mem := s.mem, sectorKey := s.sectorKey, poison := s.poison, tlb := s.tlb, trace := s.trace, harts := s.harts
      hub := { t.hub with filter := s.hub.filter }, h := { t.h with pc := s.h.pc, winSet := s.h.winSet } } = s) ∧
  ∀ (i : Instr) (n : Nat) (a : Acc) (addr : Nat) (s t : State) (ps : List PieceRef),
    wordStoreForm s i = some (n, a, addr) → s.canAccess a false addr n ps → plainHomes s ps → exec i s = .next t →
    (∀ b, ¬ covered ps b → ¬ inEntry ps b → homeOf b ≠ .hub → t.readByte (s.keyOf s.h) b = s.readByte (s.keyOf s.h) b) ∧
    accessFrame s t

/-- R53, R88, R94, R146: the hart's own tile memory. An access of 1 to 8 bytes inside the window can be performed where no sector of
the window is poisoned and race checking is off; a read gives the bytes of tile memory at the window's base, changing nothing. A
store into it, then a load from the same place: the load gives the bytes stored, and every byte of memory outside the bytes stored
is as before. So does a load of the pieces of a store through translation, whatever the store's length, where its pieces share no
byte and none lies in a sector of a translation entry that the accesses change. -/
def Obligations.OwnTileMemory : Prop :=
  (
  ∀ (s : State) (off n : Nat), 0 < n → n ≤ 8 → s.h.windowOk → off + n ≤ s.h.winBytes → s.h.sys.rchk = false → s.trace = [] →
    s.rangePoisoned (s.h.winBase + off) n = false →
    ∃ ps, s.canAccess { rd := true } true off n ps ∧
      (readPieces s s.h { rd := true } ps) = ((List.range n).map fun i => s.byteAt (s.h.winBase + off + i), s)) ∧
  (
  (∀ (s : State) (off n : Nat) (bs : List Byte), 0 < n → n ≤ 8 → bs.length = n → s.h.windowOk →
    off + n ≤ s.h.winBytes → s.h.sys.rchk = false → s.trace = [] →
    ∃ ps, s.canAccess { wr := true } true off n ps ∧
      let t := writePieces s s.h { wr := true } ps bs
      (readPieces t t.h { rd := true } ps).1 = bs ∧
      (∀ i, i < n → some (t.byteAt (s.h.winBase + off + i)) = bs[i]?) ∧
      (∀ b, b < s.h.winBase + off ∨ s.h.winBase + off + n ≤ b → t.byteAt b = s.byteAt b)) ∧
  (∀ (s : State) (addr : Nat) (a b : Acc) (bs : List Byte) (ps : List PieceRef),
    s.canAccess a false addr bs.length ps → plainHomes s ps → (∀ x, covered ps x → ¬ inEntry ps x) →
    ps.Pairwise (fun p q => p.pa + p.len ≤ q.pa ∨ q.pa + q.len ≤ p.pa) →
    let t := writePieces s s.h a ps bs
    (readPieces t t.h b ps).1 = bs))

/-- R154, R155, R156: where their stack accesses can be performed and sp is a multiple of 16, CALL and CALLR write pc + 8 and the
vector-state word below sp and go to the target, and RET restores what a stack frame holds: the pc without its low three bits, VTYPE
and VMSK as they stand there, VROWS and VL not above what VNR and the partition in force allow. -/
def Obligations.CallsAndReturns : Prop :=
  (∀ (s : State) (ps : List PieceRef),
    let sp := s.h.getX 2
    let w := writePieces s s.h { wr := true } ps (toBytes 8 (s.h.pc + 8).toNat ++ toBytes 8 s.h.vsw)
    let calls : Word → Out := fun t => .next (({ w with h := w.h.setX 2 (sp - 16) }).setPc t)
    sp.toNat % 16 = 0 → s.canAccess { wr := true } false (sp - 16).toNat 16 ps →
    (∀ o : FB, exec (.call o) s = calls (s.h.pc + 8 * o.ofs.signExtend 64)) ∧
    (∀ o : FI, exec (.callr o) s = calls ((s.x o.a + o.imm.signExtend 64) &&& ~~~(7#64)))) ∧
  (∀ (o : FI) (s : State) (ps : List PieceRef) (f : Fmt),
    let sp := s.h.getX 2
    let r := readPieces s s.h { rd := true } ps
    let ret := word (ofBytes (r.1.take 8))
    let w := ofBytes ((r.1.drop 8).take 8)
    let rows := min (bits w 22 6 + 1) (r.2.h.vrowsMax f)
    sp.toNat % 16 = 0 → s.canAccess { rd := true } false sp.toNat 16 ps → Fmt.ofCode (bits w 28 4) = some f →
    exec (.ret o) s = .next (({ r.2 with
      h := ({ r.2.h with
        cfg := { r.2.h.cfg with
          vtype := f, vmsk := BitVec.ofNat 6 (bits w 32 6), vrows := rows,
          vl := min (bits w 0 16) (r.2.h.vlMaxAt f rows) } }).setX 2 (sp + 16) }).setPc (ret &&& ~~~(7#64)))) ∧
  (∀ h : Hart, h.cfg.vl < 2 ^ 16 → 1 ≤ h.cfg.vrows → h.cfg.vrows ≤ 64 →
    bits h.vsw 0 16 = h.cfg.vl ∧ bits h.vsw 22 6 = h.cfg.vrows - 1 ∧ bits h.vsw 28 4 = h.cfg.vtype.code ∧
    bits h.vsw 32 6 = h.cfg.vmsk.toNat ∧ bits h.vsw 16 6 = 0 ∧ h.vsw < 2 ^ 38)

/-- R160, R161: GATE enters an entry of the gate table that is valid, whose level is above the current one and whose reserved bits
and low target bits are 0: it saves the return address, the level and VMSK, and goes to the target at the entry's level, with the
entry's mask mode where MK is 1. GRET at lib or exec takes the three back. Nothing else changes. -/
def Obligations.GatesAndTheirReturn : Prop :=
  (∀ (o : FI) (s : State) (bs : List Byte),
    let n := o.imm.toNat
    let g := s.h.sys.gtbase.toNat
    let w0 := ofBytes (bs.take 8)
    let w1 := ofBytes ((bs.drop 8).take 8)
    let tlvl := bits w1 56 2
    n < bits g 52 12 → s.readPhys 0 (bits g 4 48 * 16 + 16 * n) 16 = .ok bs → bit w1 63 = true → tlvl = 1 ∨ tlvl = 2 →
    s.h.plv.rank < tlvl → bits w0 0 3 = 0 → bits w0 57 7 = 0 → bits w1 58 5 = 0 → bits w1 7 49 = 0 →
    exec (.gate o) s = .next { s with
      h := { s.h with
        plv := if tlvl = 1 then .lib else .exec
        pc := word (canon57 (bits w0 0 57))
        cfg := { s.h.cfg with vmsk := if bit w1 6 then BitVec.ofNat 6 (bits w1 0 6) else s.h.cfg.vmsk }
        sys := { s.h.sys with
          gepc := s.h.pc + 8, gstatPlv := BitVec.ofNat 2 s.h.plv.rank, gstatMsk := s.h.cfg.vmsk } } }) ∧
  (∀ (o : FI) (s : State) (p : Priv), s.h.plv ≠ .app → s.h.sys.gstatPlv.toNat = p.rank →
    exec (.gret o) s = .next { s with
      h := { s.h with pc := s.h.sys.gepc, plv := p, cfg := { s.h.cfg with vmsk := s.h.sys.gstatMsk } } }) ∧
  (∀ (o : FI) (s : State), s.h.plv ≠ .app → ∃ t, exec (.gret o) s = .next t ∧ t.h.pc = s.h.sys.gepc)

/-- R128, R170, R172, R173, R408, R429: where the trap stack can be written, taking a trap writes the sixteen words of R173 at TSP -
128, lowest first, and sets TPC, TCAUSE, TVAL and TSP, x2 to the frame, the level to exec and the pc to TVEC; nothing else changes.
TRAP takes it with CODE 0x70 and its IMM, to return behind itself; CHRUNX with CODE 0x05 and its word, counted in RETCNT; a word
that is none with CODE 0x00, its SUB and the word; a fetch that faults raises FETCH with the code of its fault as SUB. -/
def Obligations.TrapEntry : Prop :=
  (∀ (s : State) (c : Cause) (tpc : Word) (ps : List PieceRef),
    let f := s.h.sys.tsp - 128
    let w := writePieces s s.h { wr := true } ps
      (List.flatten ([ tpc.toNat, c.sub * 2 ^ 8 + c.code, c.tval, s.h.plv.rank * 2 ^ 8, s.h.vsw, s.h.sys.gepc.toNat,
        s.h.sys.gstatPlv.toNat * 2 ^ 6 + s.h.sys.gstatMsk.toNat, s.h.chr.chcur.toNat, s.h.chr.chstat, 0, (s.h.getX 1).toNat,
        (s.h.getX 2).toNat, (s.h.getX 5).toNat, (s.h.getX 6).toNat, (s.h.getX 13).toNat,
        (s.h.getX 14).toNat ].map (toBytes 8)))
    resolveAccess s s.h .exec { wr := true } false f.toNat 128 = .ok ps →
    performFaults s s.h { wr := true } (f.toNat % 2 ^ 64) ps = none →
    s.enterTrap c tpc false false none = { w with
      h := { w.h.setX 2 f with
        plv := .exec, pc := w.h.sys.tvec
        sys := { w.h.sys with
          tsp := f, tpc := tpc, tcause := word (c.sub * 2 ^ 8 + c.code), tval := word c.tval } } }) ∧
  (∀ (o : FI) (s : State), exec (.trap o) s =
    .next (s.recordWait.enterTrap { code := 0x70, tval := o.imm.toNat } (s.h.pc + 8) false false none)) ∧
  (∀ (o : FI) (s : State), s.h.queueBusy = false → exec (.chrunx o) s =
    .next (s.countRetired.enterTrap { code := 0x05, sub := 0x01, tval := (encFI 0xF1 o).toNat } s.h.pc false false none)) ∧
  (∀ (sub : Nat) (slot : Option Bool) (w : Word) (s : State), s.h.queueBusy = false → exec (.illegalWord sub slot w) s =
    .next ((if sub = 4 then s.countRetired else s).enterTrap { code := 0x00, sub := sub, tval := w.toNat } s.h.pc slot.isSome
      (slot.getD false) none)) ∧
  (∀ (s : State) (c : Cause) (t : State), fetchWord s s.h.pc = .error (c, t) →
    (c.code ≠ 0x72 → exec .fetchFault s = .next (t.raise { c with code := 0x26, sub := c.code } false false)) ∧
    (c.code = 0x72 → exec .fetchFault s = .next (t.freezeHart c)))

/-- R174: where the frame at TSP can be read and its vector-state word names a type, XRET at exec level takes back what a trap
saved: the pc, the level, said for the codes 0 to 2 that R158 names, the tile shape and mask, GEPC and GSTAT, and x1, x2, x5, x6,
x13 and x14; TSP rises by 128. Every other scalar register, the arithmetic registers and flags, the vector and mask registers, the
tensor entries and every other control register of the strip stay as they are, chain state apart: a parked run that XRET does not
return to closes. The strip keeps its number and its hart, and memory, the cores, the launches and all else outside the hart are as
the reads of the frame leave them. -/
def Obligations.TrapReturn : Prop :=
  ∀ (o : FI) (s : State) (ps : List PieceRef) (f : Fmt),
    let s0 := s.recordWait
    let r := readPieces s0 s.h { rd := true } ps
    let w := fun (i : Nat) => ofBytes ((r.1.drop (8 * i)).take 8)
    s.h.plv = .exec → resolveAccess s0 s.h .exec { rd := true } false s.h.sys.tsp.toNat 128 = .ok ps →
    performFaults s0 s.h { rd := true } (s.h.sys.tsp.toNat % 2 ^ 64) ps = none → Fmt.ofCode (bits (w 4) 28 4) = some f →
    ∃ t, exec (.xret o) s = .next t ∧ t.h.pc = word (w 0) ∧ (∀ p : Priv, bits (w 3) 8 2 = p.rank → t.h.plv = p) ∧
      { t with h := r.2.h } = r.2 ∧ t.h.stripId = s.h.stripId ∧ t.h.launch = s.h.launch ∧ t.h.key = s.h.key ∧
      t.h.cfg.vtype = f ∧ t.h.cfg.vmsk = BitVec.ofNat 6 (bits (w 4) 32 6) ∧
      t.h.cfg.vrows = min (bits (w 4) 22 6 + 1) (s.h.vrowsMax f) ∧
      t.h.cfg.vl = min (bits (w 4) 0 16) (s.h.vlMaxAt f t.h.cfg.vrows) ∧ t.h.cfg.vnr = s.h.cfg.vnr ∧
      t.h.sys.gepc = word (w 5) ∧ t.h.sys.gstatPlv = BitVec.ofNat 2 (bits (w 6) 6 2) ∧
      t.h.sys.gstatMsk = BitVec.ofNat 6 (bits (w 6) 0 6) ∧ t.h.sys.tsp = s.h.sys.tsp + 128 ∧
      t.h.getX 1 = word (w 10) ∧ t.h.getX 2 = word (w 11) ∧ t.h.getX 5 = word (w 12) ∧ t.h.getX 6 = word (w 13) ∧
      t.h.getX 13 = word (w 14) ∧ t.h.getX 14 = word (w 15) ∧
      (∀ n, n < 32 → n ∉ [1, 2, 5, 6, 13, 14] → t.h.getX n = s.h.getX n) ∧ t.h.ar = s.h.ar ∧ t.h.vec = s.h.vec ∧
      t.h.tensors = s.h.tensors ∧ t.cores = s.cores ∧ t.launches = s.launches ∧
      { t.h.sys with
        gepc := s.h.sys.gepc, gstatPlv := s.h.sys.gstatPlv, gstatMsk := s.h.sys.gstatMsk, tsp := s.h.sys.tsp } = s.h.sys

/-- R163, R168, R411: a control-register instruction below the level that R168 lists, GRET at app, XRET below exec, and LAUNCH on a
queue whose LQMASK bit is 0 raise PRIVILEGE with their SUB and have no effect of their own. -/
def Obligations.PrivilegeTraps : Prop :=
  let traps := fun (s : State) (sub tval : Nat) =>
    (Host.Outcome.next (s.raise { code := 0x03, sub := sub, tval := tval } false false) : Out)
  (∀ (o : FI) (s : State), s.h.plv = .app → exec (.gret o) s = traps s 0x01 0) ∧
  (∀ (o : FI) (s : State), s.h.plv ≠ .exec → exec (.xret o) s = traps s 0x02 0) ∧
  (∀ (o : FI) (s : State), o.imm.toNat < 64 → bit s.h.sys.lqmask.toNat o.imm.toNat = false →
    (s.x o.a).toNat % 256 = 0 → exec (.launch o) s = traps s 0x10 o.imm.toNat) ∧
  (∀ (o : FS) (s : State) (r : Nat) (w : Option Nat), csrLevels o.csr.toNat = some (r, w) → s.h.plv.rank < r →
    exec (.csrr o) s = traps s (if r = 1 then 0x01 else 0x02) o.csr.toNat) ∧
  (∀ (o : FS) (s : State) (r w : Nat), csrLevels o.csr.toNat = some (r, some w) → s.h.plv.rank < w →
    let old := s.csrRead o.csr.toNat
    let v : Word := if o.f = 0 then s.x o.a else o.imm.zeroExtend 64
    let stops : Word → Out := fun u =>
      if o.csr.toNat = 0x214 ∧ psplitOk u = false then
        .next (s.raise { code := 0x02, sub := 0x02, tval := 0 } false false)
      else traps s (if w = 1 then 0x01 else 0x02) o.csr.toNat
    exec (.csrw o) s = stops v ∧ exec (.csrs o) s = stops (old ||| v) ∧ exec (.csrc o) s = stops (old &&& ~~~v))

/-- R31, R84, R93, R166, R168, R359: at a level that may, CSRR reads a register into x[D], and CSRW, CSRS and CSRC put the old value
into x[D] while the register receives v, old OR v, or old AND NOT v. VMINV invalidates cached walks, PSPLIT receives a partition map
that keeps R31 and OPERAND otherwise, and a write of HTSYNC, whatever its value, completes at once where no command and no session
reads the hart's handle table and waits for them otherwise. The writes of PSPLIT, VMINV, HTSYNC and RTSYNC that a device step
carries out: a partition map that breaks R31 leaves the register as it was; an invalidation leaves no entry that it names; HTSYNC
completes once none of the commands and sessions it waits for remains. The device steps of the four writes are the model's form (log
entry 1). -/
def Obligations.ControlRegisterOperations : Prop :=
  (
  ∀ (o : FS) (s : State) (r : Nat) (w : Option Nat), csrLevels o.csr.toNat = some (r, w) →
    let n := o.csr.toNat
    let old := s.csrRead n
    let v : Word := if o.f = 0 then s.x o.a else o.imm.zeroExtend 64
    let gives : State → Out := fun t => .next ((t.setX o.d old).advance 8)
    let noted := s.recordCsr n
    { noted with trace := s.trace } = s ∧
    (r ≤ s.h.plv.rank → exec (.csrr o) s = .next ((noted.setX o.d old).advance 8)) ∧
    (∀ lw, w = some lw → r ≤ s.h.plv.rank → lw ≤ s.h.plv.rank →
      (n ≠ 0x211 → n ≠ 0x213 → n ≠ 0x214 →
        exec (.csrw o) s = gives { noted with h := s.h.csrStore n v } ∧
        exec (.csrs o) s = gives { noted with h := s.h.csrStore n (old ||| v) } ∧
        exec (.csrc o) s = gives { noted with h := s.h.csrStore n (old &&& ~~~v) }) ∧
      (n = 0x211 → exec (.csrw o) s = gives { s with tlb := s.tlb.filter fun e => !vminvHits v.toNat e }) ∧
      (n = 0x213 → s.tableUsers (htBase s.h.sys.htbase) = [] →
        ∃ t, exec (.csrw o) s = .next t ∧ exec (.csrs o) s = .next t ∧ exec (.csrc o) s = .next t ∧
          { t with trace := s.trace } = (s.setX o.d 0).advance 8) ∧
      (n = 0x213 → s.tableUsers (htBase s.h.sys.htbase) ≠ [] →
        exec (.csrw o) s = .next { s with
          h := { s.h with wait := some (.htsync o.d (s.tableUsers (htBase s.h.sys.htbase))), stalled := false } }) ∧
      (n = 0x214 →
        (psplitOk v = true → exec (.csrw o) s = gives (s.setPsplit s.h.coreKey v)) ∧
        (psplitOk (old ||| v) = true → exec (.csrs o) s = gives (s.setPsplit s.h.coreKey (old ||| v))) ∧
        (psplitOk (old &&& ~~~v) = true → exec (.csrc o) s = gives (s.setPsplit s.h.coreKey (old &&& ~~~v))) ∧
        (psplitOk v = false →
          exec (.csrw o) s = .next (s.raise { code := 0x02, sub := 0x02, tval := 0 } false false))))) ∧
  (
  (∀ (s : State),
    let v := BitVec.ofNat 64 s.input.value
    (psplitOk v = true → ∃ t, exec .psplitWrite s = .next t ∧
      (t.coreAt s.input.who).psplit = v &&& 0xE7E7E7E7E7E7E7E7 ∧ ∀ c, c ≠ s.input.who → t.coreAt c = s.coreAt c) ∧
    (psplitOk v = false → exec .psplitWrite s = .next s)) ∧
  (∀ (s : State), ∃ t, exec .vminvWrite s = .next t ∧ { t with tlb := s.tlb } = s ∧
    ∀ e, e ∈ t.tlb ↔ e ∈ s.tlb ∧ vminvHits s.input.value e = false) ∧
  (∀ (s : State) (d : Field) (ids : List Nat), s.input.who = s.h.key → s.h.wait = some (.htsync d ids) →
    ((∃ k ∈ ids, k ∈ s.tableUsers (htBase s.h.sys.htbase)) → exec .htsyncWrite s = .next s) ∧
    ((∀ k ∈ ids, k ∉ s.tableUsers (htBase s.h.sys.htbase)) →
      ∃ t, exec .htsyncWrite s = .next t ∧ t.h.wait = none ∧ t.mem = s.mem ∧ t.h.pc = s.h.pc + 8 ∧
        ∀ r, r < 32 → t.h.getX r = if r = d.toNat then 0 else s.h.getX r)) ∧
  (∀ (s : State), exec .rtsyncSync s = .next s))

/-- R7, R166, R168: a control register that an instruction can write reads the bits of its RW fields as written and its reserved
bits as zero, but that FRM takes the codes 1 to 6 only; no other control register reads otherwise than before. PSPLIT reads as a
CSRW of a map that R31 allows has left it. -/
def Obligations.ControlRegisterReadAfterWrite : Prop :=
  ∀ (s : State) (v : Word),
    let after := fun (n : Nat) => ({ s with h := s.h.csrStore n v } : State)
    let keeps := fun (n : Nat) (mask : Word) => (after n).csrRead n = v &&& mask
    keeps 0x000 0x3F ∧ (1 ≤ v.toNat % 8 → v.toNat % 8 ≤ 6 → keeps 0x001 0x7) ∧ keeps 0x002 0xFFFFFFFF ∧ keeps 0x003 0x3F ∧
    (∀ n, 0x008 ≤ n → n ≤ 0x00D → (after n).csrRead n = v) ∧ keeps 0x014 0x3F ∧ keeps 0x022 0x3 ∧
    (after 0x050).csrRead 0x050 = v ∧ keeps 0x051 0x1 ∧ (after 0x100).csrRead 0x100 = v ∧
    keeps 0x101 0xFF ∧ keeps 0x200 (~~~0x3F) ∧ keeps 0x201 0xFFFF ∧
    (after 0x202).csrRead 0x202 = v ∧ (after 0x203).csrRead 0x203 = v ∧ keeps 0x204 (~~~0x7F) ∧ keeps 0x205 (~~~0xF) ∧
    (after 0x206).csrRead 0x206 = v ∧ keeps 0x210 (~~~0x3FFF) ∧ keeps 0x212 0xF00FFFFFFFFFFFC0 ∧ keeps 0x216 (~~~0x3F) ∧
    (∀ n m, n ≠ m → (after n).csrRead m = s.csrRead m) ∧
    (psplitOk v = true → ∀ o : FS, o.csr.toNat = 0x214 → o.f = 0 → s.x o.a = v → s.h.plv = .exec →
      ∃ t, exec (.csrw o) s = .next t ∧ t.csrRead 0x214 = v &&& 0xE7E7E7E7E7E7E7E7)

/-- R149, R151, R152, R164, R165, R41, R42, R43: a prefetch with an operand that names one changes nothing but the pc; FENCE takes
effect at once where the vector queue holds no access of the classes it names before it, and otherwise holds back the classes it
names behind it until that is so; IFENCE goes on; WFI stops the hart, and its end writes 0, or 1 where the period ran out; YIELD
goes on, and nothing else happens where no strip of equal or higher priority waits for this core or the scheduler lets the strip
stay; where it does not, the strip that issues, or every strip of its GANG launch, is asked to leave, and no other hart changes.
RELEASE marks the strip released once, where its launch has ERL = 1, and counts it, and the last one makes a running launch
RELEASED; every other RELEASE only goes on. END of a strip that owns no live session releases it likewise, leaves its hart without a
strip, its registers as they are (R382, R383), counts the strip in NEXIT and marks it ended, and touches no other launch. Both wait
for the vector queue. How FENCE holds back the classes it names, and when a strip yields, are the model's (log entries 5 and 39). -/
def Obligations.FencesWaitsAndStripEnds : Prop :=
  (
  (∀ (o : FM) (s : State), o.d.toNat < 2 → o.sp = 0 → exec (.pref o) s = .next (s.advance 8)) ∧
  (∀ (o : FI) (s : State), o.imm.toNat < 6 →
    let f : FenceHold := ⟨fencePred o, fenceSucc o, o.imm.toNat, s.h.po⟩
    ∃ t, exec (.fence o) s = .next t ∧ t.h.pc = s.h.pc + 8 ∧
      (s.h.queueClasses &&& fencePred o = 0 → t.h.fences = s.h.fences ∧
        ∀ e, t.trace.head? = some e → s.trace ≠ [] → t.trace.tail = s.trace ∧ e.fence = some (fencePred o, fenceSucc o) ∧
          e.scope = o.imm.toNat ∧ e.acq = true ∧ e.rel = true) ∧
      (s.h.queueClasses &&& fencePred o ≠ 0 → t.h.fences = s.h.fences ++ [f] ∧ t.trace = s.trace ∧
        t.h.fenced = s.h.fenced ||| fenceSucc o) ∧
      { t with trace := s.trace, h := { t.h with pc := s.h.pc, fences := s.h.fences } } = s) ∧
  (∀ (o : FI) (s : State), ∃ t, exec (.ifence o) s = .next t ∧ t.h.pc = s.h.pc + 8 ∧
    { t with trace := s.trace, h := { t.h with pc := s.h.pc } } = s) ∧
  (∀ (o : FI) (s : State), exec (.wfi o) s = .next { s with h := { s.h with wait := some (.wfi o), stalled := false } }) ∧
  (∀ (o : FI) (s : State), s.input.who = s.h.key → s.h.live = true → s.h.wait = some (.wfi o) →
    let ends := fun (v : Word) =>
      (Host.Outcome.next ((({ s with h := { s.h with wait := none } }).setX o.d v).advance 8) : Out)
    exec .wfiWake s = ends 0 ∧ (o.imm ≠ 0 → exec .waitTimeout s = ends 1)) ∧
  (∀ (o : FI) (s : State), s.h.queueBusy = false →
    ∃ t, exec (.yield o) s = .next t ∧ t.h.pc = s.h.pc + 8 ∧
      { t with
        trace := s.trace, harts := s.harts
        h := { t.h with pc := s.h.pc, preempt := s.h.preempt, forPark := s.h.forPark } } = s ∧
      (((s.recordWait.advance 8).yieldsTo && Config.yields s.time) = false →
        t.harts = s.harts ∧ t.h.preempt = s.h.preempt ∧ t.h.forPark = s.h.forPark) ∧
      (((s.recordWait.advance 8).yieldsTo && Config.yields s.time) = true → s.h.key ≠ 2 ^ 64 →
        let asked := fun (h : Hart) => !h.frozen && s.isGang s.h && h.launch == s.h.launch && h.key != 2 ^ 64
        t.h.preempt = (if s.h.frozen then s.h.preempt else true) ∧
        t.harts = s.harts.map fun p => (p.1, if asked p.2 then { p.2 with preempt := true, forPark := none } else p.2)))) ∧
  (
  (∀ (o : FI) (s : State) (l : Nat) (x : Launch), s.h.queueBusy = false → s.h.launch = some l → s.launches[l]? = some x →
    (x.erl = false ∨ s.h.released = true → exec (.release o) s = .next (s.recordWait.advance 8)) ∧
    (x.erl = true → s.h.released = false → x.releasedCount + 1 ≠ x.nstrip →
      ∃ t y, exec (.release o) s = .next t ∧ t.h.released = true ∧ t.h.pc = s.h.pc + 8 ∧ t.launches[l]? = some y ∧
        y.releasedCount = x.releasedCount + 1 ∧ y.state = x.state ∧ t.mem = s.mem) ∧
    (x.erl = true → s.h.released = false → x.releasedCount + 1 = x.nstrip →
      ∃ t y, exec (.release o) s = .next t ∧ t.h.released = true ∧ t.h.pc = s.h.pc + 8 ∧ t.launches[l]? = some y ∧
        y.releasedCount = x.nstrip ∧ y.nexit = x.nexit ∧ (x.state = .running → y.state = .released))) ∧
  (∀ (o : FI) (s : State) (l : Nat) (x : Launch), s.h.queueBusy = false → s.h.launch = some l → s.launches[l]? = some x →
    s.ownSession = none → (∀ u, s.unit = some u → u.joined = false) →
    let counts := x.erl = true ∧ s.h.released = false
    ∃ t y, exec (.endStrip o) s = .next t ∧ t.h.launch = none ∧ t.h.key = s.h.key ∧ t.h.x = s.h.x ∧ t.h.vec = s.h.vec ∧
      t.h.cfg = s.h.cfg ∧ t.h.ar = s.h.ar ∧ t.launches[l]? = some y ∧
      y.nexit = x.nexit + 1 ∧ (Sparse.get {} y.strips s.h.stripId.toNat).st = .ended ∧
      (∀ i, i ≠ s.h.stripId.toNat → Sparse.get {} y.strips i = Sparse.get {} x.strips i) ∧
      (counts → y.releasedCount = x.releasedCount + 1) ∧ (¬ counts → y.releasedCount = x.releasedCount ∧ y.state = x.state) ∧
      (counts → x.releasedCount + 1 = x.nstrip → x.state = .running → y.state = .released) ∧
      (∀ k, k ≠ l → t.launches[k]? = s.launches[k]?)) ∧
  (∀ (o : FI) (s : State), s.h.queueBusy = true → exec (.release o) s = .next s ∧ exec (.endStrip o) s = .next s))

/-- R36, R40, R163, R33, R338, R339, R340, R401: LAUNCH to a queue whose LQMASK bit is 1, with a record address that is a multiple
of 256: a queue that is disabled or whose sixteen places are taken answers 1 and takes nothing; otherwise the record's address
enters the queue behind the others, with the strip's tenant, key slot and roots, and the answer is 0. The entry at the head of an
enabled queue and the oldest record of a side buffer each make a launch of the record they name: a record with a reserved field set
is rejected, and any other is rejected by a later check, waits for its predecessors, is aborted with one of them, is ready, or,
without a strip, retires. An entry that is not valid, and one that comes behind a record of the side buffer, leaves the queue as it
is. When the hub reads a queue is the model's (log entries 1 and 25). -/
def Obligations.LaunchSubmissionsAndArrivals : Prop :=
  (
  ∀ (o : FI) (s : State),
    let q := o.imm.toNat
    let a := (s.x o.a).toNat
    let s0 := s.record { agent := s.h.agent, place := s.h.coreKey, rel := true, scope := 5 }
    q < 64 → bit s.h.sys.lqmask.toNat q = true → a % 256 = 0 →
    ((s.queue q).en = false ∨ 16 ≤ (s.queue q).side.length → exec (.launch o) s = .next ((s0.setX o.d 1).advance 8)) ∧
    ((s.queue q).en = true → (s.queue q).side.length < 16 →
      ∃ t r, exec (.launch o) s = .next t ∧ (t.queue q).side = (s.queue q).side ++ [r] ∧ r.addr = a ∧
        r.keyid = s.keyOf s.h ∧ r.vmroot = s.h.sys.vmroot ∧ r.htbase = s.h.sys.htbase ∧ r.gtbase = s.h.sys.gtbase ∧
        r.lqmask = s.h.sys.lqmask ∧ (∀ x, s.launchOf s.h = some x → r.tenant = x.tenant) ∧
        t.h = { s.h.setX o.d.toNat 0 with pc := s.h.pc + 8 } ∧ t.mem = s.mem ∧ t.launches = s.launches)) ∧
  (
  let made := fun (s t : State) (va q pmax tenant keyid : Nat) (rb : List Byte) =>
    let w := fun i => bytesWord rb i
    ∃ x, t.launches.length = s.launches.length + 1 ∧ t.launches[s.launches.length]? = some x ∧ x.recAddr = va ∧ x.queue = q ∧
      x.tenant = tenant ∧ x.keyid = keyid ∧ x.code = canon57 (w 0) ∧ x.entry = bits (w 1) 0 32 ∧ x.nstrip = bits (w 2) 0 32 ∧
      x.prio = min (bits (w 4) 0 3) pmax ∧ x.gang = bit (w 4) 8 ∧ x.erl = bit (w 4) 9 ∧ x.nexit = 0 ∧ x.placedCount = 0 ∧
      (recordReserved (wordsOfBytes rb 32) = true → x.state = .rejected) ∧
      (x.state = .rejected ∨ ((x.state = .waiting ∨ x.state = .aborted) ∧ x.preds ≠ []) ∨ (x.state = .ready ∧ x.preds = [] ∧ x.nstrip ≠ 0) ∨
        (x.state = .retired ∧ x.preds = [] ∧ x.nstrip = 0))
  (∀ (s : State) (bs : List Byte),
    let q := s.input.who
    let x := s.queue q
    let pa := x.qbase + 8 * x.head
    let e := bytesWord bs (x.head % 8)
    let addr := bits e 0 57
    q < 64 → x.en = true → homeOf pa ≠ .hub → s.readPhys 0 (pa / 64 * 64) 64 = .ok bs →
    (bit e 63 = false ∨ x.side ≠ [] → exec .ringEntryArrival s = .next s) ∧
    (∀ rb u, x.side = [] → bit e 63 = true → bits e 57 6 = 0 → addr % 256 = 0 → s.hubFetch x.qroot x.keyid (canon57 addr) 256 = .ok (rb, u) →
      ∃ t, exec .ringEntryArrival s = .next t ∧ made s t (canon57 addr) q x.pmax x.tenant x.keyid rb ∧
        (t.queue q).head = (x.head + 1) % (8 * 2 ^ x.logn)) ∧
    (x.side = [] → bit e 63 = true → bits e 57 6 ≠ 0 ∨ addr % 256 ≠ 0 →
      ∃ t, exec .ringEntryArrival s = .next t ∧ t.launches = s.launches ∧ (t.queue q).head = (x.head + 1) % (8 * 2 ^ x.logn))) ∧
  (∀ (s : State) (r : SideRec) (rest : List SideRec),
    let q := s.input.who
    let x := s.queue q
    let v := s.updQueue q fun x => { x with side := rest }
    x.en = true → x.side = r :: rest →
    (∀ rb u, v.hubFetch r.vmroot r.keyid r.addr 256 = .ok (rb, u) →
      ∃ t, exec .sideBufferTake s = .next t ∧ made s t r.addr q x.pmax r.tenant r.keyid rb ∧ (t.queue q).side = rest) ∧
    (∀ c, v.hubFetch r.vmroot r.keyid r.addr 256 = .error c →
      ∃ t, exec .sideBufferTake s = .next t ∧ t.launches = s.launches ∧ (t.queue q).side = rest)))

/-- R51, R54, R59 to R67, R115, R182, R184 to R193, R198: an elementwise half whose conditions hold gives each position of the tile
in force that its mask selects the result of its operation on the elements of its sources there, zero to the others under zeroing,
and leaves the rest of vD and every other register as they were. The flags of the selected positions join FFLAGS, FCNT counts them,
and SRSEED steps once where the operation rounds under SRN. On integer formats of N bits the operations are those of N-bit words:
sums, differences, products and quotients modulo 2^N, signed or unsigned order, bitwise operations, shifts by the low bits of b;
widening, narrowing and integer conversions keep or clamp the value. On f32, bf16 and f16 they are the exact sum, product, quotient
or root rounded once, with the NaN, infinity, zero and overflow cases of R64 to R66; the order of R186; the classes of R192; and the
special functions at their special cases, reciprocals and reciprocal roots everywhere. A conversion rounds once into its destination
(SRN above the largest magnitude of an integer format is the model's choice, log entry 50). The special functions are evaluated by
the model's fixed point, and stochastic rounding past the last value of an integer format is the model's (log entries 12 and 50). -/
def Obligations.ElementwiseHalves : Prop :=
  (∀ (i : Instr) (o : VHalf) (c : CUse) (srcs : List Nat) (op : ElemOp) (s : State),
    elementHalf s i = some (o, c, srcs, op) → elemAllowed s o c srcs op →
    let m := s.h.halfMask o
    let res := elemResult s o srcs op
    (∀ row e, row < s.h.cfg.vrows → e < s.h.cfg.vl → m.sel s.h row e = true → (res row e).2 &&& s.h.ar.ftrap = 0) →
    ∃ t, exec i s = .next t ∧ vectorFrame s t ∧
      tileWritten s t op.dst o.d.toNat (fun row e => maskedElem s m op.dst o.d.toNat row e (some (res row e).1)) ∧
      flagsCounted s t s.h.cfg.vrows s.h.cfg.vl (fun row e => if m.sel s.h row e then some (res row e).2 else none) ∧
      t.h.ar.srseed = (if op.rounds ∧ s.h.halfMode o = .srn ∧ 0 < s.h.cfg.vl then seedStep s.h.ar.srseed else s.h.ar.srseed) ∧
      t.h.ar.frm = s.h.ar.frm ∧ t.h.ar.ftrap = s.h.ar.ftrap) ∧
  (∀ (f : Fmt) (rm : RMode) (draw a b c : Nat), f.isInt = true → a < 2 ^ f.width → b < 2 ^ f.width → c < 2 ^ f.width →
    let x := BitVec.ofNat f.width a
    let y := BitVec.ofNat f.width b
    let z := BitVec.ofNat f.width c
    let lt := fun (p q : BitVec f.width) => if f.isSigned then p.slt q else p.ult q
    let smaller := fun (p q : BitVec f.width) => if lt p q then p else q
    let larger := fun (p q : BitVec f.width) => if lt p q then q else p
    let gives := fun (op : ElemOp) (v : BitVec f.width) => op.eval rm draw a b c = (v.toNat, 0#6)
    gives (opVadd f) (x + y) ∧ gives (opVsub f) (x - y) ∧ gives (opVmul f) (x * y) ∧ gives (opVma f) (x * y + z) ∧
    gives (opVms f) (x * y - z) ∧ gives (opVnma f) (z - x * y) ∧ gives (opVneg f) (-x) ∧
    gives (opVabs f) (if f.isSigned ∧ x.msb then -x else x) ∧ gives (opVmin f) (smaller x y) ∧ gives (opVmax f) (larger x y) ∧
    gives (opVclamp f) (smaller (larger x y) z) ∧ gives (opVshl f) (x <<< (b % f.width)) ∧
    gives (opVshr f) (x >>> (b % f.width)) ∧ gives (opVsra f) (x.sshiftRight (b % f.width)) ∧
    (opVdiv f).eval rm draw a b c =
      (if b = 0 then ((BitVec.allOnes f.width).toNat, Flag.dz)
       else ((if f.isSigned then x.sdiv y else x / y).toNat, 0#6))) ∧
  (∀ (f : Fmt) (rm : RMode) (draw a b c : Nat), a < 2 ^ f.width → b < 2 ^ f.width →
    let x := BitVec.ofNat f.width a
    let y := BitVec.ofNat f.width b
    let gives := fun (op : ElemOp) (v : BitVec f.width) => op.eval rm draw a b c = (v.toNat, 0#6)
    gives (opVand f) (x &&& y) ∧ gives (opVor f) (x ||| y) ∧ gives (opVxor f) (x ^^^ y) ∧ gives (opVnot f) (~~~x) ∧
    gives (opVmv f) x) ∧
  (∀ (dst src : Fmt) (rm : RMode) (draw a b c : Nat), src.isInt = true → dst.isInt = true → a < 2 ^ src.width →
    let v := src.toInt a
    let clamped := max dst.minInt (min dst.maxInt v)
    let into := fun (d : Fmt) (i : Int) => (BitVec.ofInt d.width i).toNat
    let flags : Flags := if clamped = v then 0#6 else Flag.sa
    (opVcvt dst (some src) false).eval rm draw a b c = (into dst v, 0#6) ∧
    (opVcvt dst (some src) true).eval rm draw a b c = (into dst clamped, flags) ∧
    (dst.wide = some src → (opVsatn dst).eval rm draw a b c = (into dst clamped, flags)) ∧
    (src.wide = some dst →
      (opVwadd src).eval rm draw a b c = (into dst (v + src.toInt b), 0#6) ∧
      (opVwmul src).eval rm draw a b c = (into dst (v * src.toInt b), 0#6) ∧
      (opVwmac src).eval rm draw a b c = (into dst (dst.toInt c + v * src.toInt b), 0#6))) ∧
  (∀ (f : Fmt) (rm : RMode) (draw a b c : Nat), f.isFloat = true → a < 2 ^ f.width → b < 2 ^ f.width → c < 2 ^ f.width →
    let res := fun (op : ElemOp) => op.eval rm draw a b c
    let ordered := fun (ps : List Nat) (v : Nat) => if ps.any f.notNumber then nanResult f (ps.any f.signals) else (v, 0#6)
    sumIs f f rm draw a b (res (opVadd f)) ∧ sumIs f f rm draw a (f.flip b) (res (opVsub f)) ∧
    productIs f f rm draw a b (res (opVmul f)) ∧ productSumIs f f rm draw a b c (res (opVma f)) ∧
    productSumIs f f rm draw a b (f.flip c) (res (opVms f)) ∧ productSumIs f f rm draw (f.flip a) b c (res (opVnma f)) ∧
    quotientIs f rm draw a b (res (opVdiv f)) ∧ rootIs f rm draw a (res (opVsqrt f)) ∧
    res (opVabs f) = (f.mag a, 0#6) ∧ res (opVneg f) = (f.flip a, 0#6) ∧ res (opVclass f) = (2 ^ f.classOf a, 0#6) ∧
    res (opVmin f) = ordered [a, b] (f.choose false a b) ∧ res (opVmax f) = ordered [a, b] (f.choose true a b) ∧
    res (opVclamp f) = ordered [a, b, c] (f.choose false (f.choose true a b) c) ∧ specialCases f rm draw a ∧
    (∀ u, f.units a = some u → u ≠ 0 →
      roundedTo f rm false draw (f.neg a) (quotientOf (2 ^ (2 * f.grain)) u.natAbs) (res (opVrcp f)) ∧
      (0 < u → roundedTo f rm false draw false (rootOf (2 ^ (3 * f.grain)) u.natAbs) (res (opVrsq f))))) ∧
  (∀ (f g : Fmt) (rm : RMode) (draw a b c : Nat), f.isFloat = true → f.wide = some g →
    a < 2 ^ f.width → b < 2 ^ f.width → c < 2 ^ g.width →
    sumIs g f rm draw a b ((opVwadd f).eval rm draw a b c) ∧ productIs g f rm draw a b ((opVwmul f).eval rm draw a b c) ∧
    productSumIs g f rm draw a b c ((opVwmac f).eval rm draw a b c)) ∧
  (∀ (dst src : Fmt) (rm : RMode) (sat : Bool) (draw a b c : Nat), a < 2 ^ src.width →
    (dst = src → (opVcvt dst (some src) sat).eval rm draw a b c = (a, 0#6)) ∧
    (dst ≠ src → ¬(dst.isInt = true ∧ src.isInt = true) →
      convertIs dst src rm sat draw a ((opVcvt dst (some src) sat).eval rm draw a b c)))

/-- R115, R182, R198 to R201, R243: the moves and permutations that sweep the tile, and QWR outside a chain body, give each selected
position the element that their row names, and touch no flag; the positions below the count of VSLUP keep theirs, active or not. -/
def Obligations.MovesAndPermutations : Prop :=
  ∀ (i : Instr) (o : VHalf) (unary : Prop) (srcs : List Nat) (fs : List Fmt) (val : Nat → Nat → Option Nat) (s : State),
    moveHalf s i = some (o, unary, srcs, fs, val) → fieldsUnused o .unused unary →
    s.h.fits (s.h.halfFmt o :: fs) [o.d.toNat] srcs → s.h.maskFine (s.h.halfMask o) →
    ∃ t, exec i s = .next t ∧ vectorFrame s t ∧ t.h.ar = s.h.ar ∧
      tileWritten s t (s.h.halfFmt o) o.d.toNat
        (fun row e => movedElem s (s.h.halfMask o) (s.h.halfFmt o) o.d.toNat row e (val row e))

/-- R72, R186, R196, R197, R198, R201, R243: a reduction writes element 0 of each row with the reduction of the row's selected
elements; a scan gives each selected position the reduction of the selected elements up to it, or before it; FFLAGS and FCNT take
their flags. The reduction of integers is their sum modulo 2^N, their largest or their smallest; of floats the exact sum rounded
once, with the rules of R72, or the largest or smallest in the order of R186, a NaN giving the default NaN; that of nothing is the
identity of R196. VCMPR packs the selected elements of each row and clears the rest; VINS writes one element and VMVX and QRD read
one into x[D]. None of VCMPR, VINS, VMVX and QRD touches a flag. -/
def Obligations.ReductionsScansAndSingleElements : Prop :=
  (∀ (k : RedKind) (o : VHalf) (i : Instr) (s : State),
    (k = .sum ∧ i = .vrsum o) ∨ (k = .max ∧ i = .vrmax o) ∨ (k = .min ∧ i = .vrmin o) →
    let f := s.h.halfFmt o
    let m := s.h.halfMask o
    let rm := s.h.halfMode o
    let act := fun (row : Nat) => (List.range s.h.cfg.vl).filter (m.sel s.h row)
    let res := fun (row : Nat) => reduce k f rm (if k = .sum ∧ f.isFloat ∧ rm = .srn then tileDraw s.h f.width row 0 else 0)
      ((act row).map fun e => s.h.elem f (s.h.img o.a.toNat) row e)
    fieldsUnused o .unused True → f.isArith = true → s.h.fits [f] [o.d.toNat] [o.a.toNat] → s.h.maskFine m →
    (∀ row, row < s.h.cfg.vrows → (res row).2 &&& s.h.ar.ftrap = 0) →
    ∃ t, exec i s = .next t ∧ vectorFrame s t ∧
      tileWritten s t f o.d.toNat (fun row e =>
        if e = 0 then (res row).1 % 2 ^ f.width else s.h.elem f (s.h.img o.d.toNat) row e) ∧
      flagsCounted s t s.h.cfg.vrows (min s.h.cfg.vl 1) (fun row _ => some (res row).2)) ∧
  (∀ (o : VHalf) (s : State),
    let f := s.h.halfFmt o
    let m := s.h.halfMask o
    let rm := s.h.halfMode o
    let k : RedKind := if o.c.toNat % 4 = 0 then .sum else if o.c.toNat % 4 = 1 then .max else .min
    let upTo := fun (e : Nat) => if bit o.c.toNat 2 then e else e + 1
    let res := fun (row e : Nat) => reduce k f rm (if k = .sum ∧ f.isFloat ∧ rm = .srn then tileDraw s.h f.width row e else 0)
      (((List.range (upTo e)).filter (m.sel s.h row)).map fun j => s.h.elem f (s.h.img o.a.toNat) row j)
    fieldsUnused o .field True → bits o.c.toNat 3 2 = 0 → o.c.toNat % 4 ≠ 3 → f.isArith = true →
    s.h.fits [f] [o.d.toNat] [o.a.toNat] → s.h.maskFine m →
    (∀ row e, row < s.h.cfg.vrows → e < s.h.cfg.vl → m.sel s.h row e = true → (res row e).2 &&& s.h.ar.ftrap = 0) →
    ∃ t, exec (.vscan o) s = .next t ∧ vectorFrame s t ∧
      tileWritten s t f o.d.toNat (fun row e => maskedElem s m f o.d.toNat row e (some (res row e).1)) ∧
      flagsCounted s t s.h.cfg.vrows s.h.cfg.vl (fun row e => if m.sel s.h row e then some (res row e).2 else none)) ∧
  (∀ (o : VHalf) (s : State),
    let f := s.h.halfFmt o
    let m := s.h.halfMask o
    let act := fun (row : Nat) => (List.range s.h.cfg.vl).filter (m.sel s.h row)
    fieldsUnused o .unused True → s.h.fits [f] [o.d.toNat] [o.a.toNat] → s.h.maskFine m →
    ∃ t, exec (.vcmpr o) s = .next t ∧ vectorFrame s t ∧ t.h.ar = s.h.ar ∧
      tileWritten s t f o.d.toNat (fun row e =>
        (((act row)[e]?).map fun j => s.h.elem f (s.h.img o.a.toNat) row j).getD 0)) ∧
  (∀ (o : VHalf) (s : State),
    let f := s.h.halfFmt o
    let i := (s.x o.b).toNat
    fieldsUnused o .unused False → s.h.fits [f] [o.d.toNat] [] →
    ∃ t, exec (.vins o) s = .next t ∧ vectorFrame s t ∧ t.h.ar = s.h.ar ∧
      tileWritten s t f o.d.toNat (fun row e =>
        if row * s.h.cfg.vl + e = i then (s.x o.a).toNat % 2 ^ f.width else s.h.elem f (s.h.img o.d.toNat) row e)) ∧
  (∀ (o : VHalf) (s : State),
    let f := s.h.halfFmt o
    let i := (s.x o.b).toNat
    let cell := s.h.elem f (s.h.img o.a.toNat) (i / s.h.cfg.vl) (i % s.h.cfg.vl)
    fieldsUnused o .unused False → s.h.fits [f] [] [o.a.toNat] →
    exec (.vmvx o) s = .next ((s.setX o.d (if i < s.h.cfg.vrows * s.h.cfg.vl then extend f cell else 0)).advance 8)) ∧
  (∀ (o : VHalf) (s : State),
    let f := s.h.halfFmt o
    let cell := s.h.elem f (s.h.img o.a.toNat) (s.h.cfg.vrows - 1) (s.h.cfg.vl - 1)
    o.b = 0 → o.c = 0 → evOf o = false → s.h.fits [f] [] [o.a.toNat] →
    exec (.qrd o) s = .next ((s.setX o.d (if s.h.cfg.vl = 0 then 0 else extend f cell)).advance 8)) ∧
  (∀ (f : Fmt) (rm : RMode) (draw : Nat) (es : List Nat), (∀ a ∈ es, a < 2 ^ f.width) → f.isInt = true →
    reduce .sum f rm draw es = (((es.map (BitVec.ofNat f.width)).sum).toNat, 0#6) ∧
    (es = [] → reduce .max f rm draw es = (f.ofInt f.minInt, 0#6) ∧ reduce .min f rm draw es = (f.ofInt f.maxInt, 0#6)) ∧
    (es ≠ [] → (∃ v ∈ es, reduce .max f rm draw es = (v, 0#6) ∧ ∀ a ∈ es, f.toInt a ≤ f.toInt v) ∧
      ∃ v ∈ es, reduce .min f rm draw es = (v, 0#6) ∧ ∀ a ∈ es, f.toInt v ≤ f.toInt a)) ∧
  (∀ (f : Fmt) (rm : RMode) (draw : Nat) (es : List Nat), (∀ a ∈ es, a < 2 ^ f.width) → f.isFloat = true →
    groupSumIs f rm draw es (reduce .sum f rm draw es) ∧
    (es = [] → reduce .max f rm draw es = infResult f true ∧ reduce .min f rm draw es = infResult f false) ∧
    (es.any f.notNumber = true → ∀ k ∈ [RedKind.max, RedKind.min], reduce k f rm draw es = nanResult f (es.any f.signals)) ∧
    (es ≠ [] → es.any f.notNumber = false → (∃ v ∈ es, reduce .max f rm draw es = (v, 0#6) ∧ ∀ a ∈ es, f.place a ≤ f.place v) ∧
      ∃ v ∈ es, reduce .min f rm draw es = (v, 0#6) ∧ ∀ a ∈ es, f.place v ≤ f.place a))

/-- R177, R191, R202: VCMP writes to each selected position of mD whether its condition holds of the two elements there, and zero to
the others under zeroing; the mask halves write their operation of the sources' bits to each tile position, whatever VMSK; MPOP
counts the set bits of the tile and MFRST gives the flat index of the first, all ones where there is none. Every other mask bit and
every vector register stays. The conditions of R191 are those of the integers the elements stand for, and of floats those of their
values, +0 and -0 equal; with a NaN only ne and un hold, and NV is raised by lt, le, gt and ge, and by the others for a signalling
NaN. -/
def Obligations.ComparisonsAndMasks : Prop :=
  let written := fun (s t : State) (d : Nat) (val : Nat → Nat → Bool) =>
    ({ t with h := s.h } = s ∧ { t.h with vec := s.h.vec, ar := s.h.ar, pc := s.h.pc } = s.h ∧ t.h.pc = s.h.pc + 8 ∧
      t.h.vec.v = s.h.vec.v) ∧
    (∀ row e, row < s.h.cfg.vrows → e < s.h.cfg.vl → e < s.h.maskRow → t.h.mAt d row e = val row e) ∧
    (∀ k, (∀ row e, row < s.h.cfg.vrows → e < s.h.cfg.vl → k ≠ row * s.h.maskRow + e) →
      bit (Sparse.get 0 t.h.vec.m d) k = bit (Sparse.get 0 s.h.vec.m d) k) ∧
    ∀ n, n ≠ d → Sparse.get 0 t.h.vec.m n = Sparse.get 0 s.h.vec.m n
  let readable := fun (s : State) (n : Nat) => n < 8 ∧ Sparse.get false s.h.vec.merr n = false
  (∀ (o : VHalf) (s : State),
    let f := s.h.halfFmt o
    let m := s.h.halfMask o
    let res := fun (row e : Nat) => compareRes f (o.c.toNat % 32) (s.h.elem f (s.h.img o.a.toNat) row e)
      (s.h.elem f (s.h.img o.b.toNat) row e)
    evOf o = false → o.c.toNat % 32 < (if f.isInt then 6 else 8) → f.isArith = true → s.h.fits [f] [] [o.a.toNat, o.b.toNat] →
    o.d.toNat < 8 → s.h.maskFine m →
    (∀ row e, row < s.h.cfg.vrows → e < s.h.cfg.vl → m.sel s.h row e = true → (res row e).2 &&& s.h.ar.ftrap = 0) →
    ∃ t, exec (.vcmp o) s = .next t ∧
      flagsCounted s t s.h.cfg.vrows s.h.cfg.vl (fun row e => if m.sel s.h row e then some (res row e).2 else none) ∧
      written s t o.d.toNat (fun row e =>
      if m.sel s.h row e then (res row e).1 else if m.on ∧ m.zm then false else s.h.mAt o.d.toNat row e)) ∧
  (∀ (i : Instr) (o : VHalf) (n : Nat) (g : Bool → Bool → Bool) (s : State), maskHalf i = some (o, n, g) →
    o.c = 0 → evOf o = false → o.d.toNat < 8 → (if 1 ≤ n then readable s o.a.toNat else o.a = 0) →
    (if 2 ≤ n then readable s o.b.toNat else o.b = 0) →
    ∃ t, exec i s = .next t ∧ t.h.ar = s.h.ar ∧
      written s t o.d.toNat (fun row e => g (s.h.mAt o.a.toNat row e) (s.h.mAt o.b.toNat row e))) ∧
  (∀ (o : VHalf) (s : State), o.b = 0 → o.c = 0 → evOf o = false → readable s o.a.toNat →
    exec (.mpop o) s = .next ((s.setX o.d (word
      ((List.range s.h.cfg.vrows).map fun row => (List.range s.h.cfg.vl).countP fun e => s.h.mAt o.a.toNat row e).sum)).advance 8) ∧
    ∃ v, exec (.mfrst o) s = .next ((s.setX o.d v).advance 8) ∧
      ((∀ row e, row < s.h.cfg.vrows → e < s.h.cfg.vl → s.h.mAt o.a.toNat row e = false) → v = BitVec.allOnes 64) ∧
      (∀ row e, row < s.h.cfg.vrows → e < s.h.cfg.vl → s.h.mAt o.a.toNat row e = true →
        (∀ r j, r < s.h.cfg.vrows → j < s.h.cfg.vl → r < row ∨ (r = row ∧ j < e) → s.h.mAt o.a.toNat r j = false) →
        v = word (row * s.h.cfg.vl + e))) ∧
  (∀ (f : Fmt) (k a b : Nat), f.isArith = true → k < (if f.isInt then 6 else 8) → a < 2 ^ f.width → b < 2 ^ f.width →
    let nan := f.notNumber a || f.notNumber b
    let sig := f.signals a || f.signals b
    let x := f.number a
    let y := f.number b
    compareRes f k a b =
      if nan then (decide (k = 1 ∨ k = 6), if (2 ≤ k ∧ k ≤ 5) ∨ sig = true then Flag.nv else 0#6)
      else ([decide (x = y), decide (x ≠ y), decide (x < y), decide (x ≤ y), decide (y < x), decide (y ≤ x), false, true].getD k false,
        0#6))

/-- R30, R32, R179 to R181: VCFG sets VNR, clears every vector and mask register and leaves VL = 0; VSETL grants the smaller of its
request and VLMAX, where the hart's PSPLIT entry has not changed; where it has, VSETL first takes the lane groups of the new entry,
if no other hart of the core holds one of them, its vector and mask registers then zero, VNR as before and VROWS cut to the new
VROWSMAX; VSETT sets the format and the rows, at least 1 and at most VROWSMAX, and cuts VL to VLMAX. Nothing else changes. The
model's choice (log entry 47): a VSETL whose lane groups are held leaves the hart without lane groups at the same VSETL, its vector
registers kept until it takes the new ones, and one whose new entry is disabled asks its strip, or every strip of its GANG farm, to
leave. -/
def Obligations.VectorConfiguration : Prop :=
  (∀ (o : FI) (s : State), o.d = 0 → o.a = 0 → o.f = 0 → o.imm.toNat < 4 →
    ∃ t, exec (.vcfg o) s = .next t ∧ t.h.cfg.vnr = 8 * 2 ^ o.imm.toNat ∧ t.h.cfg.vl = 0 ∧
      t.h.cfg.vrows = min s.h.cfg.vrows (t.h.vrowsMax s.h.cfg.vtype) ∧ t.h.cfg.vtype = s.h.cfg.vtype ∧
      t.h.cfg.vmsk = s.h.cfg.vmsk ∧ (∀ n, t.h.img n = 0) ∧ (∀ n row e, t.h.mAt n row e = false) ∧
      { t.h with vec := s.h.vec, cfg := s.h.cfg, pc := s.h.pc } = s.h ∧ t.h.pc = s.h.pc + 8 ∧ { t with h := s.h } = s) ∧
  (∀ (o : FI) (s : State),
    let q := if o.f = 0 then (s.x o.a).toNat else o.imm.toNat
    let entry := psplitEntry s.core.psplit s.h.slot
    let grants := fun (t : State) =>
      let vl := min q (t.h.vlMax t.h.cfg.vtype)
      (Host.Outcome.next ((({ t with h := { t.h with cfg := { t.h.cfg with vl := vl } } }).setX o.d (word vl)).advance 8) : Out)
    (o.f = 0 ∧ o.imm = 0) ∨ (o.f = 1 ∧ o.a = 0) →
    (entry = s.h.part → s.h.groupless = false → exec (.vsetl o) s = grants s) ∧
    (entry ≠ s.h.part ∨ s.h.groupless = true →
      (entryOn entry = true → s.heldGroups &&& entryGroups entry = 0 →
        let h : Hart := { s.h with part := entry, groupless := false }
        let h' : Hart := { h with vec := {}, cfg := { h.cfg with vl := 0, vrows := min h.cfg.vrows (h.vrowsMax h.cfg.vtype) } }
        exec (.vsetl o) s = grants { s with h := h' } ∧ (∀ n, h'.img n = 0) ∧ ∀ n row e, h'.mAt n row e = false) ∧
      (entryOn entry = true → s.heldGroups &&& entryGroups entry ≠ 0 →
        exec (.vsetl o) s = .next { s with h := { s.h with groupless := true, stalled := s.h.stalled && s.h.groupless } }) ∧
      (entryOn entry = false → s.h.key ≠ 2 ^ 64 → ∃ t, exec (.vsetl o) s = .next t ∧
        let asked := fun (h : Hart) => !h.frozen && s.isGang s.h && h.launch == s.h.launch && h.key != 2 ^ 64
        t.h.preempt = (if s.h.frozen then s.h.preempt else true) ∧
        t.harts = (s.harts.map fun p => (p.1, if asked p.2 then { p.2 with preempt := true, forPark := none } else p.2)) ∧
        { t with harts := s.harts, h := { t.h with preempt := s.h.preempt, forPark := s.h.forPark } } = s))) ∧
  (∀ (o : FI) (s : State) (f : Fmt),
    let q := if o.f = 0 then (s.x o.a).toNat else bits o.imm.toNat 8 7
    let rows := min (max q 1) (s.h.vrowsMax f)
    Fmt.ofCode (o.imm.toNat % 16) = some f → bits o.imm.toNat 4 4 = 0 → bits o.imm.toNat 15 17 = 0 →
    (o.f = 0 ∧ bits o.imm.toNat 8 7 = 0) ∨ (o.f = 1 ∧ o.a = 0) →
    exec (.vsett o) s = .next ((({ s with
      h := { s.h with cfg := { s.h.cfg with vtype := f, vrows := rows, vl := min s.h.cfg.vl (s.h.vlMaxAt f rows) } } }).setX
        o.d (word rows)).advance 8))

/-- R182, R203, R204 to R207, R428: a vector load whose conditions hold and whose element reads can be performed gives each selected
position the element read at its place, or the value of its row where it has none, zero to the others under zeroing, and leaves the
rest of vD and every other register. The places are those of R204 to R207, written out in elemPlace, indexedPlace and
coordinatePlace. Choices of the model: B = 0 of a strided form is the stride 0 (log entry 48), and VLDK with SCL serves an entry
whose SC is 0 (log entry 49). -/
def Obligations.VectorLoads : Prop :=
  ∀ (i : Instr) (m : TileMove) (s t0 : State) (vs : List (Nat × Nat)), tileLoad s i m →
    vecRead s s.h { rd := true, cls := .vector } m.tile (fun _ => []) (m.elts s) = .ok (vs, t0) →
    ∃ t, exec i s = .next t ∧ { t with h := t0.h } = t0 ∧ { t.h with vec := t0.h.vec, pc := t0.h.pc } = t0.h ∧
      t.h.pc = s.h.pc + 8 ∧ t.h.vec.m = s.h.vec.m ∧
      tileWritten s t m.fmt m.d (fun row e => maskedElem s m.mask m.fmt m.d row e
        (some (match m.place row e with
          | none => m.dflt
          | some p => takeElem m.fmt p ((vs.lookup (row * s.h.cfg.vl + e)).getD 0))))

/-- R203, R204 to R207, R428: a vector store whose conditions hold and whose element writes can be performed writes the selected
elements at their places, the places of R204 to R207, and goes on; VSTXA adds, or takes the smaller or the larger of, each selected
element into its place: integers modulo 2^N, floats rounded under RNE or in the order of R186. No register changes but the pc.
Choices of the model: B = 0 of VSTS is the stride 0 (log entry 48), VSTK with SCL serves an entry whose SC is 0 and writes an unused
sub-element as zero (log entry 49), and a 4-bit element keeps the other half of its byte (log entry 16). -/
def Obligations.VectorStores : Prop :=
  (∀ (i : Instr) (m : TileMove) (s t0 : State), tileStore s i m →
    vecWrite s s.h { wr := true, cls := .vector } m.tile (fun _ => []) (m.elts s) (m.values s) = .ok t0 →
    exec i s = .next (t0.advance 8)) ∧
  (∀ (o : FX) (s t0 : State),
    let f := s.h.cfg.vtype
    let ps := s.h.spots (s.h.fxMask o) (fun r e => some (indexedPlace o s r e))
    indexAllowed o s false true [] [o.d.toNat, o.b.toNat] → f ∈ [.s32, .z32, .s64, .z64, .f32, .bf16, .f16] →
    vecModify s s.h { rd := true, wr := true, cls := .vector, atomic := true } (bit o.f.toNat 5)
      (scatterOp (bits o.f.toNat 6 2) f) (ps.map (s.h.eltOf f)) (ps.map fun p => s.h.elem f (s.h.img o.d.toNat) p.row p.e) =
        .ok t0 →
    exec (.vstxa o) s = .next (t0.advance 8)) ∧
  (∀ (f : Fmt) (a b : Nat), a < 2 ^ f.width → b < 2 ^ f.width →
    let x := BitVec.ofNat f.width a
    let y := BitVec.ofNat f.width b
    let lt := if f.isSigned then x.slt y else x.ult y
    (f.isInt = true → scatterOp 0 f a b = (x + y).toNat ∧ scatterOp 1 f a b = (if lt then a else b) ∧
      scatterOp 2 f a b = if lt then b else a) ∧
    (f.isFloat = true → (∃ flags, sumIs f f .rne 0 a b (scatterOp 0 f a b, flags)) ∧
      scatterOp 1 f a b = (if f.notNumber a || f.notNumber b then f.defaultNaN else f.choose false a b) ∧
      scatterOp 2 f a b = if f.notNumber a || f.notNumber b then f.defaultNaN else f.choose true a b))

/-- R53, R203, R428: what a vector store leaves unchanged: every byte outside the pieces that its element addresses translate to
reads as before under the hart's key slot, but for the sector of a translation entry whose A or D bit the store sets, where the
store does not write into such a sector itself; and so does every register, cached walks, poison, the hub's filter, the record of
races and the marks of window pages apart. The same holds of VSTXA and the places of its selected elements. -/
def Obligations.VectorStoreFrame : Prop :=
  (∀ (i : Instr) (m : TileMove) (s t t0 : State) (rs : List (Elt × List PieceRef)), tileStore s i m →
    resolveElts s s.h { wr := true, cls := .vector } m.tile (fun _ => []) (m.elts s) = .ok rs →
    vecWrite s s.h { wr := true, cls := .vector } m.tile (fun _ => []) (m.elts s) (m.values s) = .ok t0 →
    plainHomes s (rs.map (·.2)).flatten → (∀ b, covered (rs.map (·.2)).flatten b → ¬ inEntry (rs.map (·.2)).flatten b) →
    exec i s = .next t →
    (∀ b, ¬ covered (rs.map (·.2)).flatten b → ¬ inEntry (rs.map (·.2)).flatten b → homeOf b ≠ .hub →
      t.readByte (s.keyOf s.h) b = s.readByte (s.keyOf s.h) b) ∧
    t.h.pc = s.h.pc + 8 ∧
    { t with
      mem := s.mem, sectorKey := s.sectorKey, poison := s.poison, tlb := s.tlb, trace := s.trace, harts := s.harts
      hub := { t.hub with filter := s.hub.filter }, h := { t.h with pc := s.h.pc, winSet := s.h.winSet } } = s) ∧
  ∀ (o : FX) (s t t0 : State) (rs : List (Elt × List PieceRef)),
    let f := s.h.cfg.vtype
    let a : Acc := { rd := true, wr := true, cls := .vector, atomic := true }
    let ps := s.h.spots (s.h.fxMask o) (fun r e => some (indexedPlace o s r e))
    indexAllowed o s false true [] [o.d.toNat, o.b.toNat] → f ∈ [.s32, .z32, .s64, .z64, .f32, .bf16, .f16] →
    resolveElts s s.h a (bit o.f.toNat 5) (fun _ => []) (ps.map (s.h.eltOf f)) = .ok rs →
    vecModify s s.h a (bit o.f.toNat 5) (scatterOp (bits o.f.toNat 6 2) f) (ps.map (s.h.eltOf f))
      (ps.map fun p => s.h.elem f (s.h.img o.d.toNat) p.row p.e) = .ok t0 →
    plainHomes s (rs.map (·.2)).flatten → (∀ b, covered (rs.map (·.2)).flatten b → ¬ inEntry (rs.map (·.2)).flatten b) →
    exec (.vstxa o) s = .next t →
    (∀ b, ¬ covered (rs.map (·.2)).flatten b → ¬ inEntry (rs.map (·.2)).flatten b → homeOf b ≠ .hub →
      t.readByte (s.keyOf s.h) b = s.readByte (s.keyOf s.h) b) ∧
    t.h.pc = s.h.pc + 8 ∧
    { t with
      mem := s.mem, sectorKey := s.sectorKey, poison := s.poison, tlb := s.tlb, trace := s.trace, harts := s.harts
      hub := { t.hub with filter := s.hub.filter }, h := { t.h with pc := s.h.pc, winSet := s.h.winSet } } = s

/-- R73, R74, R208, R58, R126, R128, R182, R194, R195: TSET loads a tensor entry from 64 bytes at a multiple of 64, and TGET stores
one there with its reserved fields zero. Neither checks the entry. VQNT gives each block of 32 elements its scale byte and each
selected element its code; VDQNT gives each selected element its value under its block's scale; VDOT writes element 0 of each row
with the sum of the products of the row's selected elements, and RETCNT rises by one. The scale of a block is the byte of R58's X,
from its largest magnitude, or 0xFF where an element is not finite, and the code of an element is its value over 2^X rounded once,
saturating; a dequantised element is the value of its code times its scale, rounded once. That VDOT draws for its products before
its sums, and which bytes VQNT leaves where codes and scales share a register, is the model's (log entries 16 and 49). -/
def Obligations.TensorEntriesAndQuantisation : Prop :=
  (
  ∀ (o : FI) (s : State) (ps : List PieceRef), o.f = 0 → o.imm = 0 → (s.x o.a).toNat % 64 = 0 →
    (s.canAccess { rd := true, cls := .vector } false (s.x o.a).toNat 64 ps →
      let r := readPieces s s.h { rd := true, cls := .vector } ps
      exec (.tset o) s = .next (({ r.2 with
        h := { r.2.h with
          tensors := Sparse.set 0 r.2.h.tensors o.d.toNat (BitVec.ofNat 512 (ofBytes r.1)) } }).advance 8)) ∧
    (s.canAccess { wr := true, cls := .vector } false (s.x o.a).toNat 64 ps →
      exec (.tget o) s = .next ((writePieces s s.h { wr := true, cls := .vector } ps
        (toBytes 64 (tensorImage (Sparse.get 0 s.h.tensors o.d.toNat)))).advance 8))) ∧
  (
  let fields := fun (o : FX) => o.c = 0 ∧ bits o.f.toNat 8 2 = 0 ∧ o.imm.toNat < 7
  (∀ (o : FX) (s : State) (dst src : Fmt),
    let m := s.h.fxMask o
    let rm := s.h.mode o.imm.toNat
    let block := fun (row b : Nat) =>
      ((List.range 32).filter fun j => decide (32 * b + j < s.h.cfg.vl) && m.sel s.h row (32 * b + j)).map fun j =>
        s.h.elem src (s.h.img o.a.toNat) row (32 * b + j)
    let res := fun (row e : Nat) => quantElem dst src (block row (e / 32)) rm
      (if rm = .srn then tileDraw s.h dst.width row e else 0) (s.h.elem src (s.h.img o.a.toNat) row e)
    fields o → Fmt.ofCode (bits o.f.toNat 0 4) = some dst → Fmt.ofCode (bits o.f.toNat 4 4) = some src →
    src.isFloat = true → dst.isSmall = true → s.h.fits [src, dst, .z8] [o.d.toNat, o.b.toNat] [o.a.toNat] → s.h.maskFine m →
    o.d ≠ o.b →
    (∀ row e, row < s.h.cfg.vrows → e < s.h.cfg.vl → m.sel s.h row e = true → (res row e).2 &&& s.h.ar.ftrap = 0) →
    ∃ t, exec (.vqnt o) s = .next t ∧ vectorFrame s t ∧
      flagsCounted s t s.h.cfg.vrows s.h.cfg.vl (fun row e => if m.sel s.h row e then some (res row e).2 else none) ∧
      (∀ row e, row < s.h.cfg.vrows → e < s.h.cfg.vl →
        s.h.elem dst (t.h.img o.d.toNat) row e = maskedElem s m dst o.d.toNat row e (some (res row e).1)) ∧
      (∀ row b, row < s.h.cfg.vrows → 32 * b < s.h.cfg.vl →
        s.h.elem .z8 (t.h.img o.b.toNat) row b = quantScale dst src (block row b) % 256) ∧
      ∀ n, n ≠ o.d.toNat → n ≠ o.b.toNat → t.h.img n = s.h.img n) ∧
  (∀ (o : FX) (s : State) (dst src : Fmt),
    let m := s.h.fxMask o
    let rm := s.h.mode o.imm.toNat
    let res := fun (row e : Nat) => dequant dst src (s.h.elem .z8 (s.h.img o.b.toNat) row (e / 32)) rm
      (if rm = .srn then tileDraw s.h dst.width row e else 0) (s.h.elem src (s.h.img o.a.toNat) row e)
    fields o → Fmt.ofCode (bits o.f.toNat 4 4) = some dst → Fmt.ofCode (bits o.f.toNat 0 4) = some src →
    dst.isFloat = true → src.isSmall = true → s.h.fits [src, dst, .z8] [o.d.toNat] [o.a.toNat, o.b.toNat] →
    s.h.maskFine m →
    (∀ row e, row < s.h.cfg.vrows → e < s.h.cfg.vl → m.sel s.h row e = true → (res row e).2 &&& s.h.ar.ftrap = 0) →
    ∃ t, exec (.vdqnt o) s = .next t ∧ vectorFrame s t ∧
      flagsCounted s t s.h.cfg.vrows s.h.cfg.vl (fun row e => if m.sel s.h row e then some (res row e).2 else none) ∧
      tileWritten s t dst o.d.toNat (fun row e => maskedElem s m dst o.d.toNat row e (some (res row e).1))) ∧
  (∀ (o : FX) (s : State),
    let f := s.h.cfg.vtype
    let m := s.h.fxMask o
    let rm := s.h.ar.frm
    let prod := fun (row e : Nat) => (opVmul f).eval rm (if rm = .srn then tileDraw s.h f.width row e else 0)
      (s.h.elem f (s.h.img o.a.toNat) row e) (s.h.elem f (s.h.img o.b.toNat) row e) 0
    let act := fun (row : Nat) => (List.range s.h.cfg.vl).filter (m.sel s.h row)
    let srn := decide (f.isFloat = true ∧ rm = .srn ∧ 0 < s.h.cfg.vl)
    let h2 : Hart := { s.h with ar := s.h.ar.stepSeed srn }
    let sum := fun (row : Nat) => reduce .sum f rm (if srn then tileDraw h2 f.width row 0 else 0)
      ((act row).map fun e => (prod row e).1)
    o.c = 0 → o.f = 0 → o.imm = 0 → (o.m = 0 → o.z = 0) → f.isArith = true → s.h.fits [f] [o.d.toNat] [o.a.toNat, o.b.toNat] →
    s.h.maskFine m →
    (∀ row e, row < s.h.cfg.vrows → e < s.h.cfg.vl → m.sel s.h row e = true → (prod row e).2 &&& s.h.ar.ftrap = 0) →
    (∀ row, row < s.h.cfg.vrows → (sum row).2 &&& s.h.ar.ftrap = 0) →
    ∃ t, exec (.vdot o) s = .next t ∧ { t with h := s.h } = s ∧ t.h.pc = s.h.pc + 8 ∧
      t.h.sys.retcnt = (if s.h.sys.retcnt = BitVec.allOnes 64 then s.h.sys.retcnt else s.h.sys.retcnt + 1) ∧
      t.h.ar.srseed = ((s.h.ar.stepSeed srn).stepSeed srn).srseed ∧
      flagsCounted s t s.h.cfg.vrows (s.h.cfg.vl + 1) (fun row e =>
        if e = s.h.cfg.vl then (if s.h.cfg.vl = 0 then none else some (sum row).2)
        else if m.sel s.h row e then some (prod row e).2 else none) ∧
      tileWritten s t f o.d.toNat (fun row e =>
        if e = 0 then (sum row).1 % 2 ^ f.width else s.h.elem f (s.h.img o.d.toNat) row e)) ∧
  (∀ (dst src : Fmt) (rm : RMode) (draw a : Nat) (es : List Nat), src.isFloat = true → dst.isSmall = true → a ∈ es →
    (∀ v ∈ es, v < 2 ^ src.width) →
    let top := (es.map fun v => ((src.units v).getD 0).natAbs).foldr max 0
    let emax : Int := match dst with | .e4m3 => 8 | .e5m2 => 15 | .e2m1 => 2 | _ => 12
    let x : Int := if top = 0 then -127 else max (-127) (min 127 ((top.log2 : Int) - src.grain - emax))
    if es.any fun v => src.units v == none then
      quantScale dst src es = 255 ∧ quantElem dst src es rm draw a = (0, if src.signals a then Flag.nv else 0#6)
    else
      quantScale dst src es = (x + 127).toNat ∧
      ∀ u, src.units a = some u → exactly dst rm true draw (u * (2 ^ (dst.grain + (-x).toNat) : Nat)) (2 ^ (src.grain + x.toNat))
        (src.neg a) (quantElem dst src es rm draw a)) ∧
  (∀ (dst src : Fmt) (rm : RMode) (draw scale a : Nat), dst.isFloat = true → src.isSmall = true → a < 2 ^ src.width → scale < 256 →
    let r := dequant dst src scale rm draw a
    (scale = 255 ∨ src.notNumber a = true → r = nanResult dst false) ∧
    (scale ≠ 255 → src.infinite a = true → r = infResult dst (src.neg a)) ∧
    ∀ u, scale ≠ 255 → src.units a = some u →
      exactly dst rm false draw (u * (2 ^ (dst.grain + scale) : Nat)) (2 ^ (src.grain + 127)) (src.neg a) r))

/-- R211, R212, R213, R216, R225, R229: an MCFG without REL whose pair is accepted, by the owner of an unjoined unit or at a free
unit that no hart waits for, makes the hart the owner and configures the unit, clearing the tile, ROWCNT and, with CLR, the
accumulator; at a unit that is owned or waited for by others it joins the line. REL gives the unit up, and all it held reads zero. A
free unit goes to the hart first in line, with its MCFG or with the matrix state of its resumed strip. MSTAT reads MSTATE, ROWCNT or
the number of waiting rows, and 0 at a unit of another owner. When a grant takes its turn is the model's (log entry 1). -/
def Obligations.MatrixUnitOwnership : Prop :=
  let set := fun (u : MatrixUnit) (k imm : Nat) (clr : Bool) =>
    ({ owner := some k, waiters := u.waiters, acc := if clr then [] else u.acc, tile := u.tile, kept := u.kept, scales := u.scales,
       joined := u.joined, jn := u.jn, jp := u.jp, dirty := if clr then 0 else u.dirty, step := 0, k := 0, sv := false, tv := false,
       bsc := bit imm 11, asc := bit imm 10, spar := bits imm 8 2, bfmt := bits imm 4 4, afmt := bits imm 0 4, rowcnt := 0,
       accErr := if clr then [] else u.accErr, tileErr := u.tileErr, joinReq := u.joinReq, leaveReq := u.leaveReq,
       rows := u.rows } : MatrixUnit)
  (∀ (o : FX) (s : State) (u : MatrixUnit), s.core.mu = u → o.d = 0 → o.a = 0 → o.b = 0 → o.c = 0 → o.m = 0 → o.z = 0 →
    o.f.toNat < 4 → o.imm.toNat < 4096 → (isBandwidth s.h.die = true → mcfgLacks o = false) →
    (bit o.f.toNat 0 = false → pairAccepted o.imm.toNat = true →
      (u.owner = some s.h.key → u.joined = false →
        exec (.mcfg o) s = .next ((s.setUnit (set u s.h.key o.imm.toNat (bit o.f.toNat 1))).advance 8)) ∧
      (u.owner = none → u.waiters = [] →
        exec (.mcfg o) s = .next ((s.setUnit (set u s.h.key o.imm.toNat (bit o.f.toNat 1))).advance 8)) ∧
      (u.owner ≠ some s.h.key → (u.owner ≠ none ∨ u.waiters ≠ []) →
        ∃ t, exec (.mcfg o) s = .next t ∧ t.core.mu = { u with waiters := u.waiters ++ [s.h.key] } ∧ t.h.pc = s.h.pc + 8 ∧
          t.h.x = s.h.x ∧ t.h.vec = s.h.vec ∧ t.mem = s.mem)) ∧
    (bit o.f.toNat 0 = true → o.imm = 0 →
      (u.owner = some s.h.key → u.joined = false →
        exec (.mcfg o) s = .next ((s.setUnit { waiters := u.waiters }).advance 8)) ∧
      (u.owner ≠ some s.h.key → exec (.mcfg o) s = .next (s.advance 8)))) ∧
  (∀ (o : FX) (s : State), o.a = 0 → o.b = 0 → fxPlain o → o.imm.toNat < 3 →
    exec (.mstat o) s = .next ((s.setX o.d (if s.core.mu.owner ≠ some s.h.key then 0 else
      if o.imm.toNat = 0 then word s.core.mu.mstate else if o.imm.toNat = 1 then s.core.mu.rowcnt
      else word s.core.mu.rows.length)).advance 8)) ∧
  (∀ (s : State) (u : MatrixUnit) (k : Nat) (rest : List Nat), (s.coreAt s.input.who).mu = u → u.owner = none →
    u.waiters = k :: rest →
    (∀ (o : FX) (p : Pending), (s.hartAt k).muSaved = none → (s.hartAt k).vq = some p → p.instr = .mcfg o →
      ∃ t, exec .matrixUnitGrant s = .next t ∧ (t.hartAt k).vq = none ∧
        (t.coreAt s.input.who).mu = set { u with waiters := rest } k o.imm.toNat (bit o.f.toNat 1)) ∧
    (∀ m, (s.hartAt k).muSaved = some m → m.joined = false →
      ∃ t, exec .matrixUnitGrant s = .next t ∧ (t.hartAt k).muSaved = none ∧
        (t.coreAt s.input.who).mu = { m with owner := some k, waiters := rest }))

/-- R215, R217, R218, R219: MLDB gives the tile the logical bytes of its group; MLDBS whose metadata rises within each group of
twelve gives each kept value its position and zero to the pruned ones; both make the tile valid, its scales invalid, and step STEP.
MSCL gives the tile its scales. Nothing but the unit and the pc changes. -/
def Obligations.MatrixTileLoads : Prop :=
  (∀ (o : FX) (s : State) (u : MatrixUnit), s.ownsUnit u → o.d = 0 → o.b = 0 → fxPlain o → o.imm = 0 → o.a.toNat % 8 = 0 → u.spar = 0 →
    let w := (mfmt u.bfmt).width
    groupReadable s.h o.a.toNat (16 * u.depth * w) → s.loadWaits s.h.coreKey = false →
    ∃ tile, exec (.mldb o) s = .next ((s.setUnit { u with
        tile := tile, kept := 0, tileErr := false, k := u.depth, tv := true, sv := false, step := u.step + 1 }).advance 8) ∧
      ∀ k, tile.testBit k = (decide (k < 128 * u.depth * w) && groupBit s.h o.a.toNat k)) ∧
  (∀ (o : FX) (s : State) (u : MatrixUnit), s.ownsUnit u → o.d = 0 → fxPlain o → o.imm = 0 → o.a.toNat % 8 = 0 → o.b.toNat % 8 = 0 →
    1 ≤ u.spar →
    let w := (mfmt u.bfmt).width
    let nib := fun (kk n : Nat) => groupNibble s.h o.b.toNat (kk * 128 + n)
    groupReadable s.h o.a.toNat (16 * u.keptRows * w) → groupReadable s.h o.b.toNat (64 * u.keptRows) →
    (∀ kk n, kk < u.keptRows → n < 128 → nib kk n < 12 ∧ (kk % u.keep ≠ 0 → nib (kk - 1) n < nib kk n)) →
    s.loadWaits s.h.coreKey = false →
    ∃ tile kept, exec (.mldbs o) s = .next ((s.setUnit { u with
        tile := tile, kept := kept, tileErr := false, k := 12 * (u.depth / u.keep), tv := true, sv := false,
        step := u.step + 1 }).advance 8) ∧
      (∀ kk n, kk < u.keptRows → n < 128 →
        let p := (12 * (kk / u.keep) + nib kk n) * 128 + n
        kept.testBit p = true ∧ ∀ j, j < w → tile.testBit (p * w + j) = groupBit s.h o.a.toNat ((kk * 128 + n) * w + j)) ∧
      (∀ k n, k < 12 * (u.depth / u.keep) → n < 128 →
        (∀ kk, kk < u.keptRows → kk / u.keep = k / 12 → nib kk n ≠ k % 12) →
        kept.testBit (k * 128 + n) = false ∧ ∀ j, j < w → tile.testBit ((k * 128 + n) * w + j) = false)) ∧
  (∀ (o : FX) (s : State) (u : MatrixUnit), s.ownsUnit u → o.d = 0 → o.b = 0 → fxPlain o → o.imm = 0 → o.a.toNat % 2 = 0 →
    u.tv = true → u.bsc = true → groupReadable s.h o.a.toNat (128 * ceilDiv u.k 32) →
    ∃ scales, exec (.mscl o) s = .next ((s.setUnit { u with scales := scales, sv := true }).advance 8) ∧
      ∀ k, scales.testBit k = (decide (k < 1024 * ceilDiv u.k 32) && groupBit s.h o.a.toNat k))

/-- R71, R72, R220, R221, R423: MROW commits the rows of its tile that have an active position below K, and MROWSL rows cut from the
register's elements at its stride, to the accumulator rows from x[D] on, and no other element changes. Each element is the sum that
R71 gives, written out for one element: the exact products of sixteen positions added and rounded once into f32, then added to the
accumulator and rounded, group after group, with the rules of R72 for NaNs, infinities and zeros. -/
def Obligations.MatrixRows : Prop :=
  (∀ (o : VHalf) (s : State) (u : MatrixUnit),
    let m := s.h.halfMask o
    let first := (s.x o.d).toNat
    let rows : RowsOf := fun row =>
      let els := (List.range (min u.k s.h.cfg.vl)).map fun k =>
        if m.sel s.h row k then some (s.h.elem (mfmt u.afmt) (s.h.img o.a.toNat) row k,
          if u.asc then s.h.elem .z8 (s.h.img o.b.toNat) row (k / 32) else 0) else none
      if els.any Option.isSome then some els else none
    s.ownsUnit u → u.takesRows → o.c.toNat % 32 = 0 → matrixPfx o = false → (u.asc = false → o.b = 0) → s.h.maskFine m →
    s.h.fits (mfmt u.afmt :: if u.asc then [.z8] else []) [] (o.a.toNat :: if u.asc then [o.b.toNat] else []) →
    (s.h.cfg.vl = 0 ∨ first + s.h.cfg.vrows ≤ 256) →
    (∀ j els, j < s.h.cfg.vrows → rows j = some els → Sparse.get false u.accErr ((first + j) / 16) = false) →
    ∃ t, exec (.mrow o) s = .next t ∧ rowsCommitted s t u first s.h.cfg.vrows rows) ∧
  (∀ (o : VHalf) (s : State) (u : MatrixUnit),
    let m := s.h.halfMask o
    let first := (s.x o.d).toNat
    let n := (s.x o.b).toNat
    let rows : RowsOf := fun j =>
      let els := (List.range u.k).map fun k =>
        let q := j * (o.c.toNat % 32 + 1) + k
        if q / s.h.cfg.vl < s.h.cfg.vrows ∧ m.sel s.h (q / s.h.cfg.vl) (q % s.h.cfg.vl) then
          some (s.h.elem (mfmt u.afmt) (s.h.img o.a.toNat) (q / s.h.cfg.vl) (q % s.h.cfg.vl), 0) else none
      if s.h.cfg.vl ≠ 0 ∧ els.any Option.isSome then some els else none
    isBandwidth s.h.die = false → s.ownsUnit u → u.takesRows → u.asc = false → matrixPfx o = false → s.h.maskFine m →
    s.h.fits [mfmt u.afmt] [] [o.a.toNat] → (s.h.cfg.vl = 0 ∨ first + n ≤ 256) →
    (∀ j els, j < n → rows j = some els → Sparse.get false u.accErr ((first + j) / 16) = false) →
    ∃ t, exec (.mrowsl o) s = .next t ∧ rowsCommitted s t u first n rows) ∧
  (∀ (u : MatrixUnit) (els : List (Option (Nat × Nat))) (r n : Nat), n < 128 → u.afmt < 16 → u.bfmt < 16 → pairAccepted (u.afmt + 16 * u.bfmt) = true →
    (∀ p, some p ∈ els → p.1 < 2 ^ (mfmt u.afmt).width ∧ p.2 < 256) →
    u.columnIs els n (u.accAt r n) (u.added els r n))

/-- R222, R223, R224, R226, R227, R228: MZERO clears accumulator rows and the dirty bits of the blocks it covers whole; MRD gives
each selected position its accumulator element, scaled by a power of two and rounded to the type in force; MWR gives each selected
position's accumulator element the scaled element of its source, marks its block dirty and ends the error mark of a block it writes
whole. FFLAGS and FCNT take their flags. MJOIN asks for a join or a leave and waits; once every member of a join has asked for its
place the join forms, its tiles invalid and STEP 0, and once every member has asked to leave and no row waits it ends. A waiting row
whose tag is the unit's STEP is committed once the member's tile is loaded, and its flags go to the leader's hart. When a join's
steps take their turns, which members it compares, and what a marked block does at its commit, is the model's (log entries 1, 19 and
51). -/
def Obligations.AccumulatorMovesAndJoins : Prop :=
  (
  (∀ (o : VHalf) (s : State) (u : MatrixUnit), s.ownsUnit u → o.b = 0 → o.c = 0 → matrixPfx o = false →
    let first := (s.x o.d).toNat
    let n := (s.x o.a).toNat
    (n = 0 ∨ first + n ≤ 256) →
    ∃ v, exec (.mzero o) s = .next ((s.setUnit v).advance 8) ∧ { v with acc := u.acc, dirty := u.dirty, accErr := u.accErr } = u ∧
      (∀ r j, j < 128 → v.accAt r j = if first ≤ r ∧ r < first + n then 0 else u.accAt r j) ∧
      ∀ b, b < 16 → v.dirty.getLsbD b = (u.dirty.getLsbD b && !(decide (first ≤ 16 * b) && decide (16 * b + 16 ≤ first + n)))) ∧
  (∀ (o : FX) (s : State) (u : MatrixUnit),
    let f := s.h.cfg.vtype
    let m := s.h.fxMask o
    let rm := s.h.mode (o.f.toNat % 8)
    let r0 := (s.x o.a).toNat
    let c0 := (s.x o.b).toNat
    s.ownsUnit u → o.c = 0 → o.f.toNat < 16 → o.f.toNat % 8 ≠ 7 → o.imm.toNat < 256 → s.h.maskFine m →
    (s.h.cfg.vl = 0 ∨ (r0 + s.h.cfg.vrows ≤ 256 ∧ c0 + s.h.cfg.vl ≤ 128)) →
    (s.h.fits [f] [o.d.toNat] [] → (∀ r, Sparse.get false u.accErr r = false) →
      let res := fun (row e : Nat) => roundF f rm (bit o.f.toNat 3) (s.h.drawAt rm f row e)
        (scaleV (decodeF .f32 (u.accAt (r0 + row) (c0 + e))) (signed 8 o.imm.toNat))
      (∀ row e, row < s.h.cfg.vrows → e < s.h.cfg.vl → m.sel s.h row e = true → (res row e).2 &&& s.h.ar.ftrap = 0) →
      ∃ t, exec (.mrd o) s = .next t ∧ vectorFrame s t ∧
        tileWritten s t f o.d.toNat (fun row e => maskedElem s m f o.d.toNat row e (some (res row e).1)) ∧
        flagsCounted s t s.h.cfg.vrows s.h.cfg.vl (fun row e => if m.sel s.h row e then some (res row e).2 else none)) ∧
    (s.h.fits [f] [] [o.d.toNat] → o.f.toNat < 8 →
      let res := fun (row e : Nat) => roundF .f32 rm false (s.h.drawAt rm .f32 row e)
        (scaleV (decodeF f (s.h.elem f (s.h.img o.d.toNat) row e)) (signed 8 o.imm.toNat))
      let writes := fun (row e : Nat) => m.sel s.h row e || (m.on && m.zm)
      (∀ row e, row < s.h.cfg.vrows → e < s.h.cfg.vl → m.sel s.h row e = true → (res row e).2 &&& s.h.ar.ftrap = 0) →
      ∃ t v, exec (.mwr o) s = .next t ∧ t.core.mu = v ∧ { v with acc := u.acc, dirty := u.dirty, accErr := u.accErr } = u ∧
        { t with h := s.h, cores := s.cores } = s ∧ { t.h with ar := s.h.ar, pc := s.h.pc } = s.h ∧ t.h.pc = s.h.pc + 8 ∧
        (∀ r j, j < 128 → v.accAt r j =
          if r0 ≤ r ∧ r < r0 + s.h.cfg.vrows ∧ c0 ≤ j ∧ j < c0 + s.h.cfg.vl ∧ writes (r - r0) (j - c0) then
            (if m.sel s.h (r - r0) (j - c0) then (res (r - r0) (j - c0)).1 % 2 ^ 32 else 0)
          else u.accAt r j) ∧
        (∀ b, b < 16 → (v.dirty.getLsbD b = true ↔ u.dirty.getLsbD b = true ∨
          ∃ row e, row < s.h.cfg.vrows ∧ e < s.h.cfg.vl ∧ writes row e ∧ (r0 + row) / 16 = b)) ∧
        (∀ b, Sparse.get false v.accErr b = true ↔ Sparse.get false u.accErr b = true ∧ ∃ r j, r / 16 = b ∧ j < 128 ∧
          ¬ (r0 ≤ r ∧ r < r0 + s.h.cfg.vrows ∧ c0 ≤ j ∧ j < c0 + s.h.cfg.vl ∧ writes (r - r0) (j - c0) = true)) ∧
        flagsCounted s t s.h.cfg.vrows s.h.cfg.vl (fun row e => if m.sel s.h row e then some (res row e).2 else none)))) ∧
  (
  (∀ (o : FX) (s : State) (u : MatrixUnit), isBandwidth s.h.die = false → s.ownsUnit u → o.d = 0 → o.a = 0 → o.b = 0 → fxPlain o →
    let size := bits o.imm.toNat 0 2
    let pos := bits o.imm.toNat 2 2
    o.imm.toNat < 16 →
    (size = 0 → pos = 0 → u.joined = true →
      exec (.mjoin o) s = .next ((s.setUnit { u with leaveReq := true }).hold (.mjoin o) [] [] 0 0)) ∧
    (2 ≤ size → pos < size → u.joined = false → pos ≤ s.h.core →
      (s.h.core - pos) / 4 = (s.h.core - pos + size - 1) / 4 → s.isGang s.h = true →
      (∀ i, i < size → i ≠ pos → (s.coreAt (s.h.coreKey - pos + i)).mu.joinReq = some (size, i) →
        (s.coreAt (s.h.coreKey - pos + i)).mu.config = u.config ∧ s.ownerLaunch (s.h.coreKey - pos + i) = s.h.launch) →
      exec (.mjoin o) s = .next ((s.setUnit { u with joinReq := some (size, pos) }).hold (.mjoin o) [] [] 0 0))) ∧
  (∀ (s : State) (size : Nat),
    let c := s.input.who
    1 ≤ size → (∀ i, i < size → (s.coreAt (c + i)).mu.joined = false ∧ (s.coreAt (c + i)).mu.joinReq = some (size, i)) →
    ∃ t, exec .joinComplete s = .next t ∧ ∀ i, i < size →
      (t.coreAt (c + i)).mu = { (s.coreAt (c + i)).mu with
        joined := true, jn := size, jp := i, step := 0, tv := false, sv := false, k := 0, joinReq := none } ∧
      ∀ k, (s.coreAt (c + i)).mu.owner = some k → (t.hartAt k).vq = none) ∧
  (∀ (s : State) (size : Nat),
    let c := s.input.who
    1 ≤ size →
    (∀ i, i < size → (s.coreAt (c + i)).mu.joined = true ∧ (s.coreAt (c + i)).mu.jn = size ∧ (s.coreAt (c + i)).mu.jp = i ∧
      (s.coreAt (c + i)).mu.leaveReq = true ∧ (s.coreAt (c + i)).mu.rows = []) →
    ∃ t, exec .joinComplete s = .next t ∧ ∀ i, i < size →
      (t.coreAt (c + i)).mu = { (s.coreAt (c + i)).mu with joined := false, jn := 0, jp := 0, leaveReq := false } ∧
      ∀ k, (s.coreAt (c + i)).mu.owner = some k → (t.hartAt k).vq = none) ∧
  (∀ (s : State) (u : MatrixUnit) (r : JoinRow) (rest : List JoinRow), (s.coreAt s.input.who).mu = u → u.rows = r :: rest →
    r.tag % 256 = u.step % 256 → u.tv = true → (u.bsc = true → u.sv = true) → u.tileErr = false →
    Sparse.get false u.accErr (r.row / 16) = false →
    ∃ t, exec .joinRowCommit s = .next t ∧ t.mem = s.mem ∧
      let v := (t.coreAt s.input.who).mu
      { v with acc := u.acc, dirty := u.dirty, rowcnt := u.rowcnt, rows := u.rows } = u ∧ v.rows = rest ∧
      v.rowcnt = satAdd u.rowcnt 1 ∧
      (∀ i n, n < 128 → v.accAt i n = if i = r.row then (u.added r.els i n).1 % 2 ^ 32 else u.accAt i n) ∧
      (∀ k, k < 6 → ((t.hartAt r.leader).ar.fflags.getLsbD k = true ↔ (s.hartAt r.leader).ar.fflags.getLsbD k = true ∨
        ∃ n, n < 128 ∧ (u.added r.els r.row n).2.getLsbD k = true)) ∧
      ∀ k : Fin 6, (t.hartAt r.leader).ar.fcnt[k].toNat = min ((s.hartAt r.leader).ar.fcnt[k].toNat
        + (List.range 128).countP fun n => (u.added r.els r.row n).2.getLsbD k) (2 ^ 64 - 1)))

/-- R279, R280: a memory atomic at an aligned address that can be accessed reads the old value, stores what its row gives and writes
the old value, extended, to x[D]; AMOCAS and AMOCASQ store only where the old value is the one expected. -/
def Obligations.MemoryAtomics : Prop :=
  (∀ (i : Instr) (o : FX) (w : Nat) (z : Bool) (g : BitVec w → BitVec w → BitVec w) (s : State) (ps : List PieceRef),
    amoForm w i = some (o, z, g) → (w = 32 ∧ bits o.f.toNat 0 2 = 0 ∨ w = 64 ∧ bits o.f.toNat 0 2 = 1) → o.m = 0 → o.z = 0 →
    o.c = 0 → bits o.f.toNat 7 3 = 0 → bits o.f.toNat 2 3 < 6 → s.fxAddr o % (w / 8) = 0 →
    s.canAccess (atomicAcc o) false (s.fxAddr o) (w / 8) ps →
    let old := BitVec.ofNat w (s.held ps)
    let v := g old ((s.x o.b).setWidth w)
    exec i s = .next (((writePieces s s.h (atomicAcc o) ps (toBytes (w / 8) v.toNat)).setX o.d
      (if z then old.setWidth 64 else old.signExtend 64)).advance 8)) ∧
  (∀ (o : FX) (w : Nat) (s : State) (ps : List PieceRef),
    (w = 32 ∧ bits o.f.toNat 0 2 = 0 ∨ w = 64 ∧ bits o.f.toNat 0 2 = 1) → o.m = 0 → o.z = 0 →
    bits o.f.toNat 7 3 = 0 → bits o.f.toNat 2 3 < 6 → s.fxAddr o % (w / 8) = 0 →
    s.canAccess (atomicAcc o) false (s.fxAddr o) (w / 8) ps →
    let old := BitVec.ofNat w (s.held ps)
    exec (.amocas o) s = .next (((if old = (s.x o.b).setWidth w then
        writePieces s s.h (atomicAcc o) ps (toBytes (w / 8) ((s.x o.c).setWidth w).toNat)
      else (readPieces s s.h { atomicAcc o with wr := false } ps).2).setX o.d (old.signExtend 64)).advance 8)) ∧
  (∀ (o : FX) (s : State) (ps : List PieceRef),
    let even := fun (r : Field) => r.toNat % 2 = 0 ∧ r ≠ 0 ∧ r.toNat ≤ 30
    let pair := fun (r : Field) => (s.x (r + 1)) ++ (s.x r)
    bits o.f.toNat 0 2 = 2 → o.m = 0 → o.z = 0 → bits o.f.toNat 7 3 = 0 → bits o.f.toNat 2 3 < 6 → even o.d → even o.b → even o.c →
    s.fxAddr o % 16 = 0 → s.canAccess (atomicAcc o) false (s.fxAddr o) 16 ps →
    let old := BitVec.ofNat 128 (s.held ps)
    exec (.amocasq o) s = .next ((((if old = pair o.b then
        writePieces s s.h (atomicAcc o) ps (toBytes 16 (pair o.c).toNat)
      else (readPieces s s.h { atomicAcc o with wr := false } ps).2).setX o.d (old.setWidth 64)).setX (o.d + 1)
        ((old >>> 64).setWidth 64)).advance 8))

/-- R276, R277, R278: a Sorrel operation at an address that translates to a Sorrel register writes the register's old value to x[D]
and leaves the value its row gives; SYRD changes no register. SYWT writes the value to x[D] where its condition holds and waits
where it does not; the wait ends once the condition holds, and on the period's end in any case. When the end of a wait is found is
the model's (log entry 1). -/
def Obligations.SorrelRegisters : Prop :=
  (∀ (i : Instr) (o : FX) (g : Word → Word) (s : State) (n : Nat), sorrelForm s i = some (o, g) → o.m = 0 → o.z = 0 → o.f = 0 →
    s.reachesSorrel o true n →
    ∃ t, exec i s = .next t ∧ t.sorrelValue n = g (s.sorrelValue n) ∧ (∀ k, k ≠ n → t.sorrelValue k = s.sorrelValue k) ∧
      t.h = { s.h.setX o.d.toNat (s.sorrelValue n) with pc := s.h.pc + 8 } ∧ accessFrame s { t with sorrel := s.sorrel }) ∧
  (∀ (o : FX) (s : State) (n : Nat), o.b = 0 → o.c = 0 → o.m = 0 → o.z = 0 → o.f = 0 → s.reachesSorrel o false n →
    ∃ t, exec (.syrd o) s = .next t ∧ t.h = { s.h.setX o.d.toNat (s.sorrelValue n) with pc := s.h.pc + 8 } ∧ accessFrame s t) ∧
  (∀ (o : FX) (s : State) (n : Nat), o.m = 0 → o.z = 0 → o.f.toNat < 6 → s.reachesSorrel o false n →
    let sees := holdsCond o.f.toNat (s.sorrelValue n) (s.x o.b)
    (sees → ∃ t, exec (.sywt o) s = .next t ∧ t.h = { s.h.setX o.d.toNat (s.sorrelValue n) with pc := s.h.pc + 8 } ∧
      accessFrame s t) ∧
    (¬ sees → exec (.sywt o) s = .next { s with h := { s.h with wait := some (.sywt o), stalled := false } }) ∧
    (s.input.who = s.h.key → s.h.live = true → s.h.wait = some (.sywt o) →
      let ends := { ({ s.h with wait := none } : Hart).setX o.d.toNat (s.sorrelValue n) with pc := s.h.pc + 8 }
      (sees → ∃ t, exec .sywtWake s = .next t ∧ t.h = ends) ∧ (¬ sees → exec .sywtWake s = .next s) ∧
      (s.x o.c ≠ 0 → ∃ t, exec .waitTimeout s = .next t ∧ t.h = ends)))

/-- R98, R99, R271, R272, R273, R274, R275: AWSET sets the target of the arrival word at an offset of the own window and zeroes its
count and its two status bits; AWADD counts bytes, and each target reached advances GEN; both write GEN to x[D], and no other byte
of tile memory changes. AWAIT writes GEN to x[D] where it is not the generation that x[D] held and waits where it is; the wait ends
with GEN once GEN has left it, and at the end of its period with GEN as it then is. BINIT gives a barrier that no other launch holds
its count, no arrival and its holder; BARV counts an arrival and BDROP takes one from the count, and at the end of the cycle the
phase advances, once, where as many have arrived as are expected, however many arrived in the cycle; both write the phase before it
to x[D]. BWAIT writes the phase where it is not the one x[D] held and waits where it is. When the end of a wait is found, what a
count past its target leaves, and what a look that finds nothing notes, is the model's (log entries 1, 20 and 52). -/
def Obligations.ArrivalWordsAndBarriers : Prop :=
  (
  let acc := fun (rel : Bool) (scope : Nat) =>
    ({ rd := true, wr := true, atomic := true, cls := .vector, rel := rel, scope := scope } : Acc)
  let wait : Acc := { rd := true, cls := .vector, acq := true, scope := 5, advance := some false }
  (∀ (i : Instr) (o : FI) (s : State) (ps : List PieceRef) (a : Acc) (new : Arrival),
    let ofs := (s.x o.a).toNat
    let n := if o.f = 0 then o.imm.toNat else (s.x o.d).toNat % 2 ^ 32
    let old := s.arrivalAt (s.h.winBase + ofs)
    (i = .awset o ∧ a = acc false 0 ∧ new = { old with target := n, count := 0, ovl := false, flt := false }) ∨
    (i = .awadd o ∧ a = acc true 5 ∧ new = (
      if n = 0 then old
      else if old.target = 0 then { old with count := (old.count + n) % 2 ^ 32 }
      else { old with
        count := (old.count + n) % old.target, gen := (old.gen + (old.count + n) / old.target) % 2 ^ 32,
        ovl := old.ovl || decide (1 < (old.count + n) / old.target) })) →
    o.f.toNat < 2 → (o.f = 1 → o.imm = 0) → ofs % 16 = 0 → s.h.windowOk → s.canAccess { a with advance := some (old.moved new) } true ofs 16 ps →
    ∃ t, exec i s = .next t ∧ t.arrivalAt (s.h.winBase + ofs) = new ∧
      t.h.x = (s.h.setX o.d.toNat (word new.gen)).x ∧ t.h.pc = s.h.pc + 8 ∧ accessFrame s t ∧
      ∀ b, b < s.h.winBase + ofs ∨ s.h.winBase + ofs + 16 ≤ b → t.byteAt b = s.byteAt b) ∧
  (∀ (o : FI) (s : State) (ps : List PieceRef),
    let ofs := (s.x o.a).toNat
    let gen := word (s.arrivalAt (s.h.winBase + ofs)).gen
    o.f = 0 → ofs % 16 = 0 → s.h.windowOk → s.canAccess wait true ofs 16 ps →
    (gen ≠ s.x o.d → ∃ t, exec (.await o) s = .next t ∧ t.h.x = (s.h.setX o.d.toNat gen).x ∧ t.h.pc = s.h.pc + 8 ∧
      accessFrame s t) ∧
    (gen = s.x o.d → exec (.await o) s = .next (s.hold (.await o) [s.x o.d, s.x o.a] [] 0 0))) ∧
  (∀ (o : FI) (s : State) (p : Pending) (g ofs : Word) (ps : List PieceRef),
    let gen := word (s.arrivalAt (s.h.winBase + ofs.toNat)).gen
    s.input.who = s.h.key → s.h.live = true → s.h.vq = some p → p.instr = .await o → p.xs = [g, ofs] → ofs.toNat % 16 = 0 → s.h.windowOk →
    (s.backTo p).canAccess wait true ofs.toNat 16 ps →
    (gen ≠ g → ∃ t, exec .awaitWake s = .next t ∧ t.h.vq = none ∧ t.h.x = (s.h.setX o.d.toNat gen).x ∧ t.h.pc = s.h.pc) ∧
    (gen = g → exec .awaitWake s = .next s) ∧
    (s.h.wait = none → o.imm ≠ 0 →
      ∃ t, exec .waitTimeout s = .next t ∧ t.h.vq = none ∧ t.h.x = (s.h.setX o.d.toNat gen).x ∧ t.h.pc = s.h.pc))) ∧
  (
  let alone := fun (s : State) (n : Nat) =>
    ∀ c ∈ s.cores, ∀ p ∈ c.2.bars, ¬ (c.1 = s.h.coreKey ∧ p.1 = n) → p.2.acts = []
  let keeps := fun (s t : State) (n : Nat) (b : Barrier) =>
    let u := t.closeCycle
    u.barrier n = b ∧ (∀ k, k ≠ n → u.barrier k = s.barrier k) ∧ u.mem = s.mem ∧ u.h = t.h ∧
      { t.h with x := s.h.x, pc := s.h.pc, bound := s.h.bound } = s.h ∧ t.h.bound = (s.h.bound || !s.isGang s.h) ∧
      t.h.pc = s.h.pc + 8
  (∀ (o : FI) (s : State),
    let n := o.a.toNat
    let count := if o.f = 0 then (s.x o.d).toNat else o.imm.toNat
    (o.f = 0 ∧ o.imm = 0) ∨ (o.f = 1 ∧ o.d = 0) → 1 ≤ count → count ≤ 8 →
    ((s.barrier n).holder = none ∨ (s.barrier n).holder = s.h.launch) → alone s n → (s.barrier n).acts = [] →
    ∃ t, exec (.binit o) s = .next t ∧ t.h.x = s.h.x ∧
      keeps s t n { s.barrier n with exp := count, arr := 0, holder := s.h.launch }) ∧
  (∀ (o : FI) (s : State) (l : Nat),
    let n := o.a.toNat
    let b := s.barrier n
    let count := b.arr + b.acts.length + 1
    let full := decide (1 ≤ b.exp) && decide (b.exp ≤ count)
    s.h.launch = some l → b.holder = some l → o.f = 0 → o.imm = 0 → alone s n →
    ((∀ a ∈ b.acts, ∃ k, a = .arrive k) →
      ∃ t, exec (.barv o) s = .next t ∧ t.h.x = (s.h.setX o.d.toNat (b.ph.setWidth 64)).x ∧
        keeps s t n { b with acts := [], arr := if full then 0 else count, ph := if full then b.ph + 1 else b.ph }) ∧
    (b.acts = [] → b.exp ≠ 0 →
      let left := b.exp - 1
      let done := decide (left ≤ b.arr)
      ∃ t, exec (.bdrop o) s = .next t ∧ t.h.x = (s.h.setX o.d.toNat (b.ph.setWidth 64)).x ∧
        keeps s t n { b with
          exp := left, arr := if left = 0 ∨ done then 0 else b.arr, ph := if left = 0 ∨ done then b.ph + 1 else b.ph
          holder := if left = 0 then none else b.holder })) ∧
  (∀ (o : FI) (s : State) (l : Nat),
    let n := o.a.toNat
    let ph := (s.barrier n).ph.setWidth 64
    s.h.launch = some l → (s.barrier n).holder = some l → o.f = 0 → alone s n → (s.barrier n).acts = [] →
    (ph ≠ s.x o.d → ∃ t, exec (.bwait o) s = .next t ∧ t.h.x = (s.h.setX o.d.toNat ph).x ∧ keeps s t n (s.barrier n)) ∧
    (ph = s.x o.d → ∃ t, exec (.bwait o) s = .next t ∧ t.h.wait = some (.bwait o) ∧ t.h.pc = s.h.pc ∧ t.h.x = s.h.x ∧
      t.cores = s.cores ∧ t.mem = s.mem)) ∧
  (∀ (o : FI) (s : State),
    let ph := (s.barrier o.a.toNat).ph.setWidth 64
    let ends := { ({ s.h with wait := none } : Hart).setX o.d.toNat ph with pc := s.h.pc + 8 }
    s.input.who = s.h.key → s.h.live = true → s.h.wait = some (.bwait o) →
    (ph ≠ s.x o.d → ∃ t, exec .bwaitWake s = .next t ∧ t.h = ends) ∧ (ph = s.x o.d → exec .bwaitWake s = .next s) ∧
    (o.imm ≠ 0 → ∃ t, exec .waitTimeout s = .next t ∧ t.h = ends)))

/-- R281: VWAIT looks at the word of each active element, and goes on with mD clear over the tile where every one meets its
condition; otherwise it waits with the elements that do. A later look at the elements named may add to them and ends the wait once
all do; the end of the period leaves in mD the elements that do not. With VL = 0 it only goes on. When the elements are looked at
again, and what a look that finds nothing notes, is the model's (log entries 1 and 52). -/
def Obligations.VectorWait : Prop :=
  let look := fun (o : FX) => ({ rd := true, cls := .vector, scope := bits o.f.toNat 4 3 } : Acc)
  let mask := fun (o : FX) (h : Hart) (t : State) (val : Nat → Bool) =>
    ∀ row e, row < h.cfg.vrows → e < h.cfg.vl → e < h.maskRow →
      h.maskBit (Sparse.get 0 t.h.vec.m o.d.toNat) row e = val (row * h.cfg.vl + e)
  (∀ (o : FX) (s : State), o.z = 0 → o.imm = 0 → o.f.toNat < 128 → o.f.toNat % 8 < 6 → bits o.f.toNat 4 3 < 6 →
    s.h.fits [.z64] [] [o.a.toNat, o.b.toNat] → o.d.toNat < 8 → s.h.maskFine (s.h.fxMask o) →
    (s.h.cfg.vl = 0 → exec (.vwait o) s = .next (s.advance 8)) ∧
    (∀ es sat t0, s.h.cfg.vl ≠ 0 →
      let addrs := s.h.img o.a.toNat
      let comps := s.h.img o.b.toNat
      let active := vwaitActive o s.h
      resolveElts s s.h (look o) false (vwaitAlign o) (vwaitElts o s.h addrs active) = .ok es →
      vwaitPoll o s s.h comps (2 ^ (s.h.cfg.vl * s.h.cfg.vrows) - 1) es 0 = .ok (sat, t0) →
      (sat = active → ∃ t, exec (.vwait o) s = .next t ∧ mask o s.h t (fun _ => false) ∧
        { t with h := t0.h } = t0 ∧ t.h.pc = s.h.pc + 8 ∧ t.h.vq = s.h.vq) ∧
      (sat ≠ active → exec (.vwait o) s = .next (t0.hold (.vwait o) [s.x o.c] [addrs, comps] active sat))) ∧
    (∀ ps,
      let w := 8 * vwaitBytes o
      let addr := s.h.elem .z64 (s.h.img o.a.toNat) 0 0
      let seen := holdsCond (o.f.toNat % 8) (BitVec.ofNat w (s.held ps))
        (BitVec.ofNat w (s.h.elem .z64 (s.h.img o.b.toNat) 0 0))
      s.h.cfg.vl = 1 → s.h.cfg.vrows = 1 → (s.h.fxMask o).sel s.h 0 0 = true → addr % vwaitBytes o = 0 →
      s.canAccess (look o) false addr (vwaitBytes o) ps → s.canAccess { look o with acq := true } false addr (vwaitBytes o) ps →
      ∃ t, exec (.vwait o) s = .next t ∧ t.h.pc = s.h.pc + 8 ∧
        (seen → t.h.vq = s.h.vq) ∧ (¬ seen → ∃ p, t.h.vq = some p ∧ p.instr = .vwait o ∧ p.mask = 1 ∧ p.sat = 0))) ∧
  (∀ (o : FX) (s : State) (p : Pending) (n : Word) (addrs comps : Nat),
    let b := s.backTo p
    let h : Hart := { b.h with cfg := { b.h.cfg with vl := p.vl, vrows := p.vrows } }
    s.input.who = s.h.key → s.h.live = true → s.h.vq = some p → p.instr = .vwait o → p.xs = [n] → p.vs = [addrs, comps] →
    (∀ es sat t0, resolveElts b h (look o) false (fun _ => []) (vwaitElts o h addrs p.mask) = .ok es →
      vwaitPoll o b h comps s.input.value es p.sat = .ok (sat, t0) →
      (sat = p.mask → ∃ t, exec .vwaitEnd s = .next t ∧ t.h.vq = none ∧ t.h.pc = s.h.pc ∧ t.h.plv = s.h.plv ∧
        mask o h t (fun _ => false)) ∧
      (sat ≠ p.mask → exec .vwaitEnd s = .next { t0 with
        h := { t0.h with pc := s.h.pc, plv := s.h.plv, po := s.h.po, vq := some { p with sat := sat } } })) ∧
    (s.h.wait = none → n ≠ 0 → ∃ t, exec .waitTimeout s = .next t ∧ t.h.vq = none ∧ t.h.pc = s.h.pc ∧ t.mem = s.mem ∧
      mask o h t (fun i => bit p.mask i && !bit p.sat i)))

/-- R232, R249, R250, R251, R252, R255: CHCFG installs the body that its following units give and goes on behind them; CHEND takes
the body and its links away and frees their ports; CHLNK binds a free port, or waits for one that is held, and a freed port goes to
the hart first in line; CHWAIT writes the released count where no run is open and waits where one is. What CHEND leaves of CHSTAT,
and when a port is granted, is the model's (log entries 1 and 32). -/
def Obligations.ChainConfiguration : Prop :=
  (∀ (o : FX) (s t : State) (us : List IssueUnit) (pc : Word) (b : Body),
    o.d = 0 → o.a = 0 → o.b = 0 → fxPlain o → o.imm.toNat < 2 ^ 14 → bits o.imm.toNat 11 3 ≤ 4 → s.h.parked = false →
    fetchBody s (s.codeEnd s.h.pc.toNat) (s.h.pc + 8) 0 (o.imm.toNat % 16 + 1) = ⟨us, pc, t, none⟩ →
    unitFault s us (bit o.imm.toNat 10) = none →
    makeBody t us (bits o.imm.toNat 4 6) (bit o.imm.toNat 10) (bits o.imm.toNat 11 3) = .ok b →
    ∃ u, exec (.chcfg o) s = .next u ∧ u.h.chain.body = some b ∧ u.h.chain.links = [] ∧ u.h.chr.inst = true ∧
      u.h.chr.nn = b.nodes.length ∧ u.h.chr.le = false ∧ u.h.chr.lw = false ∧ u.h.chr.res = false ∧ u.h.pc = pc ∧
      u.h.x = s.h.x ∧ u.h.vec = s.h.vec ∧ us.length = o.imm.toNat % 16 + 1 ∧ b.sb = bits o.imm.toNat 4 6 ∧
      b.rowMode = bit o.imm.toNat 10 ∧ b.wnc = bits o.imm.toNat 11 3) ∧
  (∀ (o : FI) (s : State), o.d = 0 → o.a = 0 → o.f = 0 → o.imm = 0 → s.h.parked = false →
    ∃ t, exec (.chend o) s = .next t ∧
      t.h = { s.h with
        pc := s.h.pc + 8, chain := { s.h.chain with body := none, links := [] }
        chr := { s.h.chr with inst := false, nn := 0, le := false, lw := false, res := false } } ∧
      (∀ b ∈ s.h.chain.links, (t.port s.h.coreKey (portOf b.west b.inbound)).holder = none) ∧
      t.mem = s.mem ∧ t.harts = s.harts ∧ (s.h.chain.run = none → { t with h := s.h, cores := s.cores } = s)) ∧
  (∀ (o : FI) (s : State) (b : Body),
    let q := o.imm.toNat % 16
    let west := bit o.imm.toNat 4
    let inbound := bit o.imm.toNat 5
    let p := portOf west inbound
    let qs := s.bodyQueues
    o.d = 0 → o.a = 0 → o.f = 0 → o.imm.toNat < 64 → s.h.chain.body = some b → s.h.parked = false →
    (if inbound then q ∈ qs.2 ∧ q ∉ qs.1 else q ∈ qs.1 ∧ q ∉ qs.2) →
    (∀ l ∈ s.h.chain.links, l.queue ≠ q ∧ ¬ (l.west = west ∧ l.inbound = inbound)) →
    ((s.port s.h.coreKey p).holder = none → (s.port s.h.coreKey p).waiters = [] →
      ∃ t, exec (.chlnk o) s = .next t ∧ (t.port s.h.coreKey p).holder = some s.h.key ∧
        t.h = { s.h with
          pc := s.h.pc + 8, chain := { s.h.chain with links := s.h.chain.links ++ [⟨q, west, inbound⟩] }
          chr := { s.h.chr with le := s.h.chr.le || !west, lw := s.h.chr.lw || west } }) ∧
    ((s.port s.h.coreKey p).holder ≠ none ∨ (s.port s.h.coreKey p).waiters ≠ [] →
      ∃ t v, exec (.chlnk o) s = .next t ∧ t.h.vq = some v ∧ v.instr = .chlnk o ∧ t.h.pc = s.h.pc + 8 ∧
        (t.port s.h.coreKey p).waiters = (s.port s.h.coreKey p).waiters ++ [s.h.key])) ∧
  (∀ (o : FI) (s : State) (k : Nat) (rest : List Nat) (v : Pending),
    let x := s.port s.input.who s.input.which
    x.holder = none → x.waiters = k :: rest → (s.hartAt k).key = k → (s.hartAt k).vq = some v → v.instr = .chlnk o →
    s.input.who = (s.hartAt k).coreKey → s.input.which = portOf (bit o.imm.toNat 4) (bit o.imm.toNat 5) →
    ∃ t, exec .linkPortGrant s = .next t ∧ (t.port s.input.who s.input.which).holder = some k ∧
      (t.port s.input.who s.input.which).waiters = rest ∧ (t.hartAt k).vq = none ∧
      (t.hartAt k).chain.links =
        (s.hartAt k).chain.links ++ [⟨o.imm.toNat % 16, bit o.imm.toNat 4, bit o.imm.toNat 5⟩]) ∧
  (∀ (o : FI) (s : State), o.a = 0 → o.f = 0 →
    let open_ := s.h.chain.run.isSome && !s.h.parked
    (open_ = true → exec (.chwait o) s = .next { s with h := { s.h with wait := some (.chwait o), stalled := false } }) ∧
    (open_ = false → exec (.chwait o) s = .next ((s.setX o.d s.h.chwaitWord).advance 8))) ∧
  (∀ (o : FI) (s : State), s.input.who = s.h.key → s.h.live = true → s.h.wait = some (.chwait o) →
    let open_ := s.h.chain.run.isSome && !s.h.parked
    let ends : Out := .next ((({ s with h := { s.h with wait := none } }).setX o.d s.h.chwaitWord).advance 8)
    (open_ = false → exec .chwaitWake s = ends) ∧ (open_ = true → exec .chwaitWake s = .next s) ∧
    (o.imm ≠ 0 → exec .waitTimeout s = ends))

/-- R236, R237, R244, R245, R246, R251, R253, R261: CHRUN opens a run that holds the values read at it, at cursor 0, streaming
unless CHPOL.NOCH is 1; a beat, the resumption of a gated unit and a temporal strip change none of those values and never move the
cursor back, and no scalar register; a run that has reached its end closes, its shadow registers zero and every other vector
register as it was. A parked run goes on at its CHRUN. A beat at an elementwise node, its token held back by gating or not, takes
the beat at the head of the node's queue and puts the results of its elements into the queue it writes; a beat at which every sink
of a chain of one segment holds one element or row more moves the cursor and CHCUR on by one and performs the stores of that
element, and no others. The order of the beats of a run, the level of its accesses and when its sinks release are the model's (log
entries 1, 23, 36 and 38). -/
def Obligations.ChainRuns : Prop :=
  (∀ (o : FI) (s : State) (b : Body),
    let n := if bit o.f.toNat 1 then none else some (if bit o.f.toNat 0 then o.imm.toNat else (s.x o.a).toNat)
    s.h.chain.body = some b → bodyLacks s.h b = none → chrunFields o = [] → s.h.parked = false →
    bindCauses s b n n.isNone = [] →
    ∃ t, exec (.chrun o) s = .next t ∧ t.h.pc = s.h.pc + 8 ∧ t.h.chr.brk = 0 ∧ t.h.chr.deg = false ∧ t.mem = s.mem ∧
      (s.h.chain.links ≠ [] ∨ (n ≠ some 0 ∧ ¬ (b.rowMode = true ∧ s.h.cfg.vl = 0 ∧ n ≠ none)) →
        t.h.chr.run = true ∧ t.h.chr.chcur = 0 ∧ t.h.chr.res = n.isNone ∧ t.h.vec = s.h.vec ∧ t.h.x = s.h.x ∧
        ∃ r, t.h.chain.run = some r ∧ r.pc = s.h.pc ∧ r.plv = s.h.plv ∧ r.n = n ∧ r.body = b ∧ r.xs = s.h.x ∧
          r.vs = s.h.vec.v ∧ r.ms = s.h.vec.m ∧ r.cfg = s.h.cfg ∧ r.frm = s.h.ar.frm ∧ r.srseed = s.h.ar.srseed ∧
          r.tensors = s.h.tensors ∧ r.cur = 0 ∧ r.mode = (if s.h.chr.noch then .temporal else .chained)) ∧
      (∀ m, s.h.chain.links = [] → n = some m → m = 0 ∨ (b.rowMode = true ∧ s.h.cfg.vl = 0) →
        t.h.chain.run = none ∧ t.h.chr.run = false ∧ t.h.chr.chcur = word m)) ∧
  (∀ (o : FI) (s : State) (b : Body) (r : Run), s.h.chain.body = some b → bodyLacks s.h b = none → chrunFields o = [] →
    s.h.chain.run = some r → r.mode = .parked → r.pc = s.h.pc →
    ∃ t r', exec (.chrun o) s = .next t ∧ t.h.pc = s.h.pc + 8 ∧ t.h.chain.run = some r' ∧ r.goesOn r' ∧ r'.mode = .temporal ∧
      t.h.x = s.h.x ∧ t.mem = s.mem) ∧
  (∀ (i : Instr) (s : State) (k : Nat) (r : Run), i = .chainBeat ∨ i = .gatedUnitResume → s.input.who = k →
    s.runOf k = some r → r.mode = .chained → (s.hartAt k).launch ≠ none → (s.hartAt k).frozen = false →
    ∃ t r', exec i s = .next t ∧ t.runOf k = some r' ∧ r.goesOn r' ∧ r'.mode = .chained ∧
      (t.hartAt k).x = (s.hartAt k).x ∧ (t.hartAt k).pc = (s.hartAt k).pc ∧ (t.hartAt k).plv = (s.hartAt k).plv) ∧
  (∀ (i : Instr) (s : State) (k a b row start : Nat) (r : Run) (n : Node) (op : ElemOp) (f : Fmt) (v : List Nat) (rest : List Tok),
    let c := s.segment k r
    let j := s.input.which
    i = .chainBeat ∨ i = .gatedUnitResume → s.input.who = k → s.runOf k = some r → r.mode = .chained → r.breaks = [] →
    (s.hartAt k).live = true → r.queues.length = 16 → a < 16 → b < 16 → a ≠ b → j < 16 → c.ns[j]? = some n → n.role = .elem op →
    n.srcs = [(48 + a, f)] → n.writes = [b] → n.mask.on = false → c.readers .chained a = [j] → (c.queueFmt a).width = f.width →
    (r.nodes.getD j {}).ended = false → (r.queue a).toks = .beat row start v :: rest → (r.queue a).taken = [] →
    (r.queue b).occ < 8 → row < 2 ^ 70 → start + v.length < 2 ^ 70 → (r.body.rowMode = false → row = 0) →
    let first := if r.body.rowMode then row * c.inLen (c.rowLens r) n + start else start
    ∃ t r' w, exec i s = .next t ∧ t.runOf k = some r' ∧ r.goesOn r' ∧ (r'.queue a).toks = rest ∧
      (r'.queue b).toks = (r.queue b).toks ++ [.beat row start w] ∧ w.length = v.length ∧
      ∀ e x, v[e]? = some x →
        w[e]? = some (op.eval n.rm (if op.rounds then c.draw n j (first + e) else 0) x 0 0).1) ∧
  (∀ (i : Instr) (s t0 : State) (k : Nat) (r : Run) (x : HeldStore) (xs : List HeldStore),
    let c := s.segment k r
    i = .chainBeat ∨ i = .gatedUnitResume → s.input.who = k → 16 ≤ s.input.which → (s.hartAt k).chain.links = [] →
    s.chainOf k = ([k], true) → s.runOf k = some r → r.mode = .chained → r.breaks = [] → (s.hartAt k).live = true →
    r.cur < 2 ^ 69 → c.held r ≠ [] → (∀ u ∈ c.held r, u = r.cur + 1) → c.mergeStops s = false →
    r.rows = [] → r.pushes = [] → r.pulled = [] → (r.stores.filter fun y => y.unit = r.cur) = x :: xs →
    (∀ y ∈ x :: xs, y.op = none ∧ y.tile = x.tile) → storesFault s c.h r.id (x :: xs) = none →
    vecWrite s c.h { wr := true, cls := .vector, port := some (r.id, x.g) } x.tile (fun _ => [])
      ((x :: xs).map fun y => ⟨y.g, y.addr, eltBytes y.fmt⟩) ((x :: xs).map fun y => HeldStore.put y (r.n = some (r.cur + 1))) = .ok t0 →
    ∃ t r', exec i s = .next t ∧ t.runOf k = some r' ∧ r.goesOn r' ∧ r'.cur = r.cur + 1 ∧
      (t.hartAt k).chr.chcur = word (r.cur + 1) ∧ r'.stores = (r.stores.filter fun y => y.unit ≠ r.cur) ∧ t.mem = t0.mem ∧
      r'.queues = r.queues) ∧
  (∀ (s : State) (k total : Nat) (r : Run), s.input.who = k → s.chainOf k = ([k], true) → s.runOf k = some r →
    (s.hartAt k).muSaved = none → r.mode = .temporal → r.breaks = [] → (s.hartAt k).launch ≠ none → (s.hartAt k).frozen = false → r.n = some total →
    let tl := max 1 ((s.segment k r).stripLen r)
    let again := (s.hartAt k).chr.pol && !(s.hartAt k).chr.noch
    let r1 : Run := { r.restart .temporal with n := some total }
    let s1 := (s.setRun k r1).emptyPorts k
    (total ≤ r.cur → exec .temporalStrip s = .next s1 ∧ s1.runOf k = some r1 ∧ r.goesOn r1) ∧
    (r.cur < total → again = true → r.cur % tl = 0 →
      ∃ t r', exec .temporalStrip s = .next t ∧ t.runOf k = some r' ∧ r.goesOn r' ∧ r'.mode = .chained ∧ r'.cur = r.cur) ∧
    (∀ t0, r.cur < total → again = false ∨ r.cur % tl ≠ 0 →
      let n := (s1.segment k r1).pullable s1 r1 (min (tl - r.cur % tl) (total - r.cur))
      n ≠ 0 → s1.runStrip [k] r.cur total tl (total + 1) n = some t0 →
      exec .temporalStrip s = .next t0 ∧ ∃ r', t0.runOf k = some r' ∧ r.goesOn r' ∧ r'.mode = .temporal ∧
        (t0.hartAt k).x = (s.hartAt k).x)) ∧
  (∀ (s : State) (k : Nat) (r : Run), s.input.who = k → (s.hartAt k).key = k → s.chainOf k = ([k], true) → s.runOf k = some r →
    (s.hartAt k).launch ≠ none → (s.hartAt k).frozen = false → r.n = some r.cur → (r.mode = .temporal ∨ (r.mode = .chained ∧ ∀ x ∈ r.nodes, x.ended = true)) →
    ∃ t, exec .chainRunComplete s = .next t ∧ t.mem = s.mem ∧ t.runOf k = none ∧ (t.hartAt k).chr.run = false ∧
      (t.hartAt k).chr.tmp = false ∧ (t.hartAt k).chr.chcur = (s.hartAt k).chr.chcur ∧
      (∀ q ∈ s.runQueues k r, (t.hartAt k).img (r.body.sb + q) = 0) ∧
      ∀ n, (∀ q ∈ s.runQueues k r, n ≠ r.body.sb + q) → (t.hartAt k).img n = (s.hartAt k).img n)

/-- R252, R254, R256, R431 to R433, R438 to R442: a fault of a port parks the run of an unlinked hart at its cursor and traps at its
CHRUN with STREAM; a record of the width its queue takes enters that queue, and one of another width, a limit that has passed, a
neighbour's parked die and an error in the body close the run, each with its BRK code and cause. A closing break leaves no run, no
body and no links, and each segment of the chain whose run was not parked traps at its CHRUN, or is frozen where its trap cannot be
written. When a break is found, the values it reports that no rule states, and the rows of MROWSL that a break keeps, are the
model's (log entries 1, 24 and 55). -/
def Obligations.ChainBreaks : Prop :=
  (∀ (s : State) (k g : Nat) (r : Run), s.input.who = k → s.chainOf k = ([k], true) → s.runOf k = some r →
    (s.hartAt k).key = k → (s.hartAt k).launch ≠ none → (s.hartAt k).frozen = false → r.faultAt = some g →
    let t := if r.mode = .chained then s.drainTo [k] g else s
    ∀ (r' : Run) (c : Cause), t.runOf k = some r' → r'.faultAt = some r'.cur → streamCause r'.breaks r'.cur = some c →
      (∃ u r'', exec .chainStreamBreak s = .next u ∧ u.runOf k = some r'' ∧ r'.goesOn r'' ∧ r''.cur = r'.cur ∧
        r''.mode = .parked ∧ (u.hartAt k).chr.brk = 0x02 ∧ (u.hartAt k).chr.deg = true ∧
        (u.hartAt k).chain.body = (s.hartAt k).chain.body ∧
        (if r.mode = .chained then (u.hartAt k).chr.qstat = r.qstat else (u.hartAt k).chr.tmp = true) ∧
        (c.code = 0x72 → (u.hartAt k).frozen = true) ∧ ((u.hartAt k).frozen = false → s.trapsTo u k c r.pc)) ∧
      ((∀ b ∈ r'.breaks, b.code ≠ 0x72) → c.code = 0x30 ∧ c.index = r'.cur ∧ c.done = r'.cur ∧
        (∃ b ∈ r'.breaks, c.sub = b.code ∧ c.addr = b.addr) ∧ ∀ b ∈ r'.breaks, c.sub ≤ b.code)) ∧
  (∀ (s : State) (k q : Nat) (rc : LinkRec) (rest : List LinkRec) (r : Run),
    let p := s.input.which
    let x := s.port s.input.who p
    let want := widthCode ((s.segment k r).queueFmt q).width
    x.holder = some k → x.fifo = rc :: rest → s.runOf k = some r → (s.hartAt k).coreKey = s.input.who →
    (s.hartAt k).queueAt p = some q → r.mode = .chained → (s.hartAt k).launch ≠ none → (s.hartAt k).frozen = false →
    (rc.ew = want → r.canArrive q rc.tok false = true →
      ∃ t, exec .linkRecordReceive s = .next t ∧ (t.port s.input.who p).fifo = rest ∧ t.runOf k = some (r.arrive q rc.tok) ∧
        t.mem = s.mem) ∧
    (rc.ew ≠ want → exec .linkRecordReceive s = .next (s.closeChain k 0x07 fun j cur =>
      { code := 0x34, sub := if j = k then 0x01 else 0x02, tval := rc.ew + 16 * want, addr := rc.ew + 16 * want,
        index := cur, done := cur }))) ∧
  (∀ (s : State) (k : Nat) (r : Run), s.input.who = k → s.runOf k = some r → r.mode ≠ .parked →
    (s.hartAt k).launch ≠ none → (s.hartAt k).frozen = false →
    (s.input.which = 1 → (s.hartAt k).chain.links ≠ [] →
      exec .linkPortTimeout s = .next (s.closeChain k 0x03 fun j cur =>
        { code := 0x31, sub := if j = k then 1 else 3, index := cur, done := cur })) ∧
    (s.input.which = 2 → (∃ b ∈ (s.hartAt k).chain.links, s.portWaits (s.hartAt k) r b = true) →
      exec .linkPortTimeout s = .next (s.closeChain k 0x03 fun j cur =>
        { code := 0x31, sub := if j = k then 2 else 3, index := cur, done := cur })) ∧
    (s.input.which = 4 →
      (∃ j ∈ (s.chainOf k).1, ∃ b ∈ (s.hartAt j).chain.links, s.linkCut (s.hartAt j) b.west = true) →
      exec .linkPortTimeout s = .next (s.closeChain k 0x03 fun _ cur =>
        { code := 0x31, sub := 4, index := cur, done := cur }))) ∧
  (∀ (s : State) (k q : Nat) (west : Bool) (r : Run),
    let die := ((s.hartAt k).farPort west false).1 / 64
    s.input.who = k → s.runOf k = some r → (s.hartAt k).chain.links = [⟨q, west, false⟩] →
    (s.hartAt k).launch ≠ none → (s.hartAt k).frozen = false → die ≠ (s.hartAt k).die → s.dieParked die = true →
    (r.mode = .chained ∧ ((r.queue q).head (16 + portOf west false)).isSome = true) ∨
      (r.mode = .temporal ∧ r.n ≠ some r.cur) →
    exec .peerParkedBreak s = .next (s.closeChain k 0x04 fun _ cur =>
      { code := 0x32, sub := 0x01, die := some die, index := cur, done := cur })) ∧
  (∀ (s : State) (k : Nat) (b : Body), s.input.who = k → (s.hartAt k).chain.body = some b →
    (s.runOf k = none → ∃ t, exec .bodyErrorBreak s = .next t ∧ t.mem = s.mem ∧
      ((s.hartAt k).key = k → (t.hartAt k).chain.body = none ∧ (t.hartAt k).chain.links = [] ∧
        (t.hartAt k).chr.inst = false)) ∧
    (∀ r, s.runOf k = some r → (s.hartAt k).key = k → (s.hartAt k).launch ≠ none → (s.hartAt k).frozen = false →
      ∃ t, exec .bodyErrorBreak s = .next t ∧ s.closedAs t k 0x06 r ∧
        (r.mode ≠ .parked → (t.hartAt k).frozen = false → s.trapsTo t k { code := 0x33, sub := 0x02 } r.pc))) ∧
  (∀ (s : State) (k j brk : Nat) (r : Run) (cause : Nat → Nat → Cause), j ∈ (s.chainOf k).1 → s.runOf j = some r →
    (s.hartAt j).key = j → (∀ cur, (cause j cur).code ≠ 0x72) →
    let t := s.closeChain k brk cause
    s.closedAs t j brk r ∧
      (r.mode ≠ .parked → (s.hartAt j).launch ≠ none → (s.hartAt j).frozen = false → (t.hartAt j).frozen = false →
        ∃ cur, r.cur ≤ cur ∧ s.trapsTo t j (cause j cur) r.pc))

/-- R263, R265, R268, R269, R270: ECP submits the command at an aligned address and writes 0, or 1 where no entry is free; TCOPY and
TROT submit theirs, or wait in the vector queue for an entry; ENGQ submits the commands of a register group in order up to the first
that finds no entry, and says in mD which it submitted. A submitted command takes the lowest free entry of the core's queue and the
next number, and no other entry changes. The lowest free entry is the model's (log entry 18). -/
def Obligations.EngineSubmissions : Prop :=
  let accepted := fun (s t : State) (e : Nat) (c : Cmd) =>
    t.cmdAt s.h.coreKey e = some { c with id := s.serial } ∧ t.serial = s.serial + 1 ∧
      (∀ k, k ≠ e → t.cmdAt s.h.coreKey k = s.cmdAt s.h.coreKey k) ∧ (∀ k, k ≠ s.h.coreKey → t.coreAt k = s.coreAt k) ∧
      t.mem = s.mem ∧ t.launches = s.launches ∧ t.h.pc = s.h.pc + 8
  (∀ (o : FX) (s : State) (ps : List PieceRef) (c : Cmd),
    let acc : Acc := { rd := true, cls := .vector }
    let addr := (s.x o.a).toNat
    let r := readPieces s s.h acc ps
    o.b = 0 → fxPlain o → o.imm = 0 → addr % 64 = 0 → s.canAccess acc false addr 64 ps →
    r.2.buildCmd 0 ((List.range 8).map (bytesWord r.1)) = .ok c →
    (r.2.freeEntry = none → exec (.ecp o) s = .next ((r.2.setX o.d 1).advance 8)) ∧
    (∀ e, r.2.freeEntry = some e → ∃ t, exec (.ecp o) s = .next t ∧ accepted r.2 t e c ∧ t.h.x = (r.2.h.setX o.d.toNat 0).x)) ∧
  (∀ (o : FX) (s : State) (c : Cmd), tcopyFields o = [] → s.buildCmd 0 (tcopyWords o (s.x o.b)) = .ok c →
    (s.freeEntry = none → exec (.tcopy o) s = .next (s.hold (.tcopy o) [s.x o.b] [] 0 0)) ∧
    (∀ e, s.freeEntry = some e → ∃ t, exec (.tcopy o) s = .next t ∧ accepted s t e c ∧ t.h.x = s.h.x)) ∧
  (∀ (o : FX) (s : State) (c : Cmd), trotFields o = [] →
    (s.x o.c = 0 ∨ (s.x o.a).toNat + (s.x o.c).toNat ≤ s.h.winBytes) →
    s.buildCmd 0 (trotWords o (s.x o.a) (s.x o.b) (s.x o.c)) = .ok c →
    (s.freeEntry = none → exec (.trot o) s = .next (s.hold (.trot o) [s.x o.a, s.x o.b, s.x o.c] [] 0 0)) ∧
    (∀ e, s.freeEntry = some e → ∃ t, exec (.trot o) s = .next t ∧
      accepted s t e { c with dst := { c.dst with pa := s.h.winBase + (s.x o.b).toNat } } ∧ t.h.x = s.h.x)) ∧
  (∀ (o : FX) (s : State) (cmds : List (Nat × Cmd)),
    let n := (s.x o.b).toNat
    o.c = 0 → o.z = 0 → o.f = 0 → o.imm = 0 → n ≤ 256 → o.d.toNat < 8 →
    (o.m ≠ 0 → Sparse.get false s.h.vec.merr o.m.toNat = false) →
    (∀ g, g < ceilDiv (64 * n) s.h.cap → o.a.toNat + g < s.h.cfg.vnr ∧ Sparse.get false s.h.vec.verr (o.a.toNat + g) = false) →
    s.buildAll (s.engqCommands o n) = .ok cmds →
    let r := acceptUpTo cmds s
    ∃ t, exec (.engq o) s = .next t ∧ t.h.pc = s.h.pc + 8 ∧ t.h.x = s.h.x ∧ t.h.vec.v = s.h.vec.v ∧ t.cores = r.1.cores ∧
      t.mem = s.mem ∧ r.2 <+: cmds.map (·.1) ∧
      ∀ i, bit (Sparse.get 0 t.h.vec.m o.d.toNat) i =
        if i < n then r.2.contains i else bit (Sparse.get 0 s.h.vec.m o.d.toNat) i)

/-- R101, R265 to R267, R269, R270, R324, R446: an engine reads the source of a copy block by block, in the order of the bytes, and
each block granule by granule; a block that can land does so granule by granule, and with its last granule the arrival word counts
it; a command whose every byte has landed, one of OP 0 and one that failed leave their entry, the failed one with FLT and a record
of its strip. The current rotations of a cluster begin together, read their blocks, and pass them around the ring. The order of the
blocks, and reads before landings, are the model's (log entries 1 and 18). -/
def Obligations.EngineWork : Prop :=
  let others := fun (s t : State) (core e : Nat) => ∀ k, k ≠ e → t.cmdAt core k = s.cmdAt core k
  -- the command c' after the granule at its turn of the block of its source is read
  let reads := fun (s : State) (c c' : Cmd) =>
    let i := c.bytes.length
    let n := c.block false i c.len
    let g := c.nextPart false i n
    let got := fun (j : Nat) => if j ∈ g then s.readByte c.src.key (c.byteAddr false (i + j)) else Sparse.get 0#8 c.stage j
    (∀ j ∈ g, j < n ∧ ∀ k ∈ g, c.byteAddr false (i + j) / 16 = c.byteAddr false (i + k) / 16) ∧
    (c.lastPart false i n = false →
      { c' with part := c.part, stage := c.stage } = c ∧ c'.part = c.part + 1 ∧ ∀ j, Sparse.get 0#8 c'.stage j = got j) ∧
    (c.lastPart false i n = true → c' = { c with
      part := 0, stage := [], bytes := c.bytes ++ (List.range n).map got
      readDone := c.readDone || (decide (i + n = c.len) && decide (c.op ≠ 3))
      sent := c.sent || (decide (i + n = c.len) && decide (c.op = 3)) })
  (∀ (i : Instr) (s : State) (c : Cmd),
    let core := s.input.who
    let e := s.input.which
    s.cmdAt core e = some c → c.frozen = false →
    (i = .engineNone → c.op = 0 → ∃ t, exec i s = .next t ∧ t.cmdAt core e = none) ∧
    ((i = .copy ∧ c.op = 1) ∨ (i = .tensorCopy ∧ c.op = 2) → c.readDone = false →
      let b := c.bytes.length
      let n := c.block false b c.len
      (c.op = 1 → n = min (c.len - b) (64 - c.byteAddr false b % 64)) ∧ n ≤ c.len - b ∧
      (Sparse.wf 0#8 c.stage = true → s.partFault c core false b n = none →
        ∃ t c', exec i s = .next t ∧ t.mem = s.mem ∧ others s t core e ∧ t.cmdAt core e = some c' ∧ reads s c c')) ∧
    (i = .engineBlockLand → c.readDone = true → c.done < c.bytes.length →
      let n := c.block true c.done c.bytes.length
      let js := c.nextPart true c.done n
      let t := s.landPart c core n
      (c.op = 3 → c.dst.pa + c.done + n ≤ c.win.1 + c.win.2) → s.partFault c core true c.done n = none →
      (∀ j ∈ js, j < n ∧ ∀ k ∈ js, c.byteAddr true (c.done + j) / 16 = c.byteAddr true (c.done + k) / 16) ∧
      (c.op = 1 → (∀ j ∈ js, ∃ d k, homeOf (c.dst.pa + c.done + j) = .dram d ∨ homeOf (c.dst.pa + c.done + j) = .tile d k) →
        (∀ j ∈ js, t.readByte c.dst.key (c.dst.pa + c.done + j) = c.bytes.getD (c.done + j) 0) ∧
        ∀ b, (∀ j ∈ js, b ≠ c.dst.pa + c.done + j) → t.readByte c.dst.key b = s.readByte c.dst.key b) ∧
      (c.lastPart true c.done n = false → exec i s = .next (t.setCmd core e (some { c with part := c.part + 1 }))) ∧
      (c.lastPart true c.done n = true →
        let u := t.clearPoison ((List.range n).map fun j => c.byteAddr true (c.done + j))
        let c' : Cmd := { c with done := c.done + n, part := 0 }
        (c.aw = none → exec i s = .next (u.setCmd core e (some c'))) ∧
        (∀ pa, c.aw = some pa → u.rangePoisoned pa 16 = false →
          let a := u.arrivalAt pa
          let last := decide (c'.done = c.bytes.length) && c.fault.isNone
          let ev := c'.awEvent u core pa last (decide ((a.add n).gen ≠ a.gen))
          raceOf u ev = none →
          exec i s = .next (((u.record ev).store 0 pa (a.add n).bytes).setCmd core e (some c'))))) ∧
    (i = .engineCommandComplete → c.op ≠ 0 → c.op ≠ 4 → c.readDone = true → c.fault = none → c.done = c.bytes.length →
      exec i s = .next (s.endCmd core e c) ∧ (s.endCmd core e c).cmdAt core e = none ∧ others s (s.endCmd core e c) core e) ∧
    (∀ f, i = .copyFail → c.fault = some f → c.op ≠ 4 → c.readDone = true → c.done = c.bytes.length →
      let u := s.flagArrival core c
      let rec_ := u.cmdRec f 1 0 c.done false
      exec i s = .next ((u.holdFor f.by_.launch f.by_.strip rec_).endCmd core e c) ∧
        rec_.code = f.code ∧ rec_.sub = f.sub ∧ rec_.addr = f.addr ∧ rec_.index = 0 ∧ rec_.done = c.done ∧
        rec_.pc = f.by_.pc ∧ rec_.strip = f.by_.strip ∧ rec_.entry = f.by_.entry ∧
        (∀ pa, c.aw = some pa → s.rangePoisoned pa 16 = false →
          let ev := c.awEvent s core pa false false
          raceOf s ev = none →
          u = (s.record ev).store 0 pa ({ s.arrivalAt pa with flt := true } : Arrival).bytes))) ∧
  (∀ (s : State) (es : Vector Nat 4) (cs : Vector Cmd 4),
    let core := fun (j : Nat) => s.input.who / 16 * 64 + s.input.who % 16 * 4 + j
    let w : Fin 4 := Fin.ofNat 4 s.input.which
    (∀ j : Fin 4, s.rotation (core j) = some (es[j], cs[j]) ∧ cs[j].frozen = false) →
    ((∀ j : Fin 4, cs[j].peer = none) → ∃ t, exec .rotation s = .next t ∧ t.mem = s.mem ∧ ∀ j : Fin 4,
      t.cmdAt (core j) es[j] = some { cs[j] with peer := some (cs[j + 3].issuer es[j + 3]) }) ∧
    ((∀ j : Fin 4, cs[j].peer ≠ none) → cs[w].sent = false → cs[w].op = 3 → Sparse.wf 0#8 cs[w].stage = true →
      s.partFault cs[w] (core w) false cs[w].bytes.length (cs[w].block false cs[w].bytes.length cs[w].len) = none →
      ∃ t c', exec .rotation s = .next t ∧ t.mem = s.mem ∧ others s t (core w) es[w] ∧ t.cmdAt (core w) es[w] = some c' ∧
        reads s cs[w] c') ∧
    ((∀ j : Fin 4, cs[j].peer ≠ none ∧ cs[j].sent = true ∧ cs[j].readDone = false) →
      ∃ t, exec .rotation s = .next t ∧ t.mem = s.mem ∧ ∀ j : Fin 4,
        let p := cs[j + 3]
        t.cmdAt (core j) es[j] = some { cs[j] with bytes := p.bytes, len := p.len, readDone := true, fault := p.fault }))

/-- R283 to R287, R296 to R301: on a bandwidth die, MGCFG opens a session on the lowest free network and writes its word, or waits
for a network; MGFEED and MGPUSH add a feed or the tokens of their positions behind the items of a stream; MGPULL gives each active
position a token of the output where there are enough; MGCLOSE closes the streams and waits, and completes with OUT in x[D] once the
session has done its work; MGSTAT reads its state and counts. When a network is granted, and when a chain's MGPUSH is bound to its
stream, is the model's (log entries 1, 21 and 53). -/
def Obligations.MergeSessions : Prop :=
  (∀ (o : FX) (s : State) (ps : List PieceRef),
    let acc : Acc := { rd := true, cls := .vector }
    let addr := (s.x o.a).toNat
    let r := readPieces s s.h acc ps
    let ws := (List.range 8).map (bytesWord r.1)
    isBandwidth s.h.die = true → o.b = 0 → fxPlain o → o.imm = 0 → addr % 64 = 0 → s.canAccess acc false addr 64 ps →
    descCauses ws = [] →
    (∀ n, r.2.freeNet s.h.die = some n → Sparse.get [] r.2.netWait s.h.die = [] →
      ((r.2.sessionPlaces ws).map errs).flatten = [] → r.2.spillCauses ws = [] →
      let key := s.h.die * 4 + n
      let seq := ((Sparse.get {} s.nets key).seq + 1) % 256
      ∃ t x, exec (.mgcfg o) s = .next t ∧ t.sessionAt key = some x ∧ x.launch = s.h.launch.getD 0 ∧
        x.strip = s.h.stripId.toNat ∧ x.ctl = ws.getD 0 0 ∧ x.feeds = [] ∧ x.buf = [] ∧ x.inCount = 0 ∧ x.closing = false ∧
        t.h.x = (r.2.h.setX o.d.toNat (word (seq * 256 + n % 4))).x ∧ t.h.pc = s.h.pc + 8 ∧ t.mem = r.2.mem) ∧
    (r.2.freeNet s.h.die = none → ∃ t p, exec (.mgcfg o) s = .next t ∧ t.h.vq = some p ∧ p.instr = .mgcfg o ∧ p.vs = ws ∧
      Sparse.get [] t.netWait s.h.die = Sparse.get [] r.2.netWait s.h.die ++ [s.h.key])) ∧
  (∀ (o : FX) (s v : State) (k n : Nat) (before after : List Nat) (p : Pending),
    let die := s.input.who
    s.freeNet die = some n → Sparse.get [] s.netWait die = before ++ k :: after →
    (∀ l ∈ before, (s.hartAt l).live = false) → (s.hartAt k).live = true → (s.hartAt k).vq = some p → p.instr = .mgcfg o →
    let t := ({ s with netWait := Sparse.set [] s.netWait die (before ++ after) }).select k
    (t.backTo p).openSession o.d p.vs n = .ok v → exec .mergeNetworkGrant s = .next ((v.goOn t.h).select s.h.key)) ∧
  (∀ (o : FX) (s : State) (key : Nat) (x : Session) (f : Feed) (hd : Bool), isBandwidth s.h.die = true → mgfeedFields o = [] →
    s.liveSession (s.x o.a) = some (key, x) → s.streamCauses x (o.f.toNat % 16) = [] → s.buildFeed o x (s.x o.d) = .ok (f, hd) →
    x.frozen = false → x.failed = false →
    (x.pend < 32 → ∃ t y, exec (.mgfeed o) s = .next t ∧ t.sessionAt key = some y ∧
      y.feeds = x.feeds ++ [{ f with id := some s.serial }] ∧ f.stream = o.f.toNat % 16 ∧ f.staged = [] ∧
      Sparse.get none y.bound f.stream = some (f.launch, f.strip) ∧ t.h.pc = s.h.pc + 8 ∧ t.h.x = s.h.x ∧ t.mem = s.mem) ∧
    (32 ≤ x.pend → exec (.mgfeed o) s = .next (s.hold (.mgfeed o) [s.x o.a, s.x o.d] [] 0 0))) ∧
  (∀ (o : FX) (s : State) (a d : Word) (p : Pending) (key : Nat) (x : Session) (f : Feed) (hd : Bool),
    let u := s.backTo p
    s.input.who = s.h.key → s.h.live = true → s.h.vq = some p → p.instr = .mgfeed o → p.xs = [a, d] → mgfeedFields o = [] →
    u.liveSession a = some (key, x) → u.streamCauses x (o.f.toNat % 16) = [] → u.buildFeed o x d = .ok (f, hd) →
    x.frozen = false → x.failed = false → x.pend < 32 →
    ∃ t y, exec .mgfeedAccept s = .next t ∧ t.sessionAt key = some y ∧ y.feeds = x.feeds ++ [{ f with id := some s.serial }] ∧
      t.h.vq = none ∧ t.h.pc = s.h.pc) ∧
  (∀ (o : FX) (s : State) (key : Nat) (x : Session),
    let st := o.f.toNat % 16
    let m := s.h.fxMask o
    let tokens := ((List.range (s.h.cfg.vrows * s.h.cfg.vl)).filter fun i => m.sel s.h (i / s.h.cfg.vl) (i % s.h.cfg.vl)).map
      fun i => (s.h.elem .z64 (s.h.img o.b.toNat) (i / s.h.cfg.vl) (i % s.h.cfg.vl),
        s.h.elem .f32 (s.h.img o.c.toNat) (i / s.h.cfg.vl) (i % s.h.cfg.vl))
    isBandwidth s.h.die = true → o.d = 0 → o.imm = 0 → o.f.toNat < 32 → s.h.fits [.z64] [] [o.b.toNat, o.c.toNat] →
    s.h.maskFine m → s.liveSession (s.x o.a) = some (key, x) → s.streamCauses x st = [] → x.frozen = false → x.failed = false →
    ∃ t y f, exec (.mgpush o) s = .next t ∧ t.sessionAt key = some y ∧ y.feeds = x.feeds ++ [f] ∧ f.stream = st ∧
      f.staged = tokens ∧ f.finished = true ∧ t.h.pc = s.h.pc + 8 ∧ { t with nets := s.nets, h := s.h } = s) ∧
  (∀ (o : FX) (s : State) (key : Nat) (x : Session),
    let m := s.h.fxMask o
    let act := fun (i : Nat) => m.sel s.h (i / s.h.cfg.vl) (i % s.h.cfg.vl)
    let total := (List.range (s.h.cfg.vrows * s.h.cfg.vl)).countP act
    isBandwidth s.h.die = true → o.c = 0 → o.imm = 0 → o.f = 0 → s.h.fits [.z64] [o.d.toNat, o.d.toNat + 1] [] →
    s.h.maskFine m → s.liveSession (s.x o.a) = some (key, x) → s.owns x = true → x.out = 2 → total ≤ x.outq.length →
    ∃ t, exec (.mgpull o) s = .next t ∧ t.h.pc = s.h.pc + 8 ∧ t.h.vq = none ∧ t.h.x = (s.h.setX o.b.toNat (word total)).x ∧
      t.sessionAt key = some { x with outq := x.outq.drop total, outCount := x.outCount + total } ∧
      ∀ i, i < s.h.cfg.vrows * s.h.cfg.vl → act i = true →
        let tok := x.outq.getD ((List.range i).countP act) (0, 0)
        s.h.elem .z64 (t.h.img o.d.toNat) (i / s.h.cfg.vl) (i % s.h.cfg.vl) = tok.1 % 2 ^ 64 ∧
        s.h.elem .f32 (t.h.img (o.d.toNat + 1)) (i / s.h.cfg.vl) (i % s.h.cfg.vl) = tok.2 % 2 ^ 32) ∧
  (∀ (o : FX) (s : State) (key : Nat) (x : Session), isBandwidth s.h.die = true → o.b = 0 → o.c = 0 → o.m = 0 → o.z = 0 →
    o.imm = 0 → o.f.toNat < 2 → s.liveSession (s.x o.a) = some (key, x) → s.owns x = true →
    ∃ t p, exec (.mgclose o) s = .next t ∧ t.sessionAt key = some { x with closing := true, ending := 2 ^ (x.nin + 1) - 1 } ∧
      t.h.vq = some p ∧ p.instr = .mgclose o ∧ p.xs = [s.x o.a] ∧ t.h.pc = s.h.pc + 8 ∧ t.mem = s.mem) ∧
  (∀ (o : FX) (s : State) (key k : Nat) (x : Session) (p : Pending) (a : Word), s.input.who = key →
    s.sessionAt key = some x → x.closing = true → x.stopped = false → x.feeds = [] →
    (x.spilled = true → x.merged = true ∨ x.failed = true) → s.hartOf x.launch x.strip = some k →
    (s.hartAt k).vq = some p → p.instr = .mgclose o → p.xs = [a] →
    a.toNat = (Sparse.get {} s.nets key).seq % 256 * 256 + key % 4 →
    let st := if x.failed || x.held then (s, x) else Session.finish (s, x)
    st.2.failing = false →
    ∃ t, exec .mgcloseComplete s = .next t ∧ (t.hartAt k).vq = none ∧ (o.d ≠ 0 → (t.hartAt k).getX o.d.toNat = word st.2.outCount) ∧
      t.sessionAt key = if bit o.f.toNat 0 then some { st.2 with held := true, credited := true } else none) ∧
  (∀ (o : FX) (s : State) (key : Nat) (x : Session), isBandwidth s.h.die = true → o.b = 0 → fxPlain o → o.imm.toNat < 8 →
    s.liveSession (s.x o.a) = some (key, x) →
    ∃ t, exec (.mgstat o) s = .next t ∧ { t with trace := s.trace, h := s.h } = s ∧ t.h.pc = s.h.pc + 8 ∧
      t.h.x = (s.h.setX o.d.toNat (word (([x.stateWord (key % 4), x.inCount, x.outCount, if x.out = 1 then (x.area 0).done else 0, x.runCount, x.nans, x.pend,
        x.flags.toNat] : List Nat).getD o.imm.toNat 0))).x)

/-- R287, R293, R295, R297, R448: a read of an uncompressed feed adds the coordinate and the value at its place to the tokens that
wait; a token enters the buffer in its place by coordinate, and then by stream, and the buffer stays in that order; each pass step
of a closing session that spilled runs; a session's fault empties it and its owner holds the record. The order of the reads and
passes, and the spill of a session that emits by MGPULL, are the model's (log entries 1, 21 and 54). -/
def Obligations.MergeWork : Prop :=
  let inOrder := fun (l : List MTok) => l.Pairwise fun a b => a.c < b.c ∨ (a.c = b.c ∧ a.s ≤ b.s)
  (∀ (s : State) (key i : Nat) (x : Session) (f : Feed), s.input.who = key → s.sessionAt key = some x → x.stopped = false →
    x.nextFeed s.input.which = some i → x.feeds[i]? = some f → f.cr = false → f.pos < f.n →
    (∀ g ∈ f.grans, g.2.2 = s.readBytes (f.source g.1).1.key g.2.1 g.2.2.length) → (∀ pa, s.windowChecked pa = false) →
    (∀ src pa n, src < 2 → (f.source src).1.pa ≤ pa → pa + n ≤ (f.source src).1.pa + (f.source src).2.2 →
      s.deviceFault x.agent x.place s.windowChecked false (f.source src).1.key pa n = none) →
    ∃ t g, exec .mergeFeedRead s = .next t ∧ t.sessionAt key = some { x with feeds := x.feeds.set i g } ∧
      { g with grans := f.grans } = { f with
        staged := f.staged ++ [(ofBytes (s.readBytes f.lb.key (f.lb.pa + 8 * f.pos) 8),
          ofBytes (s.readBytes f.lc.key (f.lc.pa + 4 * f.pos) 4))]
        pos := f.pos + 1, finished := f.pos + 1 = f.n }) ∧
  (∀ (s : State) (key i : Nat) (x : Session) (f : Feed) (tok : Nat × Nat) (ts : List (Nat × Nat)), s.input.who = key →
    s.input.flag = false → s.sessionAt key = some x → x.stopped = false → x.failed = false → x.fault = none →
    x.feeds.findIdx? (fun g => g.stream = s.input.which) = some i → x.feeds[i]? = some f → f.staged = tok :: ts →
    Sparse.get 0 x.last s.input.which ≤ tok.1 + 1 → x.buf.length < 65536 → inOrder x.buf →
    ∃ t y, exec .mergeTokenEnter s = .next t ∧ t.sessionAt key = some y ∧ inOrder y.buf ∧
      y.buf.Perm (⟨tok.1, tok.2, s.input.which⟩ :: x.buf) ∧ y.inCount = x.inCount + 1 ∧
      Sparse.get 0 y.last s.input.which = tok.1 + 1) ∧
  (∀ (s : State) (key : Nat) (x : Session), s.input.who = key → s.sessionAt key = some x → x.stopped = false → x.failed = false →
    x.closing = true → x.spilled = true → x.merged = false → x.feeds = [] →
    let st := Session.passStep (s, x)
    exec .mergePass s = .next (st.1.putSession key st.2) ∧
      (x.buf = [] → x.runs.length ≤ 16 → st.2.fault = none → st.2.merged = true)) ∧
  (∀ (s : State) (key : Nat) (x : Session) (f : SesFault), s.input.who = key → s.sessionAt key = some x →
    x.frozen = false → x.failed = false → x.fault = some f →
    ∃ t y, exec .mergeFail s = .next t ∧ t.sessionAt key = some y ∧ y.failed = true ∧ y.failNo = s.serial ∧ y.feeds = [] ∧
      y.outq = [] ∧ y.buf = [] ∧ y.sel = [] ∧ y.fault = some f ∧ y.inCount = x.inCount ∧
      ∀ k, s.hartOf x.launch x.strip = some k → (s.hartAt k).launch ≠ none → (s.hartAt k).held.length < 4 →
        ∃ r, (t.hartAt k).held = (s.hartAt k).held ++ [r] ∧ r.code = f.code ∧ r.sub = f.sub ∧ r.index = f.index ∧
          r.addr = f.addr % 2 ^ 64 ∧ r.rd = f.rd ∧ r.wr = f.wr ∧ r.pc = f.pc ∧ r.scope = f.scope ∧ r.done = x.inCount ∧ r.master = 3)

/-- R310 to R313, R449: a rule that reads no memory leaves the walk as its row says, and nothing else of the package changes; a STEP
past the limit and a fourth payload word end the walk instead. A rule that reads memory inside the walk's region gives the bytes at
wA + OFS to a register, or to the payload; one outside it ends the walk. -/
def Obligations.WalkRules : Prop :=
  let leaves := fun (s : State) (p : Nat) =>
    let e : WalkEnd := { outc := 6, code := 0x44, sub := 0x25, addr := s.pointerWord s.wk p, asp := 2 }
    { s with wk := { s.wk with ended := some e } }
  (∀ (i : Instr) (s : State) (w : Walk), s.wk.running → s.wk.after i = some w → exec i s = .next { s with wk := w }) ∧
  (∀ (a : BitVec 3) (s : State), s.wk.running →
    (s.wk.limit ≤ s.wk.steps →
      exec (.walkStep a) s = .next { s with wk := { s.wk with ended := some { outc := 2, code := 0x45, sub := 2 } } }) ∧
    (s.wk.np = 3 →
      exec (.walkEmitf a) s = .next { s with wk := { s.wk with ended := some { outc := 5, code := 0x45, sub := 5 } } })) ∧
  (∀ (d a : BitVec 3) (z : BitVec 2) (x : BitVec 1) (o : BitVec 15) (s : State), s.wk.running →
    let n := 2 ^ z.toNat
    let p := (s.wk.w[a.toNat] + o.setWidth 64).toNat
    let v := ofBytes (s.readBytes s.wk.key (s.wk.base + p) n)
    (p + n ≤ s.wk.len → s.wk.rd = true →
      s.deviceFault s.wk.agent s.wk.core (s.walkChecked s.wk) false s.wk.key (s.wk.base + p) n = none →
      ∃ t, exec (.walkLdf d a z x o) s = .next t ∧ { t with wk := s.wk, trace := s.trace } = s ∧
        t.wk = s.wk.writes d (if x = 1 then (BitVec.ofNat (8 * n) v).signExtend 64 else word v)) ∧
    (s.wk.len < p + n → exec (.walkLdf d a z x o) s = .next (leaves s p))) ∧
  (∀ (a : BitVec 3) (n : BitVec 2) (o : BitVec 15) (s : State), s.wk.running →
    let p := (s.wk.w[a.toNat] + o.setWidth 64).toNat
    let bs := s.readBytes s.wk.key (s.wk.base + p) (8 * n.toNat)
    (p + 8 * n.toNat ≤ s.wk.len → s.wk.rd = true →
      s.deviceFault s.wk.agent s.wk.core (s.walkChecked s.wk) false s.wk.key (s.wk.base + p) (8 * n.toNat) = none →
      ∃ t pay, exec (.walkEmitr a n o) s = .next t ∧ { t with wk := s.wk, trace := s.trace } = s ∧
        t.wk = { s.wk with pay := pay, np := n.toNat, rpc := s.wk.rpc + 1, executed := s.wk.executed + 1 } ∧
        ∀ j : Fin 3, pay[j] = if j.val < n.toNat then word (bytesWord bs j.val) else 0) ∧
    (s.wk.len < p + 8 * n.toNat → exec (.walkEmitr a n o) s = .next (leaves s p)))

/-- R307, R308, R314, R315, R319, R449, R450, R318, R321: an accepted walk command starts at its home engine with its pointer and
arguments; MISS, END, the limit and a fault end it: the result record is written, one granule and then the other; with the second
the strip's counters count the walk, its arrival word gains 32, FPOL says whether the strip holds its record (0, and 2 for a fault;
not 1) and whether an ending by R313 shows and counts as a miss (2), and its command leaves the engine queue. A record that cannot
be written is reported whatever FPOL says, and FLT is set; that the walk then counts as the ending it reached is the model's choice
(log entry 31), and so is that the checks of a record are made with its first granule (log entry 18). TVLD gives a program slot of
the launch the rule words at a multiple of 64, where each is a rule; TVSTAT reads a walk counter of the strip, or the set of slots
that hold a program. When a walk starts, and the address a fault reports, are the model's (log entries 1 and 22). -/
def Obligations.WalksProgramsAndCounters : Prop :=
  (
  -- the walk k runs an ending: the outcome its record shows, and its report
  let ends := fun (i : Instr) (s : State) (k shown : Nat) (w : Walk) (c : Cmd) (e : Option WalkEnd) =>
    s.walkAt k = w ∧ w.active = true ∧ w.frozen = false ∧ s.walkCmd w = some c ∧ w.fpol ≤ 2 ∧
    ((i = .walkMiss ∧ k = s.wkNo ∧ shown = 1 ∧ e = none ∧ w.ended = none) ∨
    (i = .walkEndRule ∧ k = s.wkNo ∧ shown = 0 ∧ e = none ∧ w.ended = none) ∨
    (∃ x, i = .walkAbnormalEnd ∧ k = s.input.who ∧ w.ending = some x ∧
      shown = (if w.fpol = 2 ∧ 2 ≤ x.outc ∧ x.outc ≤ 5 then 1 else x.outc) ∧
      e = if w.fpol = 0 ∨ (w.fpol = 2 ∧ ¬ (2 ≤ x.outc ∧ x.outc ≤ 5)) then some x else none))
  let counted := fun (a b : WalkCnt) (shown steps : Nat) => b = { a with
    outst := a.outst - 1, found := if shown = 0 then satAdd a.found 1 else a.found
    missed := if shown = 1 then satAdd a.missed 1 else a.missed
    other := if 2 ≤ shown then satAdd a.other 1 else a.other, steps := satAdd a.steps steps }
  (∀ (s : State) (c : Cmd),
    let core := s.input.who
    let e := s.input.which
    let eng := homeEngine c.src.pa
    let die := s.dieAt (eng / 4)
    s.cmdAt core e = some c → c.frozen = false → c.op = 4 → c.walk = none → s.engineLoad eng < 1024 → die.pkd = false →
    die.busy = false → die.up = true →
    ∃ t w, exec .walk s = .next t ∧ t.mem = s.mem ∧ t.cmdAt core e = some { c with walk := some s.serial } ∧
      t.walkAt s.serial = w ∧ w.running ∧ w.core = core ∧ w.entry = e ∧ w.engine = eng ∧ w.rpc = 0 ∧ w.steps = 0 ∧ w.np = 0 ∧
      w.half = false ∧ w.prog = c.rules ∧ w.w[0] = word (bits c.srcWord 0 46) ∧ w.w[1] = word (c.words.getD 5 0) ∧
      w.w[2] = word (c.words.getD 6 0) ∧ w.w[3] = word (c.words.getD 7 0) ∧ w.w[4] = 0) ∧
  (∀ (i : Instr) (s : State) (k shown : Nat) (w : Walk) (c : Cmd) (e : Option WalkEnd), ends i s k shown w c e → w.half = false →
    s.deviceFault w.agent w.core (s.cmdChecked c) true c.dst.key c.dst.pa 32 = none →
    ∃ t, exec i s = .next t ∧ t.walkAt k = { w with half := true } ∧ t.cores = s.cores ∧ t.harts = s.harts ∧ t.h = s.h ∧
      (∀ d, homeOf c.dst.pa = .dram d → c.dst.pa % 32 = 0 →
        t.readBytes c.dst.key c.dst.pa 16 = (w.result shown).take 16 ∧
        ∀ b, b < c.dst.pa ∨ c.dst.pa + 16 ≤ b → t.readByte c.dst.key b = s.readByte c.dst.key b)) ∧
  (∀ (i : Instr) (s : State) (k shown j : Nat) (w : Walk) (c : Cmd) (e : Option WalkEnd), ends i s k shown w c e → w.half = true →
    s.deviceFault w.agent w.core (fun _ => false) true c.dst.key (c.dst.pa + 16) 16 = none → s.hartOf w.launch w.strip = some j →
    (s.hartAt j).held.length < 4 → (∀ m, m = w.core ∨ m = c.hart / 8 → ∀ x ∈ (s.coreAt m).windows, x.2.2.isSome) →
    let u := (s.store c.dst.key (c.dst.pa + 16) ((w.result shown).drop 16)).clearPoisonRange c.dst.pa 32
    let moved := fun (pa : Nat) => decide (((u.arrivalAt pa).add 32).gen ≠ (u.arrivalAt pa).gen)
    (∀ pa, c.aw = some pa → pa % 16 = 0 ∧ (∃ d n, homeOf pa = .tile d n) ∧ s.reachRange 0 pa 16 = none ∧
      u.rangePoisoned pa 16 = false ∧ raceOf u (c.awEvent u w.core pa true (moved pa)) = none) →
    ∃ t, exec i s = .next t ∧ t.walkAt k = {} ∧ t.cmdAt w.core w.entry = none ∧
      counted (s.hartAt j).walks (t.hartAt j).walks shown w.steps ∧
      (match e with
      | none => (t.hartAt j).held = (s.hartAt j).held
      | some x => ∃ r, (t.hartAt j).held = (s.hartAt j).held ++ [r] ∧ r.code = x.code ∧ r.sub = x.sub ∧ r.master = 2 ∧
          r.index = w.rpc ∧ r.done = w.steps ∧ r.addr = x.addr ∧ r.pc = c.pc) ∧
      (∀ pa, c.aw = some pa → t.readBytes 0 pa 16 = ((u.arrivalAt pa).add 32).bytes) ∧
      (∀ d, homeOf c.dst.pa = .dram d → c.dst.pa % 32 = 0 → t.readBytes c.dst.key c.dst.pa 16 = s.readBytes c.dst.key c.dst.pa 16 ∧
        t.readBytes c.dst.key (c.dst.pa + 16) 16 = (w.result shown).drop 16)) ∧
  (∀ (i : Instr) (s u : State) (k shown sub j : Nat) (w : Walk) (c : Cmd) (e : Option WalkEnd), ends i s k shown w c e →
    w.half = false → s.deviceFault w.agent w.core (s.cmdChecked c) true c.dst.key c.dst.pa 32 = some (some sub, u) →
    s.hartOf w.launch w.strip = some j → (s.hartAt j).held.length < 4 →
    (∀ m, m = w.core ∨ m = c.hart / 8 → ∀ x ∈ (s.coreAt m).windows, x.2.2.isSome) →
    ∃ t r, exec i s = .next t ∧ t.walkAt k = {} ∧ t.cmdAt w.core w.entry = none ∧
      counted (s.hartAt j).walks (t.hartAt j).walks shown w.steps ∧
      (t.hartAt j).held = (s.hartAt j).held ++ [r] ∧ r.code = 0x44 ∧ r.sub = sub ∧ r.addr = c.dstWord ∧ r.master = 2 ∧
      r.index = w.rpc ∧ r.done = w.steps ∧ r.pc = c.pc ∧ (c.aw = none → t.mem = s.mem) ∧
      (∀ pa, c.aw = some pa → u.rangePoisoned pa 16 = false → raceOf u (c.awEvent u w.core pa false false) = none →
        t.mem = (u.store 0 pa ({ u.arrivalAt pa with flt := true } : Arrival).bytes).mem)) ∧
  (∀ (w : Walk), w.ended = none →
    (16 * (w.limit + 1) ≤ w.executed → w.ending = some { outc := 3, code := 0x45, sub := 3 }) ∧
    (w.executed < 16 * (w.limit + 1) → w.prog.length ≤ w.rpc → w.ending = some { outc := 4, code := 0x45, sub := 4 }))) ∧
  (
  (∀ (o : FX) (s : State) (ps : List PieceRef) (l : Nat) (x : Launch),
    let nr := o.imm.toNat
    let acc : Acc := { rd := true, cls := .vector }
    let r := readPieces s s.h acc ps
    let ws := (List.range nr).map fun j => BitVec.ofNat 32 (ofBytes ((r.1.drop (4 * j)).take 4))
    o.d = 0 → o.b = 0 → o.c = 0 → o.m = 0 → o.z = 0 → o.f.toNat < 16 → 1 ≤ nr → nr ≤ 32 → (s.x o.a).toNat % 64 = 0 →
    s.canAccess acc false (s.x o.a).toNat (4 * nr) ps → (∀ j, j < nr → ruleOk nr (ws.getD j 0) = true) →
    s.h.launch = some l → s.launches[l]? = some x →
    ∃ t y, exec (.tvld o) s = .next t ∧ t.h.pc = s.h.pc + 8 ∧ t.h.x = s.h.x ∧ t.launches[l]? = some y ∧
      (∀ n, Sparse.get [] y.slots n = if n = o.f.toNat then ws else Sparse.get [] x.slots n) ∧
      { y with slots := x.slots } = x ∧ ∀ j, j ≠ l → t.launches[j]? = s.launches[j]?) ∧
  (∀ (o : FX) (s : State), o.b = 0 → o.a = 0 → fxPlain o → o.imm.toNat < 6 →
    exec (.tvstat o) s = .next ((s.setX o.d (([s.h.walks.outst, s.h.walks.found, s.h.walks.missed, s.h.walks.other,
      s.h.walks.steps, word s.slotSet] : List Word).getD o.imm.toNat 0)).advance 8)))

/-- R37, R38, R340, R341, R398, R399: a waiting launch whose predecessors are satisfied becomes ready, or retires where it has no
strip; one whose predecessor's record cannot be read aborts; a launch whose strips have all ended and whose work is done retires and
gives up its program slots; launch control suspends, resumes and aborts the launch it names. When a launch changes its state, and a
predecessor whose policy cannot be read, is the model's (log entries 1, 25 and 46). -/
def Obligations.LaunchStates : Prop :=
  (∀ (s : State) (l : Nat) (x : Launch), s.input.who = l → s.launches[l]? = some x →
    (x.state = .waiting → (∀ p ∈ x.preds, s.predSatisfied x p = .ok true) →
      ∃ t y, exec .predecessorsSatisfied s = .next t ∧ t.launches[l]? = some y ∧
        y.state = if x.nstrip = 0 then .retired else .ready) ∧
    (x.state = .waiting → (∃ f, s.predFault x = some f) →
      ∃ t y, exec .predReadFail s = .next t ∧ t.launches[l]? = some y ∧ y.state = .aborted) ∧
    (x.state = .running ∨ x.state = .released → x.nexit = x.nstrip → s.launchBusy l = false →
      ∃ t y, exec .launchRetire s = .next t ∧ t.launches[l]? = some y ∧ y.state = .retired ∧ y.slots = [])) ∧
  (∀ (s u : State) (q a l : Nat) (x : Launch),
    s.takeRequest (fun r => match r with | .suspend q a => some (q, a) | _ => none) = some ((q, a), u) →
    u.controlled q a = some (l, x) → x.state = .waiting ∨ x.state = .ready ∨ x.state = .running ∨ x.state = .released →
    ∃ t y, exec .launchSuspend s = .next t ∧ t.launches[l]? = some y ∧ y.state = .suspended ∧ y.before = x.state ∧
      ∀ k, (s.hartAt k).launch = some l → (s.hartAt k).key ≠ 2 ^ 64 → (s.hartAt k).frozen = false →
        (t.hartAt k).preempt = true) ∧
  (∀ (s u : State) (q a l : Nat) (x : Launch),
    s.takeRequest (fun r => match r with | .resume q a => some (q, a) | _ => none) = some ((q, a), u) →
    u.controlled q a = some (l, x) → x.state = .suspended →
    let dead := x.preds.any ((u.setLaunch l .waiting).predDead x)
    ∃ t y, exec .launchResume s = .next t ∧ t.launches[l]? = some y ∧
      y.state = if x.before = .waiting ∧ dead = true then .aborted else x.before) ∧
  (∀ (s u : State) (q a l : Nat) (x : Launch),
    s.takeRequest (fun r => match r with | .abort q a => some (q, a) | _ => none) = some ((q, a), u) →
    u.controlled q a = some (l, x) → x.state ≠ .retired → x.state ≠ .rejected → x.state ≠ .aborted →
    ∃ t y, exec .launchAbort s = .next t ∧ t.launches[l]? = some y ∧ (∀ c ∈ t.contexts, c.launch = l → c.live = false) ∧
      (y.state = .aborted ∨ (y.state = .faulted ∧ .abort q a ∈ t.hub.requests)))

/-- R40, R94, R340, R342, R343, R345: the strips of the launch that is next start at their places: at CODE + ENTRY in app with x2,
x5, x6 and x7 set and every other register zero, VL 0, VROWS 1, VTYPE f32, VNR from NRC, no flag, the entry of its slot in PSPLIT as
its partition, and the launch runs. A waiting strip that finds no place has its victim asked to swap out. The window and the place
among those the rules allow are the model's (log entries 1 and 10). -/
def Obligations.PlacementStartsStrips : Prop :=
  (∀ (s : State) (w : Waiter) (g : Nat) (ps : List (Nat × Nat × Nat)) (x : Launch), s.chosen s.input.at_ = some (w, g, ps) →
    w.context = none → s.launches[w.launch]? = some x → (ps.map fun p => p.2.1).Nodup →
    ∃ t y, exec .stripPlace s = .next t ∧ t.launches[w.launch]? = some y ∧ y.placedCount = x.placedCount + ps.length ∧
      (x.state = .ready → y.state = .running) ∧
      ∀ p ∈ ps,
        let h := t.hartAt p.2.1
        h.launch = some w.launch ∧ h.stripId = BitVec.ofNat 32 p.1 ∧ h.pc = word (x.code + x.entry) ∧ h.plv = .app ∧
          h.winStart = p.2.2 ∧ h.winPages = x.tmem ∧ h.ar = {} ∧ h.vec = {} ∧ h.chain = {} ∧ h.tensors = [] ∧
          h.cfg.vl = 0 ∧ h.cfg.vrows = 1 ∧ h.cfg.vtype = .f32 ∧ h.cfg.vnr = 8 * 2 ^ x.nrc ∧ h.cfg.vmsk = 0 ∧
          h.part = psplitEntry (s.coreAt (p.2.1 / 8)).psplit (p.2.1 % 8) ∧ entryOn h.part = true ∧ bits h.part.toNat 5 2 = x.pw ∧
          h.sys.vmroot = x.vmroot ∧ h.sys.htbase = x.htbase ∧ h.sys.gtbase = x.gtbase ∧ h.sys.lqmask = x.lqmask ∧
          h.getX 2 = (if x.stkb = 0 ∨ x.stksz = 0 then 0 else word (x.stkb + (p.1 + 1) * x.stksz * 4096)) ∧
          h.getX 5 = word (x.recAddr + 0x60) ∧ h.getX 6 = word x.argx ∧ h.getX 7 = word x.nstrip ∧
          ∀ r, r < 32 → r ≠ 2 → r ≠ 5 → r ≠ 6 → r ≠ 7 → h.getX r = 0) ∧
  (∀ (s : State) (w : Waiter) (x : Launch) (v : Nat × Hart),
    s.waiters.find? (fun w => w.launch = s.input.who && w.strip = s.input.which) = some w →
    s.launches[w.launch]? = some x → x.gang = false → w.context = none → s.placesFor w 0 = none →
    s.firstVictim (s.running.filter fun p => s.isVictim w.ep [x.pw] p.2 &&
      (s.eligibleDies x (x.needClass.getD 0)).contains p.2.die) = some v →
    ∃ t, exec .preemptVictim s = .next t ∧ t.mem = s.mem ∧ (s.isGang (s.hartAt v.1) = false → (t.hartAt v.1).preempt = true))

/-- R349, R350, R353, R347, R413: a strip whose swap-out is asked for and that nothing holds back leaves its hart, which holds
nothing then, and its context holds its registers, a VWAIT with no element satisfied; where the event that it waits for has arrived,
its wait completes first; a strip that stopped before an instruction that its die class lacks leaves for the other class; the
context that is next goes on where it is placed, with the registers it held. When a swap takes its turn, where a context is kept,
and what a waiting VSETL saves, is the model's (log entries 1, 26, 40, 41 and 47). -/
def Obligations.SwapOutAndResume : Prop :=
  let kept := fun (a b : Hart) => a.x = b.x ∧ a.plv = b.plv ∧ a.cfg = b.cfg ∧ a.ar = b.ar ∧ a.sys = b.sys ∧
    a.tensors = b.tensors ∧ a.walks = b.walks ∧ a.held = b.held ∧ a.pc = b.pc
  let saved := fun (a b : Hart) => kept a b ∧ a.vec = b.vec ∧
    a.vq = b.vq.map fun p => match p.instr with | .vwait _ => { p with sat := 0 } | _ => p
  -- a context more; one that stands may take the barriers that its farm holds on its core
  let added := fun (s t : State) (c : Context) => t.contexts.length = s.contexts.length + 1 ∧
    t.contexts[s.contexts.length]? = some c ∧
    ∀ (i : Nat) (d : Context), s.contexts[i]? = some d → ∃ bars, t.contexts[i]? = some { d with bars := bars }
  (∀ (s : State) (k l : Nat), s.input.who = k → (s.hartAt k).key = k → (s.hartAt k).launch = some l → s.swapReady k = true →
    s.wakeNow k = none → (s.hartAt k).chain.run = none →
    ∃ t c, exec .swapOut s = .next t ∧ added s t c ∧ c.live = true ∧ c.launch = l ∧
      c.strip = (s.hartAt k).stripId.toNat ∧ saved c.hart (s.hartAt k) ∧ t.hartAt k = idleHart k) ∧
  (∀ (s t : State) (k : Nat), s.input.who = k → s.swapReady k = true → s.wakeNow k = some t → exec .swapOut s = .next t) ∧
  (∀ (s : State) (k l cls sub : Nat), s.input.who = k → (s.hartAt k).key = k → (s.hartAt k).launch = some l →
    (s.hartAt k).lacks = some (cls, sub) → (s.hartAt k).frozen = false → (s.hartAt k).chain.run = none →
    (s.select k).canSave = true →
    ((s.select k).requeueSubs cls sub = [] → ∃ t c, exec .featureRequeue s = .next t ∧ added s t c ∧
      c.cls = cls ∧ c.launch = l ∧ saved c.hart (s.hartAt k) ∧
      ∀ x, s.launches[l]? = some x → ∃ y, t.launches[l]? = some y ∧ y.needClass = some cls) ∧
    ((s.select k).requeueSubs cls sub ≠ [] → ∀ x, s.launches[l]? = some x → x.state = .running →
      ∃ t y, exec .featureRequeue s = .next t ∧ t.launches[l]? = some y ∧ y.state = .faulted)) ∧
  (∀ (s : State) (w : Waiter) (ci g i key win : Nat) (c : Context) (x : Launch),
    s.chosen s.input.at_ = some (w, g, [(i, key, win)]) → w.context = some ci → s.contextOf w.launch i = some ci →
    s.contexts[ci]? = some c → c.launch = w.launch → s.launches[w.launch]? = some x → x.placeable = true →
    s.restoreFault c x = none →
    ∃ t, exec .stripResume s = .next t ∧ kept (t.hartAt key) c.hart ∧ (t.hartAt key).launch = c.hart.launch ∧
      (t.hartAt key).vec = { c.hart.vec with verr := [], merr := [] } ∧ (t.hartAt key).vq = c.hart.vq ∧
      (t.hartAt key).key = key ∧ t.contexts[ci]? = some { c with out := false })

/-- R392, R395, R396, R397, R400: a master that reaches a range no table grants is frozen: a hart, a command, a walk with its
command, a session, the host port. A record with FRZ, VIOLATION, the physical address, whether the access read, wrote or fetched,
and its scope goes to a ring; the launch the master works for is FAULTED. (That the input brings what the access was is the model's:
log entry 1.) A wait without a timeout that has lasted too long has STALL held for its strip; a held record is taken as a trap at a
boundary below exec. Which master breaks the hub's tables, and when a limit has passed, the input says (log entries 1 and 27). -/
def Obligations.FreezesAndHeldRecords : Prop :=
  -- the record of the freeze of a master of kind mk by the access that the input brings
  let violates := fun (s : State) (mk : Nat) (ex : Bool) (r : FaultRec) => r.code = 0x73 ∧ r.sub = 0 ∧ r.frz = true ∧ r.pre = false ∧
    r.master = mk ∧ r.addr = s.input.addr ∧ r.asp = 1 ∧ r.rd = bit s.input.value 0 ∧ r.wr = bit s.input.value 1 ∧ r.ex = ex
  let faulted := fun (t : State) (l : Nat) => ∃ y, t.launches[l]? = some y ∧ y.state = .faulted
  (∀ (s : State) (k l : Nat) (x : Launch), s.input.which = 0 → s.input.who = k → (s.hartAt k).key = k →
    (s.hartAt k).launch = some l → (s.hartAt k).frozen = false → s.launches[l]? = some x → x.state = .running →
    ∃ t r, exec .freeze s = .next t ∧ (t.hartAt k).frozen = true ∧ (t.hartAt k).pc = (s.hartAt k).pc ∧
      (t.hartAt k).x = (s.hartAt k).x ∧ faulted t l ∧ violates s 0 (bit s.input.value 2) r ∧
      r.scope = bits s.input.value 3 3 ∧ r.pc = (s.hartAt k).pc.toNat ∧ t.mem = (s.ringRecord (s.launchRing (some l)) r).mem) ∧
  (∀ (s : State) (c : Cmd) (x : Launch), s.input.which = 1 → s.cmdAt s.input.who s.input.at_ = some c → c.frozen = false →
    s.launches[c.launch]? = some x → x.state = .running →
    ∃ t r, exec .freeze s = .next t ∧ t.cmdAt s.input.who s.input.at_ = some { c with frozen := true } ∧ faulted t c.launch ∧
      violates s 1 false r ∧ r.scope = c.scope ∧ r.done = c.done ∧ r.index = 0 ∧
      t.mem = ((s.flagArrival s.input.who c).ringRecord (s.launchRing (some c.launch)) r).mem) ∧
  (∀ (s : State) (w : Walk) (c : Cmd) (x : Launch), s.input.which = 2 → s.walkAt s.input.who = w → w.active = true →
    w.frozen = false → s.walkCmd w = some c → s.launches[c.launch]? = some x → x.state = .running →
    ∃ t r, exec .freeze s = .next t ∧ t.walkAt s.input.who = { w with frozen := true } ∧
      t.cmdAt w.core w.entry = some { c with frozen := true } ∧ faulted t c.launch ∧ violates s 2 false r ∧ r.scope = c.scope ∧
      r.done = w.steps ∧ r.index = w.rpc ∧
      t.mem = ((s.flagArrival w.core c).ringRecord (s.launchRing (some c.launch)) r).mem) ∧
  (∀ (s : State) (y : Session) (x : Launch), s.input.which = 3 → s.sessionAt s.input.who = some y → y.frozen = false →
    s.launches[y.launch]? = some x → x.state = .running →
    ∃ t r, exec .freeze s = .next t ∧ t.sessionAt s.input.who = some { y with frozen := true } ∧ faulted t y.launch ∧
      violates s 3 false r ∧ r.scope = y.scope ∧ r.done = y.inCount ∧ r.pc = y.pc ∧
      t.mem = (s.ringRecord (s.launchRing (some y.launch)) r).mem) ∧
  (∀ (s : State), s.input.which = 4 → s.hub.hostFrozen = false → ∃ t r, exec .freeze s = .next t ∧ t.hub.hostFrozen = true ∧
    violates s 4 false r ∧ r.scope = bits s.input.value 3 3 ∧ t.mem = (s.ringRecord 64 r).mem) ∧
  (∀ (s : State) (k : Nat) (pc : Word), s.input.who = k → (s.hartAt k).endlessWait = some pc → s.hub.wdog ≠ 0 →
    (s.hartAt k).stalled = false → (s.hartAt k).launch ≠ none → (s.hartAt k).frozen = false → (s.hartAt k).held.length < 4 →
    ∃ t r, exec .watchdogStall s = .next t ∧ (t.hartAt k).stalled = true ∧ (t.hartAt k).held = (s.hartAt k).held ++ [r] ∧
      r.code = 0x52 ∧ r.pc = pc.toNat) ∧
  (∀ (s : State) (r : FaultRec) (rest : List FaultRec), s.input.who = s.h.key → s.h.takesHeld = true → s.h.held = r :: rest →
    ∃ t u, exec .impreciseTrap s = .next t ∧ u = ({ s with h := { s.h with held := rest } } : State) ∧
      t = u.enterTrap { code := r.code, sub := r.sub, tval := r.addr } s.h.pc false false
        (some { r with ovf := s.h.ovf, pre := false }))

/-- R85, R337, R359, R365, R371, R378, R393, R397, R457: a 64-bit write in the hub window reaches the register there, and reading
the register gives the RW fields as written, with its reserved fields zero; a queue's HEAD and a ring's HEAD and TAIL return to 0
when LOGN, the base or EN changes; CEIL is held between 350 and 1,100; a commit makes a die's shadow entries active and raises VER,
and memory that stays in its channel keeps its content. That each write is one step is the model's (log entry 1). -/
def Obligations.HubRegisters : Prop :=
  (∀ (s : State), homeOf s.input.addr = .hub → s.input.addr % 8 = 0 →
    exec .hubRegisterWrite s = .next (hubWrite s (s.input.addr - 0x060000000000) (s.input.value % 2 ^ 64))) ∧
  (∀ (s : State) (v q : Nat), v < 2 ^ 64 → q < 64 →
    let after := fun (o : Nat) => hubRead (hubWrite s (0x40 * q + o) v) (0x40 * q + o)
    let base := bits v 60 4 * 2 ^ 60 + bits v 6 46 * 2 ^ 6
    after 0x00 = base + bits v 0 1 ∧ after 0x08 = bits v 14 50 * 2 ^ 14 ∧
      after 0x10 = bits v 32 16 * 2 ^ 32 + bits v 24 6 * 2 ^ 24 + bits v 0 3 ∧
      after 0x18 = hubRead s (0x40 * q + 0x18) ∧ after 0x20 = base ∧ after 0x28 = bits v 4 60 * 2 ^ 4 ∧ after 0x30 = v ∧
      after 0x38 = 0) ∧
  (∀ (s : State) (v n : Nat), v < 2 ^ 64 → n < 65 →
    let at_ := 0x60000 + 0x20 * n
    let after := fun (o : Nat) => hubRead (hubWrite s (at_ + o) v) (at_ + o)
    after 0x00 = bits v 60 4 * 2 ^ 60 + bits v 6 46 * 2 ^ 6 + bits v 0 1 ∧ after 0x08 = hubRead s (at_ + 0x08) ∧
      after 0x10 = bits v 0 32 ∧ after 0x18 = bits v 0 32) ∧
  (∀ (s : State) (v : Nat), v < 2 ^ 64 →
    hubRead (hubWrite s 0x40000 v) 0x40000 = min 1100 (max 350 (bits v 0 11)) ∧
    hubRead (hubWrite s 0x70000 v) 0x70000 = bits v 44 20 * 2 ^ 44 + bits v 0 7 ∧
    hubRead (hubWrite s 0x80010 v) 0x80010 = bits v 0 16 ∧
    (bit v 0 = true → (hubWrite s 0x70008 v).hub.hostFrozen = false)) ∧
  (∀ (s : State), s.input.who < 64 →
    let q := s.input.who
    let v := s.input.value
    let x := s.queue q
    ∃ t, exec .queueConfigWrite s = .next t ∧ (∀ p, p ≠ q → t.queue p = s.queue p) ∧
      (t.queue q).logn = bits v 60 4 ∧ (t.queue q).qbase = bits v 6 46 * 64 ∧ (t.queue q).en = bit v 0 ∧
      (t.queue q).head = (if x.logn = bits v 60 4 ∧ x.qbase = bits v 6 46 * 64 ∧ x.en = bit v 0 then x.head else 0) ∧
      { t.queue q with logn := x.logn, qbase := x.qbase, en := x.en, head := x.head } = x) ∧
  (∀ (s : State), s.input.who < 65 →
    let n := s.input.who
    let v := s.input.value
    let x := s.ring n
    ∃ t, exec .faultRingConfigWrite s = .next t ∧ (∀ p, p ≠ n → t.ring p = s.ring p) ∧
      (t.ring n).logn = bits v 60 4 ∧ (t.ring n).base = bits v 6 46 * 64 ∧ (t.ring n).en = bit v 0 ∧
      (if x.logn = bits v 60 4 ∧ x.base = bits v 6 46 * 64 ∧ x.en = bit v 0 then
        (t.ring n).head = x.head ∧ (t.ring n).tail = x.tail else (t.ring n).head = 0 ∧ (t.ring n).tail = 0) ∧
      (t.ring n).lost = x.lost) ∧
  (∀ (s : State), s.input.who < 6 →
    let x := s.dieAt s.input.who
    ∃ t, exec .regionTableCommit s = .next t ∧ t.dieAt s.input.who = { x with active := x.shadow, ver := x.ver + 1 } ∧
      (∀ d, d ≠ s.input.who → t.dieAt d = s.dieAt d) ∧
      ∀ pa, inDram s.input.who pa = false ∨ channelOf x.active pa = channelOf x.shadow pa → t.byteAt pa = s.byteAt pa) ∧
  (∀ (s : State) (v d i : Nat), v < 2 ^ 64 → d < 6 → i < 16 →
    let at_ := 0x20000 + 0x400 * d + 0x200 + 0x10 * i
    hubRead (hubWrite s at_ v) at_ = (bit v 63).toNat * 2 ^ 63 + bits v 14 38 * 2 ^ 14 ∧
      hubRead (hubWrite s (at_ + 8) v) (at_ + 8) = v) ∧
  (∀ (s : State), exec .ceilWrite s = .next { s with hub := { s.hub with power := { s.hub.power with
    ceil := min 1100 (max 350 (bits s.input.value 0 11)), sinceCeil := 0, calm := false } } }) ∧
  (∀ (s : State), exec .hostPortUnfreeze s = .next { s with hub := { s.hub with hostFrozen := false } })

/-- R378, R324, R364, R365, R397: a commit installs the keys written to a slot, and the slot holds them; a clear takes the key and
the keys written from every slot but slot 0; the other slots keep theirs. A request of the host inside its window reads or writes
the bytes at the package address it names under HKEY, one granule a step: while one is in progress a step performs its next granule,
and its answer comes with the last. A frozen port answers with an abort and no access; a request outside the window is none. A snoop
is answered with what memory holds of the line where a core is listed for it; one that takes the line away leaves no core listed,
and the host's bytes go to memory as they are, one granule a step too. When a commit, a clear or a host access comes is the model's
(log entries 1, 28 and 34). -/
def Obligations.KeySlotsAndHostAccesses : Prop :=
  (
  (∀ (s u : State) (n : Nat),
    s.takeRequest (fun r => match r with | .keyCommit n => some n | _ => none) = some (n, u) →
    ∃ t k, exec .keyCommit s = .next t ∧ (t.keySlot n).key = some k ∧ t.keyPair k = ((s.keySlot n).kd, (s.keySlot n).kt) ∧
      (n < 64 → hubRead t (0x50000 + 0x80 * n + 0x40) = 2 ^ 63) ∧ (∀ m, m ≠ n → t.keySlot m = s.keySlot m) ∧
      ∀ j, j ≤ s.keys.length → t.keyPair j = s.keyPair j) ∧
  (∀ (s u : State) (n : Nat),
    s.takeRequest (fun r => match r with | .keyClear n => some n | _ => none) = some (n, u) →
    ∃ t, exec .keyClear s = .next t ∧ (n = 0 → t = u) ∧ (n ≠ 0 → t.keySlot n = {} ∧ ∀ m, m ≠ n → t.keySlot m = s.keySlot m)) ∧
  (∀ (s : State) (v n : Nat), n < 64 →
    let t := hubWrite s (0x50000 + 0x80 * n + 0x40) v
    (bit v 1 = true → t = s.request (.keyClear n)) ∧ (bit v 1 = false → bit v 0 = true → t = s.request (.keyCommit n)) ∧
    (bit v 1 = false → bit v 0 = false → t = s))) ∧
  (
  -- t after the granule at which the access j of the host stands
  let part := fun (s t : State) (j : HostJob) =>
    let a := j.pa + j.at_
    let m := min (j.len - j.at_) (16 - a % 16)
    let last := decide (j.at_ + m = j.len)
    let rest := fun (bs : List Byte) => if last then none else some { j with at_ := j.at_ + m, bytes := bs }
    (j.wr = false ∨ homeOf a ≠ .hub → t.h = s.h ∧ t.harts = s.harts) ∧
    (j.wr = false → ∀ bs, s.readPhys s.hub.hkey a m = .ok bs → t.mem = s.mem ∧ t.hub.hostJob = rest (j.bytes ++ bs) ∧
      t.hub.hostReply = if last then some (j.bytes ++ bs) else s.hub.hostReply) ∧
    (j.wr = true → t.hub.hostJob = rest (j.bytes.drop m) ∧
      (t.hub.hostReply = if last ∧ j.own = false then some [] else s.hub.hostReply) ∧
      (j.own = false → homeOf a ≠ .hub → (∀ k, k < m → t.readByte s.hub.hkey (a + k) = j.bytes.getD k 0) ∧
        ∀ b, b < a ∨ a + m ≤ b → homeOf b ≠ .hub → t.readByte s.hub.hkey b = s.readByte s.hub.hkey b) ∧
      (j.own = true → (∀ k, k < m → t.byteAt (a + k) = j.bytes.getD k 0 ∧ Sparse.get 0 t.sectorKey ((a + k) / 32) = rawTag) ∧
        ∀ b, b / 32 ≠ a / 32 → t.byteAt b = s.byteAt b))
  (∀ (s : State) (pa : Nat),
    let i := s.input
    let n := if i.flag then i.data.length else i.value
    s.hub.hostJob = none → s.hub.hen = true → i.addr = s.hub.hbar * 2 ^ 44 + pa → pa < 0x070000000000 → s.linkUp 100 = true →
    0 < n → pa % 64 + n ≤ 64 →
    (s.hub.hostFrozen = true → exec .hostAccess s = .next { s with hub := { s.hub with hostReply := none } }) ∧
    (s.hub.hostFrozen = false → s.reachRange s.hub.hkey pa n = none → (i.flag = false → s.rangePoisoned pa n = false) →
      ∃ t, exec .hostAccess s = .next t ∧
        part s t { pa := pa, len := n, at_ := 0, bytes := if i.flag then i.data else [], wr := i.flag, own := false }) ∧
    (s.hub.hostFrozen = false → s.reachRange s.hub.hkey pa n = some .key →
      ∃ t, exec .hostAccess s = .next t ∧ t.hub.hostFrozen = true ∧ t.hub.hostReply = none)) ∧
  (∀ (s : State) (j : HostJob), s.hub.hostJob = some j → s.linkUp 100 = true → j.at_ < j.len → j.pa % 64 + j.len ≤ 64 →
    (j.wr = true → j.bytes.length = j.len - j.at_) →
    (j.own = false → s.reachRange s.hub.hkey (j.pa + j.at_) (min (j.len - j.at_) (16 - (j.pa + j.at_) % 16)) = none) →
    (j.own = true → j.wr = true) → ∃ t, exec .hostAccess s = .next t ∧ part s t j) ∧
  (∀ (s : State), s.hub.hostJob = none → s.hub.hen = false → exec .hostAccess s = .next s) ∧
  (∀ (s : State),
    let pa := 0x8000000000000 + s.input.addr
    let line := pa / 64
    let held := s.hub.filter.any fun e => e.1 = line
    let bs := s.input.data
    s.hub.hostJob = none → s.linkUp 100 = true → homeOf pa = .host → pa % 64 + bs.length ≤ 64 →
    ∃ t, exec .hostSnoop s = .next t ∧ t.h = s.h ∧ t.harts = s.harts ∧
      t.hub.hostReply = some (if held then s.sectorRaw (2 * line) ++ s.sectorRaw (2 * line + 1) else []) ∧
      (s.input.flag = false → { t with hub := s.hub } = s ∧ t.hub.filter = s.hub.filter) ∧
      (s.input.flag = true → (∀ e, e ∈ t.hub.filter ↔ e ∈ s.hub.filter ∧ e.1 ≠ line) ∧
        (bs = [] → { t with hub := s.hub } = s) ∧
        (bs ≠ [] → part { s with hub := { s.hub with hostReply := t.hub.hostReply } } t
          { pa := pa, len := bs.length, at_ := 0, bytes := bs, wr := true, own := true }))))

/-- R368, R369, R370, R372: the end of a transition sets CUR and starts the latest target kept; the end of a window of average Pw
adds to E what exceeds the ceiling in effect and, where Pw > CEIL - D, steps G, then GL, then THR up n = 1 + floor(4 (Pw - CEIL + D)
/ CEIL) times; the end of an interval without a step and with Pa ≤ 0.95 CEIL takes one step back, THR first, then GL, then G; each
die turns to the state it is to run at. An interval is 100 windows: no window ends in it after those, and it does not end before. Pa
is the exact average of its windows; PA shows it rounded down to 0.25 W, which is the model's choice (log entry 29), and held at
CEIL where CEIL was not written in the last ms before it. Power is in units of 0.25 W, and E in those units times 100 us, so that 10
D is E. The averages come from the input, and E and D are exact in their units (log entries 1 and 29). -/
def Obligations.PowerGovernor : Prop :=
  let turned := fun (s t : State) => ∀ d, d < 6 →
    t.dieAt d = if (s.dieAt d).up then (s.dieAt d).turnTo (t.dieState d) else s.dieAt d
  (∀ (s : State), (s.dieAt s.input.who).trn = true →
    let x := s.dieAt s.input.who
    ∃ t, exec .pstateTransitionEnd s = .next t ∧ { t with dies := s.dies } = s ∧ (t.dieAt s.input.who).cur = x.target ∧
      ((t.dieAt s.input.who).trn = true ↔ ∃ p, x.latest = some p ∧ p ≠ x.target) ∧
      (∀ p, x.latest = some p → p ≠ x.target → (t.dieAt s.input.who).target = p) ∧ (t.dieAt s.input.who).latest = none ∧
      ∀ d, d ≠ s.input.who → t.dieAt d = s.dieAt d) ∧
  (∀ (s : State), s.hub.power.g ≤ 7 → s.hub.power.gl ≤ 7 → s.hub.power.thr ≤ 7 →
    let p := s.hub.power
    let c := 4 * p.ceilNow
    let pw := s.input.value
    let e := p.e + pw - c
    let n := if 10 * c < 10 * pw + e then 1 + 4 * (10 * pw + e - 10 * c) / (10 * c) else 0
    (100 ≤ p.wins → exec .governorWindow s = .next s) ∧
    (p.wins < 100 → ∃ t, exec .governorWindow s = .next t ∧ { t with hub := s.hub, dies := s.dies } = s ∧ { t.hub with power := p } = s.hub ∧
      t.hub.power.pw = pw ∧ t.hub.power.pa = p.pa ∧ t.hub.power.e = e ∧ t.hub.power.ceil = p.ceil ∧
      t.hub.power.wins = p.wins + 1 ∧ t.hub.power.sum = p.sum + pw ∧
      t.hub.power.ceilNow = p.ceil ∧ t.hub.power.g = min 7 (p.g + n) ∧ t.hub.power.gl = min 7 (p.gl + (n - (7 - p.g))) ∧
      t.hub.power.thr = min 7 (p.thr + (n - (7 - p.g) - (7 - p.gl))) ∧ turned s t)) ∧
  (∀ (s : State),
    let p := s.hub.power
    let mean := p.sum / 100
    let pa := if p.calm then min mean (4 * p.ceilNow) else mean
    let back := 100 * p.sum ≤ 95 * (4 * p.ceilNow) * 100 ∧ p.stepped = false
    (p.wins < 100 → exec .governorInterval s = .next s) ∧
    (100 ≤ p.wins → ∃ t, exec .governorInterval s = .next t ∧ { t with hub := s.hub, dies := s.dies } = s ∧ { t.hub with power := p } = s.hub ∧
      t.hub.power.pa = pa ∧ t.hub.power.pw = p.pw ∧ t.hub.power.e = 0 ∧ t.hub.power.stepped = false ∧
      t.hub.power.wins = 0 ∧ t.hub.power.sum = 0 ∧
      (¬ back → t.hub.power.thr = p.thr ∧ t.hub.power.gl = p.gl ∧ t.hub.power.g = p.g) ∧
      (back → t.hub.power.thr = p.thr - 1 ∧ t.hub.power.gl = (if p.thr = 0 then p.gl - 1 else p.gl) ∧
        t.hub.power.g = (if p.thr = 0 ∧ p.gl = 0 then p.g - 1 else p.g)) ∧ turned s t))

/-- R373, R374, R375, R459: PARK = 1 asks every strip on the die, but one that owns a live session or, under GANG, whose farm has a
strip there that does, to be swapped out; PKD becomes 1 when the die has no work, and CYCLE does not advance from then; PARK = 0
begins the unpark of a parked die, or abandons a parking; when the unpark completes PKD is 0 and CYCLE goes on from where it stood.
That an abandoned parking withdraws the requests that it alone had made, and those only, is the model's (log entry 26). A die at 100
degrees or above takes one more P-state slower, at 110 degrees it throttles itself and PARK becomes 1; below 95 degrees it takes a
step back. When a parking or an unpark ends, and the temperature, the input says (log entries 1 and 29). -/
def Obligations.ParkingAndTemperature : Prop :=
  (∀ (s : State) (d : Nat), s.input.who = d → d < 6 →
    ∃ t, exec .diePark s = .next t ∧ (t.dieAt d).park = true ∧ (t.dieAt d).pkd = (s.dieAt d).pkd ∧ t.mem = s.mem ∧
      ((s.dieAt d).pkd = false → (∀ p ∈ s.running, s.hartAt p.1 = p.2 ∧ p.2.key = p.1 ∧ p.1 < 2 ^ 64) →
        ∀ k, (s.hartAt k).launch ≠ none → (s.hartAt k).die = d → (s.hartAt k).frozen = false →
        let owns := fun (h : Hart) => ∃ n ∈ s.nets, ∃ y, n.2.sess = some y ∧ some y.launch = h.launch ∧ y.strip = h.stripId.toNat
        ((owns (s.hartAt k) ∨ (s.isGang (s.hartAt k) = true ∧ ∃ p ∈ s.running, p.2.launch = (s.hartAt k).launch ∧
            p.2.die = d ∧ owns p.2)) → (t.hartAt k).preempt = (s.hartAt k).preempt) ∧
        (¬ owns (s.hartAt k) → (s.isGang (s.hartAt k) = true → ∀ p ∈ s.running, p.2.launch = (s.hartAt k).launch →
            p.2.die = d → ¬ owns p.2) → (t.hartAt k).preempt = true))) ∧
  (∀ (s : State) (d : Nat), s.input.who = d → (s.dieAt d).park = true → (s.dieAt d).pkd = false → s.dieWorks d = false →
    ∃ t, exec .dieParked s = .next t ∧ { t with dies := s.dies } = s ∧ (t.dieAt d).pkd = true ∧ t.cycle d = s.cycle d ∧
      (∀ n, ({ t with time := n } : State).cycle d = s.cycle d) ∧ ∀ e, e ≠ d → t.dieAt e = s.dieAt e) ∧
  (∀ (s : State) (d : Nat), s.input.who = d → d < 6 →
    ∃ t, exec .dieUnpark s = .next t ∧ (t.dieAt d).park = false ∧ (t.dieAt d).pkd = (s.dieAt d).pkd ∧
      ((s.dieAt d).pkd = true → { t with dies := s.dies } = s ∧ (t.dieAt d).unparking = true) ∧
      ((s.dieAt d).pkd = false → { t with dies := s.dies, h := s.h, harts := s.harts } = s ∧
        ∀ k, (t.hartAt k).preempt = (decide ((s.hartAt k).forPark ≠ some d) && (s.hartAt k).preempt))) ∧
  (∀ (s : State) (d : Nat), s.input.who = d → (s.dieAt d).pkd = true → (s.dieAt d).unparking = true →
    ∃ t, exec .dieUnparked s = .next t ∧ { t with dies := s.dies } = s ∧ (t.dieAt d).pkd = false ∧
      (t.dieAt d).unparking = false ∧ (t.dieAt d).park = (s.dieAt d).park ∧ t.cycle d = s.cycle d) ∧
  (∀ (s : State) (d : Nat), s.input.who = d → d < 6 → 800 ≤ s.input.at_ →
    ∃ t, exec .thermalStep s = .next t ∧ (t.dieAt d).thermal = min 7 ((s.dieAt d).thermal + 1) ∧
      (s.input.at_ < 880 → (t.dieAt d).heat = 1 ∧ (t.dieAt d).park = (s.dieAt d).park) ∧
      (880 ≤ s.input.at_ → (t.dieAt d).heat = 2 ∧ ((s.dieAt d).heat ≠ 2 → (t.dieAt d).thr = 7 ∧ (t.dieAt d).park = true)) ∧
      (s.input.at_ < 880 → (s.dieAt d).heat = 0 → { t with dies := s.dies } = s.ringRecord 64
        { code := 0x63, sub := 0x01, master := 5, die := d, done := s.input.at_, time := (s.cycle d).toNat })) ∧
  (∀ (s : State) (d : Nat), s.input.who = d → d < 6 → s.input.at_ < 800 →
    ∃ t, exec .thermalRecover s = .next t ∧ { t with dies := s.dies } = s ∧ (t.dieAt d).heat = 0 ∧
      (t.dieAt d).thermal = if s.input.at_ < 760 then (s.dieAt d).thermal - 1 else (s.dieAt d).thermal)

/-- R354, R355, R356, R357, R366, R453 to R456: the bytes of a flit as it is composed hold its CRC and its header, and SEQ, ACK, the
permits returned and the class of each slot, or FILL, stand there; a slot is filled by a message that waits and whose class has a
permit, which it spends, SYS before RSP, SNP, LCH, ENG and REQ but for a class whose turn has come. A flit that arrives intact and
in its turn raises what the receiver expects and frees what it acknowledges; one whose CRC fails is discarded, and the sender holds
it, as one sent again, until it is acknowledged. A replay sends every held flit again; a module that must retrain does, with its
pools full where the retrain was forced, or goes down; loss of both hub modules asks for the die's reset; a starved pool forces a
retrain. Which flits arrive and how, what a message holds, and whether a module can retrain, the input says (log entries 1, 30 and
42). -/
def Obligations.LinksAndFlits : Prop :=
  (∀ (k : LinkKind) (f : Flit) (ack : BitVec 16),
    let bs := f.bytes k ack
    let h := flitHeader bs
    let chain := ∃ d, k = .chain d
    f.rets.length ≤ 4 → (∀ r ∈ f.rets, r < 256) → f.slots.length ≤ 4 → (∀ x, some x ∈ f.slots → x.cls < 8) → f.fill.length ≤ 240 →
    bs.length = 256 ∧ flitIntact bs = true ∧ bits h 80 16 = f.seq.toNat ∧ bits h 64 16 = ack.toNat ∧
      bits h 56 8 = f.rets.getD 0 0 ∧
      (chain → bits h 48 8 = f.fill.length ∧ bits h 0 48 = 0 ∧ (bs.drop 16).take f.fill.length = f.fill) ∧
      (¬ chain → bits h 48 8 = f.rets.getD 1 0 ∧ bits h 40 8 = f.rets.getD 2 0 ∧ bits h 32 8 = f.rets.getD 3 0 ∧
        bits h 12 20 = 0 ∧ ∀ i, i < 4 → bits h (3 * i) 3 = match f.slots.getD i none with | some x => x.cls | none => 0)) ∧
  (∀ (sizes due : List Nat) (n : Nat) (p : LinkPool), (∀ c ∈ due, 1 ≤ c ∧ c ≤ 6) →
    let y := LinkPool.fillSlots sizes n due p
    y.1.length = n ∧ (y.1.filterMap id ++ y.2.waiting).Perm p.waiting ∧ y.2.owed = p.owed ∧
      (∀ c, c < 6 → y.2.spent c = p.spent c + (y.1.filter fun x => x.any fun m => m.cls = c + 1).length ∧
        (p.spent c ≤ sizes.getD c 0 → y.2.spent c ≤ sizes.getD c 0)) ∧
      (due = [] → ∀ x xs, y.1 = some x :: xs → ∀ m ∈ p.waiting, 1 ≤ m.cls → m.cls ≤ 6 →
        p.spent (m.cls - 1) < sizes.getD (m.cls - 1) 0 → slotOrder.idxOf x.cls ≤ slotOrder.idxOf m.cls)) ∧
  (∀ (s : State) (k : LinkKind),
    let m := s.input.who
    let w := s.input.which
    let d := (s.link m).dir w
    let o := (s.link m).dir (1 - w)
    linkKind m = some k → w < 2 → (s.link m).up = true → s.input.value = 0 →
    (k = .skoah → s.hub.standby[w]! = true → s.hasNews m w k = true) → (0 < d.resend → d.resend ≤ d.held.length) →
    (d.resend = 0 → d.held.length < 64) →
    (s.input.data = [] → ∃ t f, exec .flitReceive s = .next t ∧ { t with hub := s.hub, cores := s.cores } = s ∧
      (if 0 < d.resend then d.held[d.held.length - d.resend]? = some f ∧ ((t.link m).dir w).held = d.held ∧
          ((t.link m).dir w).seq = d.seq ∧ ((t.link m).dir w).resend = d.resend - 1
        else f.seq = d.seq ∧ ((t.link m).dir w).held = d.held ++ [f] ∧ ((t.link m).dir w).seq = d.seq + 1) ∧
      ((t.link m).dir w).expect = (if f.seq = d.expect then d.expect + 1 else d.expect) ∧
      ((t.link m).dir (1 - w)).held = (if f.seq = d.expect then o.held.drop (o.acked (o.expect - 1)) else o.held) ∧
      ((t.link m).dir (1 - w)).seq = o.seq ∧ ((t.link m).dir (1 - w)).expect = o.expect) ∧
    (∀ f u, s.nextFlit m w k = some (f, u) → s.input.data ≠ [] →
      disturbed (f.bytes k (o.expect - 1)) s.input.data ≠ f.bytes k (o.expect - 1) →
      flitIntact (disturbed (f.bytes k (o.expect - 1)) s.input.data) = false →
      ∃ t, exec .flitReceive s = .next t ∧ { t with hub := s.hub } = s ∧ (t.link m).dir (1 - w) = o ∧
        ((t.link m).dir w).expect = d.expect ∧
        (d.resend = 0 → ((t.link m).dir w).held = d.held ++ [f] ∧ ((t.link m).dir w).seq = d.seq + 1))) ∧
  (∀ (s : State), s.input.which < 2 → (s.link s.input.who).up = true →
    let d := (s.link s.input.who).dir s.input.which
    d.held ≠ [] → ∃ t, exec .flitReplay s = .next t ∧ { t with hub := s.hub } = s ∧ (t.link s.input.who).dir s.input.which =
      { d with replays := d.replays + 1, resend := d.held.length }) ∧
  (∀ (s : State) (k : LinkKind), linkKind s.input.who = some k → (s.link s.input.who).up = true →
    (s.link s.input.who).retrains = true →
    (s.input.flag = true → ∃ t, exec .linkRetrain s = .next t ∧ (t.link s.input.who).up = true ∧
      (t.link s.input.who).retrains = false ∧ ((s.link s.input.who).forced = true → ∀ w, w < 2 →
        ((t.link s.input.who).dir w).held = [] ∧ (t.pool (k.side w)).used = Vector.replicate 6 0 ∧
          (t.pool (k.side w)).owed = Vector.replicate 6 0)) ∧
    (∃ t, exec .linkModuleDown s = .next t ∧ (t.link s.input.who).up = false ∧
      ∀ d, k = .hub d → t.linkUp (24 + 2 * d) = false → t.linkUp (25 + 2 * d) = false → .dieReset d ∈ t.hub.requests)) ∧
  (∀ (s : State) (k : LinkKind) (c : Nat), linkKind s.input.who = some k → (∀ d, k ≠ .chain d) →
    (s.link s.input.who).up = true → s.input.value = c + 1 → 0 < k.pools.getD c 0 →
    let p := s.pool (k.side (s.input.which % 2))
    k.pools.getD c 0 ≤ p.spent c → (∃ x ∈ p.waiting, x.cls = c + 1) →
    ∃ t, exec .permitStarvation s = .next t ∧ (t.link s.input.who).forced = true) ∧
  (∀ (s : State) (w : Nat), s.input.who = w → w < 2 → s.input.flag = true → (s.pool (24 + w)).waiting = [] →
    (((s.link 100).dir w).held.all fun f => f.slots.all Option.isNone) = true →
    ∃ t, exec .linkStandby s = .next t ∧ { t with hub := s.hub } = s ∧ t.hub.standby[w]! = true)

/-- R379, R381, R460, R380: the controller loads hub firmware, Cowslip policy and die firmware in that order; it measures its ROM
first and extends register n + 1 with the digest of the n-th image accepted; every die leaves reset with the last; an image that is
refused leaves the controller in recovery and the dies as they are; an image that is accepted over the sideband after the third is
measured nowhere and ends recovery. A sideband write reaches CEIL and a die's power word alone; a sideband read is answered by the
power registers alone; in recovery both are refused. What a load after the third image does, and that an access that R460 does not
accept is answered as an error, are the model's (log entry 31). The seven requests of SPDM 1.2, each with the version and code of
its message: in its turn a well-formed request is answered by its response; out of turn, in recovery, too short, of another code or
version it is answered by ERROR, which is UnsupportedRequest with the code where the controller supports no request of it, and the
state of the responder is otherwise unchanged. The bytes of the messages are the model's reading of DSP0274 1.2 (log entry 11). -/
def Obligations.BootSidebandAndAttestation : Prop :=
  (
  (∀ (s : State) (i : Instr), i = .powerOnBoot ∧ s.hub.sec.recovery = false ∨ i = .sidebandFirmwareLoad →
    let x := s.hub.sec
    let image := s.input.data
    let rom := if x.rom then x.meas[0] else extendMeas x.meas[0] Config.romDigest
    s.hub.sec.stage < 3 →
    (Config.imageAccepted image = true →
      ∃ t, exec i s = .next t ∧ t.hub.sec.stage = x.stage + 1 ∧ t.hub.sec.recovery = false ∧ t.hub.sec.rom = true ∧
        t.hub.sec.meas[0] = rom ∧ (∀ n, (h : n < 3) → t.hub.sec.meas[n + 1] =
          if n = x.stage then extendMeas x.meas[n + 1] (sha256 image) else x.meas[n + 1]) ∧
        { t with hub := s.hub, dies := s.dies } = s ∧ { t.hub with sec := x } = s.hub ∧
        (x.stage < 2 → t.dies = s.dies) ∧ (x.stage = 2 → ∀ d, d < 6 → (t.dieAt d).up = true)) ∧
    (Config.imageAccepted image = false →
      ∃ t, exec i s = .next t ∧ t.hub.sec.recovery = true ∧ t.hub.sec.stage = x.stage ∧ t.hub.sec.meas[0] = rom ∧
        (∀ n, (h : n < 3) → t.hub.sec.meas[n + 1] = x.meas[n + 1]) ∧ { t with hub := s.hub } = s)) ∧
  (∀ (s : State), 3 ≤ s.hub.sec.stage →
    exec .sidebandFirmwareLoad s = .next (if s.hub.sec.recovery = true ∧ Config.imageAccepted s.input.data = true then
      { s with hub := { s.hub with sec := { s.hub.sec with recovery := false } } } else s)) ∧
  (∀ (s : State),
    let a := s.input.addr
    let v := s.input.value
    let done := fun (t : State) =>
      (Host.Outcome.next { t with hub := { t.hub with sec := { t.hub.sec with refused := false } } } : Out)
    let refused := ∃ t, exec .sidebandWrite s = .next t ∧ t.hub.sec.refused = true ∧
      (s.input.flag = true → t.hub.sec.reply = none) ∧
      { t with hub := { t.hub with sec := { t.hub.sec with refused := s.hub.sec.refused, reply := s.hub.sec.reply } } } = s
    let power := 0x060000040000 ≤ a ∧ a < 0x0600000400A0 ∧ a % 8 = 0
    (s.input.flag = false →
      (s.hub.sec.recovery = false → a = 0x060000040000 → exec .sidebandWrite s = done (hubWrite s 0x40000 v)) ∧
      (∀ d, d < 6 → s.hub.sec.recovery = false → a = 0x060000040040 + 0x10 * d →
        exec .sidebandWrite s = done (hubWrite s (0x40040 + 0x10 * d) v)) ∧
      (s.hub.sec.recovery = true ∨ (a ≠ 0x060000040000 ∧ ∀ d, d < 6 → a ≠ 0x060000040040 + 0x10 * d) → refused)) ∧
    (s.input.flag = true →
      (s.hub.sec.recovery = false → power → exec .sidebandWrite s = .next { s with hub := { s.hub with sec := { s.hub.sec with
        refused := false, reply := some (word (hubRead s (a - 0x060000000000))) } } }) ∧
      (s.hub.sec.recovery = true ∨ ¬ power → refused)))) ∧
  (
  let asked := fun (s : State) (code version : Nat) =>
    4 ≤ s.input.data.length ∧ (s.input.data.getD 1 0).toNat = code ∧ (s.input.data.getD 0 0).toNat = version ∧
      s.hub.sec.recovery = false
  let answered := fun (i : Instr) (s : State) (code : Nat) (p : Security → Security → Prop) =>
    ∃ t, exec i s = .next t ∧ { t with hub := s.hub } = s ∧ { t.hub with sec := s.hub.sec } = s.hub ∧
      t.hub.sec.response.getD 1 0 = BitVec.ofNat 8 code ∧ t.hub.sec.meas = s.hub.sec.meas ∧ t.hub.sec.stage = s.hub.sec.stage ∧
      p s.hub.sec t.hub.sec
  (∀ (s : State), 4 ≤ s.input.data.length → (s.input.data.getD 1 0).toNat = 0x84 → (s.input.data.getD 0 0).toNat = 0x10 →
    answered .getVersion s 0x04 fun x y => y.response = [0x10, 0x04, 0, 0, 0, 1, 0x00, 0x12] ∧ y.version = true ∧
      y.caps = false ∧ y.algs = false ∧ y.recovery = x.recovery) ∧
  (∀ (s : State), asked s 0xE1 0x12 → s.hub.sec.version = true →
    answered .getCapabilities s 0x61 fun x y => y.caps = true ∧ y.version = x.version) ∧
  (∀ (s : State), asked s 0xE3 0x12 → s.hub.sec.caps = true → bit (s.reqField 8 4) 4 = true → bit (s.reqField 12 4) 0 = true →
    answered .negotiateAlgorithms s 0x63 fun x y => y.algs = true ∧ y.caps = x.caps) ∧
  (∀ (s : State), s.hub.sec.algs = true →
    (asked s 0x81 0x12 → answered .getDigests s 0x01 fun _ y =>
      y.response.drop 4 = digestBytes (sha256 Config.certificate)) ∧
    (asked s 0x82 0x12 → s.reqByte 2 % 16 = 0 →
      let part := (Config.certificate.drop (s.reqField 4 2)).take (s.reqField 6 2)
      part ≠ [] → answered .getCertificate s 0x02 fun _ y => y.response.drop 8 = part) ∧
    (asked s 0x83 0x12 → s.reqByte 2 = 0 → s.reqByte 3 = 0 ∨ s.reqByte 3 = 1 ∨ s.reqByte 3 = 0xFF →
      answered .challenge s 0x03 fun _ y => (y.response.drop 4).take 32 = digestBytes (sha256 Config.certificate)) ∧
    (asked s 0xE0 0x12 → s.reqByte 3 ≤ 4 ∨ s.reqByte 3 = 0xFF → answered .getMeasurements s 0x60 fun x y =>
      ∀ n, (h : n < 4) → s.reqByte 3 = n + 1 → (y.response.drop 15).take 32 = digestBytes x.meas[n])) ∧
  (∀ (i : Instr) (s : State), (i = .getCapabilities ∧ s.hub.sec.version = false) ∨ (i = .negotiateAlgorithms ∧ s.hub.sec.caps = false) ∨
      (i ∈ [Instr.getDigests, .getCertificate, .challenge, .getMeasurements] ∧ s.hub.sec.algs = false) →
    answered i s 0x7F fun x y => { y with response := x.response } = x) ∧
  (∀ (i : Instr) (code version : Nat), (i, code, version) ∈ [(Instr.getVersion, 0x84, 0x10), (.getCapabilities, 0xE1, 0x12),
      (.negotiateAlgorithms, 0xE3, 0x12), (.getDigests, 0x81, 0x12), (.getCertificate, 0x82, 0x12), (.challenge, 0x83, 0x12),
      (.getMeasurements, 0xE0, 0x12)] →
    ∀ (s : State), s.input.data.length < 4 ∨ (s.input.data.getD 1 0).toNat ≠ code ∨ (s.input.data.getD 0 0).toNat ≠ version ∨
        (s.hub.sec.recovery = true ∧ i ≠ .getVersion) →
      answered i s 0x7F fun x y => { y with response := x.response } = x ∧ (4 ≤ s.input.data.length →
        (∀ c ∈ [0x81, 0x82, 0x83, 0x84, 0xE0, 0xE1, 0xE3], (s.input.data.getD 1 0).toNat ≠ c) →
        y.response = [0x12, 0x7F, 0x07, s.input.data.getD 1 0])))

/-- R448, R457, R458, R460: a reset asked for starts: BSY is 1 and the strips of the die are asked to be swapped out, or are lost
where NSV is 1 or the die cannot execute, and their launches are FAULTED; strips still there after 100 ms are lost; the watchdog
asks for a reset; once no strip is left its cores hold nothing, the sessions on its networks have failed, and what its cache or its
memory has lost is poisoned; where its firmware is accepted, and measured, it comes back with CYCLE at 0, and a refused image leaves
it in reset and the controller in recovery. When the steps of a reset come is the model's (log entries 1, 31 and 43). -/
def Obligations.DieResets : Prop :=
  let lost := fun (s t : State) (d : Nat) => ∀ k l x, (s.hartAt k).launch = some l → (s.hartAt k).die = d →
    s.launches[l]? = some x → (t.hartAt k).launch = none ∧ ∃ y, t.launches[l]? = some y ∧
      y.state = (if x.state = .retired ∨ x.state = .rejected ∨ x.state = .aborted then x.state else .faulted)
  (∀ (s u : State) (d : Nat), s.takeRequest (fun r => match r with | .dieReset d => some d | _ => none) = some (d, u) → d < 6 →
    (s.dieAt d).busy = false → (∀ k, (s.hartAt k).key = k) →
    ∃ t, exec .dieReset s = .next t ∧ (t.dieAt d).busy = true ∧ t.hub.requests = u.hub.requests ∧
      ((s.dieAt d).nsv = 1 ∨ s.input.flag = true → lost s t d) ∧
      ((s.dieAt d).nsv ≠ 1 → s.input.flag = false → ∀ k, (s.hartAt k).launch ≠ none → (s.hartAt k).die = d →
        (s.hartAt k).frozen = false → k < 2 ^ 64 → (t.hartAt k).preempt = true)) ∧
  (∀ (s : State) (d : Nat), s.input.who = d → (s.dieAt d).busy = true → (∀ k, (s.hartAt k).key = k) →
    ∃ t, exec .emergencySaveTimeout s = .next t ∧ lost s t d) ∧
  (∀ (s : State), s.input.who < 6 → (s.dieAt s.input.who).up = true →
    exec .dieFirmwareWatchdog s = .next { s with hub := { s.hub with requests := s.hub.requests ++ [.dieReset s.input.who] } }) ∧
  (∀ (s : State) (d : Nat), s.input.who = d → d < 6 → (s.dieAt d).busy = true → s.stripsOn d = [] → s.hub.sec.recovery = false →
    let ended := fun (t : State) => (∀ c, c / 64 = d → t.coreAt c = {}) ∧
      (∀ n ∈ t.nets, n.1 / 4 = d → ∀ x, n.2.sess = some x → x.fault.isSome = true ∨ x.failed = true)
    let lacks := fun (t : State) => ∀ a, homeOf a = .dram d → s.input.flag = true ∨ a / 32 ∈ s.input.sectors → t.poisoned a = true
    (Config.imageAccepted s.input.data = false → ∃ t, exec .dieResetDone s = .next t ∧ (t.dieAt d).up = false ∧
      (t.dieAt d).busy = true ∧ t.hub.sec.recovery = true ∧ ended t ∧ lacks t) ∧
    (Config.imageAccepted s.input.data = true → ∃ t, exec .dieResetDone s = .next t ∧ (t.dieAt d).busy = false ∧
      (t.dieAt d).up = true ∧ (t.dieAt d).pkd = false ∧ t.cycle d = 0 ∧
      t.hub.sec.meas[3] = extendMeas s.hub.sec.meas[3] (sha256 s.input.data) ∧
      ended t ∧ ((s.ring 64).en = false → lacks t)))

/-- R7, R31, R62, R67, R68, R83, R92, R115, R128, R161, R163, R168, R169, R171, R212, R251 to R254, R334, R337, R371, R378, R391,
R393, R397, R457: after reset every control register, the words of the hub and the state of the dies read as their fields' reset
values, the flits of every link direction carry ACK 0 (R354), no launch exists and no poison is held. VL 0, VROWS 1, VTYPE f32 and
VNR 8, the selection of hart 0, and the zeros that unwritten memory reads as are the model's choices (log entries 1, 3 and 4). -/
def Obligations.ResetState : Prop :=
  let s := State.reset
  s.csrRead 0x001 = 1 ∧ s.csrRead 0x214 = 0xE0 ∧
    (s.csrRead 0x010 = 0 ∧ s.csrRead 0x011 = 1 ∧ s.csrRead 0x012 = 9 ∧ s.csrRead 0x013 = 8) ∧
    (∀ n ∈ [0x000, 0x002, 0x003, 0x008, 0x009, 0x00A, 0x00B, 0x00C, 0x00D, 0x014, 0x020, 0x021, 0x022, 0x023, 0x030, 0x045, 0x050,
      0x051, 0x100, 0x101, 0x200, 0x201, 0x202, 0x203, 0x204, 0x205, 0x206, 0x210, 0x211, 0x212, 0x213, 0x215, 0x216],
      s.csrRead n = 0) ∧
    (∀ q, q < 64 → hubRead s (0x40 * q + 0x10) = 7 ∧ ∀ o ∈ [0x00, 0x08, 0x18, 0x20, 0x28, 0x30, 0x38], hubRead s (0x40 * q + o) = 0) ∧
    hubRead s 0x40000 = 350 ∧ hubRead s 0x40008 = 0 ∧ (∀ d, d < 6 → hubRead s (0x40040 + 0x10 * d) = 0x770) ∧
    hubRead s 0x50040 = 2 ^ 63 ∧ (∀ n, n < 64 → n ≠ 0 → hubRead s (0x50000 + 0x80 * n + 0x40) = 0) ∧
    (∀ n, n < 65 → ∀ o ∈ [0x00, 0x08, 0x10, 0x18], hubRead s (0x60000 + 0x20 * n + o) = 0) ∧
    hubRead s 0x70000 = 0 ∧ s.hub.hostFrozen = false ∧ (∀ d, d < 6 → hubRead s (0x80040 + 8 * d) = 0 ∧ (s.dieAt d).up = false) ∧
    (∀ m w, s.ackOf m w = 0) ∧ (∀ r, r < 32 → s.h.getX r = 0) ∧ s.h.plv = .app ∧ s.launches = [] ∧ s.contexts = [] ∧ (∀ a, s.byteAt a = 0) ∧
    (∀ a, s.poisoned a = false) ∧ s.canonical

/-- R105 to R123, R311, R312: words written out from the encodings of the spec decode to the instructions they stand for: a full
word of each format (FI, FB, FX, FM), a pair with its NOP, a prefixed pair, and rules. Words with a reserved field set are none. -/
def Obligations.WordsDecode : Prop :=
  (∀ p ∈ ([(0x0C8D000000430000, .csrr ⟨13, 0, 0, 0x043, 0⟩), (0x0CC0340002160000, .csrw ⟨0, 13, 0, 0x216, 0⟩),
      (0x084D3BFFFFFFFFFE, .bne ⟨13, 14, 0x3FFFFFFFFFE⟩),
      (0x108000010000010A, .vsett ⟨0, 0, 1, 0x10A⟩), (0x1040000100000010, .vsetl ⟨0, 0, 1, 0x10⟩),
      (0x10F0180000000000, .vld ⟨48, 6, 0, 0, 0, 0⟩), (0x12311C0000000000, .vst ⟨49, 7, 0, 0, 0, 0⟩),
      (0x1800000000000B01, .chcfg ⟨0, 0, 0, 0, 0, 0, 0, 0x0B01⟩), (0x1840380000000000, .chrun ⟨0, 14, 0, 0⟩),
      (0x1840000200000000, .chrun ⟨0, 0, 2, 0⟩), (0x18D1000000000000, .chwait ⟨17, 0, 0, 0⟩),
      (0x1900000000000030, .chlnk ⟨0, 0, 0, 0x30⟩), (0x0B00000000000000, .gate ⟨0, 0, 0, 0⟩),
      (0x0DC0000000000000, .xret ⟨0, 0, 0, 0⟩), (0x16000000000204AF, .mcfg ⟨0, 0, 0, 0, 0, 0, 2, 0x4AF⟩),
      (0x1702340000000000, .mrd ⟨2, 13, 0, 0, 0, 0, 0, 0⟩), (0x17D1000000000001, .mstat ⟨17, 0, 0, 0, 0, 0, 0, 1⟩),
      (0x51E3802119000000, .vma ⟨49, 48, 1, 2, none⟩), (0x5663806219000000, .vclamp ⟨49, 48, 3, 4, none⟩),
      (0x701B862019000000, .mrow ⟨13, 48, 49, 0, none⟩), (0x6063800199000000, .vcvt ⟨49, 48, 0, 3, none⟩),
      (0x8000180064C00380, .qwr ⟨48, 0, 14, 0, some ⟨0, 0, 0, 0, 0, 0, 3⟩⟩)] : List (Nat × Instr)),
    decodeTableWord 64 p.1 = some p.2 ∧ WellFormed p.2 = true) ∧
  (∀ p ∈ ([(0x50880003, .walkLi 0 0x880003), (0x70400000, .walkTnul 1), (0x80000005, .walkJt 5), (0xE0000000, .walkMiss),
      (0xF0000000, .walkEndRule)] : List (Nat × Instr)), decodeTableWord 32 p.1 = some p.2) ∧
  decodeTableWord 64 0x0DC0000000000001 = none ∧ decodeTableWord 64 0xC000000000000000 = none ∧
  decodeTableWord 32 0xE0000001 = none

/-- R105 to R123, R311: every well-formed instruction that a word names is read back from the word it encodes to, with every operand
as it was, and a full word that decodes is well-formed and is the word its instruction encodes to; the pair of two scalar or
unprefixed halves is read back as that pair. -/
def Obligations.EncodingRoundTrip : Prop :=
  (∀ (i : Instr), WellFormed i = true →
    (∀ w, encode i = some w → decodeTableWord 64 w.toNat = some i) ∧
    (∀ w, encodeRule i = some w → decodeTableWord 32 w.toNat = some i)) ∧
  (∀ (w : Word) (i : Instr), decodeUnit w none = .ok (.full i) → WellFormed i = true ∧ encode i = some w) ∧
  (∀ (w : BitVec 32) (i : Instr), decodeRule w = some i → encodeRule i = some w) ∧
  (∀ (a b : BitVec 31) (i j : Instr), decodeHalf a none = .ok i → decodeHalf b none = .ok j →
    decodeUnit (encPair a b) none = .ok (.pair i j))

/-- R105, R106, R116, R118, R310, R406: a turn of a hart that runs and whose vector queue is empty reads the word at its pc under
its translation and has the effect of the instruction that the word decodes to, of the two halves of a pair or of a prefixed word; a
word that is none, and a fetch that faults, take the exception of theirs. A turn of the device has the effect of its event, and a
turn of a walk that of its next rule; the harts of one cycle act in ascending order of die, core and slot (R211). FENCEs that waited
for the queue take effect first, and the barriers of a cycle settle as it ends. A swap-out or an imprecise trap takes effect where
nothing goes before it at the boundary of its hart, and a wait whose event has come completes first (R46, R403). Which turn comes
next, and which turns share a cycle, is the model's convention (log entry 1); so is that a FENCE takes effect once the queue is
empty (log entry 5), and that a prefixed word whose next word cannot be fetched issues alone (log entry 15). A pc that is no
multiple of 8 is fetched from like any other (log entry 46). -/
def Obligations.StepRunsDecodedInstruction : Prop :=
  let runs := fun (s : State) => s.h.launch ≠ none ∧ s.h.frozen = false ∧ s.h.lacks = none ∧ s.h.wait = none ∧ s.h.queueBusy = false ∧
    s.h.takesHeld = false ∧ s.h.preempt = false
  let ran := fun (s : State) (o : Out) => ∃ t, o = .next t ∧ step s = .next (if sameCycle t.turns then t else t.closeCycle)
  (∀ (k j : Nat) (ks js : List Nat) (rest : List Turn), (∀ m r, rest ≠ .same m :: r) → (j :: js).Perm (k :: ks) →
    (j :: js).Pairwise (· ≤ ·) → orderCycle (.hart k :: (ks.map .same ++ rest)) = .hart j :: (js.map .same ++ rest) ∧
      orderCycle (.same k :: (ks.map .same ++ rest)) = .same j :: (js.map .same ++ rest)) ∧
  (∀ (s : State) (k : Nat),
    let ts := orderCycle s.turns
    (ts = [] ∧ k = s.h.key) ∨ (∃ rest, ts = .hart k :: rest ∨ ts = .same k :: rest) →
    let u := ({ s with turns := ts.drop 1, time := s.time + 1 } : State).select k
    let v : State := u.h.fences.foldl (fun t f => t.record (t.h.fenceEv f))
      { u with h := { u.h with po := u.h.po + 1, fences := [] } }
    runs u →
    (∀ r, v.canAccess { ex := true } false v.h.pc.toNat 8 [r] →
      ∃ t, fetchWord v v.h.pc = .ok (word (ofBytes (v.load (v.keyOf v.h) r)), t)) ∧
    (∀ f, fetchWord v v.h.pc = .error f → ran s (exec .fetchFault v)) ∧
    (∀ w t, fetchWord v v.h.pc = .ok (w, t) →
      (w.extractLsb' 62 2 ≠ 2 →
        (∀ i, decodeUnit w none = .ok (.full i) → ran s (exec i t)) ∧
        (∀ a, decodeUnit w none = .ok (.pair a .nop) → ran s (exec a t)) ∧
        (∀ a b, decodeUnit w none = .ok (.pair a b) → b ≠ .nop → ran s (execPair a b 8 t)) ∧
        (∀ d, decodeUnit w none = .error d → ran s (exec (.illegalWord d.sub d.slot w) t))) ∧
      (w.extractLsb' 62 2 = 2 →
        (∀ n u, fetchWord t (t.h.pc + 8) = .ok (n, u) →
          (∀ i, decodeUnit w (some n) = .ok (.prefixed i) → ran s (exec i u)) ∧
          (∀ p b, decodeUnit w (some n) = .ok (.joined p b) → ran s (execPair p b 16 u)) ∧
          (∀ d, decodeUnit w (some n) = .error d → ran s (exec (.illegalWord d.sub d.slot (if d.second then n else w)) u))) ∧
        (∀ f, fetchWord t (t.h.pc + 8) = .error f →
          (∀ i, decodeUnit w none = .ok (.prefixed i) → ran s (exec i t)) ∧
          (∀ d, decodeUnit w none = .error d → ran s (exec (.illegalWord d.sub d.slot w) t)))))) ∧
  (∀ (s : State) (i : Instr) (inp : Input) (rest : List Turn), s.turns = .event i inp :: rest → isDevice i = true →
    i ≠ .swapOut → i ≠ .impreciseTrap →
    ran s (exec i { s with turns := rest, time := s.time + 1, input := inp })) ∧
  (∀ (s : State) (inp : Input) (rest : List Turn),
    let v : State := { s with turns := rest, time := s.time + 1, input := inp }
    let takes := (v.hartAt inp.who).takesHeld
    (s.turns = .event .swapOut inp :: rest →
      (boundaryFree v inp.who true = true ∧ takes = false → ran s (exec .swapOut v)) ∧
      (boundaryFree v inp.who true = false ∨ takes = true → ran s (.next v))) ∧
    (s.turns = .event .impreciseTrap inp :: rest →
      let waits := boundaryFree v inp.who false = false ∨ (v.select inp.who).trapBehind = true
      (∀ t, takes = true → v.wakeNow inp.who = some t → ran s (.next t)) ∧
      (takes = false ∨ v.wakeNow inp.who = none → (¬ waits → ran s (exec .impreciseTrap v)) ∧ (waits → ran s (.next v))))) ∧
  (∀ (s : State) (k : Nat) (rest : List Turn) (w : BitVec 32) (i : Instr), s.turns = .walk k :: rest →
    let v := ({ s with turns := rest, time := s.time + 1 } : State).selectWalk k
    v.wk.ending = none → v.wk.prog[v.wk.rpc]? = some w → decodeRule w = some i → ran s (exec i v))

/-- No instruction, no event and no turn stops the machine: every one of them gives a next state, in every state, with a step's
clock one on. (What the next state holds, the other statements say.) It is the model's, which stops at no instruction (log entry 1).
-/
def Obligations.EveryStepGivesANextState : Prop :=
  (∀ (i : Instr) (s : State), ∃ t, exec i s = .next t) ∧ ∀ (s : State), StepsSafely s

/-- Every step keeps the canonical form of memory, of the keys that its sectors are held under, and of poison: addresses strictly
rising and no entry that an unlisted one reads as, so that equal memories are equal data. The form is the model's (log entry 4). -/
def Obligations.CanonicalMemoryKept : Prop :=
  ∀ (s t : State), s.canonical → step s = .next t → t.canonical
end

