-- ==== Sys2Proof/Laws/Crypto.lean ====
section
/-!
SUPPORT. The lengths of what the cipher gives: a sector read under another key has the length it was written with.
-/
namespace Sys2Proof.Machine

theorem toBytes_length (n v : Nat) : (toBytes n v).length = n := by
  induction n generalizing v with
  | zero => rfl
  | succ n ih => simp [toBytes, ih]

theorem natBytes_length (n v : Nat) : (natBytes n v).length = n := by simp [natBytes, toBytes_length]

theorem xorBytes_length (a b : List Nat) : (xorBytes a b).length = min a.length b.length := by simp [xorBytes]

/-- The words of a key schedule: at least eight, of four bytes each. -/
def scheduleOk (ws : List (List Nat)) : Prop := 8 ≤ ws.length ∧ ∀ w ∈ ws, w.length = 4

theorem scheduleOk_getD {ws : List (List Nat)} (h : scheduleOk ws) (i : Nat) (hi : i < 8) : (ws.getD i []).length = 4 := by
  have hl : i < ws.length := by have := h.1; omega
  have e : ws.getD i [] = ws[i] := by simp [List.getD, hl]
  rw [e]
  exact h.2 _ (List.getElem_mem hl)

theorem expandGo_ok (n : Nat) : ∀ (i rcon : Nat) (ws : List (List Nat)), scheduleOk ws →
    scheduleOk (expandGo n i rcon ws) ∧ (expandGo n i rcon ws).length = ws.length + n := by
  induction n with
  | zero => intro i rcon ws h; exact ⟨h, rfl⟩
  | succ n ih =>
    intro i rcon ws h
    have h0 := scheduleOk_getD h 0 (by omega)
    have h7 := scheduleOk_getD h 7 (by omega)
    have key : ∀ t : List Nat, t.length = 4 → scheduleOk (xorBytes (ws.getD 7 []) t :: ws) := by
      intro t ht
      refine ⟨by have := h.1; simp; omega, ?_⟩
      intro w hw
      rcases List.mem_cons.mp hw with rfl | hw
      · rw [xorBytes_length, h7, ht]; rfl
      · exact h.2 w hw
    have fin : ∀ (rcon : Nat) (t : List Nat), t.length = 4 →
        scheduleOk (expandGo n (i + 1) rcon (xorBytes (ws.getD 7 []) t :: ws)) ∧
          (expandGo n (i + 1) rcon (xorBytes (ws.getD 7 []) t :: ws)).length = ws.length + (n + 1) := by
      intro rcon t ht
      have := ih (i + 1) rcon _ (key t ht)
      exact ⟨this.1, by rw [this.2]; simp; omega⟩
    simp only [expandGo]
    apply fin
    split
    · have hl : ((((ws.getD 0 []).drop 1 ++ (ws.getD 0 []).take 1)).map sbox).length = 4 := by
        simp only [List.length_map, List.length_append, List.length_drop, List.length_take, h0]; rfl
      split
      · rename_i b r he
        rw [he] at hl
        simpa using hl
      · rename_i he
        rw [he] at hl
        simp at hl
    · split
      · simp only [List.length_map, h0]
      · exact h0

theorem words4_ok (n : Nat) : ∀ bs : List Nat, 4 * n ≤ bs.length →
    (words4 n bs).length = n ∧ ∀ w ∈ words4 n bs, w.length = 4 := by
  induction n with
  | zero => intro bs _; exact ⟨rfl, by simp [words4]⟩
  | succ n ih =>
    intro bs h
    have := ih (bs.drop 4) (by simp; omega)
    refine ⟨by simp [words4, this.1], ?_⟩
    intro w hw
    rcases List.mem_cons.mp hw with rfl | hw
    · simp; omega
    · exact this.2 w hw

theorem flatten_length_four (l : List (List Nat)) (h : ∀ w ∈ l, w.length = 4) : l.flatten.length = 4 * l.length := by
  induction l with
  | nil => rfl
  | cons w l ih =>
    have h1 := h w (List.mem_cons_self ..)
    have h2 := ih (fun x hx => h x (List.mem_cons_of_mem _ hx))
    simp only [List.flatten_cons, List.length_append, List.length_cons, h1, h2]
    omega

/-- Each round key of a 32-byte key has 16 bytes. -/
theorem roundKeys_length (key : List Nat) (hk : key.length = 32) (r : Nat) (hr : r < 15) :
    ((roundKeys key).getD r []).length = 16 := by
  have hw := words4_ok 8 key (by omega)
  have hs : scheduleOk (words4 8 key).reverse := ⟨by simp [hw.1], fun w h => hw.2 w (by simpa using h)⟩
  have he := expandGo_ok 52 8 1 _ hs
  have hl : (expandGo 52 8 1 (words4 8 key).reverse).reverse.length = 60 := by
    simp only [List.length_reverse, he.2, hw.1]
  simp only [roundKeys]
  simp only [List.getD, List.getElem?_map, List.getElem?_range hr, Option.map_some, Option.getD_some]
  rw [flatten_length_four]
  · simp only [List.length_take, List.length_drop, hl]
    omega
  · intro w h
    exact he.1.2 w (by simpa using List.mem_of_mem_drop (List.mem_of_mem_take h))

theorem aesEnc_length (rk : List (List Nat)) (s : List Nat) (h : (rk.getD 14 []).length = 16) : (aesEnc rk s).length = 16 := by
  simp only [aesEnc, xorBytes_length, h, shiftRows]; simp

theorem aesDec_length (rk : List (List Nat)) (s : List Nat) (h : (rk.getD 0 []).length = 16) : (aesDec rk s).length = 16 := by
  simp only [aesDec, xorBytes_length, h, invShiftRows]; simp

theorem xtsSector_length (f : List Nat → List Nat) (hf : ∀ b, (f b).length = 16) (kt : BitVec 256) (sector : Nat)
    (bs : List Nat) : (xtsSector f kt sector bs).length = 32 := by
  simp [xtsSector, xtsBlock, xorBytes_length, hf, natBytes_length]

/-- A sector deciphered has 32 bytes. -/
theorem decipher_length (k : BitVec 256 × BitVec 256) (sector : Nat) (bs : List Byte) : (decipher k sector bs).length = 32 := by
  unfold decipher
  simp only [List.length_map]
  exact xtsSector_length _ (fun b => aesDec_length _ b (roundKeys_length _ (natBytes_length _ _) 0 (by omega))) _ _ _

/-- A sector enciphered has 32 bytes. -/
theorem encipher_length (k : BitVec 256 × BitVec 256) (sector : Nat) (bs : List Byte) : (encipher k sector bs).length = 32 := by
  unfold encipher
  simp only [List.length_map]
  exact xtsSector_length _ (fun b => aesEnc_length _ b (roundKeys_length _ (natBytes_length _ _) 14 (by omega))) _ _ _

/-- A sector of 32 bytes reads as 32 bytes under every key. -/
theorem rekey_length (w r : BitVec 256 × BitVec 256) (sector : Nat) (bs : List Byte) (h : bs.length = 32) :
    (rekey w r sector bs).length = 32 := by
  unfold rekey
  split
  · exact h
  · exact decipher_length _ _ _

end Sys2Proof.Machine
end

