-- ==== Sys2Proof/Laws/Sparse.lean ====
section
/-!
SUPPORT. Sparse data: a read after a write, whatever the form of the data, and the canonical form.
-/
namespace Sys2Proof.Machine

variable {α : Type}

/-! ## Reads after writes -/

theorem Sparse.get_drop (d : α) (m : Sparse α) (k i : Nat) :
    Sparse.get d (Sparse.drop m k) i = if i = k then d else Sparse.get d m i := by
  induction m with
  | nil => simp [Sparse.drop, Sparse.get]
  | cons p m ih =>
    obtain ⟨j, u⟩ := p
    simp only [Sparse.drop, Sparse.get]
    split
    · rw [ih]; split
      · rfl
      · rw [if_neg (by omega)]
    · simp only [Sparse.get, ih]
      split
      · rw [if_neg (by omega)]
      · rfl

theorem Sparse.get_put (d : α) (m : Sparse α) (k : Nat) (v : α) (i : Nat) (h : Sparse.get d m k = d) :
    i ≠ k → Sparse.get d (Sparse.put m k v) i = Sparse.get d m i := by
  intro hi
  induction m with
  | nil => simp [Sparse.put, Sparse.get, hi]
  | cons p m ih =>
    obtain ⟨j, u⟩ := p
    simp only [Sparse.put]
    split
    · simp [Sparse.get, hi]
    · simp only [Sparse.get]
      split
      · rfl
      · by_cases hk : k = j
        · subst hk
          clear ih h
          induction m with
          | nil => simp [Sparse.put, Sparse.get, hi]
          | cons q m ih =>
            obtain ⟨l, w⟩ := q
            simp only [Sparse.put]
            split
            · simp [Sparse.get, hi]
            · simp only [Sparse.get, ih]
        · exact ih (by simpa [Sparse.get, hk] using h)

theorem Sparse.get_put_same (d : α) (m : Sparse α) (k : Nat) (v : α) :
    Sparse.get d (Sparse.put (Sparse.drop m k) k v) k = v := by
  induction m with
  | nil => simp [Sparse.drop, Sparse.put, Sparse.get]
  | cons p m ih =>
    obtain ⟨j, u⟩ := p
    simp only [Sparse.drop]
    split
    · exact ih
    · rename_i h
      simp only [Sparse.put]
      split
      · simp [Sparse.get]
      · simp [Sparse.get, h, ih]

variable [DecidableEq α]

/-- A read of the key written gives the value written. -/
theorem Sparse.get_set_same (d : α) (m : Sparse α) (k : Nat) (v : α) : Sparse.get d (Sparse.set d m k v) k = v := by
  unfold Sparse.set
  split
  · subst_vars; rw [Sparse.get_drop, if_pos rfl]
  · exact Sparse.get_put_same d m k v

/-- A read of another key gives what it gave before the write. -/
theorem Sparse.get_set_other (d : α) (m : Sparse α) (k : Nat) (v : α) (i : Nat) (h : i ≠ k) :
    Sparse.get d (Sparse.set d m k v) i = Sparse.get d m i := by
  unfold Sparse.set
  split
  · rw [Sparse.get_drop, if_neg h]
  · rw [Sparse.get_put d _ k v i (by rw [Sparse.get_drop, if_pos rfl]) h, Sparse.get_drop, if_neg h]

/-- A read after a write. -/
theorem Sparse.get_set (d : α) (m : Sparse α) (k : Nat) (v : α) (i : Nat) :
    Sparse.get d (Sparse.set d m k v) i = if i = k then v else Sparse.get d m i := by
  split
  · subst_vars; exact Sparse.get_set_same d m _ v
  · exact Sparse.get_set_other d m k v i (by assumption)

/-- A read after a change. -/
theorem Sparse.get_upd (d : α) (m : Sparse α) (k : Nat) (f : α → α) (i : Nat) :
    Sparse.get d (Sparse.upd d m k f) i = if i = k then f (Sparse.get d m k) else Sparse.get d m i :=
  Sparse.get_set d m k _ i

/-! ## The canonical form -/

omit [DecidableEq α] in
theorem Sparse.above_mono {m : Sparse α} {a b : Nat} (h : a ≤ b) (hb : Sparse.above b m = true) : Sparse.above a m = true := by
  cases m with
  | nil => rfl
  | cons p m => simp only [Sparse.above, decide_eq_true_eq] at *; omega

theorem Sparse.wf_cons {d : α} {j : Nat} {v : α} {m : Sparse α} :
    Sparse.wf d ((j, v) :: m) = true ↔ v ≠ d ∧ Sparse.above (j + 1) m = true ∧ Sparse.wf d m = true := by
  simp [Sparse.wf, and_assoc]

theorem Sparse.above_drop {d : α} {m : Sparse α} {n : Nat} (k : Nat) (h : Sparse.above n m = true)
    (hw : Sparse.wf d m = true) : Sparse.above n (Sparse.drop m k) = true := by
  induction m with
  | nil => rfl
  | cons p m ih =>
    obtain ⟨j, u⟩ := p
    have hw' := Sparse.wf_cons.mp hw
    simp only [Sparse.above, decide_eq_true_eq] at h
    simp only [Sparse.drop]
    split
    · exact ih (Sparse.above_mono (by omega) hw'.2.1) hw'.2.2
    · simp [Sparse.above, h]

theorem Sparse.wf_drop {d : α} {m : Sparse α} (k : Nat) (hw : Sparse.wf d m = true) :
    Sparse.wf d (Sparse.drop m k) = true := by
  induction m with
  | nil => rfl
  | cons p m ih =>
    obtain ⟨j, u⟩ := p
    have hw' := Sparse.wf_cons.mp hw
    simp only [Sparse.drop]
    split
    · exact ih hw'.2.2
    · exact Sparse.wf_cons.mpr ⟨hw'.1, Sparse.above_drop k hw'.2.1 hw'.2.2, ih hw'.2.2⟩

theorem Sparse.above_put {d : α} {m : Sparse α} {n k : Nat} {v : α} (h : Sparse.above n m = true) (hk : n ≤ k)
    (hw : Sparse.wf d m = true) : Sparse.above n (Sparse.put m k v) = true := by
  cases m with
  | nil => simp [Sparse.put, Sparse.above, hk]
  | cons p m =>
    obtain ⟨j, u⟩ := p
    simp only [Sparse.above, decide_eq_true_eq] at h
    simp only [Sparse.put]
    split <;> simp [Sparse.above, hk, h]

theorem Sparse.wf_put {d : α} {m : Sparse α} (k : Nat) {v : α} (hv : v ≠ d) (hw : Sparse.wf d m = true)
    (hk : ∀ p ∈ m, p.1 ≠ k) : Sparse.wf d (Sparse.put m k v) = true := by
  induction m with
  | nil => simp [Sparse.put, Sparse.wf, Sparse.above, hv]
  | cons p m ih =>
    obtain ⟨j, u⟩ := p
    have hw' := Sparse.wf_cons.mp hw
    have hj := hk (j, u) (List.mem_cons_self ..)
    simp only [Sparse.put]
    split
    · exact Sparse.wf_cons.mpr ⟨hv, by simp only [Sparse.above, decide_eq_true_eq]; omega, hw⟩
    · simp only [ne_eq] at hj
      exact Sparse.wf_cons.mpr ⟨hw'.1, Sparse.above_put hw'.2.1 (by omega) hw'.2.2,
        ih hw'.2.2 fun p hp => hk p (List.mem_cons_of_mem _ hp)⟩

omit [DecidableEq α] in
theorem Sparse.mem_drop {m : Sparse α} {k : Nat} {p : Nat × α} (h : p ∈ Sparse.drop m k) : p.1 ≠ k := by
  induction m with
  | nil => simp [Sparse.drop] at h
  | cons q m ih =>
    obtain ⟨j, u⟩ := q
    simp only [Sparse.drop] at h
    split at h
    · exact ih h
    · rcases List.mem_cons.mp h with rfl | h
      · simp only [ne_eq]; omega
      · exact ih h

/-- A write keeps the canonical form. -/
theorem Sparse.wf_set {d : α} {m : Sparse α} (k : Nat) (v : α) (hw : Sparse.wf d m = true) :
    Sparse.wf d (Sparse.set d m k v) = true := by
  unfold Sparse.set
  split
  · exact Sparse.wf_drop k hw
  · exact Sparse.wf_put k (by assumption) (Sparse.wf_drop k hw) fun p hp => Sparse.mem_drop hp

/-- A change keeps the canonical form. -/
theorem Sparse.wf_upd {d : α} {m : Sparse α} (k : Nat) (f : α → α) (hw : Sparse.wf d m = true) :
    Sparse.wf d (Sparse.upd d m k f) = true := Sparse.wf_set k _ hw

theorem Sparse.above_filter {m : Sparse α} {d : α} {n : Nat} (g : Nat × α → Bool) (h : Sparse.above n m = true)
    (hw : Sparse.wf d m = true) : Sparse.above n (m.filter g) = true := by
  induction m with
  | nil => rfl
  | cons p m ih =>
    obtain ⟨j, u⟩ := p
    have hw' := Sparse.wf_cons.mp hw
    simp only [Sparse.above, decide_eq_true_eq] at h
    simp only [List.filter_cons]
    split
    · simp [Sparse.above, h]
    · exact ih (Sparse.above_mono (by omega) hw'.2.1) hw'.2.2

/-- Entries taken out leave the canonical form. -/
theorem Sparse.wf_filter {m : Sparse α} {d : α} (g : Nat × α → Bool) (hw : Sparse.wf d m = true) :
    Sparse.wf d (m.filter g) = true := by
  induction m with
  | nil => rfl
  | cons p m ih =>
    obtain ⟨j, u⟩ := p
    have hw' := Sparse.wf_cons.mp hw
    simp only [List.filter_cons]
    split
    · exact Sparse.wf_cons.mpr ⟨hw'.1, Sparse.above_filter g hw'.2.1 hw'.2.2, ih hw'.2.2⟩
    · exact ih hw'.2.2

end Sys2Proof.Machine
end

