-- ==== Sys2Proof/Laws/State.lean ====
section
/-!
SUPPORT. The state after each named update, field by field: what it replaces and what it leaves.
-/
namespace Sys2Proof.Machine

/-! ## State.setX -/

@[simp] theorem State.setX_h (s : State) (r : Field) (v : Word) : (s.setX r v).h = s.h.setX r.toNat v := rfl
@[simp] theorem State.setX_harts (s : State) (r : Field) (v : Word) : (s.setX r v).harts = s.harts := rfl
@[simp] theorem State.setX_cores (s : State) (r : Field) (v : Word) : (s.setX r v).cores = s.cores := rfl
@[simp] theorem State.setX_dies (s : State) (r : Field) (v : Word) : (s.setX r v).dies = s.dies := rfl
@[simp] theorem State.setX_hub (s : State) (r : Field) (v : Word) : (s.setX r v).hub = s.hub := rfl
@[simp] theorem State.setX_mem (s : State) (r : Field) (v : Word) : (s.setX r v).mem = s.mem := rfl
@[simp] theorem State.setX_poison (s : State) (r : Field) (v : Word) : (s.setX r v).poison = s.poison := rfl
@[simp] theorem State.setX_sectorKey (s : State) (r : Field) (v : Word) : (s.setX r v).sectorKey = s.sectorKey := rfl
@[simp] theorem State.setX_keys (s : State) (r : Field) (v : Word) : (s.setX r v).keys = s.keys := rfl
@[simp] theorem State.setX_sorrel (s : State) (r : Field) (v : Word) : (s.setX r v).sorrel = s.sorrel := rfl
@[simp] theorem State.setX_tlb (s : State) (r : Field) (v : Word) : (s.setX r v).tlb = s.tlb := rfl
@[simp] theorem State.setX_launches (s : State) (r : Field) (v : Word) : (s.setX r v).launches = s.launches := rfl
@[simp] theorem State.setX_contexts (s : State) (r : Field) (v : Word) : (s.setX r v).contexts = s.contexts := rfl
@[simp] theorem State.setX_trace (s : State) (r : Field) (v : Word) : (s.setX r v).trace = s.trace := rfl
@[simp] theorem State.setX_nets (s : State) (r : Field) (v : Word) : (s.setX r v).nets = s.nets := rfl
@[simp] theorem State.setX_netWait (s : State) (r : Field) (v : Word) : (s.setX r v).netWait = s.netWait := rfl
@[simp] theorem State.setX_wk (s : State) (r : Field) (v : Word) : (s.setX r v).wk = s.wk := rfl
@[simp] theorem State.setX_wkNo (s : State) (r : Field) (v : Word) : (s.setX r v).wkNo = s.wkNo := rfl
@[simp] theorem State.setX_walks (s : State) (r : Field) (v : Word) : (s.setX r v).walks = s.walks := rfl
@[simp] theorem State.setX_serial (s : State) (r : Field) (v : Word) : (s.setX r v).serial = s.serial := rfl
@[simp] theorem State.setX_input (s : State) (r : Field) (v : Word) : (s.setX r v).input = s.input := rfl
@[simp] theorem State.setX_turns (s : State) (r : Field) (v : Word) : (s.setX r v).turns = s.turns := rfl
@[simp] theorem State.setX_time (s : State) (r : Field) (v : Word) : (s.setX r v).time = s.time := rfl

/-! ## State.setPc -/

@[simp] theorem State.setPc_h (s : State) (p : Word) : (s.setPc p).h = { s.h with pc := p } := rfl
@[simp] theorem State.setPc_harts (s : State) (p : Word) : (s.setPc p).harts = s.harts := rfl
@[simp] theorem State.setPc_cores (s : State) (p : Word) : (s.setPc p).cores = s.cores := rfl
@[simp] theorem State.setPc_dies (s : State) (p : Word) : (s.setPc p).dies = s.dies := rfl
@[simp] theorem State.setPc_hub (s : State) (p : Word) : (s.setPc p).hub = s.hub := rfl
@[simp] theorem State.setPc_mem (s : State) (p : Word) : (s.setPc p).mem = s.mem := rfl
@[simp] theorem State.setPc_poison (s : State) (p : Word) : (s.setPc p).poison = s.poison := rfl
@[simp] theorem State.setPc_sectorKey (s : State) (p : Word) : (s.setPc p).sectorKey = s.sectorKey := rfl
@[simp] theorem State.setPc_keys (s : State) (p : Word) : (s.setPc p).keys = s.keys := rfl
@[simp] theorem State.setPc_sorrel (s : State) (p : Word) : (s.setPc p).sorrel = s.sorrel := rfl
@[simp] theorem State.setPc_tlb (s : State) (p : Word) : (s.setPc p).tlb = s.tlb := rfl
@[simp] theorem State.setPc_launches (s : State) (p : Word) : (s.setPc p).launches = s.launches := rfl
@[simp] theorem State.setPc_contexts (s : State) (p : Word) : (s.setPc p).contexts = s.contexts := rfl
@[simp] theorem State.setPc_trace (s : State) (p : Word) : (s.setPc p).trace = s.trace := rfl
@[simp] theorem State.setPc_nets (s : State) (p : Word) : (s.setPc p).nets = s.nets := rfl
@[simp] theorem State.setPc_netWait (s : State) (p : Word) : (s.setPc p).netWait = s.netWait := rfl
@[simp] theorem State.setPc_wk (s : State) (p : Word) : (s.setPc p).wk = s.wk := rfl
@[simp] theorem State.setPc_wkNo (s : State) (p : Word) : (s.setPc p).wkNo = s.wkNo := rfl
@[simp] theorem State.setPc_walks (s : State) (p : Word) : (s.setPc p).walks = s.walks := rfl
@[simp] theorem State.setPc_serial (s : State) (p : Word) : (s.setPc p).serial = s.serial := rfl
@[simp] theorem State.setPc_input (s : State) (p : Word) : (s.setPc p).input = s.input := rfl
@[simp] theorem State.setPc_turns (s : State) (p : Word) : (s.setPc p).turns = s.turns := rfl
@[simp] theorem State.setPc_time (s : State) (p : Word) : (s.setPc p).time = s.time := rfl

/-! ## State.advance -/

@[simp] theorem State.advance_h (s : State) (n : Nat) : (s.advance n).h = { s.h with pc := s.h.pc + BitVec.ofNat 64 n } := rfl
@[simp] theorem State.advance_harts (s : State) (n : Nat) : (s.advance n).harts = s.harts := rfl
@[simp] theorem State.advance_cores (s : State) (n : Nat) : (s.advance n).cores = s.cores := rfl
@[simp] theorem State.advance_dies (s : State) (n : Nat) : (s.advance n).dies = s.dies := rfl
@[simp] theorem State.advance_hub (s : State) (n : Nat) : (s.advance n).hub = s.hub := rfl
@[simp] theorem State.advance_mem (s : State) (n : Nat) : (s.advance n).mem = s.mem := rfl
@[simp] theorem State.advance_poison (s : State) (n : Nat) : (s.advance n).poison = s.poison := rfl
@[simp] theorem State.advance_sectorKey (s : State) (n : Nat) : (s.advance n).sectorKey = s.sectorKey := rfl
@[simp] theorem State.advance_keys (s : State) (n : Nat) : (s.advance n).keys = s.keys := rfl
@[simp] theorem State.advance_sorrel (s : State) (n : Nat) : (s.advance n).sorrel = s.sorrel := rfl
@[simp] theorem State.advance_tlb (s : State) (n : Nat) : (s.advance n).tlb = s.tlb := rfl
@[simp] theorem State.advance_launches (s : State) (n : Nat) : (s.advance n).launches = s.launches := rfl
@[simp] theorem State.advance_contexts (s : State) (n : Nat) : (s.advance n).contexts = s.contexts := rfl
@[simp] theorem State.advance_trace (s : State) (n : Nat) : (s.advance n).trace = s.trace := rfl
@[simp] theorem State.advance_nets (s : State) (n : Nat) : (s.advance n).nets = s.nets := rfl
@[simp] theorem State.advance_netWait (s : State) (n : Nat) : (s.advance n).netWait = s.netWait := rfl
@[simp] theorem State.advance_wk (s : State) (n : Nat) : (s.advance n).wk = s.wk := rfl
@[simp] theorem State.advance_wkNo (s : State) (n : Nat) : (s.advance n).wkNo = s.wkNo := rfl
@[simp] theorem State.advance_walks (s : State) (n : Nat) : (s.advance n).walks = s.walks := rfl
@[simp] theorem State.advance_serial (s : State) (n : Nat) : (s.advance n).serial = s.serial := rfl
@[simp] theorem State.advance_input (s : State) (n : Nat) : (s.advance n).input = s.input := rfl
@[simp] theorem State.advance_turns (s : State) (n : Nat) : (s.advance n).turns = s.turns := rfl
@[simp] theorem State.advance_time (s : State) (n : Nat) : (s.advance n).time = s.time := rfl

/-! ## State.setByte -/

@[simp] theorem State.setByte_h (s : State) (pa : Nat) (b : Byte) : (s.setByte pa b).h = s.h := rfl
@[simp] theorem State.setByte_harts (s : State) (pa : Nat) (b : Byte) : (s.setByte pa b).harts = s.harts := rfl
@[simp] theorem State.setByte_cores (s : State) (pa : Nat) (b : Byte) : (s.setByte pa b).cores = s.cores := rfl
@[simp] theorem State.setByte_dies (s : State) (pa : Nat) (b : Byte) : (s.setByte pa b).dies = s.dies := rfl
@[simp] theorem State.setByte_hub (s : State) (pa : Nat) (b : Byte) : (s.setByte pa b).hub = s.hub := rfl
@[simp] theorem State.setByte_mem (s : State) (pa : Nat) (b : Byte) : (s.setByte pa b).mem = Sparse.set 0#8 s.mem pa b := rfl
@[simp] theorem State.setByte_poison (s : State) (pa : Nat) (b : Byte) : (s.setByte pa b).poison = s.poison := rfl
@[simp] theorem State.setByte_sectorKey (s : State) (pa : Nat) (b : Byte) : (s.setByte pa b).sectorKey = s.sectorKey := rfl
@[simp] theorem State.setByte_keys (s : State) (pa : Nat) (b : Byte) : (s.setByte pa b).keys = s.keys := rfl
@[simp] theorem State.setByte_sorrel (s : State) (pa : Nat) (b : Byte) : (s.setByte pa b).sorrel = s.sorrel := rfl
@[simp] theorem State.setByte_tlb (s : State) (pa : Nat) (b : Byte) : (s.setByte pa b).tlb = s.tlb := rfl
@[simp] theorem State.setByte_launches (s : State) (pa : Nat) (b : Byte) : (s.setByte pa b).launches = s.launches := rfl
@[simp] theorem State.setByte_contexts (s : State) (pa : Nat) (b : Byte) : (s.setByte pa b).contexts = s.contexts := rfl
@[simp] theorem State.setByte_trace (s : State) (pa : Nat) (b : Byte) : (s.setByte pa b).trace = s.trace := rfl
@[simp] theorem State.setByte_nets (s : State) (pa : Nat) (b : Byte) : (s.setByte pa b).nets = s.nets := rfl
@[simp] theorem State.setByte_netWait (s : State) (pa : Nat) (b : Byte) : (s.setByte pa b).netWait = s.netWait := rfl
@[simp] theorem State.setByte_wk (s : State) (pa : Nat) (b : Byte) : (s.setByte pa b).wk = s.wk := rfl
@[simp] theorem State.setByte_wkNo (s : State) (pa : Nat) (b : Byte) : (s.setByte pa b).wkNo = s.wkNo := rfl
@[simp] theorem State.setByte_walks (s : State) (pa : Nat) (b : Byte) : (s.setByte pa b).walks = s.walks := rfl
@[simp] theorem State.setByte_serial (s : State) (pa : Nat) (b : Byte) : (s.setByte pa b).serial = s.serial := rfl
@[simp] theorem State.setByte_input (s : State) (pa : Nat) (b : Byte) : (s.setByte pa b).input = s.input := rfl
@[simp] theorem State.setByte_turns (s : State) (pa : Nat) (b : Byte) : (s.setByte pa b).turns = s.turns := rfl
@[simp] theorem State.setByte_time (s : State) (pa : Nat) (b : Byte) : (s.setByte pa b).time = s.time := rfl

/-! ## State.updCore -/

@[simp] theorem State.updCore_h (s : State) (c : Nat) (f : Core → Core) : (s.updCore c f).h = s.h := rfl
@[simp] theorem State.updCore_harts (s : State) (c : Nat) (f : Core → Core) : (s.updCore c f).harts = s.harts := rfl
@[simp] theorem State.updCore_cores (s : State) (c : Nat) (f : Core → Core) : (s.updCore c f).cores = Sparse.upd {} s.cores c f := rfl
@[simp] theorem State.updCore_dies (s : State) (c : Nat) (f : Core → Core) : (s.updCore c f).dies = s.dies := rfl
@[simp] theorem State.updCore_hub (s : State) (c : Nat) (f : Core → Core) : (s.updCore c f).hub = s.hub := rfl
@[simp] theorem State.updCore_mem (s : State) (c : Nat) (f : Core → Core) : (s.updCore c f).mem = s.mem := rfl
@[simp] theorem State.updCore_poison (s : State) (c : Nat) (f : Core → Core) : (s.updCore c f).poison = s.poison := rfl
@[simp] theorem State.updCore_sectorKey (s : State) (c : Nat) (f : Core → Core) : (s.updCore c f).sectorKey = s.sectorKey := rfl
@[simp] theorem State.updCore_keys (s : State) (c : Nat) (f : Core → Core) : (s.updCore c f).keys = s.keys := rfl
@[simp] theorem State.updCore_sorrel (s : State) (c : Nat) (f : Core → Core) : (s.updCore c f).sorrel = s.sorrel := rfl
@[simp] theorem State.updCore_tlb (s : State) (c : Nat) (f : Core → Core) : (s.updCore c f).tlb = s.tlb := rfl
@[simp] theorem State.updCore_launches (s : State) (c : Nat) (f : Core → Core) : (s.updCore c f).launches = s.launches := rfl
@[simp] theorem State.updCore_contexts (s : State) (c : Nat) (f : Core → Core) : (s.updCore c f).contexts = s.contexts := rfl
@[simp] theorem State.updCore_trace (s : State) (c : Nat) (f : Core → Core) : (s.updCore c f).trace = s.trace := rfl
@[simp] theorem State.updCore_nets (s : State) (c : Nat) (f : Core → Core) : (s.updCore c f).nets = s.nets := rfl
@[simp] theorem State.updCore_netWait (s : State) (c : Nat) (f : Core → Core) : (s.updCore c f).netWait = s.netWait := rfl
@[simp] theorem State.updCore_wk (s : State) (c : Nat) (f : Core → Core) : (s.updCore c f).wk = s.wk := rfl
@[simp] theorem State.updCore_wkNo (s : State) (c : Nat) (f : Core → Core) : (s.updCore c f).wkNo = s.wkNo := rfl
@[simp] theorem State.updCore_walks (s : State) (c : Nat) (f : Core → Core) : (s.updCore c f).walks = s.walks := rfl
@[simp] theorem State.updCore_serial (s : State) (c : Nat) (f : Core → Core) : (s.updCore c f).serial = s.serial := rfl
@[simp] theorem State.updCore_input (s : State) (c : Nat) (f : Core → Core) : (s.updCore c f).input = s.input := rfl
@[simp] theorem State.updCore_turns (s : State) (c : Nat) (f : Core → Core) : (s.updCore c f).turns = s.turns := rfl
@[simp] theorem State.updCore_time (s : State) (c : Nat) (f : Core → Core) : (s.updCore c f).time = s.time := rfl

/-! ## State.updLaunch -/

@[simp] theorem State.updLaunch_h (s : State) (l : Nat) (f : Launch → Launch) : (s.updLaunch l f).h = s.h := rfl
@[simp] theorem State.updLaunch_harts (s : State) (l : Nat) (f : Launch → Launch) : (s.updLaunch l f).harts = s.harts := rfl
@[simp] theorem State.updLaunch_cores (s : State) (l : Nat) (f : Launch → Launch) : (s.updLaunch l f).cores = s.cores := rfl
@[simp] theorem State.updLaunch_dies (s : State) (l : Nat) (f : Launch → Launch) : (s.updLaunch l f).dies = s.dies := rfl
@[simp] theorem State.updLaunch_hub (s : State) (l : Nat) (f : Launch → Launch) : (s.updLaunch l f).hub = s.hub := rfl
@[simp] theorem State.updLaunch_mem (s : State) (l : Nat) (f : Launch → Launch) : (s.updLaunch l f).mem = s.mem := rfl
@[simp] theorem State.updLaunch_poison (s : State) (l : Nat) (f : Launch → Launch) : (s.updLaunch l f).poison = s.poison := rfl
@[simp] theorem State.updLaunch_sectorKey (s : State) (l : Nat) (f : Launch → Launch) : (s.updLaunch l f).sectorKey = s.sectorKey := rfl
@[simp] theorem State.updLaunch_keys (s : State) (l : Nat) (f : Launch → Launch) : (s.updLaunch l f).keys = s.keys := rfl
@[simp] theorem State.updLaunch_sorrel (s : State) (l : Nat) (f : Launch → Launch) : (s.updLaunch l f).sorrel = s.sorrel := rfl
@[simp] theorem State.updLaunch_tlb (s : State) (l : Nat) (f : Launch → Launch) : (s.updLaunch l f).tlb = s.tlb := rfl
@[simp] theorem State.updLaunch_launches (s : State) (l : Nat) (f : Launch → Launch) : (s.updLaunch l f).launches = s.launches.modify l f := rfl
@[simp] theorem State.updLaunch_contexts (s : State) (l : Nat) (f : Launch → Launch) : (s.updLaunch l f).contexts = s.contexts := rfl
@[simp] theorem State.updLaunch_trace (s : State) (l : Nat) (f : Launch → Launch) : (s.updLaunch l f).trace = s.trace := rfl
@[simp] theorem State.updLaunch_nets (s : State) (l : Nat) (f : Launch → Launch) : (s.updLaunch l f).nets = s.nets := rfl
@[simp] theorem State.updLaunch_netWait (s : State) (l : Nat) (f : Launch → Launch) : (s.updLaunch l f).netWait = s.netWait := rfl
@[simp] theorem State.updLaunch_wk (s : State) (l : Nat) (f : Launch → Launch) : (s.updLaunch l f).wk = s.wk := rfl
@[simp] theorem State.updLaunch_wkNo (s : State) (l : Nat) (f : Launch → Launch) : (s.updLaunch l f).wkNo = s.wkNo := rfl
@[simp] theorem State.updLaunch_walks (s : State) (l : Nat) (f : Launch → Launch) : (s.updLaunch l f).walks = s.walks := rfl
@[simp] theorem State.updLaunch_serial (s : State) (l : Nat) (f : Launch → Launch) : (s.updLaunch l f).serial = s.serial := rfl
@[simp] theorem State.updLaunch_input (s : State) (l : Nat) (f : Launch → Launch) : (s.updLaunch l f).input = s.input := rfl
@[simp] theorem State.updLaunch_turns (s : State) (l : Nat) (f : Launch → Launch) : (s.updLaunch l f).turns = s.turns := rfl
@[simp] theorem State.updLaunch_time (s : State) (l : Nat) (f : Launch → Launch) : (s.updLaunch l f).time = s.time := rfl

/-! ## State.updDie -/

@[simp] theorem State.updDie_h (s : State) (d : Nat) (f : Die → Die) : (s.updDie d f).h = s.h := rfl
@[simp] theorem State.updDie_harts (s : State) (d : Nat) (f : Die → Die) : (s.updDie d f).harts = s.harts := rfl
@[simp] theorem State.updDie_cores (s : State) (d : Nat) (f : Die → Die) : (s.updDie d f).cores = s.cores := rfl
@[simp] theorem State.updDie_dies (s : State) (d : Nat) (f : Die → Die) : (s.updDie d f).dies = Sparse.upd {} s.dies d f := rfl
@[simp] theorem State.updDie_hub (s : State) (d : Nat) (f : Die → Die) : (s.updDie d f).hub = s.hub := rfl
@[simp] theorem State.updDie_mem (s : State) (d : Nat) (f : Die → Die) : (s.updDie d f).mem = s.mem := rfl
@[simp] theorem State.updDie_poison (s : State) (d : Nat) (f : Die → Die) : (s.updDie d f).poison = s.poison := rfl
@[simp] theorem State.updDie_sectorKey (s : State) (d : Nat) (f : Die → Die) : (s.updDie d f).sectorKey = s.sectorKey := rfl
@[simp] theorem State.updDie_keys (s : State) (d : Nat) (f : Die → Die) : (s.updDie d f).keys = s.keys := rfl
@[simp] theorem State.updDie_sorrel (s : State) (d : Nat) (f : Die → Die) : (s.updDie d f).sorrel = s.sorrel := rfl
@[simp] theorem State.updDie_tlb (s : State) (d : Nat) (f : Die → Die) : (s.updDie d f).tlb = s.tlb := rfl
@[simp] theorem State.updDie_launches (s : State) (d : Nat) (f : Die → Die) : (s.updDie d f).launches = s.launches := rfl
@[simp] theorem State.updDie_contexts (s : State) (d : Nat) (f : Die → Die) : (s.updDie d f).contexts = s.contexts := rfl
@[simp] theorem State.updDie_trace (s : State) (d : Nat) (f : Die → Die) : (s.updDie d f).trace = s.trace := rfl
@[simp] theorem State.updDie_nets (s : State) (d : Nat) (f : Die → Die) : (s.updDie d f).nets = s.nets := rfl
@[simp] theorem State.updDie_netWait (s : State) (d : Nat) (f : Die → Die) : (s.updDie d f).netWait = s.netWait := rfl
@[simp] theorem State.updDie_wk (s : State) (d : Nat) (f : Die → Die) : (s.updDie d f).wk = s.wk := rfl
@[simp] theorem State.updDie_wkNo (s : State) (d : Nat) (f : Die → Die) : (s.updDie d f).wkNo = s.wkNo := rfl
@[simp] theorem State.updDie_walks (s : State) (d : Nat) (f : Die → Die) : (s.updDie d f).walks = s.walks := rfl
@[simp] theorem State.updDie_serial (s : State) (d : Nat) (f : Die → Die) : (s.updDie d f).serial = s.serial := rfl
@[simp] theorem State.updDie_input (s : State) (d : Nat) (f : Die → Die) : (s.updDie d f).input = s.input := rfl
@[simp] theorem State.updDie_turns (s : State) (d : Nat) (f : Die → Die) : (s.updDie d f).turns = s.turns := rfl
@[simp] theorem State.updDie_time (s : State) (d : Nat) (f : Die → Die) : (s.updDie d f).time = s.time := rfl

/-! ## State.updQueue -/

@[simp] theorem State.updQueue_h (s : State) (q : Nat) (f : LQueue → LQueue) : (s.updQueue q f).h = s.h := rfl
@[simp] theorem State.updQueue_harts (s : State) (q : Nat) (f : LQueue → LQueue) : (s.updQueue q f).harts = s.harts := rfl
@[simp] theorem State.updQueue_cores (s : State) (q : Nat) (f : LQueue → LQueue) : (s.updQueue q f).cores = s.cores := rfl
@[simp] theorem State.updQueue_dies (s : State) (q : Nat) (f : LQueue → LQueue) : (s.updQueue q f).dies = s.dies := rfl
@[simp] theorem State.updQueue_hub (s : State) (q : Nat) (f : LQueue → LQueue) : (s.updQueue q f).hub = { s.hub with queues := Sparse.upd {} s.hub.queues q f } := rfl
@[simp] theorem State.updQueue_mem (s : State) (q : Nat) (f : LQueue → LQueue) : (s.updQueue q f).mem = s.mem := rfl
@[simp] theorem State.updQueue_poison (s : State) (q : Nat) (f : LQueue → LQueue) : (s.updQueue q f).poison = s.poison := rfl
@[simp] theorem State.updQueue_sectorKey (s : State) (q : Nat) (f : LQueue → LQueue) : (s.updQueue q f).sectorKey = s.sectorKey := rfl
@[simp] theorem State.updQueue_keys (s : State) (q : Nat) (f : LQueue → LQueue) : (s.updQueue q f).keys = s.keys := rfl
@[simp] theorem State.updQueue_sorrel (s : State) (q : Nat) (f : LQueue → LQueue) : (s.updQueue q f).sorrel = s.sorrel := rfl
@[simp] theorem State.updQueue_tlb (s : State) (q : Nat) (f : LQueue → LQueue) : (s.updQueue q f).tlb = s.tlb := rfl
@[simp] theorem State.updQueue_launches (s : State) (q : Nat) (f : LQueue → LQueue) : (s.updQueue q f).launches = s.launches := rfl
@[simp] theorem State.updQueue_contexts (s : State) (q : Nat) (f : LQueue → LQueue) : (s.updQueue q f).contexts = s.contexts := rfl
@[simp] theorem State.updQueue_trace (s : State) (q : Nat) (f : LQueue → LQueue) : (s.updQueue q f).trace = s.trace := rfl
@[simp] theorem State.updQueue_nets (s : State) (q : Nat) (f : LQueue → LQueue) : (s.updQueue q f).nets = s.nets := rfl
@[simp] theorem State.updQueue_netWait (s : State) (q : Nat) (f : LQueue → LQueue) : (s.updQueue q f).netWait = s.netWait := rfl
@[simp] theorem State.updQueue_wk (s : State) (q : Nat) (f : LQueue → LQueue) : (s.updQueue q f).wk = s.wk := rfl
@[simp] theorem State.updQueue_wkNo (s : State) (q : Nat) (f : LQueue → LQueue) : (s.updQueue q f).wkNo = s.wkNo := rfl
@[simp] theorem State.updQueue_walks (s : State) (q : Nat) (f : LQueue → LQueue) : (s.updQueue q f).walks = s.walks := rfl
@[simp] theorem State.updQueue_serial (s : State) (q : Nat) (f : LQueue → LQueue) : (s.updQueue q f).serial = s.serial := rfl
@[simp] theorem State.updQueue_input (s : State) (q : Nat) (f : LQueue → LQueue) : (s.updQueue q f).input = s.input := rfl
@[simp] theorem State.updQueue_turns (s : State) (q : Nat) (f : LQueue → LQueue) : (s.updQueue q f).turns = s.turns := rfl
@[simp] theorem State.updQueue_time (s : State) (q : Nat) (f : LQueue → LQueue) : (s.updQueue q f).time = s.time := rfl

/-! ## State.updRing -/

@[simp] theorem State.updRing_h (s : State) (n : Nat) (f : FaultRing → FaultRing) : (s.updRing n f).h = s.h := rfl
@[simp] theorem State.updRing_harts (s : State) (n : Nat) (f : FaultRing → FaultRing) : (s.updRing n f).harts = s.harts := rfl
@[simp] theorem State.updRing_cores (s : State) (n : Nat) (f : FaultRing → FaultRing) : (s.updRing n f).cores = s.cores := rfl
@[simp] theorem State.updRing_dies (s : State) (n : Nat) (f : FaultRing → FaultRing) : (s.updRing n f).dies = s.dies := rfl
@[simp] theorem State.updRing_hub (s : State) (n : Nat) (f : FaultRing → FaultRing) : (s.updRing n f).hub = { s.hub with rings := Sparse.upd {} s.hub.rings n f } := rfl
@[simp] theorem State.updRing_mem (s : State) (n : Nat) (f : FaultRing → FaultRing) : (s.updRing n f).mem = s.mem := rfl
@[simp] theorem State.updRing_poison (s : State) (n : Nat) (f : FaultRing → FaultRing) : (s.updRing n f).poison = s.poison := rfl
@[simp] theorem State.updRing_sectorKey (s : State) (n : Nat) (f : FaultRing → FaultRing) : (s.updRing n f).sectorKey = s.sectorKey := rfl
@[simp] theorem State.updRing_keys (s : State) (n : Nat) (f : FaultRing → FaultRing) : (s.updRing n f).keys = s.keys := rfl
@[simp] theorem State.updRing_sorrel (s : State) (n : Nat) (f : FaultRing → FaultRing) : (s.updRing n f).sorrel = s.sorrel := rfl
@[simp] theorem State.updRing_tlb (s : State) (n : Nat) (f : FaultRing → FaultRing) : (s.updRing n f).tlb = s.tlb := rfl
@[simp] theorem State.updRing_launches (s : State) (n : Nat) (f : FaultRing → FaultRing) : (s.updRing n f).launches = s.launches := rfl
@[simp] theorem State.updRing_contexts (s : State) (n : Nat) (f : FaultRing → FaultRing) : (s.updRing n f).contexts = s.contexts := rfl
@[simp] theorem State.updRing_trace (s : State) (n : Nat) (f : FaultRing → FaultRing) : (s.updRing n f).trace = s.trace := rfl
@[simp] theorem State.updRing_nets (s : State) (n : Nat) (f : FaultRing → FaultRing) : (s.updRing n f).nets = s.nets := rfl
@[simp] theorem State.updRing_netWait (s : State) (n : Nat) (f : FaultRing → FaultRing) : (s.updRing n f).netWait = s.netWait := rfl
@[simp] theorem State.updRing_wk (s : State) (n : Nat) (f : FaultRing → FaultRing) : (s.updRing n f).wk = s.wk := rfl
@[simp] theorem State.updRing_wkNo (s : State) (n : Nat) (f : FaultRing → FaultRing) : (s.updRing n f).wkNo = s.wkNo := rfl
@[simp] theorem State.updRing_walks (s : State) (n : Nat) (f : FaultRing → FaultRing) : (s.updRing n f).walks = s.walks := rfl
@[simp] theorem State.updRing_serial (s : State) (n : Nat) (f : FaultRing → FaultRing) : (s.updRing n f).serial = s.serial := rfl
@[simp] theorem State.updRing_input (s : State) (n : Nat) (f : FaultRing → FaultRing) : (s.updRing n f).input = s.input := rfl
@[simp] theorem State.updRing_turns (s : State) (n : Nat) (f : FaultRing → FaultRing) : (s.updRing n f).turns = s.turns := rfl
@[simp] theorem State.updRing_time (s : State) (n : Nat) (f : FaultRing → FaultRing) : (s.updRing n f).time = s.time := rfl

/-! ## State.updKey -/

@[simp] theorem State.updKey_h (s : State) (n : Nat) (f : KeySlot → KeySlot) : (s.updKey n f).h = s.h := rfl
@[simp] theorem State.updKey_harts (s : State) (n : Nat) (f : KeySlot → KeySlot) : (s.updKey n f).harts = s.harts := rfl
@[simp] theorem State.updKey_cores (s : State) (n : Nat) (f : KeySlot → KeySlot) : (s.updKey n f).cores = s.cores := rfl
@[simp] theorem State.updKey_dies (s : State) (n : Nat) (f : KeySlot → KeySlot) : (s.updKey n f).dies = s.dies := rfl
@[simp] theorem State.updKey_hub (s : State) (n : Nat) (f : KeySlot → KeySlot) : (s.updKey n f).hub = { s.hub with keys := Sparse.upd {} s.hub.keys n f } := rfl
@[simp] theorem State.updKey_mem (s : State) (n : Nat) (f : KeySlot → KeySlot) : (s.updKey n f).mem = s.mem := rfl
@[simp] theorem State.updKey_poison (s : State) (n : Nat) (f : KeySlot → KeySlot) : (s.updKey n f).poison = s.poison := rfl
@[simp] theorem State.updKey_sectorKey (s : State) (n : Nat) (f : KeySlot → KeySlot) : (s.updKey n f).sectorKey = s.sectorKey := rfl
@[simp] theorem State.updKey_keys (s : State) (n : Nat) (f : KeySlot → KeySlot) : (s.updKey n f).keys = s.keys := rfl
@[simp] theorem State.updKey_sorrel (s : State) (n : Nat) (f : KeySlot → KeySlot) : (s.updKey n f).sorrel = s.sorrel := rfl
@[simp] theorem State.updKey_tlb (s : State) (n : Nat) (f : KeySlot → KeySlot) : (s.updKey n f).tlb = s.tlb := rfl
@[simp] theorem State.updKey_launches (s : State) (n : Nat) (f : KeySlot → KeySlot) : (s.updKey n f).launches = s.launches := rfl
@[simp] theorem State.updKey_contexts (s : State) (n : Nat) (f : KeySlot → KeySlot) : (s.updKey n f).contexts = s.contexts := rfl
@[simp] theorem State.updKey_trace (s : State) (n : Nat) (f : KeySlot → KeySlot) : (s.updKey n f).trace = s.trace := rfl
@[simp] theorem State.updKey_nets (s : State) (n : Nat) (f : KeySlot → KeySlot) : (s.updKey n f).nets = s.nets := rfl
@[simp] theorem State.updKey_netWait (s : State) (n : Nat) (f : KeySlot → KeySlot) : (s.updKey n f).netWait = s.netWait := rfl
@[simp] theorem State.updKey_wk (s : State) (n : Nat) (f : KeySlot → KeySlot) : (s.updKey n f).wk = s.wk := rfl
@[simp] theorem State.updKey_wkNo (s : State) (n : Nat) (f : KeySlot → KeySlot) : (s.updKey n f).wkNo = s.wkNo := rfl
@[simp] theorem State.updKey_walks (s : State) (n : Nat) (f : KeySlot → KeySlot) : (s.updKey n f).walks = s.walks := rfl
@[simp] theorem State.updKey_serial (s : State) (n : Nat) (f : KeySlot → KeySlot) : (s.updKey n f).serial = s.serial := rfl
@[simp] theorem State.updKey_input (s : State) (n : Nat) (f : KeySlot → KeySlot) : (s.updKey n f).input = s.input := rfl
@[simp] theorem State.updKey_turns (s : State) (n : Nat) (f : KeySlot → KeySlot) : (s.updKey n f).turns = s.turns := rfl
@[simp] theorem State.updKey_time (s : State) (n : Nat) (f : KeySlot → KeySlot) : (s.updKey n f).time = s.time := rfl

/-! ## State.updSec -/

@[simp] theorem State.updSec_h (s : State) (f : Security → Security) : (s.updSec f).h = s.h := rfl
@[simp] theorem State.updSec_harts (s : State) (f : Security → Security) : (s.updSec f).harts = s.harts := rfl
@[simp] theorem State.updSec_cores (s : State) (f : Security → Security) : (s.updSec f).cores = s.cores := rfl
@[simp] theorem State.updSec_dies (s : State) (f : Security → Security) : (s.updSec f).dies = s.dies := rfl
@[simp] theorem State.updSec_hub (s : State) (f : Security → Security) : (s.updSec f).hub = { s.hub with sec := f s.hub.sec } := rfl
@[simp] theorem State.updSec_mem (s : State) (f : Security → Security) : (s.updSec f).mem = s.mem := rfl
@[simp] theorem State.updSec_poison (s : State) (f : Security → Security) : (s.updSec f).poison = s.poison := rfl
@[simp] theorem State.updSec_sectorKey (s : State) (f : Security → Security) : (s.updSec f).sectorKey = s.sectorKey := rfl
@[simp] theorem State.updSec_keys (s : State) (f : Security → Security) : (s.updSec f).keys = s.keys := rfl
@[simp] theorem State.updSec_sorrel (s : State) (f : Security → Security) : (s.updSec f).sorrel = s.sorrel := rfl
@[simp] theorem State.updSec_tlb (s : State) (f : Security → Security) : (s.updSec f).tlb = s.tlb := rfl
@[simp] theorem State.updSec_launches (s : State) (f : Security → Security) : (s.updSec f).launches = s.launches := rfl
@[simp] theorem State.updSec_contexts (s : State) (f : Security → Security) : (s.updSec f).contexts = s.contexts := rfl
@[simp] theorem State.updSec_trace (s : State) (f : Security → Security) : (s.updSec f).trace = s.trace := rfl
@[simp] theorem State.updSec_nets (s : State) (f : Security → Security) : (s.updSec f).nets = s.nets := rfl
@[simp] theorem State.updSec_netWait (s : State) (f : Security → Security) : (s.updSec f).netWait = s.netWait := rfl
@[simp] theorem State.updSec_wk (s : State) (f : Security → Security) : (s.updSec f).wk = s.wk := rfl
@[simp] theorem State.updSec_wkNo (s : State) (f : Security → Security) : (s.updSec f).wkNo = s.wkNo := rfl
@[simp] theorem State.updSec_walks (s : State) (f : Security → Security) : (s.updSec f).walks = s.walks := rfl
@[simp] theorem State.updSec_serial (s : State) (f : Security → Security) : (s.updSec f).serial = s.serial := rfl
@[simp] theorem State.updSec_input (s : State) (f : Security → Security) : (s.updSec f).input = s.input := rfl
@[simp] theorem State.updSec_turns (s : State) (f : Security → Security) : (s.updSec f).turns = s.turns := rfl
@[simp] theorem State.updSec_time (s : State) (f : Security → Security) : (s.updSec f).time = s.time := rfl

/-! ## State.updLink -/

@[simp] theorem State.updLink_h (s : State) (m : Nat) (f : Link → Link) : (s.updLink m f).h = s.h := rfl
@[simp] theorem State.updLink_harts (s : State) (m : Nat) (f : Link → Link) : (s.updLink m f).harts = s.harts := rfl
@[simp] theorem State.updLink_cores (s : State) (m : Nat) (f : Link → Link) : (s.updLink m f).cores = s.cores := rfl
@[simp] theorem State.updLink_dies (s : State) (m : Nat) (f : Link → Link) : (s.updLink m f).dies = s.dies := rfl
@[simp] theorem State.updLink_hub (s : State) (m : Nat) (f : Link → Link) : (s.updLink m f).hub = { s.hub with links := Sparse.upd {} s.hub.links m f } := rfl
@[simp] theorem State.updLink_mem (s : State) (m : Nat) (f : Link → Link) : (s.updLink m f).mem = s.mem := rfl
@[simp] theorem State.updLink_poison (s : State) (m : Nat) (f : Link → Link) : (s.updLink m f).poison = s.poison := rfl
@[simp] theorem State.updLink_sectorKey (s : State) (m : Nat) (f : Link → Link) : (s.updLink m f).sectorKey = s.sectorKey := rfl
@[simp] theorem State.updLink_keys (s : State) (m : Nat) (f : Link → Link) : (s.updLink m f).keys = s.keys := rfl
@[simp] theorem State.updLink_sorrel (s : State) (m : Nat) (f : Link → Link) : (s.updLink m f).sorrel = s.sorrel := rfl
@[simp] theorem State.updLink_tlb (s : State) (m : Nat) (f : Link → Link) : (s.updLink m f).tlb = s.tlb := rfl
@[simp] theorem State.updLink_launches (s : State) (m : Nat) (f : Link → Link) : (s.updLink m f).launches = s.launches := rfl
@[simp] theorem State.updLink_contexts (s : State) (m : Nat) (f : Link → Link) : (s.updLink m f).contexts = s.contexts := rfl
@[simp] theorem State.updLink_trace (s : State) (m : Nat) (f : Link → Link) : (s.updLink m f).trace = s.trace := rfl
@[simp] theorem State.updLink_nets (s : State) (m : Nat) (f : Link → Link) : (s.updLink m f).nets = s.nets := rfl
@[simp] theorem State.updLink_netWait (s : State) (m : Nat) (f : Link → Link) : (s.updLink m f).netWait = s.netWait := rfl
@[simp] theorem State.updLink_wk (s : State) (m : Nat) (f : Link → Link) : (s.updLink m f).wk = s.wk := rfl
@[simp] theorem State.updLink_wkNo (s : State) (m : Nat) (f : Link → Link) : (s.updLink m f).wkNo = s.wkNo := rfl
@[simp] theorem State.updLink_walks (s : State) (m : Nat) (f : Link → Link) : (s.updLink m f).walks = s.walks := rfl
@[simp] theorem State.updLink_serial (s : State) (m : Nat) (f : Link → Link) : (s.updLink m f).serial = s.serial := rfl
@[simp] theorem State.updLink_input (s : State) (m : Nat) (f : Link → Link) : (s.updLink m f).input = s.input := rfl
@[simp] theorem State.updLink_turns (s : State) (m : Nat) (f : Link → Link) : (s.updLink m f).turns = s.turns := rfl
@[simp] theorem State.updLink_time (s : State) (m : Nat) (f : Link → Link) : (s.updLink m f).time = s.time := rfl

/-! ## State.updPool -/

@[simp] theorem State.updPool_h (s : State) (i : Nat) (f : LinkPool → LinkPool) : (s.updPool i f).h = s.h := rfl
@[simp] theorem State.updPool_harts (s : State) (i : Nat) (f : LinkPool → LinkPool) : (s.updPool i f).harts = s.harts := rfl
@[simp] theorem State.updPool_cores (s : State) (i : Nat) (f : LinkPool → LinkPool) : (s.updPool i f).cores = s.cores := rfl
@[simp] theorem State.updPool_dies (s : State) (i : Nat) (f : LinkPool → LinkPool) : (s.updPool i f).dies = s.dies := rfl
@[simp] theorem State.updPool_hub (s : State) (i : Nat) (f : LinkPool → LinkPool) : (s.updPool i f).hub = { s.hub with pools := Sparse.upd {} s.hub.pools i f } := rfl
@[simp] theorem State.updPool_mem (s : State) (i : Nat) (f : LinkPool → LinkPool) : (s.updPool i f).mem = s.mem := rfl
@[simp] theorem State.updPool_poison (s : State) (i : Nat) (f : LinkPool → LinkPool) : (s.updPool i f).poison = s.poison := rfl
@[simp] theorem State.updPool_sectorKey (s : State) (i : Nat) (f : LinkPool → LinkPool) : (s.updPool i f).sectorKey = s.sectorKey := rfl
@[simp] theorem State.updPool_keys (s : State) (i : Nat) (f : LinkPool → LinkPool) : (s.updPool i f).keys = s.keys := rfl
@[simp] theorem State.updPool_sorrel (s : State) (i : Nat) (f : LinkPool → LinkPool) : (s.updPool i f).sorrel = s.sorrel := rfl
@[simp] theorem State.updPool_tlb (s : State) (i : Nat) (f : LinkPool → LinkPool) : (s.updPool i f).tlb = s.tlb := rfl
@[simp] theorem State.updPool_launches (s : State) (i : Nat) (f : LinkPool → LinkPool) : (s.updPool i f).launches = s.launches := rfl
@[simp] theorem State.updPool_contexts (s : State) (i : Nat) (f : LinkPool → LinkPool) : (s.updPool i f).contexts = s.contexts := rfl
@[simp] theorem State.updPool_trace (s : State) (i : Nat) (f : LinkPool → LinkPool) : (s.updPool i f).trace = s.trace := rfl
@[simp] theorem State.updPool_nets (s : State) (i : Nat) (f : LinkPool → LinkPool) : (s.updPool i f).nets = s.nets := rfl
@[simp] theorem State.updPool_netWait (s : State) (i : Nat) (f : LinkPool → LinkPool) : (s.updPool i f).netWait = s.netWait := rfl
@[simp] theorem State.updPool_wk (s : State) (i : Nat) (f : LinkPool → LinkPool) : (s.updPool i f).wk = s.wk := rfl
@[simp] theorem State.updPool_wkNo (s : State) (i : Nat) (f : LinkPool → LinkPool) : (s.updPool i f).wkNo = s.wkNo := rfl
@[simp] theorem State.updPool_walks (s : State) (i : Nat) (f : LinkPool → LinkPool) : (s.updPool i f).walks = s.walks := rfl
@[simp] theorem State.updPool_serial (s : State) (i : Nat) (f : LinkPool → LinkPool) : (s.updPool i f).serial = s.serial := rfl
@[simp] theorem State.updPool_input (s : State) (i : Nat) (f : LinkPool → LinkPool) : (s.updPool i f).input = s.input := rfl
@[simp] theorem State.updPool_turns (s : State) (i : Nat) (f : LinkPool → LinkPool) : (s.updPool i f).turns = s.turns := rfl
@[simp] theorem State.updPool_time (s : State) (i : Nat) (f : LinkPool → LinkPool) : (s.updPool i f).time = s.time := rfl

/-! ## State.updDir -/

@[simp] theorem State.updDir_h (s : State) (m w : Nat) (f : LinkDir → LinkDir) : (s.updDir m w f).h = s.h := rfl
@[simp] theorem State.updDir_harts (s : State) (m w : Nat) (f : LinkDir → LinkDir) : (s.updDir m w f).harts = s.harts := rfl
@[simp] theorem State.updDir_cores (s : State) (m w : Nat) (f : LinkDir → LinkDir) : (s.updDir m w f).cores = s.cores := rfl
@[simp] theorem State.updDir_dies (s : State) (m w : Nat) (f : LinkDir → LinkDir) : (s.updDir m w f).dies = s.dies := rfl
@[simp] theorem State.updDir_hub (s : State) (m w : Nat) (f : LinkDir → LinkDir) : (s.updDir m w f).hub = { s.hub with links := Sparse.upd {} s.hub.links m fun l => l.setDir w (f (l.dir w)) } := rfl
@[simp] theorem State.updDir_mem (s : State) (m w : Nat) (f : LinkDir → LinkDir) : (s.updDir m w f).mem = s.mem := rfl
@[simp] theorem State.updDir_poison (s : State) (m w : Nat) (f : LinkDir → LinkDir) : (s.updDir m w f).poison = s.poison := rfl
@[simp] theorem State.updDir_sectorKey (s : State) (m w : Nat) (f : LinkDir → LinkDir) : (s.updDir m w f).sectorKey = s.sectorKey := rfl
@[simp] theorem State.updDir_keys (s : State) (m w : Nat) (f : LinkDir → LinkDir) : (s.updDir m w f).keys = s.keys := rfl
@[simp] theorem State.updDir_sorrel (s : State) (m w : Nat) (f : LinkDir → LinkDir) : (s.updDir m w f).sorrel = s.sorrel := rfl
@[simp] theorem State.updDir_tlb (s : State) (m w : Nat) (f : LinkDir → LinkDir) : (s.updDir m w f).tlb = s.tlb := rfl
@[simp] theorem State.updDir_launches (s : State) (m w : Nat) (f : LinkDir → LinkDir) : (s.updDir m w f).launches = s.launches := rfl
@[simp] theorem State.updDir_contexts (s : State) (m w : Nat) (f : LinkDir → LinkDir) : (s.updDir m w f).contexts = s.contexts := rfl
@[simp] theorem State.updDir_trace (s : State) (m w : Nat) (f : LinkDir → LinkDir) : (s.updDir m w f).trace = s.trace := rfl
@[simp] theorem State.updDir_nets (s : State) (m w : Nat) (f : LinkDir → LinkDir) : (s.updDir m w f).nets = s.nets := rfl
@[simp] theorem State.updDir_netWait (s : State) (m w : Nat) (f : LinkDir → LinkDir) : (s.updDir m w f).netWait = s.netWait := rfl
@[simp] theorem State.updDir_wk (s : State) (m w : Nat) (f : LinkDir → LinkDir) : (s.updDir m w f).wk = s.wk := rfl
@[simp] theorem State.updDir_wkNo (s : State) (m w : Nat) (f : LinkDir → LinkDir) : (s.updDir m w f).wkNo = s.wkNo := rfl
@[simp] theorem State.updDir_walks (s : State) (m w : Nat) (f : LinkDir → LinkDir) : (s.updDir m w f).walks = s.walks := rfl
@[simp] theorem State.updDir_serial (s : State) (m w : Nat) (f : LinkDir → LinkDir) : (s.updDir m w f).serial = s.serial := rfl
@[simp] theorem State.updDir_input (s : State) (m w : Nat) (f : LinkDir → LinkDir) : (s.updDir m w f).input = s.input := rfl
@[simp] theorem State.updDir_turns (s : State) (m w : Nat) (f : LinkDir → LinkDir) : (s.updDir m w f).turns = s.turns := rfl
@[simp] theorem State.updDir_time (s : State) (m w : Nat) (f : LinkDir → LinkDir) : (s.updDir m w f).time = s.time := rfl

/-! ## State.setPoisonAt -/

@[simp] theorem State.setPoisonAt_h (s : State) (k : Nat) (b : Bool) : (s.setPoisonAt k b).h = s.h := rfl
@[simp] theorem State.setPoisonAt_harts (s : State) (k : Nat) (b : Bool) : (s.setPoisonAt k b).harts = s.harts := rfl
@[simp] theorem State.setPoisonAt_cores (s : State) (k : Nat) (b : Bool) : (s.setPoisonAt k b).cores = s.cores := rfl
@[simp] theorem State.setPoisonAt_dies (s : State) (k : Nat) (b : Bool) : (s.setPoisonAt k b).dies = s.dies := rfl
@[simp] theorem State.setPoisonAt_hub (s : State) (k : Nat) (b : Bool) : (s.setPoisonAt k b).hub = s.hub := rfl
@[simp] theorem State.setPoisonAt_mem (s : State) (k : Nat) (b : Bool) : (s.setPoisonAt k b).mem = s.mem := rfl
@[simp] theorem State.setPoisonAt_poison (s : State) (k : Nat) (b : Bool) : (s.setPoisonAt k b).poison = Sparse.set false s.poison k (b != s.wipedAt (32 * k)) := rfl
@[simp] theorem State.setPoisonAt_sectorKey (s : State) (k : Nat) (b : Bool) : (s.setPoisonAt k b).sectorKey = s.sectorKey := rfl
@[simp] theorem State.setPoisonAt_keys (s : State) (k : Nat) (b : Bool) : (s.setPoisonAt k b).keys = s.keys := rfl
@[simp] theorem State.setPoisonAt_sorrel (s : State) (k : Nat) (b : Bool) : (s.setPoisonAt k b).sorrel = s.sorrel := rfl
@[simp] theorem State.setPoisonAt_tlb (s : State) (k : Nat) (b : Bool) : (s.setPoisonAt k b).tlb = s.tlb := rfl
@[simp] theorem State.setPoisonAt_launches (s : State) (k : Nat) (b : Bool) : (s.setPoisonAt k b).launches = s.launches := rfl
@[simp] theorem State.setPoisonAt_contexts (s : State) (k : Nat) (b : Bool) : (s.setPoisonAt k b).contexts = s.contexts := rfl
@[simp] theorem State.setPoisonAt_trace (s : State) (k : Nat) (b : Bool) : (s.setPoisonAt k b).trace = s.trace := rfl
@[simp] theorem State.setPoisonAt_nets (s : State) (k : Nat) (b : Bool) : (s.setPoisonAt k b).nets = s.nets := rfl
@[simp] theorem State.setPoisonAt_netWait (s : State) (k : Nat) (b : Bool) : (s.setPoisonAt k b).netWait = s.netWait := rfl
@[simp] theorem State.setPoisonAt_wk (s : State) (k : Nat) (b : Bool) : (s.setPoisonAt k b).wk = s.wk := rfl
@[simp] theorem State.setPoisonAt_wkNo (s : State) (k : Nat) (b : Bool) : (s.setPoisonAt k b).wkNo = s.wkNo := rfl
@[simp] theorem State.setPoisonAt_walks (s : State) (k : Nat) (b : Bool) : (s.setPoisonAt k b).walks = s.walks := rfl
@[simp] theorem State.setPoisonAt_serial (s : State) (k : Nat) (b : Bool) : (s.setPoisonAt k b).serial = s.serial := rfl
@[simp] theorem State.setPoisonAt_input (s : State) (k : Nat) (b : Bool) : (s.setPoisonAt k b).input = s.input := rfl
@[simp] theorem State.setPoisonAt_turns (s : State) (k : Nat) (b : Bool) : (s.setPoisonAt k b).turns = s.turns := rfl
@[simp] theorem State.setPoisonAt_time (s : State) (k : Nat) (b : Bool) : (s.setPoisonAt k b).time = s.time := rfl

/-! ## State.record -/

@[simp] theorem State.record_h (s : State) (e : Ev) : (s.record e).h = s.h := by unfold State.record; split <;> rfl
@[simp] theorem State.record_harts (s : State) (e : Ev) : (s.record e).harts = s.harts := by unfold State.record; split <;> rfl
@[simp] theorem State.record_cores (s : State) (e : Ev) : (s.record e).cores = s.cores := by unfold State.record; split <;> rfl
@[simp] theorem State.record_dies (s : State) (e : Ev) : (s.record e).dies = s.dies := by unfold State.record; split <;> rfl
@[simp] theorem State.record_hub (s : State) (e : Ev) : (s.record e).hub = s.hub := by unfold State.record; split <;> rfl
@[simp] theorem State.record_mem (s : State) (e : Ev) : (s.record e).mem = s.mem := by unfold State.record; split <;> rfl
@[simp] theorem State.record_poison (s : State) (e : Ev) : (s.record e).poison = s.poison := by unfold State.record; split <;> rfl
@[simp] theorem State.record_sectorKey (s : State) (e : Ev) : (s.record e).sectorKey = s.sectorKey := by unfold State.record; split <;> rfl
@[simp] theorem State.record_keys (s : State) (e : Ev) : (s.record e).keys = s.keys := by unfold State.record; split <;> rfl
@[simp] theorem State.record_sorrel (s : State) (e : Ev) : (s.record e).sorrel = s.sorrel := by unfold State.record; split <;> rfl
@[simp] theorem State.record_tlb (s : State) (e : Ev) : (s.record e).tlb = s.tlb := by unfold State.record; split <;> rfl
@[simp] theorem State.record_launches (s : State) (e : Ev) : (s.record e).launches = s.launches := by unfold State.record; split <;> rfl
@[simp] theorem State.record_contexts (s : State) (e : Ev) : (s.record e).contexts = s.contexts := by unfold State.record; split <;> rfl
@[simp] theorem State.record_nets (s : State) (e : Ev) : (s.record e).nets = s.nets := by unfold State.record; split <;> rfl
@[simp] theorem State.record_netWait (s : State) (e : Ev) : (s.record e).netWait = s.netWait := by unfold State.record; split <;> rfl
@[simp] theorem State.record_wk (s : State) (e : Ev) : (s.record e).wk = s.wk := by unfold State.record; split <;> rfl
@[simp] theorem State.record_wkNo (s : State) (e : Ev) : (s.record e).wkNo = s.wkNo := by unfold State.record; split <;> rfl
@[simp] theorem State.record_walks (s : State) (e : Ev) : (s.record e).walks = s.walks := by unfold State.record; split <;> rfl
@[simp] theorem State.record_serial (s : State) (e : Ev) : (s.record e).serial = s.serial := by unfold State.record; split <;> rfl
@[simp] theorem State.record_input (s : State) (e : Ev) : (s.record e).input = s.input := by unfold State.record; split <;> rfl
@[simp] theorem State.record_turns (s : State) (e : Ev) : (s.record e).turns = s.turns := by unfold State.record; split <;> rfl
@[simp] theorem State.record_time (s : State) (e : Ev) : (s.record e).time = s.time := by unfold State.record; split <;> rfl

/-! ## Hart.setX -/

@[simp] theorem Hart.setX_die (h : Hart) (r : Nat) (v : Word) : (h.setX r v).die = h.die := by unfold Hart.setX; split <;> rfl
@[simp] theorem Hart.setX_core (h : Hart) (r : Nat) (v : Word) : (h.setX r v).core = h.core := by unfold Hart.setX; split <;> rfl
@[simp] theorem Hart.setX_slot (h : Hart) (r : Nat) (v : Word) : (h.setX r v).slot = h.slot := by unfold Hart.setX; split <;> rfl
@[simp] theorem Hart.setX_launch (h : Hart) (r : Nat) (v : Word) : (h.setX r v).launch = h.launch := by unfold Hart.setX; split <;> rfl
@[simp] theorem Hart.setX_stripId (h : Hart) (r : Nat) (v : Word) : (h.setX r v).stripId = h.stripId := by unfold Hart.setX; split <;> rfl
@[simp] theorem Hart.setX_winStart (h : Hart) (r : Nat) (v : Word) : (h.setX r v).winStart = h.winStart := by unfold Hart.setX; split <;> rfl
@[simp] theorem Hart.setX_winPages (h : Hart) (r : Nat) (v : Word) : (h.setX r v).winPages = h.winPages := by unfold Hart.setX; split <;> rfl
@[simp] theorem Hart.setX_winSet (h : Hart) (r : Nat) (v : Word) : (h.setX r v).winSet = h.winSet := by unfold Hart.setX; split <;> rfl
@[simp] theorem Hart.setX_released (h : Hart) (r : Nat) (v : Word) : (h.setX r v).released = h.released := by unfold Hart.setX; split <;> rfl
@[simp] theorem Hart.setX_frozen (h : Hart) (r : Nat) (v : Word) : (h.setX r v).frozen = h.frozen := by unfold Hart.setX; split <;> rfl
@[simp] theorem Hart.setX_preempt (h : Hart) (r : Nat) (v : Word) : (h.setX r v).preempt = h.preempt := by unfold Hart.setX; split <;> rfl
@[simp] theorem Hart.setX_part (h : Hart) (r : Nat) (v : Word) : (h.setX r v).part = h.part := by unfold Hart.setX; split <;> rfl
@[simp] theorem Hart.setX_bound (h : Hart) (r : Nat) (v : Word) : (h.setX r v).bound = h.bound := by unfold Hart.setX; split <;> rfl
@[simp] theorem Hart.setX_pc (h : Hart) (r : Nat) (v : Word) : (h.setX r v).pc = h.pc := by unfold Hart.setX; split <;> rfl
@[simp] theorem Hart.setX_plv (h : Hart) (r : Nat) (v : Word) : (h.setX r v).plv = h.plv := by unfold Hart.setX; split <;> rfl
@[simp] theorem Hart.setX_vec (h : Hart) (r : Nat) (v : Word) : (h.setX r v).vec = h.vec := by unfold Hart.setX; split <;> rfl
@[simp] theorem Hart.setX_cfg (h : Hart) (r : Nat) (v : Word) : (h.setX r v).cfg = h.cfg := by unfold Hart.setX; split <;> rfl
@[simp] theorem Hart.setX_ar (h : Hart) (r : Nat) (v : Word) : (h.setX r v).ar = h.ar := by unfold Hart.setX; split <;> rfl
@[simp] theorem Hart.setX_sys (h : Hart) (r : Nat) (v : Word) : (h.setX r v).sys = h.sys := by unfold Hart.setX; split <;> rfl
@[simp] theorem Hart.setX_chr (h : Hart) (r : Nat) (v : Word) : (h.setX r v).chr = h.chr := by unfold Hart.setX; split <;> rfl
@[simp] theorem Hart.setX_chain (h : Hart) (r : Nat) (v : Word) : (h.setX r v).chain = h.chain := by unfold Hart.setX; split <;> rfl
@[simp] theorem Hart.setX_tensors (h : Hart) (r : Nat) (v : Word) : (h.setX r v).tensors = h.tensors := by unfold Hart.setX; split <;> rfl
@[simp] theorem Hart.setX_walks (h : Hart) (r : Nat) (v : Word) : (h.setX r v).walks = h.walks := by unfold Hart.setX; split <;> rfl
@[simp] theorem Hart.setX_vq (h : Hart) (r : Nat) (v : Word) : (h.setX r v).vq = h.vq := by unfold Hart.setX; split <;> rfl
@[simp] theorem Hart.setX_wait (h : Hart) (r : Nat) (v : Word) : (h.setX r v).wait = h.wait := by unfold Hart.setX; split <;> rfl
@[simp] theorem Hart.setX_stalled (h : Hart) (r : Nat) (v : Word) : (h.setX r v).stalled = h.stalled := by unfold Hart.setX; split <;> rfl
@[simp] theorem Hart.setX_held (h : Hart) (r : Nat) (v : Word) : (h.setX r v).held = h.held := by unfold Hart.setX; split <;> rfl
@[simp] theorem Hart.setX_ovf (h : Hart) (r : Nat) (v : Word) : (h.setX r v).ovf = h.ovf := by unfold Hart.setX; split <;> rfl
@[simp] theorem Hart.setX_fences (h : Hart) (r : Nat) (v : Word) : (h.setX r v).fences = h.fences := by unfold Hart.setX; split <;> rfl
@[simp] theorem Hart.setX_po (h : Hart) (r : Nat) (v : Word) : (h.setX r v).po = h.po := by unfold Hart.setX; split <;> rfl
@[simp] theorem Hart.setX_groupless (h : Hart) (r : Nat) (v : Word) : (h.setX r v).groupless = h.groupless := by unfold Hart.setX; split <;> rfl
@[simp] theorem Hart.setX_forPark (h : Hart) (r : Nat) (v : Word) : (h.setX r v).forPark = h.forPark := by unfold Hart.setX; split <;> rfl
@[simp] theorem Hart.setX_ctlErr (h : Hart) (r : Nat) (v : Word) : (h.setX r v).ctlErr = h.ctlErr := by unfold Hart.setX; split <;> rfl
@[simp] theorem Hart.setX_doubleCause (h : Hart) (r : Nat) (v : Word) : (h.setX r v).doubleCause = h.doubleCause := by unfold Hart.setX; split <;> rfl
@[simp] theorem Hart.setX_muSaved (h : Hart) (r : Nat) (v : Word) : (h.setX r v).muSaved = h.muSaved := by unfold Hart.setX; split <;> rfl
@[simp] theorem Hart.setX_lacks (h : Hart) (r : Nat) (v : Word) : (h.setX r v).lacks = h.lacks := by unfold Hart.setX; split <;> rfl

/-! ## Registers -/

/-- x0 reads zero. -/
@[simp] theorem Hart.getX_zero (h : Hart) : h.getX 0 = 0 := rfl

/-- x0 ignores a write. -/
@[simp] theorem Hart.setX_zero (h : Hart) (v : Word) : h.setX 0 v = h := rfl

/-- A register reads what was written to it. -/
theorem Hart.getX_setX_same (h : Hart) (r : Nat) (v : Word) (hr : r ≠ 0) : (h.setX r v).getX r = v := by
  simp [Hart.getX, Hart.setX, hr]

/-- A register keeps its value when another of x0 to x31 is written. -/
theorem Hart.getX_setX_other (h : Hart) (r i : Nat) (v : Word) (hi : i ≠ r) (h32 : r < 32) (hi32 : i < 32) :
    (h.setX r v).getX i = h.getX i := by
  have h1 : r % 32 = r := Nat.mod_eq_of_lt h32
  have h2 : i % 32 = i := Nat.mod_eq_of_lt hi32
  unfold Hart.getX Hart.setX
  split
  · rfl
  · split
    · rfl
    · exact Vector.getElem_set_ne (Nat.mod_lt _ (by decide)) (Nat.mod_lt _ (by decide)) (by omega)

/-- What a register reads after a write. -/
theorem Hart.getX_setX (h : Hart) (r i : Nat) (v : Word) (h32 : r < 32) (hi32 : i < 32) :
    (h.setX r v).getX i = if i = r ∧ i ≠ 0 then v else h.getX i := by
  by_cases hi : i = r
  · subst hi
    by_cases h0 : i = 0
    · subst h0; simp
    · simp [h0, Hart.getX_setX_same]
  · simp [hi, Hart.getX_setX_other h r i v hi h32 hi32]

/-- The key of a hart does not depend on its registers. -/
@[simp] theorem Hart.setX_key (h : Hart) (r : Nat) (v : Word) : (h.setX r v).key = h.key := by simp [Hart.key]

@[simp] theorem Hart.setX_coreKey (h : Hart) (r : Nat) (v : Word) : (h.setX r v).coreKey = h.coreKey := by simp [Hart.coreKey]

end Sys2Proof.Machine
end

