-- ==== Sys2Proof/Laws/Memory.lean ====
section
/-!
SUPPORT. Memory: what reads and writes of bytes, of sectors under a key slot, and of consecutive bytes do, and that each keeps
the canonical form.
-/
namespace Sys2Proof.Machine

/-! ## Bytes -/

theorem byteAt_setByte_same (s : State) (pa : Nat) (b : Byte) : (s.setByte pa b).byteAt pa = b :=
  Sparse.get_set_same _ _ pa b

theorem byteAt_setByte_other (s : State) (pa : Nat) (b : Byte) (a : Nat) (ha : a ≠ pa) :
    (s.setByte pa b).byteAt a = s.byteAt a := Sparse.get_set_other _ _ pa b a ha

theorem mem_wf_setByte (s : State) (pa : Nat) (b : Byte) (h : Sparse.wf 0#8 s.mem = true) :
    Sparse.wf 0#8 (s.setByte pa b).mem = true := Sparse.wf_set pa b h

/-- Consecutive bytes change nothing but memory. -/
theorem setBytes_frame (bs : List Byte) : ∀ (s : State) (pa : Nat), { s.setBytes pa bs with mem := s.mem } = s := by
  induction bs with
  | nil => intro s pa; rfl
  | cons b bs ih =>
    intro s pa
    have := ih (s.setByte pa b) (pa + 1)
    have h2 := congrArg (fun t : State => { t with mem := s.mem }) this
    exact h2

theorem setBytes_eq (s : State) (pa : Nat) (bs : List Byte) : s.setBytes pa bs = { s with mem := (s.setBytes pa bs).mem } := by
  have h := setBytes_frame bs s pa
  have h2 := congrArg (fun t : State => { t with mem := (s.setBytes pa bs).mem }) h
  exact h2

theorem mem_wf_setBytes (bs : List Byte) : ∀ (s : State) (pa : Nat), Sparse.wf 0#8 s.mem = true →
    Sparse.wf 0#8 (s.setBytes pa bs).mem = true := by
  induction bs with
  | nil => intro s pa h; exact h
  | cons b bs ih => intro s pa h; exact ih _ _ (mem_wf_setByte s pa b h)

theorem byteAt_setBytes_below (bs : List Byte) : ∀ (s : State) (pa a : Nat), a < pa →
    (s.setBytes pa bs).byteAt a = s.byteAt a := by
  induction bs with
  | nil => intro s pa a _; rfl
  | cons b bs ih =>
    intro s pa a ha
    rw [State.setBytes, ih _ _ _ (by omega), byteAt_setByte_other s pa b a (by omega)]

/-- A byte after consecutive bytes have been written: the byte written there, or the byte of before. -/
theorem byteAt_setBytes (bs : List Byte) : ∀ (s : State) (pa a : Nat),
    (s.setBytes pa bs).byteAt a = if pa ≤ a ∧ a < pa + bs.length then bs.getD (a - pa) 0 else s.byteAt a := by
  induction bs with
  | nil => intro s pa a; rw [if_neg (by simp)]; rfl
  | cons b bs ih =>
    intro s pa a
    rw [State.setBytes, ih]
    by_cases ha : a = pa
    · subst ha
      rw [if_neg (by omega), if_pos (by simp), byteAt_setByte_same s a b]
      simp
    · rw [byteAt_setByte_other s pa b a ha]
      by_cases hi : pa + 1 ≤ a ∧ a < pa + 1 + bs.length
      · rw [if_pos hi, if_pos (by simp; omega)]
        have e : a - pa = (a - (pa + 1)) + 1 := by omega
        rw [e, List.getD_cons_succ]
      · rw [if_neg hi, if_neg (by simp at *; omega)]

theorem bytesAt_length (s : State) (pa n : Nat) : (s.bytesAt pa n).length = n := by
  induction n generalizing pa with
  | zero => rfl
  | succ n ih => simp [State.bytesAt, ih]

theorem bytesAt_getD (s : State) (n : Nat) : ∀ (pa i : Nat), i < n → (s.bytesAt pa n).getD i 0 = s.byteAt (pa + i) := by
  induction n with
  | zero => intro pa i h; omega
  | succ n ih =>
    intro pa i h
    cases i with
    | zero => simp [State.bytesAt]
    | succ i =>
      rw [State.bytesAt, List.getD_cons_succ, ih _ _ (by omega)]
      congr 1; omega

/-! ## Sectors -/

/-- A sector has 32 bytes under every key. -/
theorem sectorUnder_length (s : State) (sector tag : Nat) : (s.sectorUnder sector tag).length = 32 := by
  unfold State.sectorUnder
  dsimp only
  split
  · exact bytesAt_length ..
  · split
    · exact decipher_length _ _ _
    · exact rekey_length _ _ _ _ (bytesAt_length ..)

theorem adoptSector_eq (s : State) (slot sector : Nat) :
    s.adoptSector slot sector =
      { s with mem := (s.adoptSector slot sector).mem, sectorKey := (s.adoptSector slot sector).sectorKey } := by
  unfold State.adoptSector
  dsimp only
  split
  · rfl
  · rw [setBytes_eq]

theorem mem_wf_adoptSector (s : State) (slot sector : Nat) (h : Sparse.wf 0#8 s.mem = true) :
    Sparse.wf 0#8 (s.adoptSector slot sector).mem = true := by
  unfold State.adoptSector
  dsimp only
  split
  · exact h
  · exact mem_wf_setBytes _ s _ h

theorem sectorKey_wf_adoptSector (s : State) (slot sector : Nat) (h : Sparse.wf 0 s.sectorKey = true) :
    Sparse.wf 0 (s.adoptSector slot sector).sectorKey = true := by
  unfold State.adoptSector
  dsimp only
  split
  · exact h
  · exact Sparse.wf_set _ _ h

/-- The bytes of one sector have one home. -/
theorem homeOf_sector (a b : Nat) (h : a / 32 = b / 32) : homeOf a = homeOf b := by
  have e1 : (0x8000000000000 ≤ a) = (0x8000000000000 ≤ b) := by apply propext; omega
  have e2 : (a < 0x10000000000000) = (b < 0x10000000000000) := by apply propext; omega
  have e3 : a / 0x10000000000 = b / 0x10000000000 := by omega
  have e4 : (a % 0x10000000000) / 32 = (b % 0x10000000000) / 32 := by omega
  have e5 : (sorrelBase ≤ a ∧ a < sorrelBase + 0x800000) = (sorrelBase ≤ b ∧ b < sorrelBase + 0x800000) := by
    apply propext; simp only [sorrelBase]; omega
  unfold homeOf
  simp only [e1, e2, e3, e5]
  have e6 : (a % 0x10000000000 < dramBytes (b / 0x10000000000)) = (b % 0x10000000000 < dramBytes (b / 0x10000000000)) := by
    apply propext; unfold dramBytes; split <;> omega
  have e7 : (0xF000000000 ≤ a % 0x10000000000) = (0xF000000000 ≤ b % 0x10000000000) := by apply propext; omega
  have e8 : 0xF000000000 ≤ b % 0x10000000000 →
      (a % 0x10000000000 - 0xF000000000) / 0x200000 = (b % 0x10000000000 - 0xF000000000) / 0x200000 := by omega
  have e9 : ((a % 0x10000000000 - 0xF000000000) % 0x200000 < tileBytes (b / 0x10000000000)) =
      ((b % 0x10000000000 - 0xF000000000) % 0x200000 < tileBytes (b / 0x10000000000)) := by
    apply propext; unfold tileBytes; split <;> omega
  simp only [e6, e7, e9]
  by_cases h2 : 0xF000000000 ≤ b % 0x10000000000
  · simp only [e8 h2]
  · simp only [h2, if_false]

theorem byteAt_adoptSector_other (s : State) (slot sector a : Nat) (ha : a / 32 ≠ sector) :
    (s.adoptSector slot sector).byteAt a = s.byteAt a := by
  unfold State.adoptSector
  dsimp only
  split
  · rfl
  · show (s.setBytes (32 * sector) _).byteAt a = _
    rw [byteAt_setBytes, if_neg]
    rw [sectorUnder_length]
    omega

/-- The key a sector is held under, after a sector has been made to hold a slot's key. -/
theorem sectorKey_adoptSector (s : State) (slot sector k : Nat) :
    Sparse.get 0 (s.adoptSector slot sector).sectorKey k = if k = sector then s.slotTag slot else Sparse.get 0 s.sectorKey k := by
  unfold State.adoptSector
  dsimp only
  split
  · split
    · subst_vars; assumption
    · rfl
  · exact Sparse.get_set ..

theorem bytesAt_congr (s t : State) (n : Nat) : ∀ pa, (∀ a, pa ≤ a → a < pa + n → s.byteAt a = t.byteAt a) →
    s.bytesAt pa n = t.bytesAt pa n := by
  induction n with
  | zero => intro pa _; rfl
  | succ n ih =>
    intro pa h
    rw [State.bytesAt, State.bytesAt, h pa (by omega) (by omega), ih _ (fun a h1 h2 => h a (by omega) (by omega))]

theorem keyPair_adoptSector (s : State) (slot sector n : Nat) : (s.adoptSector slot sector).keyPair n = s.keyPair n := by
  rw [adoptSector_eq]; rfl

theorem slotTag_adoptSector (s : State) (slot sector n : Nat) : (s.adoptSector slot sector).slotTag n = s.slotTag n := by
  rw [adoptSector_eq]; rfl

theorem sectorUnder_adoptSector_other (s : State) (slot sector k tag : Nat) (hk : k ≠ sector) :
    (s.adoptSector slot sector).sectorUnder k tag = s.sectorUnder k tag := by
  have hb : (s.adoptSector slot sector).bytesAt (32 * k) 32 = s.bytesAt (32 * k) 32 :=
    bytesAt_congr _ _ _ _ fun a h1 h2 => byteAt_adoptSector_other s slot sector a (by omega)
  unfold State.sectorUnder
  simp only [sectorKey_adoptSector s slot sector k, if_neg hk, hb, keyPair_adoptSector]

/-- A sector made to hold another key leaves the bytes of every other sector as they read. -/
theorem readByte_adoptSector_other (s : State) (slot sector r a : Nat) (ha : a / 32 ≠ sector) (hub : homeOf a ≠ .hub) :
    (s.adoptSector slot sector).readByte r a = s.readByte r a := by
  have e := byteAt_adoptSector_other s slot sector a ha
  unfold State.readByte
  simp only [sectorKey_adoptSector s slot sector _, if_neg ha, e, slotTag_adoptSector,
    sectorUnder_adoptSector_other s slot sector _ _ ha]
  cases hh : homeOf a <;> simp_all

/-- A sector made to hold a slot's key reads as before under that slot. -/
theorem readByte_adoptSector_same (s : State) (slot sector a : Nat) (hub : homeOf a ≠ .hub)
    (enc : a / 32 = sector → (homeOf a).encrypted = true) :
    (s.adoptSector slot sector).readByte slot a = s.readByte slot a := by
  by_cases ha : a / 32 = sector
  · have henc := enc ha
    by_cases hw : Sparse.get 0 s.sectorKey sector = s.slotTag slot
    · have : s.adoptSector slot sector = s := by unfold State.adoptSector; simp [hw]
      rw [this]
    · have e : (s.adoptSector slot sector).byteAt a = (s.sectorUnder sector (s.slotTag slot)).getD (a % 32) 0 := by
        unfold State.adoptSector
        simp only [if_neg hw]
        show (s.setBytes (32 * sector) _).byteAt a = _
        rw [byteAt_setBytes, sectorUnder_length, if_pos (by omega)]
        congr 1; omega
      have e2 : s.readByte slot a = (s.sectorUnder sector (s.slotTag slot)).getD (a % 32) 0 := by
        have hh : s.readByte slot a =
            (if Sparse.get 0 s.sectorKey (a / 32) = 0 ∨ Sparse.get 0 s.sectorKey (a / 32) = s.slotTag slot then s.byteAt a
             else (s.sectorUnder (a / 32) (s.slotTag slot)).getD (a % 32) 0) := by
          unfold State.readByte
          cases hc : homeOf a <;> simp_all [Home.encrypted]
        rw [hh, ha]
        by_cases h0 : Sparse.get 0 s.sectorKey sector = 0
        · rw [if_pos (Or.inl h0)]
          unfold State.sectorUnder
          simp only [h0, true_or, if_true]
          rw [bytesAt_getD _ _ _ _ (by omega)]
          congr 1; omega
        · rw [if_neg (by simp [h0, hw])]
      rw [e2, ← e]
      have e3 : Sparse.get 0 (s.adoptSector slot sector).sectorKey (a / 32) = s.slotTag slot := by
        rw [sectorKey_adoptSector, if_pos ha]
      unfold State.readByte
      simp only [e3, slotTag_adoptSector, or_true, if_true]
      cases hc : homeOf a <;> simp_all [Home.encrypted]
  · exact readByte_adoptSector_other s slot sector slot a ha hub

/-! ## Writes under a key slot -/

theorem readByte_setByte_other (s : State) (r pa a : Nat) (b : Byte) (ha : a / 32 ≠ pa / 32) (hub : homeOf a ≠ .hub) : (s.setByte pa b).readByte r a = s.readByte r a := by
  have e : ∀ x, x / 32 = a / 32 → (s.setByte pa b).byteAt x = s.byteAt x := fun x hx =>
    byteAt_setByte_other s pa b x (by intro hc; subst hc; exact ha hx.symm)
  have e1 : (s.setByte pa b).bytesAt (32 * (a / 32)) 32 = s.bytesAt (32 * (a / 32)) 32 :=
    bytesAt_congr _ _ _ _ fun x h1 h2 => e x (by omega)
  have e2 : (s.setByte pa b).sectorUnder (a / 32) = s.sectorUnder (a / 32) := by
    funext tag; unfold State.sectorUnder; simp only [e1]; rfl
  unfold State.readByte
  rw [e a rfl, e2]
  cases hh : homeOf a <;> simp_all <;> rfl

theorem mem_wf_writeByte (s : State) (slot pa : Nat) (b : Byte) (h : Sparse.wf 0#8 s.mem = true) :
    Sparse.wf 0#8 (s.writeByte slot pa b).mem = true := by
  have h1 := mem_wf_setByte _ pa b (mem_wf_adoptSector s slot (pa / 32) h)
  have h2 := mem_wf_setByte s pa b h
  unfold State.writeByte
  split <;> (try split) <;> assumption

theorem sectorKey_wf_writeByte (s : State) (slot pa : Nat) (b : Byte) (h : Sparse.wf 0 s.sectorKey = true) :
    Sparse.wf 0 (s.writeByte slot pa b).sectorKey = true := by
  have h1 := sectorKey_wf_adoptSector s slot (pa / 32) h
  unfold State.writeByte
  split <;> (try split) <;> assumption

/-- A byte written under a slot changes memory and the keys of sectors, and nothing else. -/
theorem writeByte_eq (s : State) (slot pa : Nat) (b : Byte) :
    s.writeByte slot pa b = { s with mem := (s.writeByte slot pa b).mem, sectorKey := (s.writeByte slot pa b).sectorKey } := by
  have h1 : (s.adoptSector slot (pa / 32)).setByte pa b =
      { s with mem := ((s.adoptSector slot (pa / 32)).setByte pa b).mem
               sectorKey := ((s.adoptSector slot (pa / 32)).setByte pa b).sectorKey } := by
    rw [State.setByte, adoptSector_eq]
  unfold State.writeByte
  cases homeOf pa with
  | dram d => exact h1
  | host => dsimp only; split; exact h1; rfl
  | _ => rfl

/-- A byte written leaves the bytes of every other sector as they read under every slot. -/
theorem readByte_writeByte_sector (s : State) (slot pa r a : Nat) (b : Byte) (ha : a / 32 ≠ pa / 32) (hub : homeOf a ≠ .hub) :
    (s.writeByte slot pa b).readByte r a = s.readByte r a := by
  have h1 : ((s.adoptSector slot (pa / 32)).setByte pa b).readByte r a = s.readByte r a := by
    rw [readByte_setByte_other _ r pa a b ha hub,
      readByte_adoptSector_other s slot _ r a ha hub]
  have h2 := readByte_setByte_other s r pa a b ha hub
  unfold State.writeByte
  cases homeOf pa with
  | dram d => exact h1
  | host => dsimp only; split; exact h1; rfl
  | tile d c => exact h2
  | _ => rfl

theorem readByte_encrypted (s : State) (slot a : Nat) (hh : (homeOf a).encrypted = true)
    (hk : Sparse.get 0 s.sectorKey (a / 32) = s.slotTag slot) : s.readByte slot a = s.byteAt a := by
  unfold State.readByte
  simp only [hk, or_true, if_true]
  cases hc : homeOf a <;> simp_all [Home.encrypted]

/-- A byte written under a slot leaves every other byte as it reads under that slot. -/
theorem readByte_writeByte_other (s : State) (slot pa a : Nat) (b : Byte) (ha : a ≠ pa) (hub : homeOf a ≠ .hub) :
    (s.writeByte slot pa b).readByte slot a = s.readByte slot a := by
  by_cases hs : a / 32 = pa / 32
  · have hm := homeOf_sector a pa hs
    have h1 : (homeOf pa).encrypted = true →
        ((s.adoptSector slot (pa / 32)).setByte pa b).readByte slot a = s.readByte slot a := by
      intro he
      have hk2 : Sparse.get 0 (s.adoptSector slot (pa / 32)).sectorKey (a / 32) = s.slotTag slot := by
        rw [sectorKey_adoptSector, if_pos hs]
      rw [← readByte_adoptSector_same s slot (pa / 32) a hub (fun _ => hm ▸ he)]
      rw [readByte_encrypted _ slot a (hm ▸ he) (by
        show Sparse.get 0 (s.adoptSector slot (pa / 32)).sectorKey (a / 32) = (s.adoptSector slot (pa / 32)).slotTag slot
        rw [slotTag_adoptSector, hk2])]
      rw [readByte_encrypted _ slot a (hm ▸ he) (by rw [slotTag_adoptSector, hk2])]
      exact byteAt_setByte_other _ pa b a ha
    unfold State.writeByte
    cases hc : homeOf pa with
    | dram d => exact h1 (by rw [hc]; rfl)
    | host =>
      dsimp only
      split
      · exact h1 (by rw [hc]; rfl)
      · rfl
    | tile d c =>
      have e := byteAt_setByte_other s pa b a ha
      unfold State.readByte
      simp only [hm, hc, e]
    | _ => rfl
  · exact readByte_writeByte_sector s slot pa slot a b hs hub

/-- A byte written in attached memory, in tile memory, or in host memory behind a link that is up reads as the byte written. -/
theorem readByte_writeByte_same (s : State) (slot pa : Nat) (b : Byte)
    (hp : (∃ d, homeOf pa = .dram d) ∨ (∃ d c, homeOf pa = .tile d c) ∨ (homeOf pa = .host ∧ s.linkUp skoahLink = true)) :
    (s.writeByte slot pa b).readByte slot pa = b := by
  have h1 : (homeOf pa).encrypted = true → ((s.adoptSector slot (pa / 32)).setByte pa b).readByte slot pa = b := by
    intro he
    rw [readByte_encrypted _ slot pa he (by
      show Sparse.get 0 (s.adoptSector slot (pa / 32)).sectorKey (pa / 32) = (s.adoptSector slot (pa / 32)).slotTag slot
      rw [slotTag_adoptSector, sectorKey_adoptSector, if_pos rfl])]
    exact byteAt_setByte_same _ pa b
  unfold State.writeByte
  rcases hp with ⟨d, hc⟩ | ⟨d, c, hc⟩ | ⟨hc, hl⟩
  · simp only [hc]; exact h1 (by rw [hc]; rfl)
  · simp only [hc]
    have e : ∀ t : State, t.readByte slot pa = t.byteAt pa := by
      intro t; unfold State.readByte; rw [hc]
    rw [e]
    exact byteAt_setByte_same s pa b
  · simp only [hc, hl, if_true]; exact h1 (by rw [hc]; rfl)

theorem mem_wf_writeBytes (slot : Nat) (bs : List Byte) : ∀ (s : State) (pa : Nat), Sparse.wf 0#8 s.mem = true →
    Sparse.wf 0#8 (s.writeBytes slot pa bs).mem = true := by
  induction bs with
  | nil => intro s pa h; exact h
  | cons b bs ih => intro s pa h; exact ih _ _ (mem_wf_writeByte s slot pa b h)

theorem sectorKey_wf_writeBytes (slot : Nat) (bs : List Byte) : ∀ (s : State) (pa : Nat), Sparse.wf 0 s.sectorKey = true →
    Sparse.wf 0 (s.writeBytes slot pa bs).sectorKey = true := by
  induction bs with
  | nil => intro s pa h; exact h
  | cons b bs ih => intro s pa h; exact ih _ _ (sectorKey_wf_writeByte s slot pa b h)

/-- Consecutive bytes written under a slot change memory and the keys of sectors, and nothing else. -/
theorem writeBytes_eq (slot : Nat) (bs : List Byte) : ∀ (s : State) (pa : Nat),
    s.writeBytes slot pa bs = { s with mem := (s.writeBytes slot pa bs).mem, sectorKey := (s.writeBytes slot pa bs).sectorKey } := by
  induction bs with
  | nil => intro s pa; rfl
  | cons b bs ih =>
    intro s pa
    have h1 := ih (s.writeByte slot pa b) (pa + 1)
    have h2 := congrArg
      (fun t : State => { t with
        mem := (s.writeBytes slot pa (b :: bs)).mem
        sectorKey := (s.writeBytes slot pa (b :: bs)).sectorKey }) (writeByte_eq s slot pa b)
    exact h1.trans h2

/-- Consecutive bytes written under a slot leave every other byte as it reads under that slot. -/
theorem readByte_writeBytes_other (slot : Nat) (bs : List Byte) : ∀ (s : State) (pa a : Nat),
    ¬ (pa ≤ a ∧ a < pa + bs.length) → homeOf a ≠ .hub →
    (s.writeBytes slot pa bs).readByte slot a = s.readByte slot a := by
  induction bs with
  | nil => intro s pa a _ _; rfl
  | cons b bs ih =>
    intro s pa a ha hub
    simp only [List.length_cons] at ha
    rw [State.writeBytes, ih _ _ a (by omega) hub,
      readByte_writeByte_other s slot pa a b (by omega) hub]

/-- Consecutive bytes written leave the bytes of every sector they do not touch as they read under every slot. -/
theorem readByte_writeBytes_sector (slot r : Nat) (bs : List Byte) : ∀ (s : State) (pa a : Nat),
    (∀ i, i < bs.length → a / 32 ≠ (pa + i) / 32) → homeOf a ≠ .hub →
    (s.writeBytes slot pa bs).readByte r a = s.readByte r a := by
  induction bs with
  | nil => intro s pa a _ _; rfl
  | cons b bs ih =>
    intro s pa a ha hub
    rw [State.writeBytes,
      ih _ _ a (fun i hi => by have := ha (i + 1) (by simp; omega); rwa [show pa + 1 + i = pa + (i + 1) by omega]) hub,
      readByte_writeByte_sector s slot pa r a b (ha 0 (by simp)) hub]

/-- The bytes written read back, where their homes hold them. -/
theorem readByte_writeBytes_same (slot : Nat) (bs : List Byte) : ∀ (s : State) (pa : Nat),
    (∀ i, i < bs.length → (∃ d, homeOf (pa + i) = .dram d) ∨ (∃ d c, homeOf (pa + i) = .tile d c) ∨
      (homeOf (pa + i) = .host ∧ s.linkUp skoahLink = true)) →
   
    ∀ i, i < bs.length → (s.writeBytes slot pa bs).readByte slot (pa + i) = bs.getD i 0 := by
  induction bs with
  | nil => intro s pa _ i hi; simp at hi
  | cons b bs ih =>
    intro s pa hp i hi
    have hl : (s.writeByte slot pa b).linkUp skoahLink = s.linkUp skoahLink := by rw [writeByte_eq]; rfl
    cases i with
    | zero =>
      have h0 := hp 0 (by simp)
      have hub : homeOf (pa + 0) ≠ .hub := by
        rcases h0 with ⟨d, e⟩ | ⟨d, c, e⟩ | ⟨e, _⟩ <;> rw [e] <;> simp
      rw [State.writeBytes, readByte_writeBytes_other slot bs _ _ _ (by omega) hub]
      exact readByte_writeByte_same s slot pa b h0
    | succ i =>
      have := ih (s.writeByte slot pa b) (pa + 1)
        (fun j hj => by
          have := hp (j + 1) (by simp; omega)
          rw [show pa + 1 + j = pa + (j + 1) by omega, hl]; exact this) i (by simpa using hi)
      rw [State.writeBytes, show pa + (i + 1) = pa + 1 + i by omega, this, List.getD_cons_succ]

end Sys2Proof.Machine
end

