-- ==== Sys2Proof/Laws/Access.lean ====
section
/-!
SUPPORT. Accesses of a hart: what performing the pieces of an access can change, and what it leaves as it reads.
-/
namespace Sys2Proof.Machine

/-! ## Checked accesses that are performed -/

/-- A read whose pieces are all permitted and meet neither poison nor a race. -/
theorem hartRead_ok {s : State} {h : Hart} {plv : Priv} {a : Acc} {tile : Bool} {addr n : Nat} {ps : List PieceRef}
    (h1 : resolveAccess s h plv a tile addr n = .ok ps) (h2 : performFaults s h a (addr % 2 ^ 64) ps = none) :
    hartRead s h plv a tile addr n [] = .ok (readPieces s h a ps) := by
  simp only [hartRead, h1, h2, minCause]

/-- A write whose pieces are all permitted and meet neither poison nor a race. -/
theorem hartWrite_ok {s : State} {h : Hart} {plv : Priv} {a : Acc} {tile : Bool} {addr : Nat} {bs : List Byte}
    {ps : List PieceRef} (h1 : resolveAccess s h plv a tile addr bs.length = .ok ps)
    (h2 : performFaults s h a (addr % 2 ^ 64) ps = none) :
    hartWrite s h plv a tile addr bs [] = .ok (writePieces s h a ps bs) := by
  simp only [hartWrite, h1, h2, minCause]

/-! ## What performing a piece can change -/

/-- Everything but what an access touches beside the bytes it names is as before: memory, the keys of sectors, poison, the
cached walks, the hub's filter, the record of races, and the marks of window pages written. -/
def accessKeeps (s t : State) : Prop :=
  ∃ m k p l f tr w hs, t = { s with
    mem := m, sectorKey := k, poison := p, tlb := l, hub := { s.hub with filter := f }, trace := tr,
    h := { s.h with winSet := w }, harts := hs }

theorem accessKeeps_refl (s : State) : accessKeeps s s := ⟨_, _, _, _, _, _, _, _, rfl⟩

theorem accessKeeps_trans {s t u : State} (h1 : accessKeeps s t) (h2 : accessKeeps t u) : accessKeeps s u := by
  obtain ⟨_, _, _, _, _, _, _, _, rfl⟩ := h1
  obtain ⟨_, _, _, _, _, _, _, _, rfl⟩ := h2
  exact ⟨_, _, _, _, _, _, _, _, rfl⟩

theorem accessKeeps_writeBytes (s : State) (slot pa : Nat) (bs : List Byte) : accessKeeps s (s.writeBytes slot pa bs) := by
  rw [writeBytes_eq]
  exact ⟨_, _, _, _, _, _, _, _, rfl⟩

theorem record_eq (s : State) (e : Ev) : s.record e = { s with trace := (s.record e).trace } := by
  unfold State.record
  split <;> rfl

theorem accessKeeps_record (s : State) (e : Ev) : accessKeeps s (s.record e) := by
  rw [record_eq]
  exact ⟨_, _, _, _, _, _, _, _, rfl⟩

/-- What setting A and D can do: the cached walks alone change, or the table entry is written as well, where a bit is missing. -/
theorem touch_eq (s : State) (t : Trans) (wr : Bool) :
    (∃ l, s.touch t wr = { s with tlb := l }) ∨
    (t.leaf &&& wantBits wr ≠ wantBits wr ∧ ∃ l v, s.touch t wr = { s.writeBytes 0 t.leafPa (toBytes 8 v) with tlb := l }) := by
  unfold State.touch
  dsimp only
  split
  · exact .inl ⟨_, rfl⟩
  · split
    · exact .inr ⟨‹_›, _, _, rfl⟩
    · exact .inl ⟨_, rfl⟩

theorem accessKeeps_touch (s : State) (t : Trans) (wr : Bool) : accessKeeps s (s.touch t wr) := by
  rcases touch_eq s t wr with ⟨l, e⟩ | ⟨_, l, v, e⟩
  · rw [e]; exact ⟨_, _, _, _, _, _, _, _, rfl⟩
  · rw [e]
    exact accessKeeps_trans (accessKeeps_writeBytes s 0 t.leafPa _) ⟨_, _, _, _, _, _, _, _, rfl⟩

theorem fillFilter_eq (s : State) (h : Hart) (pa leaf : Nat) :
    ∃ f, s.fillFilter h pa leaf = { s with hub := { s.hub with filter := f } } := by
  unfold State.fillFilter
  dsimp only
  split
  · exact ⟨_, rfl⟩
  · exact ⟨_, rfl⟩

theorem accessKeeps_fillFilter (s : State) (h : Hart) (pa leaf : Nat) : accessKeeps s (s.fillFilter h pa leaf) := by
  obtain ⟨f, e⟩ := fillFilter_eq s h pa leaf
  rw [e]
  exact ⟨_, _, _, _, _, _, _, _, rfl⟩

theorem accessKeeps_touchPiece (s : State) (h : Hart) (a : Acc) (r : PieceRef) : accessKeeps s (touchPiece s h a r) := by
  unfold touchPiece
  split
  · exact accessKeeps_trans (accessKeeps_touch ..) (accessKeeps_fillFilter ..)
  · exact accessKeeps_refl s

theorem accessKeeps_performMark (s : State) (h : Hart) (a : Acc) (r : PieceRef) : accessKeeps s (performMark s h a r) := by
  unfold performMark
  dsimp only
  split
  · exact accessKeeps_touchPiece ..
  · exact accessKeeps_trans (accessKeeps_touchPiece ..) (accessKeeps_record ..)

theorem accessKeeps_markPieces (h : Hart) (a : Acc) (ps : List PieceRef) : ∀ s : State, accessKeeps s (markPieces s h a ps) := by
  induction ps with
  | nil => intro s; exact accessKeeps_refl s
  | cons r ps ih => intro s; exact accessKeeps_trans (accessKeeps_performMark s h a r) (ih _)

theorem setPoisonAt_foldl (l : List Nat) (g : Nat → Nat) (b : Bool) : ∀ s : State,
    ∃ p, l.foldl (fun s i => s.setPoisonAt (g i) b) s = { s with poison := p } := by
  induction l with
  | nil => intro s; exact ⟨_, rfl⟩
  | cons i l ih => intro s; obtain ⟨p, e⟩ := ih (s.setPoisonAt (g i) b); exact ⟨p, e⟩

theorem clearPoisonRange_eq (s : State) (pa n : Nat) : ∃ p, s.clearPoisonRange pa n = { s with poison := p } := by
  unfold State.clearPoisonRange
  split
  · exact ⟨_, rfl⟩
  · exact setPoisonAt_foldl _ _ _ s

theorem clearPoison_eq (s : State) (addrs : List Nat) : ∃ p, s.clearPoison addrs = { s with poison := p } := by
  unfold State.clearPoison
  split
  · exact ⟨_, rfl⟩
  · exact setPoisonAt_foldl _ _ _ s

theorem markWindow_eq (h : Hart) (pa n : Nat) : ∃ w, h.markWindow pa n = { h with winSet := w } := by
  unfold Hart.markWindow
  split
  · exact ⟨_, rfl⟩
  · exact ⟨_, rfl⟩

theorem markWindows_eq (s : State) (pa n : Nat) :
    ∃ w hs, s.markWindows pa n = { s with h := { s.h with winSet := w }, harts := hs } := by
  unfold State.markWindows
  split
  · dsimp only
    split
    · obtain ⟨w, e⟩ := markWindow_eq s.h pa n
      rw [e]
      exact ⟨_, _, rfl⟩
    · exact ⟨_, _, rfl⟩
  · exact ⟨_, _, rfl⟩

/-- An address that memory holds: attached memory, tile memory, or host memory behind a Skoah Link that is up. -/
def plainHome (s : State) (pa : Nat) : Prop :=
  (∃ d, homeOf pa = .dram d) ∨ (∃ d c, homeOf pa = .tile d c) ∨ (homeOf pa = .host ∧ s.linkUp skoahLink = true)

/-- A physical write to an address that memory holds: the bytes are written and poison is cleared. -/
theorem writePhys_plain (s : State) (slot pa : Nat) (bs : List Byte) (hp : plainHome s pa) :
    s.writePhys slot pa bs =
      match s.reachRange slot pa bs.length with
      | some f => .error f
      | none => .ok ((s.writeBytes slot pa bs).clearPoisonRange pa bs.length) := by
  unfold State.writePhys
  rcases hp with ⟨d, e⟩ | ⟨d, c, e⟩ | ⟨e, hl⟩
  · cases s.reachRange slot pa bs.length <;> simp only [e]
  · cases s.reachRange slot pa bs.length <;> simp only [e]
  · cases s.reachRange slot pa bs.length <;> simp only [e, hl, if_true]

theorem put_eq (s : State) (slot pa : Nat) (bs : List Byte) (hp : plainHome s pa) :
    s.put slot pa bs = s ∨ ∃ p w hs, s.put slot pa bs =
      { s.writeBytes slot pa bs with poison := p, h := { s.h with winSet := w }, harts := hs } := by
  unfold State.put
  rw [writePhys_plain s slot pa bs hp]
  cases s.reachRange slot pa bs.length with
  | some f => exact .inl rfl
  | none =>
    right
    dsimp only
    obtain ⟨p, e⟩ := clearPoisonRange_eq (s.writeBytes slot pa bs) pa bs.length
    obtain ⟨w, hs, e2⟩ := markWindows_eq ((s.writeBytes slot pa bs).clearPoisonRange pa bs.length) pa bs.length
    refine ⟨p, w, hs, ?_⟩
    rw [e2, e, writeBytes_eq]

theorem accessKeeps_put (s : State) (slot pa : Nat) (bs : List Byte) (hp : plainHome s pa) :
    accessKeeps s (s.put slot pa bs) := by
  rcases put_eq s slot pa bs hp with e | ⟨p, w, hs, e⟩
  · rw [e]; exact accessKeeps_refl s
  · rw [e, writeBytes_eq]; exact ⟨_, _, _, _, _, _, _, _, rfl⟩

/-- Nothing is discarded where memory holds every address. -/
theorem reportDiscard_plain (s : State) (pas : List Nat) (hp : ∀ pa ∈ pas, plainHome s pa) : s.reportDiscard pas = s := by
  unfold State.reportDiscard
  have e : pas.find? (fun pa => decide (homeOf pa = .host) && !s.linkUp skoahLink) = none := by
    rw [List.find?_eq_none]
    intro pa hm
    rcases hp pa hm with ⟨d, x⟩ | ⟨d, c, x⟩ | ⟨x, hl⟩
    · simp [x]
    · simp [x]
    · simp [hl]
  rw [e]

theorem store_eq (s : State) (slot pa : Nat) (bs : List Byte) (hp : plainHome s pa) : s.store slot pa bs = s.put slot pa bs := by
  unfold State.store
  refine reportDiscard_plain _ _ ?_
  intro q hq
  obtain rfl : q = pa := by simpa using hq
  obtain ⟨_, _, _, _, _, _, _, _, e⟩ := accessKeeps_put s slot q bs hp
  rw [e]
  exact hp

theorem plainHome_keeps {s t : State} (h : accessKeeps s t) (pa : Nat) : plainHome t pa ↔ plainHome s pa := by
  obtain ⟨_, _, _, _, _, _, _, _, rfl⟩ := h
  exact Iff.rfl

theorem keyOf_keeps {s t : State} (h : accessKeeps s t) (x : Hart) : t.keyOf x = s.keyOf x := by
  obtain ⟨_, _, _, _, _, _, _, _, rfl⟩ := h
  rfl

/-- A read changes nothing of the package but what an access touches beside its bytes. -/
theorem accessKeeps_readPieces (h : Hart) (a : Acc) (ps : List PieceRef) (s : State) :
    accessKeeps s (readPieces s h a ps).2 := accessKeeps_markPieces h a ps s

theorem accessKeeps_putPieces (slot : Nat) (ps : List PieceRef) : ∀ (s : State) (bs : List Byte),
    (∀ r ∈ ps, plainHome s r.pa) → accessKeeps s (putPieces s slot ps bs) := by
  induction ps with
  | nil => intro s bs _; exact accessKeeps_refl s
  | cons r ps ih =>
    intro s bs hp
    have h1 := accessKeeps_put s slot r.pa (bs.take r.len) (hp r (List.mem_cons_self ..))
    exact accessKeeps_trans h1 (ih _ _ fun q hq => (plainHome_keeps h1 _).mpr (hp q (List.mem_cons_of_mem _ hq)))

/-- A write to addresses that memory holds: the pieces are counted, the bytes put, and poison cleared. -/
theorem writePieces_eq (s : State) (h : Hart) (a : Acc) (ps : List PieceRef) (bs : List Byte) (hp : ∀ r ∈ ps, plainHome s r.pa) :
    ∃ p, writePieces s h a ps bs = { putPieces (markPieces s h a ps) (s.keyOf h) ps bs with poison := p } := by
  have h1 := accessKeeps_markPieces h a ps s
  have h2 := accessKeeps_trans h1
    (accessKeeps_putPieces (s.keyOf h) ps _ bs fun r hr => (plainHome_keeps h1 _).mpr (hp r hr))
  obtain ⟨p, e⟩ := clearPoison_eq (putPieces (markPieces s h a ps) (s.keyOf h) ps bs) (piecesBytes ps)
  refine ⟨p, ?_⟩
  unfold writePieces
  rw [e, reportDiscard_plain]
  intro pa hm
  obtain ⟨r, hr, rfl⟩ := List.mem_map.mp hm
  exact (plainHome_keeps h2 _).mpr (hp r hr)

/-- A write to addresses that memory holds changes nothing of the package but what an access touches. -/
theorem accessKeeps_writePieces (s : State) (h : Hart) (a : Acc) (ps : List PieceRef) (bs : List Byte)
    (hp : ∀ r ∈ ps, plainHome s r.pa) : accessKeeps s (writePieces s h a ps bs) := by
  obtain ⟨p, e⟩ := writePieces_eq s h a ps bs hp
  have h1 := accessKeeps_markPieces h a ps s
  have h2 := accessKeeps_trans h1
    (accessKeeps_putPieces (s.keyOf h) ps _ bs fun r hr => (plainHome_keeps h1 _).mpr (hp r hr))
  rw [e]
  exact accessKeeps_trans h2 ⟨_, _, _, _, _, _, _, _, rfl⟩

/-! ## Bytes that an access leaves as they read -/

theorem readByte_congr {s t : State} (hm : t.mem = s.mem) (hk : t.sectorKey = s.sectorKey) (he : t.keys = s.keys)
    (hs : ∀ n, t.keySlot n = s.keySlot n) (slot a : Nat) (hub : homeOf a ≠ .hub) :
    t.readByte slot a = s.readByte slot a := by
  have e1 : ∀ x, t.byteAt x = s.byteAt x := fun x => by unfold State.byteAt; rw [hm]
  have e2 : ∀ k tag, t.sectorUnder k tag = s.sectorUnder k tag := fun k tag => by
    unfold State.sectorUnder
    rw [hk, bytesAt_congr t s 32 (32 * k) (fun x _ _ => e1 x)]
    simp only [State.keyPair, he]
  have e3 : t.slotTag slot = s.slotTag slot := by unfold State.slotTag; rw [hs]
  unfold State.readByte
  simp only [e1, e2, e3, hk]
  cases hc : homeOf a <;> simp_all

theorem readByte_tlb (s : State) (l : List TlbEntry) (slot a : Nat) (hub : homeOf a ≠ .hub) :
    ({ s with tlb := l } : State).readByte slot a = s.readByte slot a := by
  apply readByte_congr
  · rfl
  · rfl
  · rfl
  · intro n; rfl
  · exact hub

theorem readByte_trace (s : State) (l : List Ev) (slot a : Nat) (hub : homeOf a ≠ .hub) :
    ({ s with trace := l } : State).readByte slot a = s.readByte slot a := by
  apply readByte_congr
  · rfl
  · rfl
  · rfl
  · intro n; rfl
  · exact hub

theorem readByte_filter (s : State) (l : List (Nat × Nat)) (slot a : Nat) (hub : homeOf a ≠ .hub) :
    ({ s with hub := { s.hub with filter := l } } : State).readByte slot a = s.readByte slot a := by
  apply readByte_congr
  · rfl
  · rfl
  · rfl
  · intro n; rfl
  · exact hub

theorem readByte_marks (s : State) (p : Sparse Bool) (h : Hart) (hs : Sparse Hart) (slot a : Nat) (hub : homeOf a ≠ .hub) :
    ({ s with poison := p, h := h, harts := hs } : State).readByte slot a = s.readByte slot a := by
  apply readByte_congr
  · rfl
  · rfl
  · rfl
  · intro n; rfl
  · exact hub

theorem readByte_advance (s : State) (n slot a : Nat) (hub : homeOf a ≠ .hub) :
    (s.advance n).readByte slot a = s.readByte slot a := readByte_marks s s.poison _ s.harts slot a hub

theorem readByte_setX (s : State) (d : Field) (v : Word) (slot a : Nat) (hub : homeOf a ≠ .hub) :
    (s.setX d v).readByte slot a = s.readByte slot a := readByte_marks s s.poison _ s.harts slot a hub

/-- The form of memory: canonical bytes and canonical keys of sectors. -/
def memOk (s : State) : Prop := Sparse.wf 0#8 s.mem = true ∧ Sparse.wf 0 s.sectorKey = true

theorem memOk_touch (s : State) (t : Trans) (wr : Bool) (h : memOk s) : memOk (s.touch t wr) := by
  rcases touch_eq s t wr with ⟨l, e⟩ | ⟨_, l, v, e⟩
  · rw [e]; exact h
  · rw [e]; exact ⟨mem_wf_writeBytes 0 _ s _ h.1, sectorKey_wf_writeBytes 0 _ s _ h.2⟩

theorem memOk_performMark (s : State) (h : Hart) (a : Acc) (r : PieceRef) (hs : memOk s) : memOk (performMark s h a r) := by
  have h1 : memOk (touchPiece s h a r) := by
    unfold touchPiece
    split
    · rename_i t _
      obtain ⟨f, e⟩ := fillFilter_eq (s.touch t a.wr) h r.pa t.leaf
      rw [e]
      exact memOk_touch s t a.wr hs
    · exact hs
  unfold performMark
  dsimp only
  split
  · exact h1
  · rw [record_eq]; exact h1

theorem memOk_markPieces (h : Hart) (a : Acc) (ps : List PieceRef) : ∀ s : State, memOk s → memOk (markPieces s h a ps) := by
  induction ps with
  | nil => intro s hs; exact hs
  | cons r ps ih => intro s hs; exact ih _ (memOk_performMark s h a r hs)

theorem memOk_put (s : State) (slot pa : Nat) (bs : List Byte) (hp : plainHome s pa) (hs : memOk s) :
    memOk (s.put slot pa bs) := by
  rcases put_eq s slot pa bs hp with e | ⟨p, w, hs', e⟩
  · rw [e]; exact hs
  · rw [e]; exact ⟨mem_wf_writeBytes slot _ s _ hs.1, sectorKey_wf_writeBytes slot _ s _ hs.2⟩

theorem memOk_putPieces (slot : Nat) (ps : List PieceRef) : ∀ (s : State) (bs : List Byte),
    (∀ r ∈ ps, plainHome s r.pa) → memOk s → memOk (putPieces s slot ps bs) := by
  induction ps with
  | nil => intro s bs _ hs; exact hs
  | cons r ps ih =>
    intro s bs hp hs
    have h1 := accessKeeps_put s slot r.pa (bs.take r.len) (hp r (List.mem_cons_self ..))
    exact ih _ _ (fun q hq => (plainHome_keeps h1 _).mpr (hp q (List.mem_cons_of_mem _ hq)))
      (memOk_put s slot r.pa _ (hp r (List.mem_cons_self ..)) hs)

/-- A write keeps the form of memory. -/
theorem memOk_writePieces (s : State) (h : Hart) (a : Acc) (ps : List PieceRef) (bs : List Byte)
    (hp : ∀ r ∈ ps, plainHome s r.pa) (hs : memOk s) : memOk (writePieces s h a ps bs) := by
  obtain ⟨p, e⟩ := writePieces_eq s h a ps bs hp
  rw [e]
  exact memOk_putPieces _ _ _ _ (fun r hr => (plainHome_keeps (accessKeeps_markPieces h a ps s) _).mpr (hp r hr))
    (memOk_markPieces h a ps s hs)

/-- The sector of a byte is one of those that hold the table entry of a piece whose A or D bit the access sets. -/
def entrySector (wr : Bool) (ps : List PieceRef) (b : Nat) : Prop :=
  ∃ r ∈ ps, ∃ t, r.trans = some t ∧ t.leaf &&& wantBits wr ≠ wantBits wr ∧ ∃ i, i < 8 ∧ b / 32 = (t.leafPa + i) / 32

theorem entrySector_cons {wr : Bool} {r : PieceRef} {ps : List PieceRef} {b : Nat} (h : ¬ entrySector wr (r :: ps) b) :
    ¬ entrySector wr [r] b ∧ ¬ entrySector wr ps b :=
  ⟨fun ⟨q, hq, x⟩ => h ⟨q, by simp at hq; subst hq; exact List.mem_cons_self .., x⟩,
    fun ⟨q, hq, x⟩ => h ⟨q, List.mem_cons_of_mem _ hq, x⟩⟩

theorem toBytes_len (n v : Nat) : (toBytes n v).length = n := by
  induction n generalizing v with
  | zero => rfl
  | succ n ih => simp [toBytes, ih]

theorem readByte_touchPiece (s : State) (h : Hart) (a : Acc) (r : PieceRef) (slot b : Nat)
    (he : ¬ entrySector a.wr [r] b) (hub : homeOf b ≠ .hub) :
    (touchPiece s h a r).readByte slot b = s.readByte slot b := by
  unfold touchPiece
  split
  · rename_i t ht
    obtain ⟨f, e⟩ := fillFilter_eq (s.touch t a.wr) h r.pa t.leaf
    rw [e]
    refine (readByte_filter (s.touch t a.wr) f slot b hub).trans ?_
    rcases touch_eq s t a.wr with ⟨l, e⟩ | ⟨hne, l, v, e⟩
    · rw [e]; exact readByte_tlb s l slot b hub
    · rw [e]
      refine (readByte_tlb _ _ slot b hub).trans ?_
      refine readByte_writeBytes_sector 0 slot _ s _ b ?_ hub
      intro i hi hc
      rw [toBytes_len] at hi
      exact he ⟨r, List.mem_cons_self .., t, ht, hne, i, hi, hc⟩
  · rfl

theorem readByte_performMark (s : State) (h : Hart) (a : Acc) (r : PieceRef) (slot b : Nat)
    (he : ¬ entrySector a.wr [r] b) (hub : homeOf b ≠ .hub) :
    (performMark s h a r).readByte slot b = s.readByte slot b := by
  unfold performMark
  dsimp only
  split
  · exact readByte_touchPiece s h a r slot b he hub
  · rw [record_eq]
    exact (readByte_trace _ _ slot b hub).trans (readByte_touchPiece s h a r slot b he hub)

/-- Counting pieces as performed leaves every byte as it reads, but for those in the sectors of table entries that gain A or D. -/
theorem readByte_markPieces (h : Hart) (a : Acc) (slot b : Nat) (hub : homeOf b ≠ .hub) (ps : List PieceRef) : ∀ s : State,
    ¬ entrySector a.wr ps b → (markPieces s h a ps).readByte slot b = s.readByte slot b := by
  induction ps with
  | nil => intro s _; rfl
  | cons r ps ih =>
    intro s he
    obtain ⟨h1, h2⟩ := entrySector_cons he
    exact (ih _ h2).trans (readByte_performMark s h a r slot b h1 hub)

theorem readByte_put_other (s : State) (slot pa b : Nat) (bs : List Byte) (hp : plainHome s pa)
    (hc : ¬ (pa ≤ b ∧ b < pa + bs.length)) (hub : homeOf b ≠ .hub) :
    (s.put slot pa bs).readByte slot b = s.readByte slot b := by
  rcases put_eq s slot pa bs hp with e | ⟨p, w, hs', e⟩
  · rw [e]
  · rw [e]
    refine (readByte_marks (s.writeBytes slot pa bs) p _ hs' _ b hub).trans ?_
    exact readByte_writeBytes_other _ _ _ _ b hc hub

theorem readByte_putPieces_other (slot b : Nat) (hub : homeOf b ≠ .hub) (ps : List PieceRef) :
    ∀ (s : State) (bs : List Byte), (∀ r ∈ ps, plainHome s r.pa) → (∀ r ∈ ps, ¬ (r.pa ≤ b ∧ b < r.pa + r.len)) →
    (putPieces s slot ps bs).readByte slot b = s.readByte slot b := by
  induction ps with
  | nil => intro s bs _ _; rfl
  | cons r ps ih =>
    intro s bs hp hc
    have h1 := accessKeeps_put s slot r.pa (bs.take r.len) (hp r (List.mem_cons_self ..))
    refine (ih _ (bs.drop r.len) (fun q hq => (plainHome_keeps h1 _).mpr (hp q (List.mem_cons_of_mem _ hq)))
      fun q hq => hc q (List.mem_cons_of_mem _ hq)).trans ?_
    refine readByte_put_other s slot r.pa b _ (hp r (List.mem_cons_self ..)) ?_ hub
    have := hc r (List.mem_cons_self ..)
    simp only [List.length_take]
    omega

/-- A write leaves every byte as it reads under the hart's slot, but for those it covers and those in the sectors of table entries
that gain A or D. -/
theorem readByte_writePieces (h : Hart) (a : Acc) (b : Nat) (hub : homeOf b ≠ .hub) (ps : List PieceRef) (s : State)
    (bs : List Byte) (hp : ∀ r ∈ ps, plainHome s r.pa) (hc : ∀ r ∈ ps, ¬ (r.pa ≤ b ∧ b < r.pa + r.len))
    (he : ¬ entrySector a.wr ps b) :
    (writePieces s h a ps bs).readByte (s.keyOf h) b = s.readByte (s.keyOf h) b := by
  obtain ⟨p, e⟩ := writePieces_eq s h a ps bs hp
  have h1 := accessKeeps_markPieces h a ps s
  rw [e]
  refine (readByte_marks (putPieces (markPieces s h a ps) (s.keyOf h) ps bs) p _ _ _ b hub).trans ?_
  refine (readByte_putPieces_other (s.keyOf h) b hub ps _ bs (fun r hr => (plainHome_keeps h1 _).mpr (hp r hr)) hc).trans ?_
  exact readByte_markPieces h a (s.keyOf h) b hub ps s he

/-! ## Bytes read back after a write -/

/-- The reach of a piece inside one granule is that of its first byte. -/
theorem reachRange_granule (s : State) (slot pa n : Nat) (h0 : 0 < n) (h : pa % 16 + n ≤ 16) :
    s.reachRange slot pa n = s.reach slot pa := by
  have e : (pa + n - 1) / 16 - pa / 16 + 1 = 1 := by omega
  have e2 : max pa (16 * (pa / 16 + 0)) = pa := by omega
  unfold State.reachRange
  rw [if_neg (by omega), e]
  simp only [List.range_succ, List.range_zero, List.nil_append, List.findSome?_cons, List.findSome?_nil, e2]
  cases s.reach slot pa <;> rfl

/-- A write that can be made puts its bytes. -/
theorem put_reached (s : State) (slot pa : Nat) (bs : List Byte) (hp : plainHome s pa)
    (hr : s.reachRange slot pa bs.length = none) :
    ∃ p w hs, s.put slot pa bs = { s.writeBytes slot pa bs with poison := p, h := { s.h with winSet := w }, harts := hs } := by
  unfold State.put
  rw [writePhys_plain s slot pa bs hp, hr]
  dsimp only
  obtain ⟨p, e⟩ := clearPoisonRange_eq (s.writeBytes slot pa bs) pa bs.length
  obtain ⟨w, hs, e2⟩ := markWindows_eq ((s.writeBytes slot pa bs).clearPoisonRange pa bs.length) pa bs.length
  refine ⟨p, w, hs, ?_⟩
  rw [e2, e, writeBytes_eq]

end Sys2Proof.Machine
end

