-- ==== Sys2Proof/Laws/Encoding.lean ====
section
/-!
SUPPORT. The fields of an encoded word are the fields it was encoded from; what the decoder reads from an encoded word of
each format.
-/
namespace Sys2Proof

open Sys2Proof.Machine

/-- The bits of an FI word, its width written as the sum of its fields. -/
theorem encFI_bit (m : BitVec 8) (o : FI) (j : Nat) :
    (encFI m o).getLsbD j = BitVec.getLsbD (w := 2 + 8 + 6 + 6 + 10 + 32) (0#2 ++ m ++ o.d ++ o.a ++ o.f ++ o.imm) j := rfl

theorem fiOf_encFI (m : BitVec 8) (o : FI) : fiOf (encFI m o) = o := by
  cases o
  simp only [fiOf, FI.mk.injEq]
  refine ⟨?_, ?_, ?_, ?_⟩ <;>
    (ext i hi; simp only [BitVec.getElem_extractLsb', encFI_bit, BitVec.getLsbD_append, Nat.sub_sub]) <;>
    (repeat rw [if_neg (by omega)]) <;> (try rw [if_pos (by omega)]) <;> grind

/-- The form and the MAJ of an FI word. -/
theorem full_form_fi (m : BitVec 8) (o : FI) :
    (encFI m o).extractLsb' 62 2 = 0#2 ∧ (encFI m o).extractLsb' 54 8 = m := by
  constructor <;>
    (ext i hi; simp only [BitVec.getElem_extractLsb', encFI_bit, BitVec.getLsbD_append, Nat.sub_sub]) <;>
    (repeat rw [if_neg (by omega)]) <;> (try rw [if_pos (by omega)]) <;> grind

/-- The bits of an FM word, its width written as the sum of its fields. -/
theorem encFM_bit (m : BitVec 8) (o : FM) (j : Nat) :
    (encFM m o).getLsbD j = BitVec.getLsbD (w := 2 + 8 + 6 + 6 + 6 + 2 + 2 + 32) (0#2 ++ m ++ o.d ++ o.a ++ o.b ++ o.sc ++ o.sp ++ o.ofs) j := rfl

theorem fmOf_encFM (m : BitVec 8) (o : FM) : fmOf (encFM m o) = o := by
  cases o
  simp only [fmOf, FM.mk.injEq]
  refine ⟨?_, ?_, ?_, ?_, ?_, ?_⟩ <;>
    (ext i hi; simp only [BitVec.getElem_extractLsb', encFM_bit, BitVec.getLsbD_append, Nat.sub_sub]) <;>
    (repeat rw [if_neg (by omega)]) <;> (try rw [if_pos (by omega)]) <;> grind

/-- The form and the MAJ of an FM word. -/
theorem full_form_fm (m : BitVec 8) (o : FM) :
    (encFM m o).extractLsb' 62 2 = 0#2 ∧ (encFM m o).extractLsb' 54 8 = m := by
  constructor <;>
    (ext i hi; simp only [BitVec.getElem_extractLsb', encFM_bit, BitVec.getLsbD_append, Nat.sub_sub]) <;>
    (repeat rw [if_neg (by omega)]) <;> (try rw [if_pos (by omega)]) <;> grind

/-- The bits of an FB word, its width written as the sum of its fields. -/
theorem encFB_bit (m : BitVec 8) (o : FB) (j : Nat) :
    (encFB m o).getLsbD j = BitVec.getLsbD (w := 2 + 8 + 6 + 6 + 42) (0#2 ++ m ++ o.a ++ o.b ++ o.ofs) j := rfl

theorem fbOf_encFB (m : BitVec 8) (o : FB) : fbOf (encFB m o) = o := by
  cases o
  simp only [fbOf, FB.mk.injEq]
  refine ⟨?_, ?_, ?_⟩ <;>
    (ext i hi; simp only [BitVec.getElem_extractLsb', encFB_bit, BitVec.getLsbD_append, Nat.sub_sub]) <;>
    (repeat rw [if_neg (by omega)]) <;> (try rw [if_pos (by omega)]) <;> grind

/-- The form and the MAJ of an FB word. -/
theorem full_form_fb (m : BitVec 8) (o : FB) :
    (encFB m o).extractLsb' 62 2 = 0#2 ∧ (encFB m o).extractLsb' 54 8 = m := by
  constructor <;>
    (ext i hi; simp only [BitVec.getElem_extractLsb', encFB_bit, BitVec.getLsbD_append, Nat.sub_sub]) <;>
    (repeat rw [if_neg (by omega)]) <;> (try rw [if_pos (by omega)]) <;> grind

/-- The bits of an FX word, its width written as the sum of its fields. -/
theorem encFX_bit (m : BitVec 8) (o : FX) (j : Nat) :
    (encFX m o).getLsbD j = BitVec.getLsbD (w := 2 + 8 + 6 + 6 + 6 + 6 + 3 + 1 + 10 + 16) (0#2 ++ m ++ o.d ++ o.a ++ o.b ++ o.c ++ o.m ++ o.z ++ o.f ++ o.imm) j := rfl

theorem fxOf_encFX (m : BitVec 8) (o : FX) : fxOf (encFX m o) = o := by
  cases o
  simp only [fxOf, FX.mk.injEq]
  refine ⟨?_, ?_, ?_, ?_, ?_, ?_, ?_, ?_⟩ <;>
    (ext i hi; simp only [BitVec.getElem_extractLsb', encFX_bit, BitVec.getLsbD_append, Nat.sub_sub]) <;>
    (repeat rw [if_neg (by omega)]) <;> (try rw [if_pos (by omega)]) <;> grind

/-- The form and the MAJ of an FX word. -/
theorem full_form_fx (m : BitVec 8) (o : FX) :
    (encFX m o).extractLsb' 62 2 = 0#2 ∧ (encFX m o).extractLsb' 54 8 = m := by
  constructor <;>
    (ext i hi; simp only [BitVec.getElem_extractLsb', encFX_bit, BitVec.getLsbD_append, Nat.sub_sub]) <;>
    (repeat rw [if_neg (by omega)]) <;> (try rw [if_pos (by omega)]) <;> grind

/-- The bits of an FS word, its width written as the sum of its fields. -/
theorem encFS_bit (m : BitVec 8) (o : FS) (j : Nat) :
    (encFS m o).getLsbD j = BitVec.getLsbD (w := 2 + 8 + 6 + 6 + 10 + 16 + 16) (0#2 ++ m ++ o.d ++ o.a ++ o.f ++ o.csr ++ o.imm) j := rfl

theorem fsOf_encFS (m : BitVec 8) (o : FS) : fsOf (encFS m o) = o := by
  cases o
  simp only [fsOf, FS.mk.injEq]
  refine ⟨?_, ?_, ?_, ?_, ?_⟩ <;>
    (ext i hi; simp only [BitVec.getElem_extractLsb', encFS_bit, BitVec.getLsbD_append, Nat.sub_sub]) <;>
    (repeat rw [if_neg (by omega)]) <;> (try rw [if_pos (by omega)]) <;> grind

/-- The form and the MAJ of an FS word. -/
theorem full_form_fs (m : BitVec 8) (o : FS) :
    (encFS m o).extractLsb' 62 2 = 0#2 ∧ (encFS m o).extractLsb' 54 8 = m := by
  constructor <;>
    (ext i hi; simp only [BitVec.getElem_extractLsb', encFS_bit, BitVec.getLsbD_append, Nat.sub_sub]) <;>
    (repeat rw [if_neg (by omega)]) <;> (try rw [if_pos (by omega)]) <;> grind

/-- The bits of a half, its width written as the sum of its fields. -/
theorem encHalf_bit (hop : BitVec 7) (d a b c : Field) (j : Nat) :
    (encHalf hop d a b c).getLsbD j = BitVec.getLsbD (w := 7 + 6 + 6 + 6 + 6) (hop ++ d ++ a ++ b ++ c) j := rfl

theorem halfOf_encHalf (hop : BitVec 7) (d a b c : Field) : halfOf (encHalf hop d a b c) = ⟨d, a, b, c⟩ := by
  simp only [halfOf, Half.mk.injEq]
  refine ⟨?_, ?_, ?_, ?_⟩ <;>
    (ext i hi; simp only [BitVec.getElem_extractLsb', encHalf_bit, BitVec.getLsbD_append, Nat.sub_sub]) <;>
    (repeat rw [if_neg (by omega)]) <;> (try rw [if_pos (by omega)]) <;> grind

theorem hop_encHalf (hop : BitVec 7) (d a b c : Field) : (encHalf hop d a b c).extractLsb' 24 7 = hop := by
  (ext i hi; simp only [BitVec.getElem_extractLsb', encHalf_bit, BitVec.getLsbD_append, Nat.sub_sub]) <;>
  (repeat rw [if_neg (by omega)]) <;> (try rw [if_pos (by omega)]) <;> grind

/-- The bits of the fields before a half, its width written as the sum of its fields. -/
theorem encPfx_bit (p : Pfx) (j : Nat) :
    (encPfx p).getLsbD j = BitVec.getLsbD (w := 3 + 1 + 1 + 3 + 6 + 1 + 4 + 12) (p.mr ++ p.mi ++ p.zm ++ p.rm ++ p.e ++ p.ev ++ p.ty ++ 0#12) j := rfl

theorem pfxOf_encPfx (p : Pfx) : pfxOf (encPfx p) = p := by
  cases p
  simp only [pfxOf, Pfx.mk.injEq]
  refine ⟨?_, ?_, ?_, ?_, ?_, ?_, ?_⟩ <;>
    (ext i hi; simp only [BitVec.getElem_extractLsb', encPfx_bit, BitVec.getLsbD_append, Nat.sub_sub]) <;>
    (repeat rw [if_neg (by omega)]) <;> (try rw [if_pos (by omega)]) <;> grind

theorem pfx_low (p : Pfx) : (encPfx p).extractLsb' 0 12 = 0 := by
  (ext i hi; simp only [BitVec.getElem_extractLsb', encPfx_bit, BitVec.getLsbD_append, Nat.sub_sub]) <;>
  (repeat rw [if_neg (by omega)]) <;> (try rw [if_pos (by omega)]) <;> grind

theorem pfx_rm (p : Pfx) : (encPfx p).extractLsb' 23 3 = p.rm := by
  have := congrArg Pfx.rm (pfxOf_encPfx p); simpa [pfxOf] using this

/-- The bits of a word of two halves, its width written as the sum of its fields. -/
theorem encPair_bit (a b : BitVec 31) (j : Nat) :
    (encPair a b).getLsbD j = BitVec.getLsbD (w := 2 + 31 + 31) (1#2 ++ a ++ b) j := rfl

theorem pair_parts (a b : BitVec 31) :
    (encPair a b).extractLsb' 62 2 = 1#2 ∧ slotA (encPair a b) = a ∧ slotB (encPair a b) = b := by
  simp only [slotA, slotB]
  refine ⟨?_, ?_, ?_⟩ <;>
    (ext i hi; simp only [BitVec.getElem_extractLsb', encPair_bit, BitVec.getLsbD_append, Nat.sub_sub]) <;>
    (repeat rw [if_neg (by omega)]) <;> (try rw [if_pos (by omega)]) <;> grind

/-- The bits of a word of two halves, its width written as the sum of its fields. -/
theorem encPrefixed_bit (a b : BitVec 31) (j : Nat) :
    (encPrefixed a b).getLsbD j = BitVec.getLsbD (w := 2 + 31 + 31) (2#2 ++ a ++ b) j := rfl

theorem prefixed_parts (a b : BitVec 31) :
    (encPrefixed a b).extractLsb' 62 2 = 2#2 ∧ slotA (encPrefixed a b) = a ∧ slotB (encPrefixed a b) = b := by
  simp only [slotA, slotB]
  refine ⟨?_, ?_, ?_⟩ <;>
    (ext i hi; simp only [BitVec.getElem_extractLsb', encPrefixed_bit, BitVec.getLsbD_append, Nat.sub_sub]) <;>
    (repeat rw [if_neg (by omega)]) <;> (try rw [if_pos (by omega)]) <;> grind

/-- What the decoder reads from the 64 bits of a word, the word after it being zero. -/
theorem decodeTableWord_word (w : Word) :
    decodeTableWord 64 w.toNat =
      match decodeUnit w (some 0) with | .ok u => u.lone | .error _ => none := by
  have h : w.toNat / 2 ^ 64 = 0 := Nat.div_eq_of_lt w.isLt
  simp only [decodeTableWord, h, BitVec.ofNat_toNat, BitVec.setWidth_eq, show ¬(64 ≤ 32) by decide, if_false]
  rfl

/-- A full word whose MAJ names an instruction that is legal decodes to it. -/
theorem decode_full (w : Word) (m : BitVec 8) (i : Instr)
    (hw : w.extractLsb' 62 2 = 0#2 ∧ w.extractLsb' 54 8 = m) (hf : fullOf m.toNat w = some i) (hl : WellFormed i = true) :
    decodeTableWord 64 w.toNat = some i := by
  have hl' : illegalSub i = none := by
    simp only [WellFormed, Bool.and_eq_true] at hl
    exact Option.isNone_iff_eq_none.mp hl.1
  rw [decodeTableWord_word]
  simp only [decodeUnit, hw.1, if_true, decodeFull, hw.2, hf, hl']
  rfl

/-- The half NOP is the half instruction NOP. -/
theorem decodeHalf_nop : decodeHalf nopHalf none = .ok .nop := rfl

/-- A half instruction that is legal and whose prefix, if any, is one, decodes to itself. -/
theorem decodeHalf_enc (hop : BitVec 7) (o : Half) (p : Option Pfx) (i : Instr)
    (hi : halfInstr hop.toNat o p = some i) (hl : illegalSub i = none) (hp : pfxOk p = true)
    (hv : p = none ∨ 0x20 ≤ hop.toNat) (hn : hop.toNat ≠ 0x19) :
    decodeHalf (encHalf hop o.d o.a o.b o.c) (p.map encPfx) = .ok i := by
  have hm : (p.map encPfx).map pfxOf = p := by cases p <;> simp [pfxOf_encPfx]
  simp only [decodeHalf, hop_encHalf, halfOf_encHalf, hm, hi, hl]
  cases p with
  | none => simp [hn]
  | some q =>
    have hv : 0x20 ≤ hop.toNat := by simpa using hv
    have h7 : ¬q.rm = 7#3 := by simpa [pfxOk] using hp
    simp [pfx_low, pfx_rm, h7, Nat.not_lt.mpr hv, hn]

/-- A half alone in a pair word whose slot B holds NOP. -/
theorem decode_alone (h : BitVec 31) (i : Instr) (hd : decodeHalf h none = .ok i) :
    decodeTableWord 64 (encPair h nopHalf).toNat = some i := by
  obtain ⟨hf, ha, hb⟩ := pair_parts h nopHalf
  rw [decodeTableWord_word]
  simp only [decodeUnit, hf, ha, hb, hd, decodeHalf_nop, IssueUnit.lone]
  rfl

/-- A prefixed half that no joined word follows. -/
theorem decode_prefixed (p h : BitVec 31) (i : Instr) (hd : decodeHalf h (some p) = .ok i) :
    decodeTableWord 64 (encPrefixed p h).toNat = some i := by
  obtain ⟨hf, ha, hb⟩ := prefixed_parts p h
  rw [decodeTableWord_word]
  simp only [decodeUnit, hf, ha, hb, hd, IssueUnit.lone]
  rfl

/-- A scalar half alone decodes to its instruction. -/
theorem decode_sh (hop : BitVec 7) (o : Half) (i : Instr) (hi : halfInstr hop.toNat o none = some i)
    (hn : hop.toNat ≠ 0x19) (hl : WellFormed i = true) : decodeTableWord 64 (encSH hop o).toNat = some i := by
  have hl' : illegalSub i = none := by
    simp only [WellFormed, Bool.and_eq_true] at hl
    exact Option.isNone_iff_eq_none.mp hl.1
  exact decode_alone _ _ (decodeHalf_enc hop o none i hi hl' rfl (.inl rfl) hn)

/-- A vector half alone or under its prefix decodes to its instruction. -/
theorem decode_vh (hop : BitVec 7) (o : VHalf) (i : Instr)
    (hi : halfInstr hop.toNat ⟨o.d, o.a, o.b, o.c⟩ o.pfx = some i) (hp : pfxOfInstr i = o.pfx)
    (hv : 0x20 ≤ hop.toNat) (hl : WellFormed i = true) : decodeTableWord 64 (encVH hop o).toNat = some i := by
  simp only [WellFormed, Bool.and_eq_true, hp] at hl
  have hl' : illegalSub i = none := Option.isNone_iff_eq_none.mp hl.1
  have := decodeHalf_enc hop ⟨o.d, o.a, o.b, o.c⟩ o.pfx i hi hl' hl.2 (.inr hv) (by omega)
  unfold encVH
  cases h : o.pfx with
  | none => rw [h] at this; exact decode_alone _ _ this
  | some p => rw [h] at this; exact decode_prefixed _ _ _ this

/-- The bits of a rule word, its width written as the sum of its fields. -/
theorem encRule_bit (op : BitVec 4) (d a b : BitVec 3) (i : BitVec 1) (x : BitVec 18) (j : Nat) :
    (encRule op d a b i x).getLsbD j = BitVec.getLsbD (w := 4 + 3 + 3 + 3 + 1 + 18) (op ++ d ++ a ++ b ++ i ++ x) j := rfl

/-- The fields of a rule word. -/
theorem rule_parts (op : BitVec 4) (d a b : BitVec 3) (i : BitVec 1) (x : BitVec 18) :
    (encRule op d a b i x).extractLsb' 28 4 = op ∧ (encRule op d a b i x).extractLsb' 25 3 = d
      ∧ (encRule op d a b i x).extractLsb' 22 3 = a ∧ (encRule op d a b i x).extractLsb' 19 3 = b
      ∧ (encRule op d a b i x).extractLsb' 18 1 = i ∧ (encRule op d a b i x).extractLsb' 0 18 = x := by
  refine ⟨?_, ?_, ?_, ?_, ?_, ?_⟩ <;>
    (ext i hi; simp only [BitVec.getElem_extractLsb', encRule_bit, BitVec.getLsbD_append, Nat.sub_sub]) <;>
    (repeat rw [if_neg (by omega)]) <;> (try rw [if_pos (by omega)]) <;> grind

/-- A rule word's bits below 18 are those of its last field. -/
theorem rule_low (op : BitVec 4) (d a b : BitVec 3) (i : BitVec 1) (x : BitVec 18) (s n : Nat) (h : s + n ≤ 18) :
    (encRule op d a b i x).extractLsb' s n = x.extractLsb' s n := by
  ext j hj; simp only [BitVec.getElem_extractLsb', encRule_bit, BitVec.getLsbD_append]
  rw [if_pos (by omega)]

/-- What the decoder reads from the 32 bits of a rule word. -/
theorem decodeTableWord_rule (w : BitVec 32) : decodeTableWord 32 w.toNat = decodeRule w := by
  simp [decodeTableWord]

end Sys2Proof
end

