-- ==== Sys2Proof/Laws/PerInstr.lean ====
section
/-!
SUPPORT. What holds of every instruction as syntax, one lemma per constructor: the word it encodes to decodes to it.
-/
namespace Sys2Proof.Laws

open Sys2Proof Sys2Proof.Machine

/-! ## Rule words -/

theorem rule_walkLdf (d a : BitVec 3) (z : BitVec 2) (x : BitVec 1) (o : BitVec 15) :
    decodeRule (encRule 0x0 d a 0 0 (z ++ x ++ o : BitVec 18)) = some (.walkLdf d a z x o) := by
  have k0 : (encRule 0x0 d a 0 0 (z ++ x ++ o : BitVec 18)).extractLsb' 28 4 = 0x0 := by
    ext j hj; simp only [BitVec.getElem_extractLsb', encRule_bit, BitVec.getLsbD_append]; grind
  have k1 : (encRule 0x0 d a 0 0 (z ++ x ++ o : BitVec 18)).extractLsb' 25 3 = d := by
    ext j hj; simp only [BitVec.getElem_extractLsb', encRule_bit, BitVec.getLsbD_append]; grind
  have k2 : (encRule 0x0 d a 0 0 (z ++ x ++ o : BitVec 18)).extractLsb' 22 3 = a := by
    ext j hj; simp only [BitVec.getElem_extractLsb', encRule_bit, BitVec.getLsbD_append]; grind
  have k3 : (encRule 0x0 d a 0 0 (z ++ x ++ o : BitVec 18)).extractLsb' 19 3 = 0 := by
    ext j hj; simp only [BitVec.getElem_extractLsb', encRule_bit, BitVec.getLsbD_append]; grind
  have k4 : (encRule 0x0 d a 0 0 (z ++ x ++ o : BitVec 18)).extractLsb' 18 1 = 0 := by
    ext j hj; simp only [BitVec.getElem_extractLsb', encRule_bit, BitVec.getLsbD_append]; grind
  have k5 : (encRule 0x0 d a 0 0 (z ++ x ++ o : BitVec 18)).extractLsb' 16 2 = z := by
    ext j hj; simp only [BitVec.getElem_extractLsb', encRule_bit, BitVec.getLsbD_append]; grind
  have k6 : (encRule 0x0 d a 0 0 (z ++ x ++ o : BitVec 18)).extractLsb' 15 1 = x := by
    ext j hj; simp only [BitVec.getElem_extractLsb', encRule_bit, BitVec.getLsbD_append]; grind
  have k7 : (encRule 0x0 d a 0 0 (z ++ x ++ o : BitVec 18)).extractLsb' 0 15 = o := by
    ext j hj; simp only [BitVec.getElem_extractLsb', encRule_bit, BitVec.getLsbD_append]; grind
  generalize encRule 0x0 d a 0 0 (z ++ x ++ o : BitVec 18) = w at *
  simp only [decodeRule, k0, k1, k2, k3, k4, k5, k6, k7]
  rfl

theorem rule_walkCmp (a b c : BitVec 3) :
    decodeRule (encRule 0x1 0 a b 0 (c ++ 0#15 : BitVec 18)) = some (.walkCmp a b c) := by
  have k0 : (encRule 0x1 0 a b 0 (c ++ 0#15 : BitVec 18)).extractLsb' 28 4 = 0x1 := by
    ext j hj; simp only [BitVec.getElem_extractLsb', encRule_bit, BitVec.getLsbD_append]; grind
  have k1 : (encRule 0x1 0 a b 0 (c ++ 0#15 : BitVec 18)).extractLsb' 25 3 = 0 := by
    ext j hj; simp only [BitVec.getElem_extractLsb', encRule_bit, BitVec.getLsbD_append]; grind
  have k2 : (encRule 0x1 0 a b 0 (c ++ 0#15 : BitVec 18)).extractLsb' 22 3 = a := by
    ext j hj; simp only [BitVec.getElem_extractLsb', encRule_bit, BitVec.getLsbD_append]; grind
  have k3 : (encRule 0x1 0 a b 0 (c ++ 0#15 : BitVec 18)).extractLsb' 19 3 = b := by
    ext j hj; simp only [BitVec.getElem_extractLsb', encRule_bit, BitVec.getLsbD_append]; grind
  have k4 : (encRule 0x1 0 a b 0 (c ++ 0#15 : BitVec 18)).extractLsb' 18 1 = 0 := by
    ext j hj; simp only [BitVec.getElem_extractLsb', encRule_bit, BitVec.getLsbD_append]; grind
  have k5 : (encRule 0x1 0 a b 0 (c ++ 0#15 : BitVec 18)).extractLsb' 15 3 = c := by
    ext j hj; simp only [BitVec.getElem_extractLsb', encRule_bit, BitVec.getLsbD_append]; grind
  have k6 : (encRule 0x1 0 a b 0 (c ++ 0#15 : BitVec 18)).extractLsb' 0 15 = 0 := by
    ext j hj; simp only [BitVec.getElem_extractLsb', encRule_bit, BitVec.getLsbD_append]; grind
  generalize encRule 0x1 0 a b 0 (c ++ 0#15 : BitVec 18) = w at *
  simp only [decodeRule, k0, k1, k2, k3, k4, k5, k6]
  rfl

theorem rule_walkCmpi (a c : BitVec 3) (i : BitVec 15) :
    decodeRule (encRule 0x1 0 a 0 1 (c ++ i : BitVec 18)) = some (.walkCmpi a c i) := by
  have k0 : (encRule 0x1 0 a 0 1 (c ++ i : BitVec 18)).extractLsb' 28 4 = 0x1 := by
    ext j hj; simp only [BitVec.getElem_extractLsb', encRule_bit, BitVec.getLsbD_append]; grind
  have k1 : (encRule 0x1 0 a 0 1 (c ++ i : BitVec 18)).extractLsb' 25 3 = 0 := by
    ext j hj; simp only [BitVec.getElem_extractLsb', encRule_bit, BitVec.getLsbD_append]; grind
  have k2 : (encRule 0x1 0 a 0 1 (c ++ i : BitVec 18)).extractLsb' 22 3 = a := by
    ext j hj; simp only [BitVec.getElem_extractLsb', encRule_bit, BitVec.getLsbD_append]; grind
  have k3 : (encRule 0x1 0 a 0 1 (c ++ i : BitVec 18)).extractLsb' 19 3 = 0 := by
    ext j hj; simp only [BitVec.getElem_extractLsb', encRule_bit, BitVec.getLsbD_append]; grind
  have k4 : (encRule 0x1 0 a 0 1 (c ++ i : BitVec 18)).extractLsb' 18 1 = 1 := by
    ext j hj; simp only [BitVec.getElem_extractLsb', encRule_bit, BitVec.getLsbD_append]; grind
  have k5 : (encRule 0x1 0 a 0 1 (c ++ i : BitVec 18)).extractLsb' 15 3 = c := by
    ext j hj; simp only [BitVec.getElem_extractLsb', encRule_bit, BitVec.getLsbD_append]; grind
  have k6 : (encRule 0x1 0 a 0 1 (c ++ i : BitVec 18)).extractLsb' 0 15 = i := by
    ext j hj; simp only [BitVec.getElem_extractLsb', encRule_bit, BitVec.getLsbD_append]; grind
  generalize encRule 0x1 0 a 0 1 (c ++ i : BitVec 18) = w at *
  simp only [decodeRule, k0, k1, k2, k3, k4, k5, k6]
  rfl

theorem rule_walkHash (d a : BitVec 3) (n : BitVec 6) :
    decodeRule (encRule 0x2 d a 0 0 (0#12 ++ n : BitVec 18)) = some (.walkHash d a n) := by
  have k0 : (encRule 0x2 d a 0 0 (0#12 ++ n : BitVec 18)).extractLsb' 28 4 = 0x2 := by
    ext j hj; simp only [BitVec.getElem_extractLsb', encRule_bit, BitVec.getLsbD_append]; grind
  have k1 : (encRule 0x2 d a 0 0 (0#12 ++ n : BitVec 18)).extractLsb' 25 3 = d := by
    ext j hj; simp only [BitVec.getElem_extractLsb', encRule_bit, BitVec.getLsbD_append]; grind
  have k2 : (encRule 0x2 d a 0 0 (0#12 ++ n : BitVec 18)).extractLsb' 22 3 = a := by
    ext j hj; simp only [BitVec.getElem_extractLsb', encRule_bit, BitVec.getLsbD_append]; grind
  have k3 : (encRule 0x2 d a 0 0 (0#12 ++ n : BitVec 18)).extractLsb' 19 3 = 0 := by
    ext j hj; simp only [BitVec.getElem_extractLsb', encRule_bit, BitVec.getLsbD_append]; grind
  have k4 : (encRule 0x2 d a 0 0 (0#12 ++ n : BitVec 18)).extractLsb' 18 1 = 0 := by
    ext j hj; simp only [BitVec.getElem_extractLsb', encRule_bit, BitVec.getLsbD_append]; grind
  have k5 : (encRule 0x2 d a 0 0 (0#12 ++ n : BitVec 18)).extractLsb' 6 12 = 0 := by
    ext j hj; simp only [BitVec.getElem_extractLsb', encRule_bit, BitVec.getLsbD_append]; grind
  have k6 : (encRule 0x2 d a 0 0 (0#12 ++ n : BitVec 18)).extractLsb' 0 6 = n := by
    ext j hj; simp only [BitVec.getElem_extractLsb', encRule_bit, BitVec.getLsbD_append]; grind
  generalize encRule 0x2 d a 0 0 (0#12 ++ n : BitVec 18) = w at *
  simp only [decodeRule, k0, k1, k2, k3, k4, k5, k6]
  rfl

theorem rule_walkAdd (d a b : BitVec 3) :
    decodeRule (encRule 0x3 d a b 0 0) = some (.walkAdd d a b) := by
  have k0 : (encRule 0x3 d a b 0 0).extractLsb' 28 4 = 0x3 := by
    ext j hj; simp only [BitVec.getElem_extractLsb', encRule_bit, BitVec.getLsbD_append]; grind
  have k1 : (encRule 0x3 d a b 0 0).extractLsb' 25 3 = d := by
    ext j hj; simp only [BitVec.getElem_extractLsb', encRule_bit, BitVec.getLsbD_append]; grind
  have k2 : (encRule 0x3 d a b 0 0).extractLsb' 22 3 = a := by
    ext j hj; simp only [BitVec.getElem_extractLsb', encRule_bit, BitVec.getLsbD_append]; grind
  have k3 : (encRule 0x3 d a b 0 0).extractLsb' 19 3 = b := by
    ext j hj; simp only [BitVec.getElem_extractLsb', encRule_bit, BitVec.getLsbD_append]; grind
  have k4 : (encRule 0x3 d a b 0 0).extractLsb' 18 1 = 0 := by
    ext j hj; simp only [BitVec.getElem_extractLsb', encRule_bit, BitVec.getLsbD_append]; grind
  have k5 : (encRule 0x3 d a b 0 0).extractLsb' 0 18 = 0 := by
    ext j hj; simp only [BitVec.getElem_extractLsb', encRule_bit, BitVec.getLsbD_append]; grind
  generalize encRule 0x3 d a b 0 0 = w at *
  simp only [decodeRule, k0, k1, k2, k3, k4, k5]
  rfl

theorem rule_walkAddi (d a : BitVec 3) (i : BitVec 18) :
    decodeRule (encRule 0x3 d a 0 1 i) = some (.walkAddi d a i) := by
  have k0 : (encRule 0x3 d a 0 1 i).extractLsb' 28 4 = 0x3 := by
    ext j hj; simp only [BitVec.getElem_extractLsb', encRule_bit, BitVec.getLsbD_append]; grind
  have k1 : (encRule 0x3 d a 0 1 i).extractLsb' 25 3 = d := by
    ext j hj; simp only [BitVec.getElem_extractLsb', encRule_bit, BitVec.getLsbD_append]; grind
  have k2 : (encRule 0x3 d a 0 1 i).extractLsb' 22 3 = a := by
    ext j hj; simp only [BitVec.getElem_extractLsb', encRule_bit, BitVec.getLsbD_append]; grind
  have k3 : (encRule 0x3 d a 0 1 i).extractLsb' 19 3 = 0 := by
    ext j hj; simp only [BitVec.getElem_extractLsb', encRule_bit, BitVec.getLsbD_append]; grind
  have k4 : (encRule 0x3 d a 0 1 i).extractLsb' 18 1 = 1 := by
    ext j hj; simp only [BitVec.getElem_extractLsb', encRule_bit, BitVec.getLsbD_append]; grind
  have k5 : (encRule 0x3 d a 0 1 i).extractLsb' 0 18 = i := by
    ext j hj; simp only [BitVec.getElem_extractLsb', encRule_bit, BitVec.getLsbD_append]; grind
  generalize encRule 0x3 d a 0 1 i = w at *
  simp only [decodeRule, k0, k1, k2, k3, k4, k5]
  rfl

theorem rule_walkShadd (d a b : BitVec 3) (s : BitVec 6) :
    decodeRule (encRule 0x4 d a b 0 (0#12 ++ s : BitVec 18)) = some (.walkShadd d a b s) := by
  have k0 : (encRule 0x4 d a b 0 (0#12 ++ s : BitVec 18)).extractLsb' 28 4 = 0x4 := by
    ext j hj; simp only [BitVec.getElem_extractLsb', encRule_bit, BitVec.getLsbD_append]; grind
  have k1 : (encRule 0x4 d a b 0 (0#12 ++ s : BitVec 18)).extractLsb' 25 3 = d := by
    ext j hj; simp only [BitVec.getElem_extractLsb', encRule_bit, BitVec.getLsbD_append]; grind
  have k2 : (encRule 0x4 d a b 0 (0#12 ++ s : BitVec 18)).extractLsb' 22 3 = a := by
    ext j hj; simp only [BitVec.getElem_extractLsb', encRule_bit, BitVec.getLsbD_append]; grind
  have k3 : (encRule 0x4 d a b 0 (0#12 ++ s : BitVec 18)).extractLsb' 19 3 = b := by
    ext j hj; simp only [BitVec.getElem_extractLsb', encRule_bit, BitVec.getLsbD_append]; grind
  have k4 : (encRule 0x4 d a b 0 (0#12 ++ s : BitVec 18)).extractLsb' 18 1 = 0 := by
    ext j hj; simp only [BitVec.getElem_extractLsb', encRule_bit, BitVec.getLsbD_append]; grind
  have k5 : (encRule 0x4 d a b 0 (0#12 ++ s : BitVec 18)).extractLsb' 6 12 = 0 := by
    ext j hj; simp only [BitVec.getElem_extractLsb', encRule_bit, BitVec.getLsbD_append]; grind
  have k6 : (encRule 0x4 d a b 0 (0#12 ++ s : BitVec 18)).extractLsb' 0 6 = s := by
    ext j hj; simp only [BitVec.getElem_extractLsb', encRule_bit, BitVec.getLsbD_append]; grind
  generalize encRule 0x4 d a b 0 (0#12 ++ s : BitVec 18) = w at *
  simp only [decodeRule, k0, k1, k2, k3, k4, k5, k6]
  rfl

theorem rule_walkLi (d : BitVec 3) (i : BitVec 25) :
    decodeRule ((0x5#4 ++ d ++ i : BitVec 32)) = some (.walkLi d i) := by
  have k0 : ((0x5#4 ++ d ++ i : BitVec 32)).extractLsb' 28 4 = 0x5 := by
    ext j hj
    simp only [BitVec.getElem_extractLsb']
    show BitVec.getLsbD (w := 4 + 3 + 25) (0x5#4 ++ d ++ i) (28 + j) = _
    simp only [BitVec.getLsbD_append]
    grind
  have k1 : ((0x5#4 ++ d ++ i : BitVec 32)).extractLsb' 25 3 = d := by
    ext j hj
    simp only [BitVec.getElem_extractLsb']
    show BitVec.getLsbD (w := 4 + 3 + 25) (0x5#4 ++ d ++ i) (25 + j) = _
    simp only [BitVec.getLsbD_append]
    grind
  have k2 : ((0x5#4 ++ d ++ i : BitVec 32)).extractLsb' 0 25 = i := by
    ext j hj
    simp only [BitVec.getElem_extractLsb']
    show BitVec.getLsbD (w := 4 + 3 + 25) (0x5#4 ++ d ++ i) (0 + j) = _
    simp only [BitVec.getLsbD_append]
    grind
  generalize (0x5#4 ++ d ++ i : BitVec 32) = w at *
  simp only [decodeRule, k0, k1, k2]
  rfl

theorem rule_walkSel (d a b : BitVec 3) :
    decodeRule (encRule 0x6 d a b 0 0) = some (.walkSel d a b) := by
  have k0 : (encRule 0x6 d a b 0 0).extractLsb' 28 4 = 0x6 := by
    ext j hj; simp only [BitVec.getElem_extractLsb', encRule_bit, BitVec.getLsbD_append]; grind
  have k1 : (encRule 0x6 d a b 0 0).extractLsb' 25 3 = d := by
    ext j hj; simp only [BitVec.getElem_extractLsb', encRule_bit, BitVec.getLsbD_append]; grind
  have k2 : (encRule 0x6 d a b 0 0).extractLsb' 22 3 = a := by
    ext j hj; simp only [BitVec.getElem_extractLsb', encRule_bit, BitVec.getLsbD_append]; grind
  have k3 : (encRule 0x6 d a b 0 0).extractLsb' 19 3 = b := by
    ext j hj; simp only [BitVec.getElem_extractLsb', encRule_bit, BitVec.getLsbD_append]; grind
  have k4 : (encRule 0x6 d a b 0 0).extractLsb' 0 19 = 0 := by
    ext j hj; simp only [BitVec.getElem_extractLsb', encRule_bit, BitVec.getLsbD_append]; grind
  generalize encRule 0x6 d a b 0 0 = w at *
  simp only [decodeRule, k0, k1, k2, k3, k4]
  rfl

theorem rule_walkTnul (a : BitVec 3) :
    decodeRule (encRule 0x7 0 a 0 0 0) = some (.walkTnul a) := by
  have k0 : (encRule 0x7 0 a 0 0 0).extractLsb' 28 4 = 0x7 := by
    ext j hj; simp only [BitVec.getElem_extractLsb', encRule_bit, BitVec.getLsbD_append]; grind
  have k1 : (encRule 0x7 0 a 0 0 0).extractLsb' 25 3 = 0 := by
    ext j hj; simp only [BitVec.getElem_extractLsb', encRule_bit, BitVec.getLsbD_append]; grind
  have k2 : (encRule 0x7 0 a 0 0 0).extractLsb' 22 3 = a := by
    ext j hj; simp only [BitVec.getElem_extractLsb', encRule_bit, BitVec.getLsbD_append]; grind
  have k3 : (encRule 0x7 0 a 0 0 0).extractLsb' 0 22 = 0 := by
    ext j hj; simp only [BitVec.getElem_extractLsb', encRule_bit, BitVec.getLsbD_append]; grind
  generalize encRule 0x7 0 a 0 0 0 = w at *
  simp only [decodeRule, k0, k1, k2, k3]
  rfl

theorem rule_walkJt (t : BitVec 5) :
    decodeRule (encRule 0x8 0 0 0 0 (0#13 ++ t : BitVec 18)) = some (.walkJt t) := by
  have k0 : (encRule 0x8 0 0 0 0 (0#13 ++ t : BitVec 18)).extractLsb' 28 4 = 0x8 := by
    ext j hj; simp only [BitVec.getElem_extractLsb', encRule_bit, BitVec.getLsbD_append]; grind
  have k1 : (encRule 0x8 0 0 0 0 (0#13 ++ t : BitVec 18)).extractLsb' 5 23 = 0 := by
    ext j hj; simp only [BitVec.getElem_extractLsb', encRule_bit, BitVec.getLsbD_append]; grind
  have k2 : (encRule 0x8 0 0 0 0 (0#13 ++ t : BitVec 18)).extractLsb' 0 5 = t := by
    ext j hj; simp only [BitVec.getElem_extractLsb', encRule_bit, BitVec.getLsbD_append]; grind
  generalize encRule 0x8 0 0 0 0 (0#13 ++ t : BitVec 18) = w at *
  simp only [decodeRule, k0, k1, k2]
  rfl

theorem rule_walkJf (t : BitVec 5) :
    decodeRule (encRule 0x9 0 0 0 0 (0#13 ++ t : BitVec 18)) = some (.walkJf t) := by
  have k0 : (encRule 0x9 0 0 0 0 (0#13 ++ t : BitVec 18)).extractLsb' 28 4 = 0x9 := by
    ext j hj; simp only [BitVec.getElem_extractLsb', encRule_bit, BitVec.getLsbD_append]; grind
  have k1 : (encRule 0x9 0 0 0 0 (0#13 ++ t : BitVec 18)).extractLsb' 5 23 = 0 := by
    ext j hj; simp only [BitVec.getElem_extractLsb', encRule_bit, BitVec.getLsbD_append]; grind
  have k2 : (encRule 0x9 0 0 0 0 (0#13 ++ t : BitVec 18)).extractLsb' 0 5 = t := by
    ext j hj; simp only [BitVec.getElem_extractLsb', encRule_bit, BitVec.getLsbD_append]; grind
  generalize encRule 0x9 0 0 0 0 (0#13 ++ t : BitVec 18) = w at *
  simp only [decodeRule, k0, k1, k2]
  rfl

theorem rule_walkJmp (t : BitVec 5) :
    decodeRule (encRule 0xA 0 0 0 0 (0#13 ++ t : BitVec 18)) = some (.walkJmp t) := by
  have k0 : (encRule 0xA 0 0 0 0 (0#13 ++ t : BitVec 18)).extractLsb' 28 4 = 0xA := by
    ext j hj; simp only [BitVec.getElem_extractLsb', encRule_bit, BitVec.getLsbD_append]; grind
  have k1 : (encRule 0xA 0 0 0 0 (0#13 ++ t : BitVec 18)).extractLsb' 5 23 = 0 := by
    ext j hj; simp only [BitVec.getElem_extractLsb', encRule_bit, BitVec.getLsbD_append]; grind
  have k2 : (encRule 0xA 0 0 0 0 (0#13 ++ t : BitVec 18)).extractLsb' 0 5 = t := by
    ext j hj; simp only [BitVec.getElem_extractLsb', encRule_bit, BitVec.getLsbD_append]; grind
  generalize encRule 0xA 0 0 0 0 (0#13 ++ t : BitVec 18) = w at *
  simp only [decodeRule, k0, k1, k2]
  rfl

theorem rule_walkStep (a : BitVec 3) :
    decodeRule (encRule 0xB 0 a 0 0 0) = some (.walkStep a) := by
  have k0 : (encRule 0xB 0 a 0 0 0).extractLsb' 28 4 = 0xB := by
    ext j hj; simp only [BitVec.getElem_extractLsb', encRule_bit, BitVec.getLsbD_append]; grind
  have k1 : (encRule 0xB 0 a 0 0 0).extractLsb' 25 3 = 0 := by
    ext j hj; simp only [BitVec.getElem_extractLsb', encRule_bit, BitVec.getLsbD_append]; grind
  have k2 : (encRule 0xB 0 a 0 0 0).extractLsb' 22 3 = a := by
    ext j hj; simp only [BitVec.getElem_extractLsb', encRule_bit, BitVec.getLsbD_append]; grind
  have k3 : (encRule 0xB 0 a 0 0 0).extractLsb' 0 22 = 0 := by
    ext j hj; simp only [BitVec.getElem_extractLsb', encRule_bit, BitVec.getLsbD_append]; grind
  generalize encRule 0xB 0 a 0 0 0 = w at *
  simp only [decodeRule, k0, k1, k2, k3]
  rfl

theorem rule_walkEmitf (a : BitVec 3) :
    decodeRule (encRule 0xC 0 a 0 0 0) = some (.walkEmitf a) := by
  have k0 : (encRule 0xC 0 a 0 0 0).extractLsb' 28 4 = 0xC := by
    ext j hj; simp only [BitVec.getElem_extractLsb', encRule_bit, BitVec.getLsbD_append]; grind
  have k1 : (encRule 0xC 0 a 0 0 0).extractLsb' 25 3 = 0 := by
    ext j hj; simp only [BitVec.getElem_extractLsb', encRule_bit, BitVec.getLsbD_append]; grind
  have k2 : (encRule 0xC 0 a 0 0 0).extractLsb' 22 3 = a := by
    ext j hj; simp only [BitVec.getElem_extractLsb', encRule_bit, BitVec.getLsbD_append]; grind
  have k3 : (encRule 0xC 0 a 0 0 0).extractLsb' 0 22 = 0 := by
    ext j hj; simp only [BitVec.getElem_extractLsb', encRule_bit, BitVec.getLsbD_append]; grind
  generalize encRule 0xC 0 a 0 0 0 = w at *
  simp only [decodeRule, k0, k1, k2, k3]
  rfl

theorem rule_walkEmitr (a : BitVec 3) (n : BitVec 2) (o : BitVec 15) :
    decodeRule (encRule 0xD 0 a 0 0 (n ++ 0#1 ++ o : BitVec 18)) = some (.walkEmitr a n o) := by
  have k0 : (encRule 0xD 0 a 0 0 (n ++ 0#1 ++ o : BitVec 18)).extractLsb' 28 4 = 0xD := by
    ext j hj; simp only [BitVec.getElem_extractLsb', encRule_bit, BitVec.getLsbD_append]; grind
  have k1 : (encRule 0xD 0 a 0 0 (n ++ 0#1 ++ o : BitVec 18)).extractLsb' 25 3 = 0 := by
    ext j hj; simp only [BitVec.getElem_extractLsb', encRule_bit, BitVec.getLsbD_append]; grind
  have k2 : (encRule 0xD 0 a 0 0 (n ++ 0#1 ++ o : BitVec 18)).extractLsb' 22 3 = a := by
    ext j hj; simp only [BitVec.getElem_extractLsb', encRule_bit, BitVec.getLsbD_append]; grind
  have k3 : (encRule 0xD 0 a 0 0 (n ++ 0#1 ++ o : BitVec 18)).extractLsb' 19 3 = 0 := by
    ext j hj; simp only [BitVec.getElem_extractLsb', encRule_bit, BitVec.getLsbD_append]; grind
  have k4 : (encRule 0xD 0 a 0 0 (n ++ 0#1 ++ o : BitVec 18)).extractLsb' 18 1 = 0 := by
    ext j hj; simp only [BitVec.getElem_extractLsb', encRule_bit, BitVec.getLsbD_append]; grind
  have k5 : (encRule 0xD 0 a 0 0 (n ++ 0#1 ++ o : BitVec 18)).extractLsb' 16 2 = n := by
    ext j hj; simp only [BitVec.getElem_extractLsb', encRule_bit, BitVec.getLsbD_append]; grind
  have k6 : (encRule 0xD 0 a 0 0 (n ++ 0#1 ++ o : BitVec 18)).extractLsb' 15 1 = 0 := by
    ext j hj; simp only [BitVec.getElem_extractLsb', encRule_bit, BitVec.getLsbD_append]; grind
  have k7 : (encRule 0xD 0 a 0 0 (n ++ 0#1 ++ o : BitVec 18)).extractLsb' 0 15 = o := by
    ext j hj; simp only [BitVec.getElem_extractLsb', encRule_bit, BitVec.getLsbD_append]; grind
  generalize encRule 0xD 0 a 0 0 (n ++ 0#1 ++ o : BitVec 18) = w at *
  simp only [decodeRule, k0, k1, k2, k3, k4, k5, k6, k7]
  rfl

theorem rule_walkMiss :
    decodeRule (encRule 0xE 0 0 0 0 0) = some (.walkMiss) := by
  have k0 : (encRule 0xE 0 0 0 0 0).extractLsb' 28 4 = 0xE := by
    ext j hj; simp only [BitVec.getElem_extractLsb', encRule_bit, BitVec.getLsbD_append]; grind
  have k1 : (encRule 0xE 0 0 0 0 0).extractLsb' 0 28 = 0 := by
    ext j hj; simp only [BitVec.getElem_extractLsb', encRule_bit, BitVec.getLsbD_append]; grind
  generalize encRule 0xE 0 0 0 0 0 = w at *
  simp only [decodeRule, k0, k1]
  rfl

theorem rule_walkEndRule :
    decodeRule (encRule 0xF 0 0 0 0 0) = some (.walkEndRule) := by
  have k0 : (encRule 0xF 0 0 0 0 0).extractLsb' 28 4 = 0xF := by
    ext j hj; simp only [BitVec.getElem_extractLsb', encRule_bit, BitVec.getLsbD_append]; grind
  have k1 : (encRule 0xF 0 0 0 0 0).extractLsb' 0 28 = 0 := by
    ext j hj; simp only [BitVec.getElem_extractLsb', encRule_bit, BitVec.getLsbD_append]; grind
  generalize encRule 0xF 0 0 0 0 0 = w at *
  simp only [decodeRule, k0, k1]
  rfl

/-! ## The round trip -/

/-- The word that an instruction encodes to decodes to it, with every operand as it was (R105 to R123, R311). -/
def RoundTrip.Statement (i : Instr) : Prop :=
  WellFormed i = true →
    (∀ w, encode i = some w → decodeTableWord 64 w.toNat = some i) ∧
    (∀ w, encodeRule i = some w → decodeTableWord 32 w.toNat = some i)

/-- An instruction of one word, by its decoding. -/
theorem RoundTrip.ofWord (i : Instr) (w : Word) (he : encode i = some w) (hr : encodeRule i = none)
    (h : WellFormed i = true → decodeTableWord 64 w.toNat = some i) : RoundTrip.Statement i := by
  intro hw
  refine ⟨fun v hv => ?_, fun v hv => ?_⟩
  · rw [he] at hv; cases hv; exact h hw
  · rw [hr] at hv; cases hv

/-- A rule, by its decoding. -/
theorem RoundTrip.ofRule (i : Instr) (w : BitVec 32) (he : encode i = none) (hr : encodeRule i = some w)
    (h : decodeRule w = some i) : RoundTrip.Statement i := by
  intro _
  refine ⟨fun v hv => ?_, fun v hv => ?_⟩
  · rw [he] at hv; cases hv
  · rw [hr] at hv; cases hv; rw [decodeTableWord_rule]; exact h

/-- A step that no word names. -/
theorem RoundTrip.ofNone (i : Instr) (he : encode i = none) (hr : encodeRule i = none) : RoundTrip.Statement i := by
  intro _
  refine ⟨fun v hv => ?_, fun v hv => ?_⟩
  · rw [he] at hv; cases hv
  · rw [hr] at hv; cases hv

theorem RoundTrip.add (o : Half) : RoundTrip.Statement (.add o) :=
  RoundTrip.ofWord _ (encSH 0x00 o) rfl rfl (decode_sh 0x00 o _ rfl (by decide))
theorem RoundTrip.sub (o : Half) : RoundTrip.Statement (.sub o) :=
  RoundTrip.ofWord _ (encSH 0x01 o) rfl rfl (decode_sh 0x01 o _ rfl (by decide))
theorem RoundTrip.mul (o : Half) : RoundTrip.Statement (.mul o) :=
  RoundTrip.ofWord _ (encSH 0x02 o) rfl rfl (decode_sh 0x02 o _ rfl (by decide))
theorem RoundTrip.mulh (o : Half) : RoundTrip.Statement (.mulh o) :=
  RoundTrip.ofWord _ (encSH 0x03 o) rfl rfl (decode_sh 0x03 o _ rfl (by decide))
theorem RoundTrip.mulhz (o : Half) : RoundTrip.Statement (.mulhz o) :=
  RoundTrip.ofWord _ (encSH 0x04 o) rfl rfl (decode_sh 0x04 o _ rfl (by decide))
theorem RoundTrip.div (o : Half) : RoundTrip.Statement (.div o) :=
  RoundTrip.ofWord _ (encSH 0x05 o) rfl rfl (decode_sh 0x05 o _ rfl (by decide))
theorem RoundTrip.divz (o : Half) : RoundTrip.Statement (.divz o) :=
  RoundTrip.ofWord _ (encSH 0x06 o) rfl rfl (decode_sh 0x06 o _ rfl (by decide))
theorem RoundTrip.rem (o : Half) : RoundTrip.Statement (.rem o) :=
  RoundTrip.ofWord _ (encSH 0x07 o) rfl rfl (decode_sh 0x07 o _ rfl (by decide))
theorem RoundTrip.remz (o : Half) : RoundTrip.Statement (.remz o) :=
  RoundTrip.ofWord _ (encSH 0x08 o) rfl rfl (decode_sh 0x08 o _ rfl (by decide))
theorem RoundTrip.and (o : Half) : RoundTrip.Statement (.and o) :=
  RoundTrip.ofWord _ (encSH 0x09 o) rfl rfl (decode_sh 0x09 o _ rfl (by decide))
theorem RoundTrip.or (o : Half) : RoundTrip.Statement (.or o) :=
  RoundTrip.ofWord _ (encSH 0x0A o) rfl rfl (decode_sh 0x0A o _ rfl (by decide))
theorem RoundTrip.xor (o : Half) : RoundTrip.Statement (.xor o) :=
  RoundTrip.ofWord _ (encSH 0x0B o) rfl rfl (decode_sh 0x0B o _ rfl (by decide))
theorem RoundTrip.shl (o : Half) : RoundTrip.Statement (.shl o) :=
  RoundTrip.ofWord _ (encSH 0x0C o) rfl rfl (decode_sh 0x0C o _ rfl (by decide))
theorem RoundTrip.shr (o : Half) : RoundTrip.Statement (.shr o) :=
  RoundTrip.ofWord _ (encSH 0x0D o) rfl rfl (decode_sh 0x0D o _ rfl (by decide))
theorem RoundTrip.sra (o : Half) : RoundTrip.Statement (.sra o) :=
  RoundTrip.ofWord _ (encSH 0x0E o) rfl rfl (decode_sh 0x0E o _ rfl (by decide))
theorem RoundTrip.clz (o : Half) : RoundTrip.Statement (.clz o) :=
  RoundTrip.ofWord _ (encSH 0x0F o) rfl rfl (decode_sh 0x0F o _ rfl (by decide))
theorem RoundTrip.ctz (o : Half) : RoundTrip.Statement (.ctz o) :=
  RoundTrip.ofWord _ (encSH 0x10 o) rfl rfl (decode_sh 0x10 o _ rfl (by decide))
theorem RoundTrip.popc (o : Half) : RoundTrip.Statement (.popc o) :=
  RoundTrip.ofWord _ (encSH 0x11 o) rfl rfl (decode_sh 0x11 o _ rfl (by decide))
theorem RoundTrip.min (o : Half) : RoundTrip.Statement (.min o) :=
  RoundTrip.ofWord _ (encSH 0x12 o) rfl rfl (decode_sh 0x12 o _ rfl (by decide))
theorem RoundTrip.max (o : Half) : RoundTrip.Statement (.max o) :=
  RoundTrip.ofWord _ (encSH 0x13 o) rfl rfl (decode_sh 0x13 o _ rfl (by decide))
theorem RoundTrip.minz (o : Half) : RoundTrip.Statement (.minz o) :=
  RoundTrip.ofWord _ (encSH 0x14 o) rfl rfl (decode_sh 0x14 o _ rfl (by decide))
theorem RoundTrip.maxz (o : Half) : RoundTrip.Statement (.maxz o) :=
  RoundTrip.ofWord _ (encSH 0x15 o) rfl rfl (decode_sh 0x15 o _ rfl (by decide))
theorem RoundTrip.slt (o : Half) : RoundTrip.Statement (.slt o) :=
  RoundTrip.ofWord _ (encSH 0x16 o) rfl rfl (decode_sh 0x16 o _ rfl (by decide))
theorem RoundTrip.sltz (o : Half) : RoundTrip.Statement (.sltz o) :=
  RoundTrip.ofWord _ (encSH 0x17 o) rfl rfl (decode_sh 0x17 o _ rfl (by decide))
theorem RoundTrip.sel (o : Half) : RoundTrip.Statement (.sel o) :=
  RoundTrip.ofWord _ (encSH 0x18 o) rfl rfl (decode_sh 0x18 o _ rfl (by decide))
theorem RoundTrip.nop : RoundTrip.Statement .nop :=
  RoundTrip.ofWord _ (encPair nopHalf nopHalf) rfl rfl (fun _ => decode_alone _ _ decodeHalf_nop)
theorem RoundTrip.addi (o : FI) : RoundTrip.Statement (.addi o) :=
  RoundTrip.ofWord _ (encFI 0x00 o) rfl rfl
    (decode_full _ 0x00 _ (full_form_fi _ o) (congrArg (fun x => some (Instr.addi x)) (fiOf_encFI 0x00 o)))
theorem RoundTrip.andi (o : FI) : RoundTrip.Statement (.andi o) :=
  RoundTrip.ofWord _ (encFI 0x01 o) rfl rfl
    (decode_full _ 0x01 _ (full_form_fi _ o) (congrArg (fun x => some (Instr.andi x)) (fiOf_encFI 0x01 o)))
theorem RoundTrip.ori (o : FI) : RoundTrip.Statement (.ori o) :=
  RoundTrip.ofWord _ (encFI 0x02 o) rfl rfl
    (decode_full _ 0x02 _ (full_form_fi _ o) (congrArg (fun x => some (Instr.ori x)) (fiOf_encFI 0x02 o)))
theorem RoundTrip.xori (o : FI) : RoundTrip.Statement (.xori o) :=
  RoundTrip.ofWord _ (encFI 0x03 o) rfl rfl
    (decode_full _ 0x03 _ (full_form_fi _ o) (congrArg (fun x => some (Instr.xori x)) (fiOf_encFI 0x03 o)))
theorem RoundTrip.shli (o : FI) : RoundTrip.Statement (.shli o) :=
  RoundTrip.ofWord _ (encFI 0x04 o) rfl rfl
    (decode_full _ 0x04 _ (full_form_fi _ o) (congrArg (fun x => some (Instr.shli x)) (fiOf_encFI 0x04 o)))
theorem RoundTrip.shri (o : FI) : RoundTrip.Statement (.shri o) :=
  RoundTrip.ofWord _ (encFI 0x05 o) rfl rfl
    (decode_full _ 0x05 _ (full_form_fi _ o) (congrArg (fun x => some (Instr.shri x)) (fiOf_encFI 0x05 o)))
theorem RoundTrip.srai (o : FI) : RoundTrip.Statement (.srai o) :=
  RoundTrip.ofWord _ (encFI 0x06 o) rfl rfl
    (decode_full _ 0x06 _ (full_form_fi _ o) (congrArg (fun x => some (Instr.srai x)) (fiOf_encFI 0x06 o)))
theorem RoundTrip.slti (o : FI) : RoundTrip.Statement (.slti o) :=
  RoundTrip.ofWord _ (encFI 0x07 o) rfl rfl
    (decode_full _ 0x07 _ (full_form_fi _ o) (congrArg (fun x => some (Instr.slti x)) (fiOf_encFI 0x07 o)))
theorem RoundTrip.li (o : FI) : RoundTrip.Statement (.li o) :=
  RoundTrip.ofWord _ (encFI 0x08 o) rfl rfl
    (decode_full _ 0x08 _ (full_form_fi _ o) (congrArg (fun x => some (Instr.li x)) (fiOf_encFI 0x08 o)))
theorem RoundTrip.lih (o : FI) : RoundTrip.Statement (.lih o) :=
  RoundTrip.ofWord _ (encFI 0x09 o) rfl rfl
    (decode_full _ 0x09 _ (full_form_fi _ o) (congrArg (fun x => some (Instr.lih x)) (fiOf_encFI 0x09 o)))
theorem RoundTrip.addpc (o : FI) : RoundTrip.Statement (.addpc o) :=
  RoundTrip.ofWord _ (encFI 0x0A o) rfl rfl
    (decode_full _ 0x0A _ (full_form_fi _ o) (congrArg (fun x => some (Instr.addpc x)) (fiOf_encFI 0x0A o)))
theorem RoundTrip.ldb (o : FM) : RoundTrip.Statement (.ldb o) :=
  RoundTrip.ofWord _ (encFM 0x10 o) rfl rfl
    (decode_full _ 0x10 _ (full_form_fm _ o) (congrArg (fun x => some (Instr.ldb x)) (fmOf_encFM 0x10 o)))
theorem RoundTrip.ldbz (o : FM) : RoundTrip.Statement (.ldbz o) :=
  RoundTrip.ofWord _ (encFM 0x11 o) rfl rfl
    (decode_full _ 0x11 _ (full_form_fm _ o) (congrArg (fun x => some (Instr.ldbz x)) (fmOf_encFM 0x11 o)))
theorem RoundTrip.ldh (o : FM) : RoundTrip.Statement (.ldh o) :=
  RoundTrip.ofWord _ (encFM 0x12 o) rfl rfl
    (decode_full _ 0x12 _ (full_form_fm _ o) (congrArg (fun x => some (Instr.ldh x)) (fmOf_encFM 0x12 o)))
theorem RoundTrip.ldhz (o : FM) : RoundTrip.Statement (.ldhz o) :=
  RoundTrip.ofWord _ (encFM 0x13 o) rfl rfl
    (decode_full _ 0x13 _ (full_form_fm _ o) (congrArg (fun x => some (Instr.ldhz x)) (fmOf_encFM 0x13 o)))
theorem RoundTrip.ldw (o : FM) : RoundTrip.Statement (.ldw o) :=
  RoundTrip.ofWord _ (encFM 0x14 o) rfl rfl
    (decode_full _ 0x14 _ (full_form_fm _ o) (congrArg (fun x => some (Instr.ldw x)) (fmOf_encFM 0x14 o)))
theorem RoundTrip.ldwz (o : FM) : RoundTrip.Statement (.ldwz o) :=
  RoundTrip.ofWord _ (encFM 0x15 o) rfl rfl
    (decode_full _ 0x15 _ (full_form_fm _ o) (congrArg (fun x => some (Instr.ldwz x)) (fmOf_encFM 0x15 o)))
theorem RoundTrip.ldd (o : FM) : RoundTrip.Statement (.ldd o) :=
  RoundTrip.ofWord _ (encFM 0x16 o) rfl rfl
    (decode_full _ 0x16 _ (full_form_fm _ o) (congrArg (fun x => some (Instr.ldd x)) (fmOf_encFM 0x16 o)))
theorem RoundTrip.stb (o : FM) : RoundTrip.Statement (.stb o) :=
  RoundTrip.ofWord _ (encFM 0x17 o) rfl rfl
    (decode_full _ 0x17 _ (full_form_fm _ o) (congrArg (fun x => some (Instr.stb x)) (fmOf_encFM 0x17 o)))
theorem RoundTrip.sth (o : FM) : RoundTrip.Statement (.sth o) :=
  RoundTrip.ofWord _ (encFM 0x18 o) rfl rfl
    (decode_full _ 0x18 _ (full_form_fm _ o) (congrArg (fun x => some (Instr.sth x)) (fmOf_encFM 0x18 o)))
theorem RoundTrip.stw (o : FM) : RoundTrip.Statement (.stw o) :=
  RoundTrip.ofWord _ (encFM 0x19 o) rfl rfl
    (decode_full _ 0x19 _ (full_form_fm _ o) (congrArg (fun x => some (Instr.stw x)) (fmOf_encFM 0x19 o)))
theorem RoundTrip.std (o : FM) : RoundTrip.Statement (.std o) :=
  RoundTrip.ofWord _ (encFM 0x1A o) rfl rfl
    (decode_full _ 0x1A _ (full_form_fm _ o) (congrArg (fun x => some (Instr.std x)) (fmOf_encFM 0x1A o)))
theorem RoundTrip.lda (o : FM) : RoundTrip.Statement (.lda o) :=
  RoundTrip.ofWord _ (encFM 0x1B o) rfl rfl
    (decode_full _ 0x1B _ (full_form_fm _ o) (congrArg (fun x => some (Instr.lda x)) (fmOf_encFM 0x1B o)))
theorem RoundTrip.stl (o : FM) : RoundTrip.Statement (.stl o) :=
  RoundTrip.ofWord _ (encFM 0x1C o) rfl rfl
    (decode_full _ 0x1C _ (full_form_fm _ o) (congrArg (fun x => some (Instr.stl x)) (fmOf_encFM 0x1C o)))
theorem RoundTrip.pref (o : FM) : RoundTrip.Statement (.pref o) :=
  RoundTrip.ofWord _ (encFM 0x1D o) rfl rfl
    (decode_full _ 0x1D _ (full_form_fm _ o) (congrArg (fun x => some (Instr.pref x)) (fmOf_encFM 0x1D o)))
theorem RoundTrip.fence (o : FI) : RoundTrip.Statement (.fence o) :=
  RoundTrip.ofWord _ (encFI 0x39 o) rfl rfl
    (decode_full _ 0x39 _ (full_form_fi _ o) (congrArg (fun x => some (Instr.fence x)) (fiOf_encFI 0x39 o)))
theorem RoundTrip.ifence (o : FI) : RoundTrip.Statement (.ifence o) :=
  RoundTrip.ofWord _ (encFI 0x38 o) rfl rfl
    (decode_full _ 0x38 _ (full_form_fi _ o) (congrArg (fun x => some (Instr.ifence x)) (fiOf_encFI 0x38 o)))
theorem RoundTrip.beq (o : FB) : RoundTrip.Statement (.beq o) :=
  RoundTrip.ofWord _ (encFB 0x20 o) rfl rfl
    (decode_full _ 0x20 _ (full_form_fb _ o) (congrArg (fun x => some (Instr.beq x)) (fbOf_encFB 0x20 o)))
theorem RoundTrip.bne (o : FB) : RoundTrip.Statement (.bne o) :=
  RoundTrip.ofWord _ (encFB 0x21 o) rfl rfl
    (decode_full _ 0x21 _ (full_form_fb _ o) (congrArg (fun x => some (Instr.bne x)) (fbOf_encFB 0x21 o)))
theorem RoundTrip.blt (o : FB) : RoundTrip.Statement (.blt o) :=
  RoundTrip.ofWord _ (encFB 0x22 o) rfl rfl
    (decode_full _ 0x22 _ (full_form_fb _ o) (congrArg (fun x => some (Instr.blt x)) (fbOf_encFB 0x22 o)))
theorem RoundTrip.bge (o : FB) : RoundTrip.Statement (.bge o) :=
  RoundTrip.ofWord _ (encFB 0x23 o) rfl rfl
    (decode_full _ 0x23 _ (full_form_fb _ o) (congrArg (fun x => some (Instr.bge x)) (fbOf_encFB 0x23 o)))
theorem RoundTrip.blo (o : FB) : RoundTrip.Statement (.blo o) :=
  RoundTrip.ofWord _ (encFB 0x24 o) rfl rfl
    (decode_full _ 0x24 _ (full_form_fb _ o) (congrArg (fun x => some (Instr.blo x)) (fbOf_encFB 0x24 o)))
theorem RoundTrip.bhs (o : FB) : RoundTrip.Statement (.bhs o) :=
  RoundTrip.ofWord _ (encFB 0x25 o) rfl rfl
    (decode_full _ 0x25 _ (full_form_fb _ o) (congrArg (fun x => some (Instr.bhs x)) (fbOf_encFB 0x25 o)))
theorem RoundTrip.jmp (o : FB) : RoundTrip.Statement (.jmp o) :=
  RoundTrip.ofWord _ (encFB 0x26 o) rfl rfl
    (decode_full _ 0x26 _ (full_form_fb _ o) (congrArg (fun x => some (Instr.jmp x)) (fbOf_encFB 0x26 o)))
theorem RoundTrip.jal (o : FB) : RoundTrip.Statement (.jal o) :=
  RoundTrip.ofWord _ (encFB 0x27 o) rfl rfl
    (decode_full _ 0x27 _ (full_form_fb _ o) (congrArg (fun x => some (Instr.jal x)) (fbOf_encFB 0x27 o)))
theorem RoundTrip.jalr (o : FI) : RoundTrip.Statement (.jalr o) :=
  RoundTrip.ofWord _ (encFI 0x28 o) rfl rfl
    (decode_full _ 0x28 _ (full_form_fi _ o) (congrArg (fun x => some (Instr.jalr x)) (fiOf_encFI 0x28 o)))
theorem RoundTrip.call (o : FB) : RoundTrip.Statement (.call o) :=
  RoundTrip.ofWord _ (encFB 0x29 o) rfl rfl
    (decode_full _ 0x29 _ (full_form_fb _ o) (congrArg (fun x => some (Instr.call x)) (fbOf_encFB 0x29 o)))
theorem RoundTrip.callr (o : FI) : RoundTrip.Statement (.callr o) :=
  RoundTrip.ofWord _ (encFI 0x2A o) rfl rfl
    (decode_full _ 0x2A _ (full_form_fi _ o) (congrArg (fun x => some (Instr.callr x)) (fiOf_encFI 0x2A o)))
theorem RoundTrip.ret (o : FI) : RoundTrip.Statement (.ret o) :=
  RoundTrip.ofWord _ (encFI 0x2B o) rfl rfl
    (decode_full _ 0x2B _ (full_form_fi _ o) (congrArg (fun x => some (Instr.ret x)) (fiOf_encFI 0x2B o)))
theorem RoundTrip.gate (o : FI) : RoundTrip.Statement (.gate o) :=
  RoundTrip.ofWord _ (encFI 0x2C o) rfl rfl
    (decode_full _ 0x2C _ (full_form_fi _ o) (congrArg (fun x => some (Instr.gate x)) (fiOf_encFI 0x2C o)))
theorem RoundTrip.gret (o : FI) : RoundTrip.Statement (.gret o) :=
  RoundTrip.ofWord _ (encFI 0x2D o) rfl rfl
    (decode_full _ 0x2D _ (full_form_fi _ o) (congrArg (fun x => some (Instr.gret x)) (fiOf_encFI 0x2D o)))
theorem RoundTrip.endStrip (o : FI) : RoundTrip.Statement (.endStrip o) :=
  RoundTrip.ofWord _ (encFI 0x2E o) rfl rfl
    (decode_full _ 0x2E _ (full_form_fi _ o) (congrArg (fun x => some (Instr.endStrip x)) (fiOf_encFI 0x2E o)))
theorem RoundTrip.release (o : FI) : RoundTrip.Statement (.release o) :=
  RoundTrip.ofWord _ (encFI 0x2F o) rfl rfl
    (decode_full _ 0x2F _ (full_form_fi _ o) (congrArg (fun x => some (Instr.release x)) (fiOf_encFI 0x2F o)))
theorem RoundTrip.launch (o : FI) : RoundTrip.Statement (.launch o) :=
  RoundTrip.ofWord _ (encFI 0x30 o) rfl rfl
    (decode_full _ 0x30 _ (full_form_fi _ o) (congrArg (fun x => some (Instr.launch x)) (fiOf_encFI 0x30 o)))
theorem RoundTrip.yield (o : FI) : RoundTrip.Statement (.yield o) :=
  RoundTrip.ofWord _ (encFI 0x31 o) rfl rfl
    (decode_full _ 0x31 _ (full_form_fi _ o) (congrArg (fun x => some (Instr.yield x)) (fiOf_encFI 0x31 o)))
theorem RoundTrip.csrr (o : FS) : RoundTrip.Statement (.csrr o) :=
  RoundTrip.ofWord _ (encFS 0x32 o) rfl rfl
    (decode_full _ 0x32 _ (full_form_fs _ o) (congrArg (fun x => some (Instr.csrr x)) (fsOf_encFS 0x32 o)))
theorem RoundTrip.csrw (o : FS) : RoundTrip.Statement (.csrw o) :=
  RoundTrip.ofWord _ (encFS 0x33 o) rfl rfl
    (decode_full _ 0x33 _ (full_form_fs _ o) (congrArg (fun x => some (Instr.csrw x)) (fsOf_encFS 0x33 o)))
theorem RoundTrip.csrs (o : FS) : RoundTrip.Statement (.csrs o) :=
  RoundTrip.ofWord _ (encFS 0x34 o) rfl rfl
    (decode_full _ 0x34 _ (full_form_fs _ o) (congrArg (fun x => some (Instr.csrs x)) (fsOf_encFS 0x34 o)))
theorem RoundTrip.csrc (o : FS) : RoundTrip.Statement (.csrc o) :=
  RoundTrip.ofWord _ (encFS 0x35 o) rfl rfl
    (decode_full _ 0x35 _ (full_form_fs _ o) (congrArg (fun x => some (Instr.csrc x)) (fsOf_encFS 0x35 o)))
theorem RoundTrip.trap (o : FI) : RoundTrip.Statement (.trap o) :=
  RoundTrip.ofWord _ (encFI 0x36 o) rfl rfl
    (decode_full _ 0x36 _ (full_form_fi _ o) (congrArg (fun x => some (Instr.trap x)) (fiOf_encFI 0x36 o)))
theorem RoundTrip.xret (o : FI) : RoundTrip.Statement (.xret o) :=
  RoundTrip.ofWord _ (encFI 0x37 o) rfl rfl
    (decode_full _ 0x37 _ (full_form_fi _ o) (congrArg (fun x => some (Instr.xret x)) (fiOf_encFI 0x37 o)))
theorem RoundTrip.wfi (o : FI) : RoundTrip.Statement (.wfi o) :=
  RoundTrip.ofWord _ (encFI 0x3A o) rfl rfl
    (decode_full _ 0x3A _ (full_form_fi _ o) (congrArg (fun x => some (Instr.wfi x)) (fiOf_encFI 0x3A o)))
theorem RoundTrip.vcfg (o : FI) : RoundTrip.Statement (.vcfg o) :=
  RoundTrip.ofWord _ (encFI 0x40 o) rfl rfl
    (decode_full _ 0x40 _ (full_form_fi _ o) (congrArg (fun x => some (Instr.vcfg x)) (fiOf_encFI 0x40 o)))
theorem RoundTrip.vsetl (o : FI) : RoundTrip.Statement (.vsetl o) :=
  RoundTrip.ofWord _ (encFI 0x41 o) rfl rfl
    (decode_full _ 0x41 _ (full_form_fi _ o) (congrArg (fun x => some (Instr.vsetl x)) (fiOf_encFI 0x41 o)))
theorem RoundTrip.vsett (o : FI) : RoundTrip.Statement (.vsett o) :=
  RoundTrip.ofWord _ (encFI 0x42 o) rfl rfl
    (decode_full _ 0x42 _ (full_form_fi _ o) (congrArg (fun x => some (Instr.vsett x)) (fiOf_encFI 0x42 o)))
theorem RoundTrip.vld (o : FM) : RoundTrip.Statement (.vld o) :=
  RoundTrip.ofWord _ (encFM 0x43 o) rfl rfl
    (decode_full _ 0x43 _ (full_form_fm _ o) (congrArg (fun x => some (Instr.vld x)) (fmOf_encFM 0x43 o)))
theorem RoundTrip.vlds (o : FM) : RoundTrip.Statement (.vlds o) :=
  RoundTrip.ofWord _ (encFM 0x44 o) rfl rfl
    (decode_full _ 0x44 _ (full_form_fm _ o) (congrArg (fun x => some (Instr.vlds x)) (fmOf_encFM 0x44 o)))
theorem RoundTrip.vldtr (o : FM) : RoundTrip.Statement (.vldtr o) :=
  RoundTrip.ofWord _ (encFM 0x46 o) rfl rfl
    (decode_full _ 0x46 _ (full_form_fm _ o) (congrArg (fun x => some (Instr.vldtr x)) (fmOf_encFM 0x46 o)))
theorem RoundTrip.vst (o : FM) : RoundTrip.Statement (.vst o) :=
  RoundTrip.ofWord _ (encFM 0x48 o) rfl rfl
    (decode_full _ 0x48 _ (full_form_fm _ o) (congrArg (fun x => some (Instr.vst x)) (fmOf_encFM 0x48 o)))
theorem RoundTrip.vsts (o : FM) : RoundTrip.Statement (.vsts o) :=
  RoundTrip.ofWord _ (encFM 0x49 o) rfl rfl
    (decode_full _ 0x49 _ (full_form_fm _ o) (congrArg (fun x => some (Instr.vsts x)) (fmOf_encFM 0x49 o)))
theorem RoundTrip.vldx (o : FX) : RoundTrip.Statement (.vldx o) :=
  RoundTrip.ofWord _ (encFX 0x45 o) rfl rfl
    (decode_full _ 0x45 _ (full_form_fx _ o) (congrArg (fun x => some (Instr.vldx x)) (fxOf_encFX 0x45 o)))
theorem RoundTrip.vstx (o : FX) : RoundTrip.Statement (.vstx o) :=
  RoundTrip.ofWord _ (encFX 0x4A o) rfl rfl
    (decode_full _ 0x4A _ (full_form_fx _ o) (congrArg (fun x => some (Instr.vstx x)) (fxOf_encFX 0x4A o)))
theorem RoundTrip.vstxa (o : FX) : RoundTrip.Statement (.vstxa o) :=
  RoundTrip.ofWord _ (encFX 0x4B o) rfl rfl
    (decode_full _ 0x4B _ (full_form_fx _ o) (congrArg (fun x => some (Instr.vstxa x)) (fxOf_encFX 0x4B o)))
theorem RoundTrip.vldk (o : FX) : RoundTrip.Statement (.vldk o) :=
  RoundTrip.ofWord _ (encFX 0x47 o) rfl rfl
    (decode_full _ 0x47 _ (full_form_fx _ o) (congrArg (fun x => some (Instr.vldk x)) (fxOf_encFX 0x47 o)))
theorem RoundTrip.vstk (o : FX) : RoundTrip.Statement (.vstk o) :=
  RoundTrip.ofWord _ (encFX 0x4C o) rfl rfl
    (decode_full _ 0x4C _ (full_form_fx _ o) (congrArg (fun x => some (Instr.vstk x)) (fxOf_encFX 0x4C o)))
theorem RoundTrip.tset (o : FI) : RoundTrip.Statement (.tset o) :=
  RoundTrip.ofWord _ (encFI 0x4D o) rfl rfl
    (decode_full _ 0x4D _ (full_form_fi _ o) (congrArg (fun x => some (Instr.tset x)) (fiOf_encFI 0x4D o)))
theorem RoundTrip.tget (o : FI) : RoundTrip.Statement (.tget o) :=
  RoundTrip.ofWord _ (encFI 0x4E o) rfl rfl
    (decode_full _ 0x4E _ (full_form_fi _ o) (congrArg (fun x => some (Instr.tget x)) (fiOf_encFI 0x4E o)))
theorem RoundTrip.vadd (o : VHalf) : RoundTrip.Statement (.vadd o) :=
  RoundTrip.ofWord _ (encVH 0x20 o) rfl rfl (decode_vh 0x20 o _ rfl rfl (by decide))
theorem RoundTrip.vsub (o : VHalf) : RoundTrip.Statement (.vsub o) :=
  RoundTrip.ofWord _ (encVH 0x21 o) rfl rfl (decode_vh 0x21 o _ rfl rfl (by decide))
theorem RoundTrip.vmul (o : VHalf) : RoundTrip.Statement (.vmul o) :=
  RoundTrip.ofWord _ (encVH 0x22 o) rfl rfl (decode_vh 0x22 o _ rfl rfl (by decide))
theorem RoundTrip.vma (o : VHalf) : RoundTrip.Statement (.vma o) :=
  RoundTrip.ofWord _ (encVH 0x23 o) rfl rfl (decode_vh 0x23 o _ rfl rfl (by decide))
theorem RoundTrip.vms (o : VHalf) : RoundTrip.Statement (.vms o) :=
  RoundTrip.ofWord _ (encVH 0x24 o) rfl rfl (decode_vh 0x24 o _ rfl rfl (by decide))
theorem RoundTrip.vnma (o : VHalf) : RoundTrip.Statement (.vnma o) :=
  RoundTrip.ofWord _ (encVH 0x25 o) rfl rfl (decode_vh 0x25 o _ rfl rfl (by decide))
theorem RoundTrip.vdiv (o : VHalf) : RoundTrip.Statement (.vdiv o) :=
  RoundTrip.ofWord _ (encVH 0x26 o) rfl rfl (decode_vh 0x26 o _ rfl rfl (by decide))
theorem RoundTrip.vsqrt (o : VHalf) : RoundTrip.Statement (.vsqrt o) :=
  RoundTrip.ofWord _ (encVH 0x27 o) rfl rfl (decode_vh 0x27 o _ rfl rfl (by decide))
theorem RoundTrip.vmin (o : VHalf) : RoundTrip.Statement (.vmin o) :=
  RoundTrip.ofWord _ (encVH 0x28 o) rfl rfl (decode_vh 0x28 o _ rfl rfl (by decide))
theorem RoundTrip.vmax (o : VHalf) : RoundTrip.Statement (.vmax o) :=
  RoundTrip.ofWord _ (encVH 0x29 o) rfl rfl (decode_vh 0x29 o _ rfl rfl (by decide))
theorem RoundTrip.vabs (o : VHalf) : RoundTrip.Statement (.vabs o) :=
  RoundTrip.ofWord _ (encVH 0x2A o) rfl rfl (decode_vh 0x2A o _ rfl rfl (by decide))
theorem RoundTrip.vneg (o : VHalf) : RoundTrip.Statement (.vneg o) :=
  RoundTrip.ofWord _ (encVH 0x2B o) rfl rfl (decode_vh 0x2B o _ rfl rfl (by decide))
theorem RoundTrip.vclamp (o : VHalf) : RoundTrip.Statement (.vclamp o) :=
  RoundTrip.ofWord _ (encVH 0x2C o) rfl rfl (decode_vh 0x2C o _ rfl rfl (by decide))
theorem RoundTrip.vrcp (o : VHalf) : RoundTrip.Statement (.vrcp o) :=
  RoundTrip.ofWord _ (encVH 0x2D o) rfl rfl (decode_vh 0x2D o _ rfl rfl (by decide))
theorem RoundTrip.vrsq (o : VHalf) : RoundTrip.Statement (.vrsq o) :=
  RoundTrip.ofWord _ (encVH 0x2E o) rfl rfl (decode_vh 0x2E o _ rfl rfl (by decide))
theorem RoundTrip.vexp2 (o : VHalf) : RoundTrip.Statement (.vexp2 o) :=
  RoundTrip.ofWord _ (encVH 0x2F o) rfl rfl (decode_vh 0x2F o _ rfl rfl (by decide))
theorem RoundTrip.vlog2 (o : VHalf) : RoundTrip.Statement (.vlog2 o) :=
  RoundTrip.ofWord _ (encVH 0x30 o) rfl rfl (decode_vh 0x30 o _ rfl rfl (by decide))
theorem RoundTrip.vtanh (o : VHalf) : RoundTrip.Statement (.vtanh o) :=
  RoundTrip.ofWord _ (encVH 0x31 o) rfl rfl (decode_vh 0x31 o _ rfl rfl (by decide))
theorem RoundTrip.vsigm (o : VHalf) : RoundTrip.Statement (.vsigm o) :=
  RoundTrip.ofWord _ (encVH 0x32 o) rfl rfl (decode_vh 0x32 o _ rfl rfl (by decide))
theorem RoundTrip.vand (o : VHalf) : RoundTrip.Statement (.vand o) :=
  RoundTrip.ofWord _ (encVH 0x33 o) rfl rfl (decode_vh 0x33 o _ rfl rfl (by decide))
theorem RoundTrip.vor (o : VHalf) : RoundTrip.Statement (.vor o) :=
  RoundTrip.ofWord _ (encVH 0x34 o) rfl rfl (decode_vh 0x34 o _ rfl rfl (by decide))
theorem RoundTrip.vxor (o : VHalf) : RoundTrip.Statement (.vxor o) :=
  RoundTrip.ofWord _ (encVH 0x35 o) rfl rfl (decode_vh 0x35 o _ rfl rfl (by decide))
theorem RoundTrip.vnot (o : VHalf) : RoundTrip.Statement (.vnot o) :=
  RoundTrip.ofWord _ (encVH 0x36 o) rfl rfl (decode_vh 0x36 o _ rfl rfl (by decide))
theorem RoundTrip.vshl (o : VHalf) : RoundTrip.Statement (.vshl o) :=
  RoundTrip.ofWord _ (encVH 0x37 o) rfl rfl (decode_vh 0x37 o _ rfl rfl (by decide))
theorem RoundTrip.vshr (o : VHalf) : RoundTrip.Statement (.vshr o) :=
  RoundTrip.ofWord _ (encVH 0x38 o) rfl rfl (decode_vh 0x38 o _ rfl rfl (by decide))
theorem RoundTrip.vsra (o : VHalf) : RoundTrip.Statement (.vsra o) :=
  RoundTrip.ofWord _ (encVH 0x39 o) rfl rfl (decode_vh 0x39 o _ rfl rfl (by decide))
theorem RoundTrip.vwadd (o : VHalf) : RoundTrip.Statement (.vwadd o) :=
  RoundTrip.ofWord _ (encVH 0x3A o) rfl rfl (decode_vh 0x3A o _ rfl rfl (by decide))
theorem RoundTrip.vwmul (o : VHalf) : RoundTrip.Statement (.vwmul o) :=
  RoundTrip.ofWord _ (encVH 0x3B o) rfl rfl (decode_vh 0x3B o _ rfl rfl (by decide))
theorem RoundTrip.vwmac (o : VHalf) : RoundTrip.Statement (.vwmac o) :=
  RoundTrip.ofWord _ (encVH 0x3C o) rfl rfl (decode_vh 0x3C o _ rfl rfl (by decide))
theorem RoundTrip.vsatn (o : VHalf) : RoundTrip.Statement (.vsatn o) :=
  RoundTrip.ofWord _ (encVH 0x3D o) rfl rfl (decode_vh 0x3D o _ rfl rfl (by decide))
theorem RoundTrip.vcmp (o : VHalf) : RoundTrip.Statement (.vcmp o) :=
  RoundTrip.ofWord _ (encVH 0x3E o) rfl rfl (decode_vh 0x3E o _ rfl rfl (by decide))
theorem RoundTrip.vclass (o : VHalf) : RoundTrip.Statement (.vclass o) :=
  RoundTrip.ofWord _ (encVH 0x3F o) rfl rfl (decode_vh 0x3F o _ rfl rfl (by decide))
theorem RoundTrip.vcvt (o : VHalf) : RoundTrip.Statement (.vcvt o) :=
  RoundTrip.ofWord _ (encVH 0x40 o) rfl rfl (decode_vh 0x40 o _ rfl rfl (by decide))
theorem RoundTrip.vqnt (o : FX) : RoundTrip.Statement (.vqnt o) :=
  RoundTrip.ofWord _ (encFX 0x50 o) rfl rfl
    (decode_full _ 0x50 _ (full_form_fx _ o) (congrArg (fun x => some (Instr.vqnt x)) (fxOf_encFX 0x50 o)))
theorem RoundTrip.vdqnt (o : FX) : RoundTrip.Statement (.vdqnt o) :=
  RoundTrip.ofWord _ (encFX 0x51 o) rfl rfl
    (decode_full _ 0x51 _ (full_form_fx _ o) (congrArg (fun x => some (Instr.vdqnt x)) (fxOf_encFX 0x51 o)))
theorem RoundTrip.vrsum (o : VHalf) : RoundTrip.Statement (.vrsum o) :=
  RoundTrip.ofWord _ (encVH 0x41 o) rfl rfl (decode_vh 0x41 o _ rfl rfl (by decide))
theorem RoundTrip.vrmax (o : VHalf) : RoundTrip.Statement (.vrmax o) :=
  RoundTrip.ofWord _ (encVH 0x42 o) rfl rfl (decode_vh 0x42 o _ rfl rfl (by decide))
theorem RoundTrip.vrmin (o : VHalf) : RoundTrip.Statement (.vrmin o) :=
  RoundTrip.ofWord _ (encVH 0x43 o) rfl rfl (decode_vh 0x43 o _ rfl rfl (by decide))
theorem RoundTrip.vscan (o : VHalf) : RoundTrip.Statement (.vscan o) :=
  RoundTrip.ofWord _ (encVH 0x44 o) rfl rfl (decode_vh 0x44 o _ rfl rfl (by decide))
theorem RoundTrip.vsplat (o : VHalf) : RoundTrip.Statement (.vsplat o) :=
  RoundTrip.ofWord _ (encVH 0x45 o) rfl rfl (decode_vh 0x45 o _ rfl rfl (by decide))
theorem RoundTrip.vmv (o : VHalf) : RoundTrip.Statement (.vmv o) :=
  RoundTrip.ofWord _ (encVH 0x46 o) rfl rfl (decode_vh 0x46 o _ rfl rfl (by decide))
theorem RoundTrip.vmvx (o : VHalf) : RoundTrip.Statement (.vmvx o) :=
  RoundTrip.ofWord _ (encVH 0x47 o) rfl rfl (decode_vh 0x47 o _ rfl rfl (by decide))
theorem RoundTrip.vins (o : VHalf) : RoundTrip.Statement (.vins o) :=
  RoundTrip.ofWord _ (encVH 0x48 o) rfl rfl (decode_vh 0x48 o _ rfl rfl (by decide))
theorem RoundTrip.vslup (o : VHalf) : RoundTrip.Statement (.vslup o) :=
  RoundTrip.ofWord _ (encVH 0x49 o) rfl rfl (decode_vh 0x49 o _ rfl rfl (by decide))
theorem RoundTrip.vsldn (o : VHalf) : RoundTrip.Statement (.vsldn o) :=
  RoundTrip.ofWord _ (encVH 0x4A o) rfl rfl (decode_vh 0x4A o _ rfl rfl (by decide))
theorem RoundTrip.vperm (o : VHalf) : RoundTrip.Statement (.vperm o) :=
  RoundTrip.ofWord _ (encVH 0x4B o) rfl rfl (decode_vh 0x4B o _ rfl rfl (by decide))
theorem RoundTrip.vcmpr (o : VHalf) : RoundTrip.Statement (.vcmpr o) :=
  RoundTrip.ofWord _ (encVH 0x4C o) rfl rfl (decode_vh 0x4C o _ rfl rfl (by decide))
theorem RoundTrip.vxpnd (o : VHalf) : RoundTrip.Statement (.vxpnd o) :=
  RoundTrip.ofWord _ (encVH 0x4D o) rfl rfl (decode_vh 0x4D o _ rfl rfl (by decide))
theorem RoundTrip.mand (o : VHalf) : RoundTrip.Statement (.mand o) :=
  RoundTrip.ofWord _ (encVH 0x4E o) rfl rfl (decode_vh 0x4E o _ rfl rfl (by decide))
theorem RoundTrip.mor (o : VHalf) : RoundTrip.Statement (.mor o) :=
  RoundTrip.ofWord _ (encVH 0x4F o) rfl rfl (decode_vh 0x4F o _ rfl rfl (by decide))
theorem RoundTrip.mxor (o : VHalf) : RoundTrip.Statement (.mxor o) :=
  RoundTrip.ofWord _ (encVH 0x50 o) rfl rfl (decode_vh 0x50 o _ rfl rfl (by decide))
theorem RoundTrip.mnot (o : VHalf) : RoundTrip.Statement (.mnot o) :=
  RoundTrip.ofWord _ (encVH 0x51 o) rfl rfl (decode_vh 0x51 o _ rfl rfl (by decide))
theorem RoundTrip.mpop (o : VHalf) : RoundTrip.Statement (.mpop o) :=
  RoundTrip.ofWord _ (encVH 0x52 o) rfl rfl (decode_vh 0x52 o _ rfl rfl (by decide))
theorem RoundTrip.mfrst (o : VHalf) : RoundTrip.Statement (.mfrst o) :=
  RoundTrip.ofWord _ (encVH 0x53 o) rfl rfl (decode_vh 0x53 o _ rfl rfl (by decide))
theorem RoundTrip.mset (o : VHalf) : RoundTrip.Statement (.mset o) :=
  RoundTrip.ofWord _ (encVH 0x54 o) rfl rfl (decode_vh 0x54 o _ rfl rfl (by decide))
theorem RoundTrip.mclr (o : VHalf) : RoundTrip.Statement (.mclr o) :=
  RoundTrip.ofWord _ (encVH 0x55 o) rfl rfl (decode_vh 0x55 o _ rfl rfl (by decide))
theorem RoundTrip.mcfg (o : FX) : RoundTrip.Statement (.mcfg o) :=
  RoundTrip.ofWord _ (encFX 0x58 o) rfl rfl
    (decode_full _ 0x58 _ (full_form_fx _ o) (congrArg (fun x => some (Instr.mcfg x)) (fxOf_encFX 0x58 o)))
theorem RoundTrip.mjoin (o : FX) : RoundTrip.Statement (.mjoin o) :=
  RoundTrip.ofWord _ (encFX 0x59 o) rfl rfl
    (decode_full _ 0x59 _ (full_form_fx _ o) (congrArg (fun x => some (Instr.mjoin x)) (fxOf_encFX 0x59 o)))
theorem RoundTrip.mldb (o : FX) : RoundTrip.Statement (.mldb o) :=
  RoundTrip.ofWord _ (encFX 0x5A o) rfl rfl
    (decode_full _ 0x5A _ (full_form_fx _ o) (congrArg (fun x => some (Instr.mldb x)) (fxOf_encFX 0x5A o)))
theorem RoundTrip.mldbs (o : FX) : RoundTrip.Statement (.mldbs o) :=
  RoundTrip.ofWord _ (encFX 0x5B o) rfl rfl
    (decode_full _ 0x5B _ (full_form_fx _ o) (congrArg (fun x => some (Instr.mldbs x)) (fxOf_encFX 0x5B o)))
theorem RoundTrip.mscl (o : FX) : RoundTrip.Statement (.mscl o) :=
  RoundTrip.ofWord _ (encFX 0x5E o) rfl rfl
    (decode_full _ 0x5E _ (full_form_fx _ o) (congrArg (fun x => some (Instr.mscl x)) (fxOf_encFX 0x5E o)))
theorem RoundTrip.mrow (o : VHalf) : RoundTrip.Statement (.mrow o) :=
  RoundTrip.ofWord _ (encVH 0x60 o) rfl rfl (decode_vh 0x60 o _ rfl rfl (by decide))
theorem RoundTrip.mrowsl (o : VHalf) : RoundTrip.Statement (.mrowsl o) :=
  RoundTrip.ofWord _ (encVH 0x61 o) rfl rfl (decode_vh 0x61 o _ rfl rfl (by decide))
theorem RoundTrip.mzero (o : VHalf) : RoundTrip.Statement (.mzero o) :=
  RoundTrip.ofWord _ (encVH 0x62 o) rfl rfl (decode_vh 0x62 o _ rfl rfl (by decide))
theorem RoundTrip.mrd (o : FX) : RoundTrip.Statement (.mrd o) :=
  RoundTrip.ofWord _ (encFX 0x5C o) rfl rfl
    (decode_full _ 0x5C _ (full_form_fx _ o) (congrArg (fun x => some (Instr.mrd x)) (fxOf_encFX 0x5C o)))
theorem RoundTrip.mwr (o : FX) : RoundTrip.Statement (.mwr o) :=
  RoundTrip.ofWord _ (encFX 0x5D o) rfl rfl
    (decode_full _ 0x5D _ (full_form_fx _ o) (congrArg (fun x => some (Instr.mwr x)) (fxOf_encFX 0x5D o)))
theorem RoundTrip.mstat (o : FX) : RoundTrip.Statement (.mstat o) :=
  RoundTrip.ofWord _ (encFX 0x5F o) rfl rfl
    (decode_full _ 0x5F _ (full_form_fx _ o) (congrArg (fun x => some (Instr.mstat x)) (fxOf_encFX 0x5F o)))
theorem RoundTrip.chcfg (o : FX) : RoundTrip.Statement (.chcfg o) :=
  RoundTrip.ofWord _ (encFX 0x60 o) rfl rfl
    (decode_full _ 0x60 _ (full_form_fx _ o) (congrArg (fun x => some (Instr.chcfg x)) (fxOf_encFX 0x60 o)))
theorem RoundTrip.chrun (o : FI) : RoundTrip.Statement (.chrun o) :=
  RoundTrip.ofWord _ (encFI 0x61 o) rfl rfl
    (decode_full _ 0x61 _ (full_form_fi _ o) (congrArg (fun x => some (Instr.chrun x)) (fiOf_encFI 0x61 o)))
theorem RoundTrip.chwait (o : FI) : RoundTrip.Statement (.chwait o) :=
  RoundTrip.ofWord _ (encFI 0x63 o) rfl rfl
    (decode_full _ 0x63 _ (full_form_fi _ o) (congrArg (fun x => some (Instr.chwait x)) (fiOf_encFI 0x63 o)))
theorem RoundTrip.chend (o : FI) : RoundTrip.Statement (.chend o) :=
  RoundTrip.ofWord _ (encFI 0x62 o) rfl rfl
    (decode_full _ 0x62 _ (full_form_fi _ o) (congrArg (fun x => some (Instr.chend x)) (fiOf_encFI 0x62 o)))
theorem RoundTrip.chlnk (o : FI) : RoundTrip.Statement (.chlnk o) :=
  RoundTrip.ofWord _ (encFI 0x64 o) rfl rfl
    (decode_full _ 0x64 _ (full_form_fi _ o) (congrArg (fun x => some (Instr.chlnk x)) (fiOf_encFI 0x64 o)))
theorem RoundTrip.qrd (o : VHalf) : RoundTrip.Statement (.qrd o) :=
  RoundTrip.ofWord _ (encVH 0x63 o) rfl rfl (decode_vh 0x63 o _ rfl rfl (by decide))
theorem RoundTrip.qwr (o : VHalf) : RoundTrip.Statement (.qwr o) :=
  RoundTrip.ofWord _ (encVH 0x64 o) rfl rfl (decode_vh 0x64 o _ rfl rfl (by decide))
theorem RoundTrip.engq (o : FX) : RoundTrip.Statement (.engq o) :=
  RoundTrip.ofWord _ (encFX 0x68 o) rfl rfl
    (decode_full _ 0x68 _ (full_form_fx _ o) (congrArg (fun x => some (Instr.engq x)) (fxOf_encFX 0x68 o)))
theorem RoundTrip.ecp (o : FX) : RoundTrip.Statement (.ecp o) :=
  RoundTrip.ofWord _ (encFX 0x69 o) rfl rfl
    (decode_full _ 0x69 _ (full_form_fx _ o) (congrArg (fun x => some (Instr.ecp x)) (fxOf_encFX 0x69 o)))
theorem RoundTrip.tcopy (o : FX) : RoundTrip.Statement (.tcopy o) :=
  RoundTrip.ofWord _ (encFX 0x6A o) rfl rfl
    (decode_full _ 0x6A _ (full_form_fx _ o) (congrArg (fun x => some (Instr.tcopy x)) (fxOf_encFX 0x6A o)))
theorem RoundTrip.trot (o : FX) : RoundTrip.Statement (.trot o) :=
  RoundTrip.ofWord _ (encFX 0x6B o) rfl rfl
    (decode_full _ 0x6B _ (full_form_fx _ o) (congrArg (fun x => some (Instr.trot x)) (fxOf_encFX 0x6B o)))
theorem RoundTrip.awset (o : FI) : RoundTrip.Statement (.awset o) :=
  RoundTrip.ofWord _ (encFI 0x6C o) rfl rfl
    (decode_full _ 0x6C _ (full_form_fi _ o) (congrArg (fun x => some (Instr.awset x)) (fiOf_encFI 0x6C o)))
theorem RoundTrip.awadd (o : FI) : RoundTrip.Statement (.awadd o) :=
  RoundTrip.ofWord _ (encFI 0x6D o) rfl rfl
    (decode_full _ 0x6D _ (full_form_fi _ o) (congrArg (fun x => some (Instr.awadd x)) (fiOf_encFI 0x6D o)))
theorem RoundTrip.await (o : FI) : RoundTrip.Statement (.await o) :=
  RoundTrip.ofWord _ (encFI 0x6E o) rfl rfl
    (decode_full _ 0x6E _ (full_form_fi _ o) (congrArg (fun x => some (Instr.await x)) (fiOf_encFI 0x6E o)))
theorem RoundTrip.binit (o : FI) : RoundTrip.Statement (.binit o) :=
  RoundTrip.ofWord _ (encFI 0x70 o) rfl rfl
    (decode_full _ 0x70 _ (full_form_fi _ o) (congrArg (fun x => some (Instr.binit x)) (fiOf_encFI 0x70 o)))
theorem RoundTrip.barv (o : FI) : RoundTrip.Statement (.barv o) :=
  RoundTrip.ofWord _ (encFI 0x71 o) rfl rfl
    (decode_full _ 0x71 _ (full_form_fi _ o) (congrArg (fun x => some (Instr.barv x)) (fiOf_encFI 0x71 o)))
theorem RoundTrip.bdrop (o : FI) : RoundTrip.Statement (.bdrop o) :=
  RoundTrip.ofWord _ (encFI 0x72 o) rfl rfl
    (decode_full _ 0x72 _ (full_form_fi _ o) (congrArg (fun x => some (Instr.bdrop x)) (fiOf_encFI 0x72 o)))
theorem RoundTrip.bwait (o : FI) : RoundTrip.Statement (.bwait o) :=
  RoundTrip.ofWord _ (encFI 0x73 o) rfl rfl
    (decode_full _ 0x73 _ (full_form_fi _ o) (congrArg (fun x => some (Instr.bwait x)) (fiOf_encFI 0x73 o)))
theorem RoundTrip.sytas (o : FX) : RoundTrip.Statement (.sytas o) :=
  RoundTrip.ofWord _ (encFX 0x74 o) rfl rfl
    (decode_full _ 0x74 _ (full_form_fx _ o) (congrArg (fun x => some (Instr.sytas x)) (fxOf_encFX 0x74 o)))
theorem RoundTrip.syfad (o : FX) : RoundTrip.Statement (.syfad o) :=
  RoundTrip.ofWord _ (encFX 0x75 o) rfl rfl
    (decode_full _ 0x75 _ (full_form_fx _ o) (congrArg (fun x => some (Instr.syfad x)) (fxOf_encFX 0x75 o)))
theorem RoundTrip.sycas (o : FX) : RoundTrip.Statement (.sycas o) :=
  RoundTrip.ofWord _ (encFX 0x76 o) rfl rfl
    (decode_full _ 0x76 _ (full_form_fx _ o) (congrArg (fun x => some (Instr.sycas x)) (fxOf_encFX 0x76 o)))
theorem RoundTrip.syrd (o : FX) : RoundTrip.Statement (.syrd o) :=
  RoundTrip.ofWord _ (encFX 0x77 o) rfl rfl
    (decode_full _ 0x77 _ (full_form_fx _ o) (congrArg (fun x => some (Instr.syrd x)) (fxOf_encFX 0x77 o)))
theorem RoundTrip.sywt (o : FX) : RoundTrip.Statement (.sywt o) :=
  RoundTrip.ofWord _ (encFX 0x78 o) rfl rfl
    (decode_full _ 0x78 _ (full_form_fx _ o) (congrArg (fun x => some (Instr.sywt x)) (fxOf_encFX 0x78 o)))
theorem RoundTrip.amoadd (o : FX) : RoundTrip.Statement (.amoadd o) :=
  RoundTrip.ofWord _ (encFX 0x80 o) rfl rfl
    (decode_full _ 0x80 _ (full_form_fx _ o) (congrArg (fun x => some (Instr.amoadd x)) (fxOf_encFX 0x80 o)))
theorem RoundTrip.amomin (o : FX) : RoundTrip.Statement (.amomin o) :=
  RoundTrip.ofWord _ (encFX 0x81 o) rfl rfl
    (decode_full _ 0x81 _ (full_form_fx _ o) (congrArg (fun x => some (Instr.amomin x)) (fxOf_encFX 0x81 o)))
theorem RoundTrip.amomax (o : FX) : RoundTrip.Statement (.amomax o) :=
  RoundTrip.ofWord _ (encFX 0x82 o) rfl rfl
    (decode_full _ 0x82 _ (full_form_fx _ o) (congrArg (fun x => some (Instr.amomax x)) (fxOf_encFX 0x82 o)))
theorem RoundTrip.amominz (o : FX) : RoundTrip.Statement (.amominz o) :=
  RoundTrip.ofWord _ (encFX 0x83 o) rfl rfl
    (decode_full _ 0x83 _ (full_form_fx _ o) (congrArg (fun x => some (Instr.amominz x)) (fxOf_encFX 0x83 o)))
theorem RoundTrip.amomaxz (o : FX) : RoundTrip.Statement (.amomaxz o) :=
  RoundTrip.ofWord _ (encFX 0x84 o) rfl rfl
    (decode_full _ 0x84 _ (full_form_fx _ o) (congrArg (fun x => some (Instr.amomaxz x)) (fxOf_encFX 0x84 o)))
theorem RoundTrip.amoand (o : FX) : RoundTrip.Statement (.amoand o) :=
  RoundTrip.ofWord _ (encFX 0x85 o) rfl rfl
    (decode_full _ 0x85 _ (full_form_fx _ o) (congrArg (fun x => some (Instr.amoand x)) (fxOf_encFX 0x85 o)))
theorem RoundTrip.amoor (o : FX) : RoundTrip.Statement (.amoor o) :=
  RoundTrip.ofWord _ (encFX 0x86 o) rfl rfl
    (decode_full _ 0x86 _ (full_form_fx _ o) (congrArg (fun x => some (Instr.amoor x)) (fxOf_encFX 0x86 o)))
theorem RoundTrip.amoxor (o : FX) : RoundTrip.Statement (.amoxor o) :=
  RoundTrip.ofWord _ (encFX 0x87 o) rfl rfl
    (decode_full _ 0x87 _ (full_form_fx _ o) (congrArg (fun x => some (Instr.amoxor x)) (fxOf_encFX 0x87 o)))
theorem RoundTrip.amoswp (o : FX) : RoundTrip.Statement (.amoswp o) :=
  RoundTrip.ofWord _ (encFX 0x88 o) rfl rfl
    (decode_full _ 0x88 _ (full_form_fx _ o) (congrArg (fun x => some (Instr.amoswp x)) (fxOf_encFX 0x88 o)))
theorem RoundTrip.amocas (o : FX) : RoundTrip.Statement (.amocas o) :=
  RoundTrip.ofWord _ (encFX 0x89 o) rfl rfl
    (decode_full _ 0x89 _ (full_form_fx _ o) (congrArg (fun x => some (Instr.amocas x)) (fxOf_encFX 0x89 o)))
theorem RoundTrip.amocasq (o : FX) : RoundTrip.Statement (.amocasq o) :=
  RoundTrip.ofWord _ (encFX 0x8A o) rfl rfl
    (decode_full _ 0x8A _ (full_form_fx _ o) (congrArg (fun x => some (Instr.amocasq x)) (fxOf_encFX 0x8A o)))
theorem RoundTrip.vwait (o : FX) : RoundTrip.Statement (.vwait o) :=
  RoundTrip.ofWord _ (encFX 0x79 o) rfl rfl
    (decode_full _ 0x79 _ (full_form_fx _ o) (congrArg (fun x => some (Instr.vwait x)) (fxOf_encFX 0x79 o)))
theorem RoundTrip.mgcfg (o : FX) : RoundTrip.Statement (.mgcfg o) :=
  RoundTrip.ofWord _ (encFX 0x90 o) rfl rfl
    (decode_full _ 0x90 _ (full_form_fx _ o) (congrArg (fun x => some (Instr.mgcfg x)) (fxOf_encFX 0x90 o)))
theorem RoundTrip.mgfeed (o : FX) : RoundTrip.Statement (.mgfeed o) :=
  RoundTrip.ofWord _ (encFX 0x91 o) rfl rfl
    (decode_full _ 0x91 _ (full_form_fx _ o) (congrArg (fun x => some (Instr.mgfeed x)) (fxOf_encFX 0x91 o)))
theorem RoundTrip.mgpush (o : FX) : RoundTrip.Statement (.mgpush o) :=
  RoundTrip.ofWord _ (encFX 0x92 o) rfl rfl
    (decode_full _ 0x92 _ (full_form_fx _ o) (congrArg (fun x => some (Instr.mgpush x)) (fxOf_encFX 0x92 o)))
theorem RoundTrip.mgpull (o : FX) : RoundTrip.Statement (.mgpull o) :=
  RoundTrip.ofWord _ (encFX 0x93 o) rfl rfl
    (decode_full _ 0x93 _ (full_form_fx _ o) (congrArg (fun x => some (Instr.mgpull x)) (fxOf_encFX 0x93 o)))
theorem RoundTrip.mgclose (o : FX) : RoundTrip.Statement (.mgclose o) :=
  RoundTrip.ofWord _ (encFX 0x94 o) rfl rfl
    (decode_full _ 0x94 _ (full_form_fx _ o) (congrArg (fun x => some (Instr.mgclose x)) (fxOf_encFX 0x94 o)))
theorem RoundTrip.mgstat (o : FX) : RoundTrip.Statement (.mgstat o) :=
  RoundTrip.ofWord _ (encFX 0x95 o) rfl rfl
    (decode_full _ 0x95 _ (full_form_fx _ o) (congrArg (fun x => some (Instr.mgstat x)) (fxOf_encFX 0x95 o)))
theorem RoundTrip.tvld (o : FX) : RoundTrip.Statement (.tvld o) :=
  RoundTrip.ofWord _ (encFX 0x98 o) rfl rfl
    (decode_full _ 0x98 _ (full_form_fx _ o) (congrArg (fun x => some (Instr.tvld x)) (fxOf_encFX 0x98 o)))
theorem RoundTrip.tvstat (o : FX) : RoundTrip.Statement (.tvstat o) :=
  RoundTrip.ofWord _ (encFX 0x99 o) rfl rfl
    (decode_full _ 0x99 _ (full_form_fx _ o) (congrArg (fun x => some (Instr.tvstat x)) (fxOf_encFX 0x99 o)))
theorem RoundTrip.walkLdf (d a : BitVec 3) (z : BitVec 2) (x : BitVec 1) (o : BitVec 15) : RoundTrip.Statement (.walkLdf d a z x o) :=
  RoundTrip.ofRule _ _ rfl rfl (rule_walkLdf d a z x o)
theorem RoundTrip.walkCmp (a b c : BitVec 3) : RoundTrip.Statement (.walkCmp a b c) :=
  RoundTrip.ofRule _ _ rfl rfl (rule_walkCmp a b c)
theorem RoundTrip.walkCmpi (a c : BitVec 3) (i : BitVec 15) : RoundTrip.Statement (.walkCmpi a c i) :=
  RoundTrip.ofRule _ _ rfl rfl (rule_walkCmpi a c i)
theorem RoundTrip.walkHash (d a : BitVec 3) (n : BitVec 6) : RoundTrip.Statement (.walkHash d a n) :=
  RoundTrip.ofRule _ _ rfl rfl (rule_walkHash d a n)
theorem RoundTrip.walkAdd (d a b : BitVec 3) : RoundTrip.Statement (.walkAdd d a b) :=
  RoundTrip.ofRule _ _ rfl rfl (rule_walkAdd d a b)
theorem RoundTrip.walkAddi (d a : BitVec 3) (i : BitVec 18) : RoundTrip.Statement (.walkAddi d a i) :=
  RoundTrip.ofRule _ _ rfl rfl (rule_walkAddi d a i)
theorem RoundTrip.walkShadd (d a b : BitVec 3) (s : BitVec 6) : RoundTrip.Statement (.walkShadd d a b s) :=
  RoundTrip.ofRule _ _ rfl rfl (rule_walkShadd d a b s)
theorem RoundTrip.walkLi (d : BitVec 3) (i : BitVec 25) : RoundTrip.Statement (.walkLi d i) :=
  RoundTrip.ofRule _ _ rfl rfl (rule_walkLi d i)
theorem RoundTrip.walkSel (d a b : BitVec 3) : RoundTrip.Statement (.walkSel d a b) :=
  RoundTrip.ofRule _ _ rfl rfl (rule_walkSel d a b)
theorem RoundTrip.walkTnul (a : BitVec 3) : RoundTrip.Statement (.walkTnul a) :=
  RoundTrip.ofRule _ _ rfl rfl (rule_walkTnul a)
theorem RoundTrip.walkJt (t : BitVec 5) : RoundTrip.Statement (.walkJt t) :=
  RoundTrip.ofRule _ _ rfl rfl (rule_walkJt t)
theorem RoundTrip.walkJf (t : BitVec 5) : RoundTrip.Statement (.walkJf t) :=
  RoundTrip.ofRule _ _ rfl rfl (rule_walkJf t)
theorem RoundTrip.walkJmp (t : BitVec 5) : RoundTrip.Statement (.walkJmp t) :=
  RoundTrip.ofRule _ _ rfl rfl (rule_walkJmp t)
theorem RoundTrip.walkStep (a : BitVec 3) : RoundTrip.Statement (.walkStep a) :=
  RoundTrip.ofRule _ _ rfl rfl (rule_walkStep a)
theorem RoundTrip.walkEmitf (a : BitVec 3) : RoundTrip.Statement (.walkEmitf a) :=
  RoundTrip.ofRule _ _ rfl rfl (rule_walkEmitf a)
theorem RoundTrip.walkEmitr (a : BitVec 3) (n : BitVec 2) (o : BitVec 15) : RoundTrip.Statement (.walkEmitr a n o) :=
  RoundTrip.ofRule _ _ rfl rfl (rule_walkEmitr a n o)
theorem RoundTrip.walkMiss : RoundTrip.Statement (.walkMiss) :=
  RoundTrip.ofRule _ _ rfl rfl (rule_walkMiss)
theorem RoundTrip.walkEndRule : RoundTrip.Statement (.walkEndRule) :=
  RoundTrip.ofRule _ _ rfl rfl (rule_walkEndRule)
theorem RoundTrip.vdot (o : FX) : RoundTrip.Statement (.vdot o) :=
  RoundTrip.ofWord _ (encFX 0xF0 o) rfl rfl
    (decode_full _ 0xF0 _ (full_form_fx _ o) (congrArg (fun x => some (Instr.vdot x)) (fxOf_encFX 0xF0 o)))
theorem RoundTrip.chrunx (o : FI) : RoundTrip.Statement (.chrunx o) :=
  RoundTrip.ofWord _ (encFI 0xF1 o) rfl rfl
    (decode_full _ 0xF1 _ (full_form_fi _ o) (congrArg (fun x => some (Instr.chrunx x)) (fiOf_encFI 0xF1 o)))
theorem RoundTrip.illegalWord (sub : Nat) (slot : Option Bool) (w : Word) : RoundTrip.Statement (.illegalWord sub slot w) := RoundTrip.ofNone _ rfl rfl
theorem RoundTrip.matrixUnitGrant : RoundTrip.Statement (.matrixUnitGrant) := RoundTrip.ofNone _ rfl rfl
theorem RoundTrip.joinComplete : RoundTrip.Statement (.joinComplete) := RoundTrip.ofNone _ rfl rfl
theorem RoundTrip.joinRowCommit : RoundTrip.Statement (.joinRowCommit) := RoundTrip.ofNone _ rfl rfl
theorem RoundTrip.chainBeat : RoundTrip.Statement (.chainBeat) := RoundTrip.ofNone _ rfl rfl
theorem RoundTrip.chainRunComplete : RoundTrip.Statement (.chainRunComplete) := RoundTrip.ofNone _ rfl rfl
theorem RoundTrip.temporalStrip : RoundTrip.Statement (.temporalStrip) := RoundTrip.ofNone _ rfl rfl
theorem RoundTrip.linkPortGrant : RoundTrip.Statement (.linkPortGrant) := RoundTrip.ofNone _ rfl rfl
theorem RoundTrip.linkRecordReceive : RoundTrip.Statement (.linkRecordReceive) := RoundTrip.ofNone _ rfl rfl
theorem RoundTrip.engineNone : RoundTrip.Statement (.engineNone) := RoundTrip.ofNone _ rfl rfl
theorem RoundTrip.copy : RoundTrip.Statement (.copy) := RoundTrip.ofNone _ rfl rfl
theorem RoundTrip.tensorCopy : RoundTrip.Statement (.tensorCopy) := RoundTrip.ofNone _ rfl rfl
theorem RoundTrip.rotation : RoundTrip.Statement (.rotation) := RoundTrip.ofNone _ rfl rfl
theorem RoundTrip.walk : RoundTrip.Statement (.walk) := RoundTrip.ofNone _ rfl rfl
theorem RoundTrip.engineBlockLand : RoundTrip.Statement (.engineBlockLand) := RoundTrip.ofNone _ rfl rfl
theorem RoundTrip.engineCommandComplete : RoundTrip.Statement (.engineCommandComplete) := RoundTrip.ofNone _ rfl rfl
theorem RoundTrip.copyFail : RoundTrip.Statement (.copyFail) := RoundTrip.ofNone _ rfl rfl
theorem RoundTrip.awaitWake : RoundTrip.Statement (.awaitWake) := RoundTrip.ofNone _ rfl rfl
theorem RoundTrip.bwaitWake : RoundTrip.Statement (.bwaitWake) := RoundTrip.ofNone _ rfl rfl
theorem RoundTrip.sywtWake : RoundTrip.Statement (.sywtWake) := RoundTrip.ofNone _ rfl rfl
theorem RoundTrip.vwaitEnd : RoundTrip.Statement (.vwaitEnd) := RoundTrip.ofNone _ rfl rfl
theorem RoundTrip.wfiWake : RoundTrip.Statement (.wfiWake) := RoundTrip.ofNone _ rfl rfl
theorem RoundTrip.chwaitWake : RoundTrip.Statement (.chwaitWake) := RoundTrip.ofNone _ rfl rfl
theorem RoundTrip.waitTimeout : RoundTrip.Statement (.waitTimeout) := RoundTrip.ofNone _ rfl rfl
theorem RoundTrip.mergeNetworkGrant : RoundTrip.Statement (.mergeNetworkGrant) := RoundTrip.ofNone _ rfl rfl
theorem RoundTrip.mgfeedAccept : RoundTrip.Statement (.mgfeedAccept) := RoundTrip.ofNone _ rfl rfl
theorem RoundTrip.mergeFeedRead : RoundTrip.Statement (.mergeFeedRead) := RoundTrip.ofNone _ rfl rfl
theorem RoundTrip.mergeTokenEnter : RoundTrip.Statement (.mergeTokenEnter) := RoundTrip.ofNone _ rfl rfl
theorem RoundTrip.mergePass : RoundTrip.Statement (.mergePass) := RoundTrip.ofNone _ rfl rfl
theorem RoundTrip.mgcloseComplete : RoundTrip.Statement (.mgcloseComplete) := RoundTrip.ofNone _ rfl rfl
theorem RoundTrip.mergeFail : RoundTrip.Statement (.mergeFail) := RoundTrip.ofNone _ rfl rfl
theorem RoundTrip.walkAbnormalEnd : RoundTrip.Statement (.walkAbnormalEnd) := RoundTrip.ofNone _ rfl rfl
theorem RoundTrip.impreciseTrap : RoundTrip.Statement (.impreciseTrap) := RoundTrip.ofNone _ rfl rfl
theorem RoundTrip.freeze : RoundTrip.Statement (.freeze) := RoundTrip.ofNone _ rfl rfl
theorem RoundTrip.chainStreamBreak : RoundTrip.Statement (.chainStreamBreak) := RoundTrip.ofNone _ rfl rfl
theorem RoundTrip.linkPortTimeout : RoundTrip.Statement (.linkPortTimeout) := RoundTrip.ofNone _ rfl rfl
theorem RoundTrip.peerParkedBreak : RoundTrip.Statement (.peerParkedBreak) := RoundTrip.ofNone _ rfl rfl
theorem RoundTrip.bodyErrorBreak : RoundTrip.Statement (.bodyErrorBreak) := RoundTrip.ofNone _ rfl rfl
theorem RoundTrip.watchdogStall : RoundTrip.Statement (.watchdogStall) := RoundTrip.ofNone _ rfl rfl
theorem RoundTrip.ringEntryArrival : RoundTrip.Statement (.ringEntryArrival) := RoundTrip.ofNone _ rfl rfl
theorem RoundTrip.sideBufferTake : RoundTrip.Statement (.sideBufferTake) := RoundTrip.ofNone _ rfl rfl
theorem RoundTrip.predecessorsSatisfied : RoundTrip.Statement (.predecessorsSatisfied) := RoundTrip.ofNone _ rfl rfl
theorem RoundTrip.predReadFail : RoundTrip.Statement (.predReadFail) := RoundTrip.ofNone _ rfl rfl
theorem RoundTrip.stripPlace : RoundTrip.Statement (.stripPlace) := RoundTrip.ofNone _ rfl rfl
theorem RoundTrip.preemptVictim : RoundTrip.Statement (.preemptVictim) := RoundTrip.ofNone _ rfl rfl
theorem RoundTrip.swapOut : RoundTrip.Statement (.swapOut) := RoundTrip.ofNone _ rfl rfl
theorem RoundTrip.stripResume : RoundTrip.Statement (.stripResume) := RoundTrip.ofNone _ rfl rfl
theorem RoundTrip.featureRequeue : RoundTrip.Statement (.featureRequeue) := RoundTrip.ofNone _ rfl rfl
theorem RoundTrip.launchRetire : RoundTrip.Statement (.launchRetire) := RoundTrip.ofNone _ rfl rfl
theorem RoundTrip.launchSuspend : RoundTrip.Statement (.launchSuspend) := RoundTrip.ofNone _ rfl rfl
theorem RoundTrip.launchResume : RoundTrip.Statement (.launchResume) := RoundTrip.ofNone _ rfl rfl
theorem RoundTrip.launchAbort : RoundTrip.Statement (.launchAbort) := RoundTrip.ofNone _ rfl rfl
theorem RoundTrip.psplitWrite : RoundTrip.Statement (.psplitWrite) := RoundTrip.ofNone _ rfl rfl
theorem RoundTrip.vminvWrite : RoundTrip.Statement (.vminvWrite) := RoundTrip.ofNone _ rfl rfl
theorem RoundTrip.htsyncWrite : RoundTrip.Statement (.htsyncWrite) := RoundTrip.ofNone _ rfl rfl
theorem RoundTrip.rtsyncSync : RoundTrip.Statement (.rtsyncSync) := RoundTrip.ofNone _ rfl rfl
theorem RoundTrip.queueConfigWrite : RoundTrip.Statement (.queueConfigWrite) := RoundTrip.ofNone _ rfl rfl
theorem RoundTrip.faultRingConfigWrite : RoundTrip.Statement (.faultRingConfigWrite) := RoundTrip.ofNone _ rfl rfl
theorem RoundTrip.regionTableCommit : RoundTrip.Statement (.regionTableCommit) := RoundTrip.ofNone _ rfl rfl
theorem RoundTrip.ceilWrite : RoundTrip.Statement (.ceilWrite) := RoundTrip.ofNone _ rfl rfl
theorem RoundTrip.diePark : RoundTrip.Statement (.diePark) := RoundTrip.ofNone _ rfl rfl
theorem RoundTrip.dieParked : RoundTrip.Statement (.dieParked) := RoundTrip.ofNone _ rfl rfl
theorem RoundTrip.dieUnpark : RoundTrip.Statement (.dieUnpark) := RoundTrip.ofNone _ rfl rfl
theorem RoundTrip.keyCommit : RoundTrip.Statement (.keyCommit) := RoundTrip.ofNone _ rfl rfl
theorem RoundTrip.keyClear : RoundTrip.Statement (.keyClear) := RoundTrip.ofNone _ rfl rfl
theorem RoundTrip.hostPortUnfreeze : RoundTrip.Statement (.hostPortUnfreeze) := RoundTrip.ofNone _ rfl rfl
theorem RoundTrip.dieReset : RoundTrip.Statement (.dieReset) := RoundTrip.ofNone _ rfl rfl
theorem RoundTrip.emergencySaveTimeout : RoundTrip.Statement (.emergencySaveTimeout) := RoundTrip.ofNone _ rfl rfl
theorem RoundTrip.dieResetDone : RoundTrip.Statement (.dieResetDone) := RoundTrip.ofNone _ rfl rfl
theorem RoundTrip.dieFirmwareWatchdog : RoundTrip.Statement (.dieFirmwareWatchdog) := RoundTrip.ofNone _ rfl rfl
theorem RoundTrip.hubRegisterWrite : RoundTrip.Statement (.hubRegisterWrite) := RoundTrip.ofNone _ rfl rfl
theorem RoundTrip.hostAccess : RoundTrip.Statement (.hostAccess) := RoundTrip.ofNone _ rfl rfl
theorem RoundTrip.linkStandby : RoundTrip.Statement (.linkStandby) := RoundTrip.ofNone _ rfl rfl
theorem RoundTrip.flitReceive : RoundTrip.Statement (.flitReceive) := RoundTrip.ofNone _ rfl rfl
theorem RoundTrip.flitReplay : RoundTrip.Statement (.flitReplay) := RoundTrip.ofNone _ rfl rfl
theorem RoundTrip.linkRetrain : RoundTrip.Statement (.linkRetrain) := RoundTrip.ofNone _ rfl rfl
theorem RoundTrip.linkModuleDown : RoundTrip.Statement (.linkModuleDown) := RoundTrip.ofNone _ rfl rfl
theorem RoundTrip.permitStarvation : RoundTrip.Statement (.permitStarvation) := RoundTrip.ofNone _ rfl rfl
theorem RoundTrip.governorWindow : RoundTrip.Statement (.governorWindow) := RoundTrip.ofNone _ rfl rfl
theorem RoundTrip.governorInterval : RoundTrip.Statement (.governorInterval) := RoundTrip.ofNone _ rfl rfl
theorem RoundTrip.pstateTransitionEnd : RoundTrip.Statement (.pstateTransitionEnd) := RoundTrip.ofNone _ rfl rfl
theorem RoundTrip.thermalStep : RoundTrip.Statement (.thermalStep) := RoundTrip.ofNone _ rfl rfl
theorem RoundTrip.thermalRecover : RoundTrip.Statement (.thermalRecover) := RoundTrip.ofNone _ rfl rfl
theorem RoundTrip.powerOnBoot : RoundTrip.Statement (.powerOnBoot) := RoundTrip.ofNone _ rfl rfl
theorem RoundTrip.getVersion : RoundTrip.Statement (.getVersion) := RoundTrip.ofNone _ rfl rfl
theorem RoundTrip.getCapabilities : RoundTrip.Statement (.getCapabilities) := RoundTrip.ofNone _ rfl rfl
theorem RoundTrip.negotiateAlgorithms : RoundTrip.Statement (.negotiateAlgorithms) := RoundTrip.ofNone _ rfl rfl
theorem RoundTrip.getDigests : RoundTrip.Statement (.getDigests) := RoundTrip.ofNone _ rfl rfl
theorem RoundTrip.getCertificate : RoundTrip.Statement (.getCertificate) := RoundTrip.ofNone _ rfl rfl
theorem RoundTrip.challenge : RoundTrip.Statement (.challenge) := RoundTrip.ofNone _ rfl rfl
theorem RoundTrip.getMeasurements : RoundTrip.Statement (.getMeasurements) := RoundTrip.ofNone _ rfl rfl
theorem RoundTrip.sidebandFirmwareLoad : RoundTrip.Statement (.sidebandFirmwareLoad) := RoundTrip.ofNone _ rfl rfl
theorem RoundTrip.sidebandWrite : RoundTrip.Statement (.sidebandWrite) := RoundTrip.ofNone _ rfl rfl
theorem RoundTrip.dieUnparked : RoundTrip.Statement (.dieUnparked) := RoundTrip.ofNone _ rfl rfl
theorem RoundTrip.hostSnoop : RoundTrip.Statement (.hostSnoop) := RoundTrip.ofNone _ rfl rfl
theorem RoundTrip.gatedUnitResume : RoundTrip.Statement (.gatedUnitResume) := RoundTrip.ofNone _ rfl rfl
theorem RoundTrip.fetchFault : RoundTrip.Statement (.fetchFault) := RoundTrip.ofNone _ rfl rfl

end Sys2Proof.Laws
end

