-- ==== Sys2Proof/Laws/Turns.lean ====
section
/-!
SUPPORT. The turns of one cycle: they are those of the list, in ascending order of die, core and slot.
-/
namespace Sys2Proof.Machine

theorem insertKey_perm (k : Nat) (ks : List Nat) : (insertKey k ks).Perm (k :: ks) := by
  induction ks with
  | nil => exact .refl _
  | cons j js ih =>
    unfold insertKey
    split
    · exact .refl _
    · exact (ih.cons j).trans (.swap k j js)

theorem insertKey_sorted {k : Nat} {ks : List Nat} (h : ks.Pairwise (· ≤ ·)) : (insertKey k ks).Pairwise (· ≤ ·) := by
  induction ks with
  | nil => exact List.pairwise_singleton ..
  | cons j js ih =>
    rw [List.pairwise_cons] at h
    unfold insertKey
    split
    · next hk => exact .cons (by simpa [hk] using fun a ha => Nat.le_trans hk (h.1 a ha)) (.cons h.1 h.2)
    · next hk =>
      refine .cons (fun a ha => ?_) (ih h.2)
      rcases List.mem_cons.1 ((insertKey_perm k js).mem_iff.1 ha) with rfl | ha
      · omega
      · exact h.1 a ha

/-- The keys of a cycle that goes on are those of its turns, in ascending order, and the turns behind it are left. -/
theorem cycleKeys_same (ks : List Nat) {rest : List Turn} (h : ∀ m r, rest ≠ .same m :: r) :
    (cycleKeys (ks.map .same ++ rest)).1.Perm ks ∧ (cycleKeys (ks.map .same ++ rest)).1.Pairwise (· ≤ ·) ∧
      (cycleKeys (ks.map .same ++ rest)).2 = rest := by
  induction ks with
  | nil =>
    have e : cycleKeys rest = ([], rest) := by
      unfold cycleKeys
      split
      · next m r => exact absurd rfl (h m r)
      · rfl
    simp [e]
  | cons k ks ih => exact ⟨(insertKey_perm k _).trans (ih.1.cons k), insertKey_sorted ih.2.1, ih.2.2⟩

/-- Two ascending lists of the same keys are one. -/
theorem sorted_keys {as bs : List Nat} (h : as.Perm bs) (ha : as.Pairwise (· ≤ ·)) (hb : bs.Pairwise (· ≤ ·)) : as = bs :=
  h.eq_of_pairwise (fun _ _ _ _ => Nat.le_antisymm) ha hb

end Sys2Proof.Machine
end

