-- ==== Sys2Proof/Laws/Vector.lean ====
section
/-!
SUPPORT. Register images: cells put into an image, the sweep of a tile, and what a half that issues leaves.
-/
namespace Sys2Proof.Machine

/-! ## Bits of images -/

theorem bit_eq_testBit (v i : Nat) : bit v i = v.testBit i := by
  simp [bit, Nat.testBit, Nat.shiftRight_eq_div_pow]
  rfl

theorem testBit_bits (v lo n k : Nat) : (bits v lo n).testBit k = (decide (k < n) && v.testBit (lo + k)) := by
  simp [bits, Nat.testBit_mod_two_pow, Nat.testBit_div_two_pow, Nat.add_comm]

theorem setBits_eq (v lo n f : Nat) :
    setBits v lo n f = 2 ^ lo * (2 ^ n * (v / 2 ^ lo / 2 ^ n) + f % 2 ^ n) + v % 2 ^ lo := by
  have h1 := Nat.div_add_mod v (2 ^ lo)
  have h2 := Nat.div_add_mod (v / 2 ^ lo) (2 ^ n)
  have h3 : v / 2 ^ lo % 2 ^ n * 2 ^ lo ≤ v := by
    calc v / 2 ^ lo % 2 ^ n * 2 ^ lo ≤ v / 2 ^ lo * 2 ^ lo := Nat.mul_le_mul_right _ (Nat.mod_le _ _)
      _ ≤ v := Nat.div_mul_le_self _ _
  have h4 : v = 2 ^ lo * (2 ^ n * (v / 2 ^ lo / 2 ^ n)) + v / 2 ^ lo % 2 ^ n * 2 ^ lo + v % 2 ^ lo := by
    rw [Nat.mul_comm (v / 2 ^ lo % 2 ^ n), ← Nat.mul_add, h2, h1]
  unfold setBits
  rw [Nat.mul_add, Nat.mul_comm (f % 2 ^ n)]
  omega

theorem testBit_setBits (v lo n f k : Nat) :
    (setBits v lo n f).testBit k = if lo ≤ k ∧ k < lo + n then f.testBit (k - lo) else v.testBit k := by
  have e1 : v.testBit k = (2 ^ lo * (v / 2 ^ lo) + v % 2 ^ lo).testBit k := by rw [Nat.div_add_mod]
  have e2 : ∀ j, (v / 2 ^ lo).testBit j = (2 ^ n * (v / 2 ^ lo / 2 ^ n) + v / 2 ^ lo % 2 ^ n).testBit j := by
    intro j; rw [Nat.div_add_mod]
  rw [setBits_eq, e1, Nat.testBit_two_pow_mul_add _ (Nat.mod_lt _ (Nat.two_pow_pos _)),
    Nat.testBit_two_pow_mul_add _ (Nat.mod_lt _ (Nat.two_pow_pos _)),
    Nat.testBit_two_pow_mul_add (i := lo) _ (Nat.mod_lt _ (Nat.two_pow_pos _)), e2,
    Nat.testBit_two_pow_mul_add _ (Nat.mod_lt _ (Nat.two_pow_pos _))]
  by_cases hk : k < lo
  · rw [if_pos hk, if_pos hk, if_neg (by omega)]
  · rw [if_neg hk, if_neg hk]
    by_cases hn : k - lo < n
    · rw [if_pos hn, if_pos (by omega)]
      simp [Nat.testBit_mod_two_pow, hn]
    · rw [if_neg hn, if_neg (by omega), if_neg hn]

/-- The bits of a field after other bits of the value have been replaced. -/
theorem bits_setBits_disjoint (v lo n f a b : Nat) (h : a + b ≤ lo ∨ lo + n ≤ a) :
    bits (setBits v lo n f) a b = bits v a b := by
  apply Nat.eq_of_testBit_eq
  intro k
  simp only [testBit_bits, testBit_setBits]
  by_cases hk : k < b
  · rw [if_neg (by omega)]
  · simp [hk]

/-- A field after it has been replaced. -/
theorem bits_setBits_same (v lo n f : Nat) : bits (setBits v lo n f) lo n = f % 2 ^ n := by
  apply Nat.eq_of_testBit_eq
  intro k
  simp only [testBit_bits, testBit_setBits, Nat.testBit_mod_two_pow]
  by_cases hk : k < n
  · rw [if_pos (by omega), show lo + k - lo = k by omega]
  · simp [hk]

/-! ## Cells put into an image -/

theorem putCells_cons (img : Nat) (c : Nat × Nat × Nat) (cs : List (Nat × Nat × Nat)) :
    putCells img (c :: cs) = putCells (setBits img c.1 c.2.1 c.2.2) cs := rfl

/-- A bit outside every cell is as before. -/
theorem testBit_putCells (cs : List (Nat × Nat × Nat)) : ∀ (img k : Nat),
    (∀ c ∈ cs, ¬ (c.1 ≤ k ∧ k < c.1 + c.2.1)) → (putCells img cs).testBit k = img.testBit k := by
  induction cs with
  | nil => intro img k _; rfl
  | cons c cs ih =>
    intro img k h
    rw [putCells_cons, ih _ _ fun c hc => h c (List.mem_cons_of_mem _ hc), testBit_setBits,
      if_neg (h c (List.mem_cons_self ..))]

/-- A field that no cell meets is as before. -/
theorem bits_putCells_other (cs : List (Nat × Nat × Nat)) (img a b : Nat)
    (h : ∀ c ∈ cs, a + b ≤ c.1 ∨ c.1 + c.2.1 ≤ a) : bits (putCells img cs) a b = bits img a b := by
  apply Nat.eq_of_testBit_eq
  intro k
  simp only [testBit_bits]
  by_cases hk : k < b
  · rw [testBit_putCells cs img (a + k) fun c hc => by have := h c hc; omega]
  · simp [hk]

/-- A cell reads as the value put there, where the cells lie one behind the other. -/
theorem bits_putCells (cs : List (Nat × Nat × Nat)) : ∀ (img : Nat) (c : Nat × Nat × Nat),
    cs.Pairwise (fun a b => a.1 + a.2.1 ≤ b.1) → c ∈ cs → bits (putCells img cs) c.1 c.2.1 = c.2.2 % 2 ^ c.2.1 := by
  induction cs with
  | nil => intro img c _ h; simp at h
  | cons d cs ih =>
    intro img c hp hc
    rw [List.pairwise_cons] at hp
    rcases List.mem_cons.mp hc with rfl | hc
    · rw [putCells_cons, bits_putCells_other _ _ _ _ fun x hx => .inl (hp.1 x hx), bits_setBits_same]
    · rw [putCells_cons, ih _ _ hp.2 hc]

/-! ## Positions of the tile -/

theorem mem_positions (h : Hart) (p : Nat × Nat) : p ∈ h.positions ↔ p.1 < h.cfg.vrows ∧ p.2 < h.cfg.vl := by
  obtain ⟨r, e⟩ := p
  simp only [Hart.positions, List.mem_flatten, List.mem_map, List.mem_range]
  constructor
  · rintro ⟨_, ⟨a, ha, rfl⟩, h⟩
    simp only [List.mem_map, List.mem_range, Prod.mk.injEq] at h
    obtain ⟨b, hb, rfl, rfl⟩ := h
    exact ⟨ha, hb⟩
  · rintro ⟨hr, he⟩
    exact ⟨_, ⟨r, hr, rfl⟩, by simpa using he⟩

/-- The positions of the tile come in row-major order. -/
theorem positions_pairwise (h : Hart) : h.positions.Pairwise fun p q => p.1 < q.1 ∨ (p.1 = q.1 ∧ p.2 < q.2) := by
  unfold Hart.positions
  rw [List.pairwise_flatten]
  constructor
  · intro l hl
    simp only [List.mem_map, List.mem_range] at hl
    obtain ⟨r, _, rfl⟩ := hl
    rw [List.pairwise_map]
    exact (List.pairwise_lt_range).imp fun h => .inr ⟨rfl, h⟩
  · rw [List.pairwise_map]
    refine (List.pairwise_lt_range).imp ?_
    intro a b hab x hx y hy
    simp only [List.mem_map, List.mem_range] at hx hy
    obtain ⟨_, _, rfl⟩ := hx
    obtain ⟨_, _, rfl⟩ := hy
    exact .inl hab

/-- The cells of two positions in row-major order lie one behind the other. -/
theorem cellAt_lt (h : Hart) (f : Fmt) (p q : Nat × Nat) (hv : h.cfg.vl ≤ h.vlMax f) (hp : p.2 < h.cfg.vl)
    (hlt : p.1 < q.1 ∨ (p.1 = q.1 ∧ p.2 < q.2)) : h.cellAt f p.1 p.2 + f.width ≤ h.cellAt f q.1 q.2 := by
  have : p.1 * h.vlMax f + p.2 + 1 ≤ q.1 * h.vlMax f + q.2 := by
    rcases hlt with h1 | ⟨h1, h2⟩
    · have : (p.1 + 1) * h.vlMax f ≤ q.1 * h.vlMax f := Nat.mul_le_mul_right _ h1
      rw [Nat.add_mul] at this
      omega
    · rw [h1]; omega
  have h2 := Nat.mul_le_mul_right f.width this
  rw [Nat.add_mul] at h2
  unfold Hart.cellAt
  omega

/-! ## What a half that issues leaves -/

/-- A half whose flags FTRAP does not name: what it leaves is committed, and the pc goes on. -/
theorem runHalf_ok (s : State) (b : Bool) (o : HalfOut) (h : flagCause s.h.ar.ftrap o.raised = []) :
    runHalf s b (.ok o) = .next ((s.commit o).advance 8) := by
  simp only [runHalf, State.withTraps, h]

/-- Flags that FTRAP does not name raise no trap. -/
theorem flagCause_nil (en : BitVec 6) (r : Raised) (h : ∀ x ∈ r, x.2 &&& en = 0) : flagCause en r = [] := by
  have : (r.filter fun x => x.2 &&& en ≠ 0#6) = [] := by
    rw [List.filter_eq_nil_iff]
    intro x hx
    simp [h x hx]
  unfold flagCause
  rw [this]

theorem putV_reg (h : Hart) (w : VWrite) (n : Nat) :
    (h.putV w).img n = if n = w.reg then putCells (h.img n) w.cells else h.img n := by
  unfold Hart.putV Hart.img
  split
  · rename_i e
    rw [e]; split <;> rfl
  · dsimp only
    rw [Sparse.get_upd]
    split
    · subst_vars; rfl
    · rfl

/-- The cell of a position in a sweep, with its flat index and flags. -/
def sweepCell (h : Hart) (m : Mask) (fd : Fmt) (res : Nat → Nat → Option (Nat × Flags)) (p : Nat × Nat) :
    Option ((Nat × Nat × Nat) × Nat × Flags) :=
  let cell := fun (v : Nat × Flags) => some ((h.cellAt fd p.1 p.2, fd.width, v.1), p.1 * h.cfg.vl + p.2, v.2)
  if m.sel h p.1 p.2 then (match res p.1 p.2 with | some v => cell v | none => none)
  else if m.on && m.zm then cell (0, 0#6)
  else none

theorem sweep_eq (h : Hart) (m : Mask) (fd : Fmt) (res : Nat → Nat → Option (Nat × Flags)) :
    h.sweep m fd res = (((h.positions.filterMap (sweepCell h m fd res)).map (·.1)),
      ((h.positions.filterMap (sweepCell h m fd res)).map (·.2)).filter fun x => x.2 ≠ 0#6) := rfl

theorem sweepCell_at (h : Hart) (m : Mask) (fd : Fmt) (res : Nat → Nat → Option (Nat × Flags)) (p : Nat × Nat)
    (x : (Nat × Nat × Nat) × Nat × Flags) (hx : sweepCell h m fd res p = some x) :
    x.1.1 = h.cellAt fd p.1 p.2 ∧ x.1.2.1 = fd.width := by
  unfold sweepCell at hx
  dsimp only at hx
  split at hx
  · split at hx
    · cases hx; exact ⟨rfl, rfl⟩
    · cases hx
  · split at hx
    · cases hx; exact ⟨rfl, rfl⟩
    · cases hx

/-- The cells of a sweep lie one behind the other. -/
theorem sweep_pairwise (h : Hart) (m : Mask) (fd : Fmt) (res : Nat → Nat → Option (Nat × Flags))
    (hv : h.cfg.vl ≤ h.vlMax fd) : (h.sweep m fd res).1.Pairwise fun a b => a.1 + a.2.1 ≤ b.1 := by
  rw [sweep_eq]
  dsimp only
  rw [List.pairwise_map, List.pairwise_filterMap]
  refine (List.Pairwise.imp_of_mem ?_ (positions_pairwise h))
  intro p q hp hq hpq x hx y hy
  have e1 := sweepCell_at h m fd res p x hx
  have e2 := sweepCell_at h m fd res q y hy
  rw [e1.1, e1.2, e2.1]
  exact cellAt_lt h fd p q hv ((mem_positions h p).mp hp).2 hpq

theorem mem_sweep (h : Hart) (m : Mask) (fd : Fmt) (res : Nat → Nat → Option (Nat × Flags)) (c : Nat × Nat × Nat) :
    c ∈ (h.sweep m fd res).1 ↔ ∃ p ∈ h.positions, ∃ x, sweepCell h m fd res p = some x ∧ x.1 = c := by
  rw [sweep_eq]
  simp only [List.mem_map, List.mem_filterMap]
  constructor
  · rintro ⟨x, ⟨p, hp, hx⟩, rfl⟩; exact ⟨p, hp, x, hx, rfl⟩
  · rintro ⟨p, hp, x, hx, rfl⟩; exact ⟨x, ⟨p, hp, hx⟩, rfl⟩

/-- Two positions of the tile at one cell are one. -/
theorem cellAt_inj (h : Hart) (f : Fmt) (p q : Nat × Nat) (hv : h.cfg.vl ≤ h.vlMax f) (hp : p ∈ h.positions)
    (hq : q ∈ h.positions) (hpq : p ≠ q) :
    h.cellAt f p.1 p.2 + f.width ≤ h.cellAt f q.1 q.2 ∨ h.cellAt f q.1 q.2 + f.width ≤ h.cellAt f p.1 p.2 := by
  have h1 := (mem_positions h p).mp hp
  have h2 := (mem_positions h q).mp hq
  by_cases hlt : p.1 < q.1 ∨ (p.1 = q.1 ∧ p.2 < q.2)
  · exact .inl (cellAt_lt h f p q hv h1.2 hlt)
  · refine .inr (cellAt_lt h f q p hv h2.2 ?_)
    have : ¬ (p.1 = q.1 ∧ p.2 = q.2) := fun e => hpq (Prod.ext e.1 e.2)
    omega

/-- An element of the tile after a sweep has been put into an image. -/
theorem elem_putCells_sweep (h : Hart) (m : Mask) (fd : Fmt) (res : Nat → Nat → Option (Nat × Flags)) (img row e : Nat)
    (hv : h.cfg.vl ≤ h.vlMax fd) (hr : row < h.cfg.vrows) (he : e < h.cfg.vl) :
    h.elem fd (putCells img (h.sweep m fd res).1) row e =
      if m.sel h row e then (((res row e).map (·.1)).map (· % 2 ^ fd.width)).getD (h.elem fd img row e)
      else if m.on && m.zm then 0 else h.elem fd img row e := by
  have hp : (row, e) ∈ h.positions := (mem_positions h _).mpr ⟨hr, he⟩
  have hit : ∀ v : Nat × Flags, sweepCell h m fd res (row, e) =
      some ((h.cellAt fd row e, fd.width, v.1), row * h.cfg.vl + e, v.2) →
      h.elem fd (putCells img (h.sweep m fd res).1) row e = v.1 % 2 ^ fd.width := by
    intro v hv'
    have := bits_putCells (h.sweep m fd res).1 img (h.cellAt fd row e, fd.width, v.1) (sweep_pairwise h m fd res hv)
      ((mem_sweep h m fd res _).mpr ⟨_, hp, _, hv', rfl⟩)
    exact this
  have miss : sweepCell h m fd res (row, e) = none →
      h.elem fd (putCells img (h.sweep m fd res).1) row e = h.elem fd img row e := by
    intro hn
    refine bits_putCells_other _ _ _ _ ?_
    intro c hc
    obtain ⟨q, hq, x, hx, rfl⟩ := (mem_sweep h m fd res c).mp hc
    have e1 := sweepCell_at h m fd res q x hx
    have hne : (row, e) ≠ q := by rintro rfl; rw [hn] at hx; cases hx
    have := cellAt_inj h fd (row, e) q hv hp hq hne
    rw [e1.1, e1.2]
    exact this
  by_cases hs : m.sel h row e
  · rw [if_pos hs]
    cases hres : res row e with
    | none => exact (miss (by simp [sweepCell, hs, hres])).trans rfl
    | some v => exact hit v (by simp [sweepCell, hs, hres])
  · rw [if_neg hs]
    by_cases hz : m.on && m.zm
    · rw [if_pos hz, hit (0, 0#6) (by simp only [sweepCell, hs, hz]; rfl)]
      simp
    · rw [if_neg hz]
      exact miss (by simp only [sweepCell, hs, hz]; rfl)

/-- A bit outside the tile after a sweep has been put into an image. -/
theorem testBit_putCells_sweep (h : Hart) (m : Mask) (fd : Fmt) (res : Nat → Nat → Option (Nat × Flags)) (img k : Nat)
    (hk : ∀ row e, row < h.cfg.vrows → e < h.cfg.vl → ¬ (h.cellAt fd row e ≤ k ∧ k < h.cellAt fd row e + fd.width)) :
    (putCells img (h.sweep m fd res).1).testBit k = img.testBit k := by
  refine testBit_putCells _ _ _ ?_
  intro c hc
  obtain ⟨q, hq, x, hx, rfl⟩ := (mem_sweep h m fd res c).mp hc
  have e1 := sweepCell_at h m fd res q x hx
  have h2 := (mem_positions h q).mp hq
  rw [e1.1, e1.2]
  exact hk q.1 q.2 h2.1 h2.2

/-- The flags a sweep raises: those of the selected positions that raise some. -/
theorem mem_sweep_raised (h : Hart) (m : Mask) (fd : Fmt) (res : Nat → Nat → Option (Nat × Flags)) (x : Nat × Flags) :
    x ∈ (h.sweep m fd res).2 ↔ x.2 ≠ 0#6 ∧ ∃ row e, row < h.cfg.vrows ∧ e < h.cfg.vl ∧ m.sel h row e = true ∧
      ∃ v, res row e = some v ∧ x = (row * h.cfg.vl + e, v.2) := by
  rw [sweep_eq]
  simp only [List.mem_filter, List.mem_map, List.mem_filterMap, decide_eq_true_eq]
  constructor
  · rintro ⟨⟨y, ⟨p, hp, hy⟩, rfl⟩, hx⟩
    refine ⟨hx, p.1, p.2, ((mem_positions h p).mp hp).1, ((mem_positions h p).mp hp).2, ?_⟩
    unfold sweepCell at hy
    dsimp only at hy
    split at hy
    · rename_i hs
      split at hy
      · rename_i v hv
        cases hy
        exact ⟨hs, v, hv, rfl⟩
      · cases hy
    · split at hy
      · cases hy; exact absurd rfl hx
      · cases hy
  · rintro ⟨hx, row, e, hr, he, hs, v, hv, rfl⟩
    refine ⟨⟨((h.cellAt fd row e, fd.width, v.1), row * h.cfg.vl + e, v.2), ⟨(row, e), (mem_positions h _).mpr ⟨hr, he⟩, ?_⟩, rfl⟩, hx⟩
    simp [sweepCell, hs, hv]

/-! ## Flags -/

theorem union_testBit (r : Raised) (k : Nat) : ∀ f : Flags,
    (r.foldl (fun f x => f ||| x.2) f).getLsbD k = true ↔ f.getLsbD k = true ∨ ∃ x ∈ r, x.2.getLsbD k = true := by
  induction r with
  | nil => intro f; simp
  | cons a r ih =>
    intro f
    rw [List.foldl_cons, ih]
    simp [or_assoc]

/-- A flag after an instruction has raised flags. -/
theorem credit_fflags (a : Arith) (r : Raised) (k : Nat) :
    (a.credit r).fflags.getLsbD k = true ↔ a.fflags.getLsbD k = true ∨ ∃ x ∈ r, x.2.getLsbD k = true := by
  unfold Arith.credit
  split
  · subst_vars; simp
  · simp only [BitVec.getLsbD_or, Bool.or_eq_true, Raised.union, union_testBit]
    simp

@[simp] theorem credit_frm (a : Arith) (r : Raised) : (a.credit r).frm = a.frm := by unfold Arith.credit; split <;> rfl
@[simp] theorem credit_ftrap (a : Arith) (r : Raised) : (a.credit r).ftrap = a.ftrap := by unfold Arith.credit; split <;> rfl
@[simp] theorem credit_srseed (a : Arith) (r : Raised) : (a.credit r).srseed = a.srseed := by unfold Arith.credit; split <;> rfl
@[simp] theorem credit_nil (a : Arith) : a.credit [] = a := rfl

/-- What a half leaves that writes one vector register and raises flags. -/
theorem commit_vector (s : State) (w : VWrite) (r : Raised) (b : Bool) :
    s.commit { vw := [w], raised := r, srn := b } = { s with h := { s.h.putV w with ar := (s.h.ar.credit r).stepSeed b } } := by
  have : (s.h.putV w).ar = s.h.ar := by unfold Hart.putV; split <;> rfl
  simp only [State.commit, List.foldl_cons, List.foldl_nil, this, credit_nil]

theorem putV_frame (h : Hart) (w : VWrite) : { h.putV w with vec := h.vec } = h ∧ (h.putV w).vec.m = h.vec.m := by
  unfold Hart.putV
  split <;> exact ⟨rfl, rfl⟩

end Sys2Proof.Machine
end

