-- ==== Sys2Proof/Tests/Slice0.lean ====
section
/-!
SUPPORT. Tests of the model. Every word that a table of the spec gives is decoded; terms with an ill-formed field are refused; a
witness shows, for the hypotheses of each statement, a state that meets them; small tests run one step on a value worked out by hand
from the rule.
-/
namespace Sys2Proof.Tests

open Sys2Proof Sys2Proof.Machine
set_option maxRecDepth 20000
set_option exponentiation.threshold 4096
set_option Elab.async false

/-! ## States for the tests -/

/-- A strip stands on hart 0, its code and data in the page at 0 (log entry 2). -/
def placed : State := State.reset.withFetchWord 64 0

/-- The state with its hart changed. -/
def onHart (s : State) (f : Hart → Hart) : State := { s with h := f s.h }

/-- The state with scalar registers set. -/
def regs (s : State) (l : List (Nat × Nat)) : State := l.foldl (fun s p => s.setX (BitVec.ofNat 6 p.1) (word p.2)) s

/-- The state with bytes of memory set, under no key. -/
def bytes (s : State) (a : Nat) (bs : List Byte) : State := s.placeBytes a bs

/-- A fact of the next state. -/
def next? (o : Out) (p : State → Bool) : Bool :=
  match o with
  | .next t => p t
  | _ => false

/-- An access can be performed. -/
def canAccess? (s : State) (a : Acc) (tile : Bool) (addr n : Nat) : Bool :=
  match resolveAccess s s.h s.h.plv a tile addr n with
  | .ok ps => (performFaults s s.h a (addr % 2 ^ 64) ps).isNone
  | .error _ => false

theorem canAccess_of {s : State} {a : Acc} {tile : Bool} {addr n : Nat} (h : canAccess? s a tile addr n = true) :
    ∃ ps, s.canAccess a tile addr n ps := by
  unfold canAccess? at h
  split at h
  · next ps e => exact ⟨ps, e, by simpa using h⟩
  · exact absurd h (by decide)

/-! ## Decoding: words written out from the tables and formats of R107 to R113, R121, R122, R311 and R312 -/

theorem test_decode_scalar_immediates : ∀ p ∈ ([(0x0005180089ABCDEF, .addi ⟨5, 6, 0, 0x89ABCDEF⟩),
    (0x0045180089ABCDEF, .andi ⟨5, 6, 0, 0x89ABCDEF⟩),
    (0x0085180089ABCDEF, .ori ⟨5, 6, 0, 0x89ABCDEF⟩),
    (0x00C5180089ABCDEF, .xori ⟨5, 6, 0, 0x89ABCDEF⟩),
    (0x010518000000003F, .shli ⟨5, 6, 0, 0x3F⟩),
    (0x014518000000003F, .shri ⟨5, 6, 0, 0x3F⟩),
    (0x018518000000003F, .srai ⟨5, 6, 0, 0x3F⟩),
    (0x01C5180089ABCDEF, .slti ⟨5, 6, 0, 0x89ABCDEF⟩),
    (0x0205000089ABCDEF, .li ⟨5, 0, 0, 0x89ABCDEF⟩),
    (0x0245180089ABCDEF, .lih ⟨5, 6, 0, 0x89ABCDEF⟩),
    (0x0285000089ABCDEF, .addpc ⟨5, 0, 0, 0x89ABCDEF⟩)] : List (Nat × Instr)),
    decodeTableWord 64 p.1 = some p.2 := by decide +kernel
theorem test_decode_scalar_memory : ∀ p ∈ ([(0x04051879FFFFFFF0, .ldb ⟨5, 6, 7, 2, 1, 0xFFFFFFF0⟩),
    (0x04451879FFFFFFF0, .ldbz ⟨5, 6, 7, 2, 1, 0xFFFFFFF0⟩),
    (0x04851879FFFFFFF0, .ldh ⟨5, 6, 7, 2, 1, 0xFFFFFFF0⟩),
    (0x04C51879FFFFFFF0, .ldhz ⟨5, 6, 7, 2, 1, 0xFFFFFFF0⟩),
    (0x05051879FFFFFFF0, .ldw ⟨5, 6, 7, 2, 1, 0xFFFFFFF0⟩),
    (0x05451879FFFFFFF0, .ldwz ⟨5, 6, 7, 2, 1, 0xFFFFFFF0⟩),
    (0x05851879FFFFFFF0, .ldd ⟨5, 6, 7, 2, 1, 0xFFFFFFF0⟩),
    (0x05C51879FFFFFFF0, .stb ⟨5, 6, 7, 2, 1, 0xFFFFFFF0⟩),
    (0x06051879FFFFFFF0, .sth ⟨5, 6, 7, 2, 1, 0xFFFFFFF0⟩),
    (0x06451879FFFFFFF0, .stw ⟨5, 6, 7, 2, 1, 0xFFFFFFF0⟩),
    (0x06851879FFFFFFF0, .std ⟨5, 6, 7, 2, 1, 0xFFFFFFF0⟩),
    (0x06C51879FFFFFFF0, .lda ⟨5, 6, 7, 2, 1, 0xFFFFFFF0⟩),
    (0x07051879FFFFFFF0, .stl ⟨5, 6, 7, 2, 1, 0xFFFFFFF0⟩),
    (0x07451879FFFFFFF0, .pref ⟨5, 6, 7, 2, 1, 0xFFFFFFF0⟩)] : List (Nat × Instr)),
    decodeTableWord 64 p.1 = some p.2 := by decide +kernel
theorem test_decode_control_and_system : ∀ p ∈ ([(0x08061EAAAAAAAAAB, .beq ⟨6, 7, 0x2AAAAAAAAAB⟩),
    (0x08461EAAAAAAAAAB, .bne ⟨6, 7, 0x2AAAAAAAAAB⟩),
    (0x08861EAAAAAAAAAB, .blt ⟨6, 7, 0x2AAAAAAAAAB⟩),
    (0x08C61EAAAAAAAAAB, .bge ⟨6, 7, 0x2AAAAAAAAAB⟩),
    (0x09061EAAAAAAAAAB, .blo ⟨6, 7, 0x2AAAAAAAAAB⟩),
    (0x09461EAAAAAAAAAB, .bhs ⟨6, 7, 0x2AAAAAAAAAB⟩),
    (0x098002AAAAAAAAAB, .jmp ⟨0, 0, 0x2AAAAAAAAAB⟩),
    (0x09C602AAAAAAAAAB, .jal ⟨6, 0, 0x2AAAAAAAAAB⟩),
    (0x0A05180000000000, .jalr ⟨5, 6, 0, 0⟩),
    (0x0A4002AAAAAAAAAB, .call ⟨0, 0, 0x2AAAAAAAAAB⟩),
    (0x0A80180000000000, .callr ⟨0, 6, 0, 0⟩),
    (0x0AC0000000000000, .ret ⟨0, 0, 0, 0⟩),
    (0x0B00000089ABCDEF, .gate ⟨0, 0, 0, 0x89ABCDEF⟩),
    (0x0B40000000000000, .gret ⟨0, 0, 0, 0⟩),
    (0x0B80000000000000, .endStrip ⟨0, 0, 0, 0⟩),
    (0x0BC0000000000000, .release ⟨0, 0, 0, 0⟩),
    (0x0C0518000000003F, .launch ⟨5, 6, 0, 0x3F⟩),
    (0x0C40000000000000, .yield ⟨0, 0, 0, 0⟩),
    (0x0C85000000020000, .csrr ⟨5, 0, 0, 2, 0⟩),
    (0x0CC5180000020000, .csrw ⟨5, 6, 0, 2, 0⟩),
    (0x0D05180000020000, .csrs ⟨5, 6, 0, 2, 0⟩),
    (0x0D45180000020000, .csrc ⟨5, 6, 0, 2, 0⟩),
    (0x0D80000089ABCDEF, .trap ⟨0, 0, 0, 0x89ABCDEF⟩),
    (0x0DC0000000000000, .xret ⟨0, 0, 0, 0⟩),
    (0x0E00000000000000, .ifence ⟨0, 0, 0, 0⟩),
    (0x0E40004100000004, .fence ⟨0, 0, 0x41, 4⟩),
    (0x0E85000089ABCDEF, .wfi ⟨5, 0, 0, 0x89ABCDEF⟩)] : List (Nat × Instr)),
    decodeTableWord 64 p.1 = some p.2 := by decide +kernel
theorem test_decode_vector_memory : ∀ p ∈ ([(0x1005195589ABCDEF, .vcfg ⟨5, 6, 0x155, 0x89ABCDEF⟩),
    (0x1045195589ABCDEF, .vsetl ⟨5, 6, 0x155, 0x89ABCDEF⟩),
    (0x1085195589ABCDEF, .vsett ⟨5, 6, 0x155, 0x89ABCDEF⟩),
    (0x10C51879FFFFFFF0, .vld ⟨5, 6, 7, 2, 1, 0xFFFFFFF0⟩),
    (0x11051879FFFFFFF0, .vlds ⟨5, 6, 7, 2, 1, 0xFFFFFFF0⟩),
    (0x114518726EA38001, .vldx ⟨5, 6, 7, 9, 5, 1, 0x2A3, 0x8001⟩),
    (0x11851879FFFFFFF0, .vldtr ⟨5, 6, 7, 2, 1, 0xFFFFFFF0⟩),
    (0x11C518726EA38001, .vldk ⟨5, 6, 7, 9, 5, 1, 0x2A3, 0x8001⟩),
    (0x12051879FFFFFFF0, .vst ⟨5, 6, 7, 2, 1, 0xFFFFFFF0⟩),
    (0x12451879FFFFFFF0, .vsts ⟨5, 6, 7, 2, 1, 0xFFFFFFF0⟩),
    (0x128518726EA38001, .vstx ⟨5, 6, 7, 9, 5, 1, 0x2A3, 0x8001⟩),
    (0x12C518726EA38001, .vstxa ⟨5, 6, 7, 9, 5, 1, 0x2A3, 0x8001⟩),
    (0x130518726EA38001, .vstk ⟨5, 6, 7, 9, 5, 1, 0x2A3, 0x8001⟩),
    (0x1345195589ABCDEF, .tset ⟨5, 6, 0x155, 0x89ABCDEF⟩),
    (0x1385195589ABCDEF, .tget ⟨5, 6, 0x155, 0x89ABCDEF⟩),
    (0x140518726EA38001, .vqnt ⟨5, 6, 7, 9, 5, 1, 0x2A3, 0x8001⟩),
    (0x144518726EA38001, .vdqnt ⟨5, 6, 7, 9, 5, 1, 0x2A3, 0x8001⟩)] : List (Nat × Instr)),
    decodeTableWord 64 p.1 = some p.2 := by decide +kernel
theorem test_decode_matrix : ∀ p ∈ ([(0x160518726EA38001, .mcfg ⟨5, 6, 7, 9, 5, 1, 0x2A3, 0x8001⟩),
    (0x164518726EA38001, .mjoin ⟨5, 6, 7, 9, 5, 1, 0x2A3, 0x8001⟩),
    (0x168518726EA38001, .mldb ⟨5, 6, 7, 9, 5, 1, 0x2A3, 0x8001⟩),
    (0x16C518726EA38001, .mldbs ⟨5, 6, 7, 9, 5, 1, 0x2A3, 0x8001⟩),
    (0x170518726EA38001, .mrd ⟨5, 6, 7, 9, 5, 1, 0x2A3, 0x8001⟩),
    (0x174518726EA38001, .mwr ⟨5, 6, 7, 9, 5, 1, 0x2A3, 0x8001⟩),
    (0x178518726EA38001, .mscl ⟨5, 6, 7, 9, 5, 1, 0x2A3, 0x8001⟩),
    (0x17C518726EA38001, .mstat ⟨5, 6, 7, 9, 5, 1, 0x2A3, 0x8001⟩)] : List (Nat × Instr)),
    decodeTableWord 64 p.1 = some p.2 := by decide +kernel
theorem test_decode_chains : ∀ p ∈ ([(0x180518726EA38001, .chcfg ⟨5, 6, 7, 9, 5, 1, 0x2A3, 0x8001⟩),
    (0x1845195589ABCDEF, .chrun ⟨5, 6, 0x155, 0x89ABCDEF⟩),
    (0x1885195589ABCDEF, .chend ⟨5, 6, 0x155, 0x89ABCDEF⟩),
    (0x18C5195589ABCDEF, .chwait ⟨5, 6, 0x155, 0x89ABCDEF⟩),
    (0x1905195589ABCDEF, .chlnk ⟨5, 6, 0x155, 0x89ABCDEF⟩)] : List (Nat × Instr)),
    decodeTableWord 64 p.1 = some p.2 := by decide +kernel
theorem test_decode_synchronisation : ∀ p ∈ ([(0x1A0518726EA38001, .engq ⟨5, 6, 7, 9, 5, 1, 0x2A3, 0x8001⟩),
    (0x1A4518726EA38001, .ecp ⟨5, 6, 7, 9, 5, 1, 0x2A3, 0x8001⟩),
    (0x1A8518726EA38001, .tcopy ⟨5, 6, 7, 9, 5, 1, 0x2A3, 0x8001⟩),
    (0x1AC518726EA38001, .trot ⟨5, 6, 7, 9, 5, 1, 0x2A3, 0x8001⟩),
    (0x1B05195589ABCDEF, .awset ⟨5, 6, 0x155, 0x89ABCDEF⟩),
    (0x1B45195589ABCDEF, .awadd ⟨5, 6, 0x155, 0x89ABCDEF⟩),
    (0x1B85195589ABCDEF, .await ⟨5, 6, 0x155, 0x89ABCDEF⟩),
    (0x1C05195589ABCDEF, .binit ⟨5, 6, 0x155, 0x89ABCDEF⟩),
    (0x1C45195589ABCDEF, .barv ⟨5, 6, 0x155, 0x89ABCDEF⟩),
    (0x1C85195589ABCDEF, .bdrop ⟨5, 6, 0x155, 0x89ABCDEF⟩),
    (0x1CC5195589ABCDEF, .bwait ⟨5, 6, 0x155, 0x89ABCDEF⟩),
    (0x1D0518726EA38001, .sytas ⟨5, 6, 7, 9, 5, 1, 0x2A3, 0x8001⟩),
    (0x1D4518726EA38001, .syfad ⟨5, 6, 7, 9, 5, 1, 0x2A3, 0x8001⟩),
    (0x1D8518726EA38001, .sycas ⟨5, 6, 7, 9, 5, 1, 0x2A3, 0x8001⟩),
    (0x1DC518726EA38001, .syrd ⟨5, 6, 7, 9, 5, 1, 0x2A3, 0x8001⟩),
    (0x1E0518726EA38001, .sywt ⟨5, 6, 7, 9, 5, 1, 0x2A3, 0x8001⟩),
    (0x1E4518726EA38001, .vwait ⟨5, 6, 7, 9, 5, 1, 0x2A3, 0x8001⟩)] : List (Nat × Instr)),
    decodeTableWord 64 p.1 = some p.2 := by decide +kernel
theorem test_decode_atomics : ∀ p ∈ ([(0x200518726EA38001, .amoadd ⟨5, 6, 7, 9, 5, 1, 0x2A3, 0x8001⟩),
    (0x204518726EA38001, .amomin ⟨5, 6, 7, 9, 5, 1, 0x2A3, 0x8001⟩),
    (0x208518726EA38001, .amomax ⟨5, 6, 7, 9, 5, 1, 0x2A3, 0x8001⟩),
    (0x20C518726EA38001, .amominz ⟨5, 6, 7, 9, 5, 1, 0x2A3, 0x8001⟩),
    (0x210518726EA38001, .amomaxz ⟨5, 6, 7, 9, 5, 1, 0x2A3, 0x8001⟩),
    (0x214518726EA38001, .amoand ⟨5, 6, 7, 9, 5, 1, 0x2A3, 0x8001⟩),
    (0x218518726EA38001, .amoor ⟨5, 6, 7, 9, 5, 1, 0x2A3, 0x8001⟩),
    (0x21C518726EA38001, .amoxor ⟨5, 6, 7, 9, 5, 1, 0x2A3, 0x8001⟩),
    (0x220518726EA38001, .amoswp ⟨5, 6, 7, 9, 5, 1, 0x2A3, 0x8001⟩),
    (0x224518726EA38001, .amocas ⟨5, 6, 7, 9, 5, 1, 0x2A3, 0x8001⟩),
    (0x228518726EA38001, .amocasq ⟨5, 6, 7, 9, 5, 1, 0x2A3, 0x8001⟩)] : List (Nat × Instr)),
    decodeTableWord 64 p.1 = some p.2 := by decide +kernel
theorem test_decode_merge_and_walks : ∀ p ∈ ([(0x240518726EA38001, .mgcfg ⟨5, 6, 7, 9, 5, 1, 0x2A3, 0x8001⟩),
    (0x244518726EA38001, .mgfeed ⟨5, 6, 7, 9, 5, 1, 0x2A3, 0x8001⟩),
    (0x248518726EA38001, .mgpush ⟨5, 6, 7, 9, 5, 1, 0x2A3, 0x8001⟩),
    (0x24C518726EA38001, .mgpull ⟨5, 6, 7, 9, 5, 1, 0x2A3, 0x8001⟩),
    (0x250518726EA38001, .mgclose ⟨5, 6, 7, 9, 5, 1, 0x2A3, 0x8001⟩),
    (0x254518726EA38001, .mgstat ⟨5, 6, 7, 9, 5, 1, 0x2A3, 0x8001⟩),
    (0x260518726EA38001, .tvld ⟨5, 6, 7, 9, 5, 1, 0x2A3, 0x8001⟩),
    (0x264518726EA38001, .tvstat ⟨5, 6, 7, 9, 5, 1, 0x2A3, 0x8001⟩)] : List (Nat × Instr)),
    decodeTableWord 64 p.1 = some p.2 := by decide +kernel
theorem test_decode_retired_forms : ∀ p ∈ ([(0x3C0518726EA38001, .vdot ⟨5, 6, 7, 9, 5, 1, 0x2A3, 0x8001⟩),
    (0x3C40180000000009, .chrunx ⟨0, 6, 0, 9⟩)] : List (Nat × Instr)),
    decodeTableWord 64 p.1 = some p.2 := by decide +kernel
theorem test_decode_scalar_halves : ∀ p ∈ ([(0x400A30E019000000, .add ⟨5, 6, 7, 0⟩),
    (0x408A30E019000000, .sub ⟨5, 6, 7, 0⟩),
    (0x410A30E019000000, .mul ⟨5, 6, 7, 0⟩),
    (0x418A30E019000000, .mulh ⟨5, 6, 7, 0⟩),
    (0x420A30E019000000, .mulhz ⟨5, 6, 7, 0⟩),
    (0x428A30E019000000, .div ⟨5, 6, 7, 0⟩),
    (0x430A30E019000000, .divz ⟨5, 6, 7, 0⟩),
    (0x438A30E019000000, .rem ⟨5, 6, 7, 0⟩),
    (0x440A30E019000000, .remz ⟨5, 6, 7, 0⟩),
    (0x448A30E019000000, .and ⟨5, 6, 7, 0⟩),
    (0x450A30E019000000, .or ⟨5, 6, 7, 0⟩),
    (0x458A30E019000000, .xor ⟨5, 6, 7, 0⟩),
    (0x460A30E019000000, .shl ⟨5, 6, 7, 0⟩),
    (0x468A30E019000000, .shr ⟨5, 6, 7, 0⟩),
    (0x470A30E019000000, .sra ⟨5, 6, 7, 0⟩),
    (0x478A300019000000, .clz ⟨5, 6, 0, 0⟩),
    (0x480A300019000000, .ctz ⟨5, 6, 0, 0⟩),
    (0x488A300019000000, .popc ⟨5, 6, 0, 0⟩),
    (0x490A30E019000000, .min ⟨5, 6, 7, 0⟩),
    (0x498A30E019000000, .max ⟨5, 6, 7, 0⟩),
    (0x4A0A30E019000000, .minz ⟨5, 6, 7, 0⟩),
    (0x4A8A30E019000000, .maxz ⟨5, 6, 7, 0⟩),
    (0x4B0A30E019000000, .slt ⟨5, 6, 7, 0⟩),
    (0x4B8A30E019000000, .sltz ⟨5, 6, 7, 0⟩),
    (0x4C0A30E019000000, .sel ⟨5, 6, 7, 0⟩),
    (0x4C80000019000000, .nop)] : List (Nat × Instr)),
    decodeTableWord 64 p.1 = some p.2 := by decide +kernel
theorem test_decode_vector_halves : ∀ p ∈ ([(0x9CA1D000201461C0, .vadd ⟨5, 6, 7, 0, some ⟨3, 1, 0, 2, 33, 1, 10⟩⟩),
    (0x9CA1D000211461C0, .vsub ⟨5, 6, 7, 0, some ⟨3, 1, 0, 2, 33, 1, 10⟩⟩),
    (0x9CA1D000221461C0, .vmul ⟨5, 6, 7, 0, some ⟨3, 1, 0, 2, 33, 1, 10⟩⟩),
    (0x9CA1D000231461C0, .vma ⟨5, 6, 7, 0, some ⟨3, 1, 0, 2, 33, 1, 10⟩⟩),
    (0x9CA1D000241461C0, .vms ⟨5, 6, 7, 0, some ⟨3, 1, 0, 2, 33, 1, 10⟩⟩),
    (0x9CA1D000251461C0, .vnma ⟨5, 6, 7, 0, some ⟨3, 1, 0, 2, 33, 1, 10⟩⟩),
    (0x9CA1D000261461C0, .vdiv ⟨5, 6, 7, 0, some ⟨3, 1, 0, 2, 33, 1, 10⟩⟩),
    (0x9CA1D000271461C0, .vsqrt ⟨5, 6, 7, 0, some ⟨3, 1, 0, 2, 33, 1, 10⟩⟩),
    (0x9CA1D000281461C0, .vmin ⟨5, 6, 7, 0, some ⟨3, 1, 0, 2, 33, 1, 10⟩⟩),
    (0x9CA1D000291461C0, .vmax ⟨5, 6, 7, 0, some ⟨3, 1, 0, 2, 33, 1, 10⟩⟩),
    (0x9CA1D0002A1461C0, .vabs ⟨5, 6, 7, 0, some ⟨3, 1, 0, 2, 33, 1, 10⟩⟩),
    (0x9CA1D0002B1461C0, .vneg ⟨5, 6, 7, 0, some ⟨3, 1, 0, 2, 33, 1, 10⟩⟩),
    (0x9CA1D0002C1461C0, .vclamp ⟨5, 6, 7, 0, some ⟨3, 1, 0, 2, 33, 1, 10⟩⟩),
    (0x9CA1D0002D1461C0, .vrcp ⟨5, 6, 7, 0, some ⟨3, 1, 0, 2, 33, 1, 10⟩⟩),
    (0x9CA1D0002E1461C0, .vrsq ⟨5, 6, 7, 0, some ⟨3, 1, 0, 2, 33, 1, 10⟩⟩),
    (0x9CA1D0002F1461C0, .vexp2 ⟨5, 6, 7, 0, some ⟨3, 1, 0, 2, 33, 1, 10⟩⟩),
    (0x9CA1D000301461C0, .vlog2 ⟨5, 6, 7, 0, some ⟨3, 1, 0, 2, 33, 1, 10⟩⟩),
    (0x9CA1D000311461C0, .vtanh ⟨5, 6, 7, 0, some ⟨3, 1, 0, 2, 33, 1, 10⟩⟩),
    (0x9CA1D000321461C0, .vsigm ⟨5, 6, 7, 0, some ⟨3, 1, 0, 2, 33, 1, 10⟩⟩),
    (0x9CA1D000331461C0, .vand ⟨5, 6, 7, 0, some ⟨3, 1, 0, 2, 33, 1, 10⟩⟩),
    (0x9CA1D000341461C0, .vor ⟨5, 6, 7, 0, some ⟨3, 1, 0, 2, 33, 1, 10⟩⟩),
    (0x9CA1D000351461C0, .vxor ⟨5, 6, 7, 0, some ⟨3, 1, 0, 2, 33, 1, 10⟩⟩),
    (0x9CA1D000361461C0, .vnot ⟨5, 6, 7, 0, some ⟨3, 1, 0, 2, 33, 1, 10⟩⟩),
    (0x9CA1D000371461C0, .vshl ⟨5, 6, 7, 0, some ⟨3, 1, 0, 2, 33, 1, 10⟩⟩),
    (0x9CA1D000381461C0, .vshr ⟨5, 6, 7, 0, some ⟨3, 1, 0, 2, 33, 1, 10⟩⟩),
    (0x9CA1D000391461C0, .vsra ⟨5, 6, 7, 0, some ⟨3, 1, 0, 2, 33, 1, 10⟩⟩),
    (0x9CA1D0003A1461C0, .vwadd ⟨5, 6, 7, 0, some ⟨3, 1, 0, 2, 33, 1, 10⟩⟩),
    (0x9CA1D0003B1461C0, .vwmul ⟨5, 6, 7, 0, some ⟨3, 1, 0, 2, 33, 1, 10⟩⟩),
    (0x9CA1D0003C1461C0, .vwmac ⟨5, 6, 7, 0, some ⟨3, 1, 0, 2, 33, 1, 10⟩⟩),
    (0x9CA1D0003D1461C0, .vsatn ⟨5, 6, 7, 0, some ⟨3, 1, 0, 2, 33, 1, 10⟩⟩),
    (0x9CA1D0003E1461C0, .vcmp ⟨5, 6, 7, 0, some ⟨3, 1, 0, 2, 33, 1, 10⟩⟩),
    (0x9CA1D0003F1461C0, .vclass ⟨5, 6, 7, 0, some ⟨3, 1, 0, 2, 33, 1, 10⟩⟩),
    (0x9CA1D000401461C0, .vcvt ⟨5, 6, 7, 0, some ⟨3, 1, 0, 2, 33, 1, 10⟩⟩),
    (0x9CA1D000411461C0, .vrsum ⟨5, 6, 7, 0, some ⟨3, 1, 0, 2, 33, 1, 10⟩⟩),
    (0x9CA1D000421461C0, .vrmax ⟨5, 6, 7, 0, some ⟨3, 1, 0, 2, 33, 1, 10⟩⟩),
    (0x9CA1D000431461C0, .vrmin ⟨5, 6, 7, 0, some ⟨3, 1, 0, 2, 33, 1, 10⟩⟩),
    (0x9CA1D000441461C0, .vscan ⟨5, 6, 7, 0, some ⟨3, 1, 0, 2, 33, 1, 10⟩⟩),
    (0x9CA1D000451461C0, .vsplat ⟨5, 6, 7, 0, some ⟨3, 1, 0, 2, 33, 1, 10⟩⟩),
    (0x9CA1D000461461C0, .vmv ⟨5, 6, 7, 0, some ⟨3, 1, 0, 2, 33, 1, 10⟩⟩),
    (0x9CA1D000471461C0, .vmvx ⟨5, 6, 7, 0, some ⟨3, 1, 0, 2, 33, 1, 10⟩⟩),
    (0x9CA1D000481461C0, .vins ⟨5, 6, 7, 0, some ⟨3, 1, 0, 2, 33, 1, 10⟩⟩),
    (0x9CA1D000491461C0, .vslup ⟨5, 6, 7, 0, some ⟨3, 1, 0, 2, 33, 1, 10⟩⟩),
    (0x9CA1D0004A1461C0, .vsldn ⟨5, 6, 7, 0, some ⟨3, 1, 0, 2, 33, 1, 10⟩⟩),
    (0x9CA1D0004B1461C0, .vperm ⟨5, 6, 7, 0, some ⟨3, 1, 0, 2, 33, 1, 10⟩⟩),
    (0x9CA1D0004C1461C0, .vcmpr ⟨5, 6, 7, 0, some ⟨3, 1, 0, 2, 33, 1, 10⟩⟩),
    (0x9CA1D0004D1461C0, .vxpnd ⟨5, 6, 7, 0, some ⟨3, 1, 0, 2, 33, 1, 10⟩⟩),
    (0x9CA1D0004E1461C0, .mand ⟨5, 6, 7, 0, some ⟨3, 1, 0, 2, 33, 1, 10⟩⟩),
    (0x9CA1D0004F1461C0, .mor ⟨5, 6, 7, 0, some ⟨3, 1, 0, 2, 33, 1, 10⟩⟩),
    (0x9CA1D000501461C0, .mxor ⟨5, 6, 7, 0, some ⟨3, 1, 0, 2, 33, 1, 10⟩⟩),
    (0x9CA1D000511461C0, .mnot ⟨5, 6, 7, 0, some ⟨3, 1, 0, 2, 33, 1, 10⟩⟩),
    (0x9CA1D000521461C0, .mpop ⟨5, 6, 7, 0, some ⟨3, 1, 0, 2, 33, 1, 10⟩⟩),
    (0x9CA1D000531461C0, .mfrst ⟨5, 6, 7, 0, some ⟨3, 1, 0, 2, 33, 1, 10⟩⟩),
    (0x9CA1D000541461C0, .mset ⟨5, 6, 7, 0, some ⟨3, 1, 0, 2, 33, 1, 10⟩⟩),
    (0x9CA1D000551461C0, .mclr ⟨5, 6, 7, 0, some ⟨3, 1, 0, 2, 33, 1, 10⟩⟩),
    (0x9CA1D000601461C0, .mrow ⟨5, 6, 7, 0, some ⟨3, 1, 0, 2, 33, 1, 10⟩⟩),
    (0x9CA1D000611461C0, .mrowsl ⟨5, 6, 7, 0, some ⟨3, 1, 0, 2, 33, 1, 10⟩⟩),
    (0x9CA1D000621461C0, .mzero ⟨5, 6, 7, 0, some ⟨3, 1, 0, 2, 33, 1, 10⟩⟩),
    (0x9CA1D000631461C0, .qrd ⟨5, 6, 7, 0, some ⟨3, 1, 0, 2, 33, 1, 10⟩⟩),
    (0x9CA1D000641461C0, .qwr ⟨5, 6, 7, 0, some ⟨3, 1, 0, 2, 33, 1, 10⟩⟩)] : List (Nat × Instr)),
    decodeTableWord 64 p.1 = some p.2 := by decide +kernel
theorem test_decode_rules : ∀ p ∈ ([(0x0283C321, .walkLdf 1 2 3 1 0x4321),
    (0x109A0000, .walkCmp 2 3 4),
    (0x1085FFFF, .walkCmpi 2 3 0x7FFF),
    (0x22800020, .walkHash 1 2 32),
    (0x32980000, .walkAdd 1 2 3),
    (0x3287FFFF, .walkAddi 1 2 0x3FFFF),
    (0x42980005, .walkShadd 1 2 3 5),
    (0x53234567, .walkLi 1 0x1234567),
    (0x62980000, .walkSel 1 2 3),
    (0x70800000, .walkTnul 2),
    (0x8000001F, .walkJt 31),
    (0x9000001E, .walkJf 30),
    (0xA0000007, .walkJmp 7),
    (0xB1800000, .walkStep 6),
    (0xC1400000, .walkEmitf 5),
    (0xD1037FF8, .walkEmitr 4 3 0x7FF8),
    (0xE0000000, .walkMiss),
    (0xF0000000, .walkEndRule)] : List (Nat × Instr)), decodeTableWord 32 p.1 = some p.2 := by decide +kernel

/-! ## Scalar instructions: witnesses and tests -/

theorem witness_ScalarResultFrame : scalarDest (.add ⟨5, 1, 2, 0⟩) = some 5 ∧
    next? (exec (.add ⟨5, 1, 2, 0⟩) (regs State.reset [(1, 7), (2, 5)])) (fun t => t.h.getX 5 = 12) = true := by decide

/-- A strip with x1 at 0x2000 and x2, its stack pointer, at 0x3000. -/
def stack : State := regs placed [(1, 0x2000), (2, 0x3000), (3, 0x8877665544332281)]

theorem witness_ScalarLoads : ∃ ps, (0#2).toNat < 2 ∧ stack.canAccess { rd := true } (0#2 == 1) (fmAddr stack ⟨5, 1, 0, 0, 0, 8⟩) 8 ps :=
  (canAccess_of (by decide)).imp fun _ h => ⟨by decide, h⟩
theorem witness_ScalarLoads_narrow : ∀ n ∈ [1, 2, 4],
    ∃ ps, stack.canAccess { rd := true } (0#2 == 1) (fmAddr stack ⟨5, 1, 0, 0, 0, 15⟩) n ps :=
  fun n h => canAccess_of (by revert n; decide)
theorem witness_ScalarLoads_acquire : ∃ ps, (0#2).toNat < 2 ∧ (5#6).toNat < 6 ∧
    (stack.x 1 + (8#32).signExtend 64).toNat % 8 = 0 ∧
    stack.canAccess { rd := true, scope := 5, atomic := true, acq := true, vqWait := true } false
      (stack.x 1 + (8#32).signExtend 64).toNat 8 ps :=
  (canAccess_of (by decide)).imp fun _ h => ⟨by decide, by decide, by decide, h⟩
theorem witness_ScalarStores : ∀ n ∈ [1, 2, 4, 8],
    ∃ ps, stack.canAccess { wr := true } (0#2 == 1) (fmAddr stack ⟨3, 1, 0, 0, 0, 8⟩) n ps :=
  fun n h => canAccess_of (by revert n; decide)
theorem witness_ScalarStores_release : ∃ ps, stack.canAccess
    { wr := true, scope := 5, atomic := true, rel := true, vqWait := true } false (stack.x 1 + (8#32).signExtend 64).toNat 8 ps :=
  canAccess_of (by decide)

/-- Every piece lies in attached memory. -/
def inDram? (s : State) (a : Acc) (tile : Bool) (addr n : Nat) : Bool :=
  match resolveAccess s s.h s.h.plv a tile addr n with
  | .ok ps => (performFaults s s.h a (addr % 2 ^ 64) ps).isNone && ps.all fun r => homeOf r.pa = .dram 0
  | .error _ => false

theorem dram_of {s : State} {a : Acc} {tile : Bool} {addr n : Nat} (h : inDram? s a tile addr n = true) :
    ∃ ps, s.canAccess a tile addr n ps ∧ plainHomes s ps := by
  unfold inDram? at h
  split at h
  · next ps e =>
    simp only [Bool.and_eq_true, Option.isNone_iff_eq_none, List.all_eq_true, decide_eq_true_eq] at h
    exact ⟨ps, ⟨e, h.1⟩, fun r hr => .inl ⟨0, h.2 r hr⟩⟩
  · exact absurd h (by decide)

theorem witness_ScalarStoreFrame : scalarStoreForm stack (.std ⟨3, 1, 0, 0, 0, 8⟩) =
      some (⟨3, 1, 0, 0, 0, 8⟩, 8, { wr := true }, 0x2008) ∧
    (∃ ps, stack.canAccess { wr := true } false 0x2008 8 ps ∧ plainHomes stack ps) ∧
    next? (exec (.std ⟨3, 1, 0, 0, 0, 8⟩) stack) (fun t => t.byteAt 0x2008 = 0x81) = true :=
  ⟨by decide, dram_of (by decide), by decide⟩
theorem witness_ScalarStoreFrame_release : scalarStoreForm stack (.stl ⟨3, 1, 0, 0, 0, 8⟩) = some (⟨3, 1, 0, 0, 0, 8⟩, 8,
      { wr := true, scope := 0, atomic := true, rel := true, vqWait := true }, 0x2008) := by decide

/-- A strip whose window is the first page of its core's tile memory. -/
def windowed : State := onHart placed fun h => { h with winPages := 1 }

theorem witness_OwnTileMemory : windowed.h.windowOk ∧ 4088 + 8 ≤ windowed.h.winBytes ∧ windowed.h.sys.rchk = false ∧
    windowed.trace = [] ∧ windowed.rangePoisoned (windowed.h.winBase + 4088) 8 = false := by
  refine ⟨?_, ?_, ?_, ?_, ?_⟩ <;> first | decide | (unfold Hart.windowOk; decide)

/-- The pieces of an access share no byte with one another nor with a sector of a translation entry that it changes. -/
def apart? (ps : List PieceRef) : Bool :=
  (ps.all fun r => ps.all fun q => match q.trans with
    | none => true
    | some t => t.leaf &&& 0x600 == 0x600 || (List.range 8).all fun i =>
        decide ((r.pa + r.len - 1) / 32 < (t.leafPa + i) / 32) || decide ((t.leafPa + i) / 32 < r.pa / 32))
  && decide (ps.Pairwise fun p q => p.pa + p.len ≤ q.pa ∨ q.pa + q.len ≤ p.pa)

theorem apart_of {ps : List PieceRef} (h : apart? ps = true) : (∀ x, covered ps x → ¬ inEntry ps x) ∧
    ps.Pairwise (fun p q => p.pa + p.len ≤ q.pa ∨ q.pa + q.len ≤ p.pa) := by
  simp only [apart?, Bool.and_eq_true, List.all_eq_true, decide_eq_true_eq] at h
  refine ⟨fun x ⟨r, hr, h1, h2⟩ ⟨q, hq, t, ht, hl, i, hi, he⟩ => ?_, h.2⟩
  have := h.1 r hr q hq
  simp only [ht, Bool.or_eq_true, beq_iff_eq, hl, false_or, List.all_eq_true, List.mem_range, decide_eq_true_eq] at this
  have := this i hi
  omega

/-- The other forms that store: a call its frame, TGET an entry, an atomic its word. -/
theorem witness_WordStoreFrame :
    (wordStoreForm stack (.call ⟨0, 0, 88⟩) = some (16, { wr := true }, 0x2FF0) ∧ ∃ ps, stack.canAccess { wr := true } false 0x2FF0 16 ps ∧ plainHomes stack ps) ∧
    (wordStoreForm stack (.tget ⟨5, 1, 0, 0⟩) = some (64, { wr := true, cls := .vector }, 0x2000) ∧
      ∃ ps, stack.canAccess { wr := true, cls := .vector } false 0x2000 64 ps ∧ plainHomes stack ps) ∧
    (wordStoreForm stack (.amoadd ⟨5, 1, 3, 0, 0, 0, 0, 0⟩) = some (4, atomicAcc ⟨5, 1, 3, 0, 0, 0, 0, 0⟩, 0x2000) ∧
      ∃ ps, stack.canAccess (atomicAcc ⟨5, 1, 3, 0, 0, 0, 0, 0⟩) false 0x2000 4 ps ∧ plainHomes stack ps) ∧
    (∀ i ∈ [Instr.call ⟨0, 0, 88⟩, .tget ⟨5, 1, 0, 0⟩, .amoadd ⟨5, 1, 3, 0, 0, 0, 0, 0⟩], next? (exec i stack) (fun _ => true) = true) :=
  ⟨⟨by decide, dram_of (by decide)⟩, ⟨by decide, dram_of (by decide)⟩, ⟨by decide, dram_of (by decide)⟩, by decide⟩

theorem witness_ReadAfterWrite : ∃ ps, (stack.canAccess { wr := true } false 0x200D (toBytes 8 0).length ps ∧ plainHomes stack ps) ∧
    (∀ x, covered ps x → ¬ inEntry ps x) ∧ ps.Pairwise (fun p q => p.pa + p.len ≤ q.pa ∨ q.pa + q.len ≤ p.pa) := by
  obtain ⟨ps, h, hp⟩ := dram_of (s := stack) (a := { wr := true }) (tile := false) (addr := 0x200D) (n := 8) (by decide)
  have e : (match resolveAccess stack stack.h stack.h.plv { wr := true } false 0x200D 8 with
    | .ok ps => apart? ps | .error _ => false) = true := by decide
  rw [h.1] at e
  exact ⟨ps, ⟨h, hp⟩, apart_of e⟩

/-- R143, R144: DIV of the most negative value by -1, and MULH of -1 by 1. -/
theorem test_div_corner : next? (exec (.div ⟨5, 1, 2, 0⟩) (regs State.reset [(1, 2 ^ 63), (2, 2 ^ 64 - 1)]))
    (fun t => t.h.getX 5 = 0x8000000000000000) = true := by decide
theorem test_div_zero : next? (exec (.div ⟨5, 1, 2, 0⟩) (regs State.reset [(1, 9)])) (fun t => t.h.getX 5 = BitVec.allOnes 64) = true := by
  decide
theorem test_mulh : next? (exec (.mulh ⟨5, 1, 2, 0⟩) (regs State.reset [(1, 2 ^ 64 - 1), (2, 1)]))
    (fun t => t.h.getX 5 = BitVec.allOnes 64) = true := by decide
theorem test_mulhz : next? (exec (.mulhz ⟨5, 1, 2, 0⟩) (regs State.reset [(1, 2 ^ 64 - 1), (2, 2)])) (fun t => t.h.getX 5 = 1) = true := by
  decide
/-- R142: the immediate of a half is sign-extended, before an unsigned comparison too. -/
theorem test_sltz_immediate : next? (exec (.sltz ⟨5, 1, 63, 32⟩) (regs State.reset [(1, 7)])) (fun t => t.h.getX 5 = 1) = true := by decide
theorem test_sub_self : next? (exec (.sub ⟨1, 1, 2, 0⟩) (regs State.reset [(1, 3), (2, 5)])) (fun t => t.h.getX 1 = BitVec.ofInt 64 (-2)) = true := by
  decide
theorem test_x0_stays : next? (exec (.add ⟨0, 1, 1, 0⟩) (regs State.reset [(1, 3)])) (fun t => t.h.getX 0 = 0 && t.h.pc = 8) = true := by
  decide
theorem test_rem_sign : next? (exec (.rem ⟨5, 1, 2, 0⟩) (regs State.reset [(1, 2 ^ 64 - 7), (2, 3)]))
    (fun t => t.h.getX 5 = BitVec.allOnes 64) = true := by decide
theorem test_sra_sign : next? (exec (.sra ⟨5, 1, 4, 32⟩) (regs State.reset [(1, 2 ^ 63)])) (fun t => t.h.getX 5 = 0xF800000000000000) = true := by
  decide
theorem test_clz : next? (exec (.clz ⟨5, 1, 0, 0⟩) (regs State.reset [(1, 0x1000)])) (fun t => t.h.getX 5 = 51) = true := by decide
theorem test_sel : next? (exec (.sel ⟨5, 1, 2, 3⟩) (regs State.reset [(1, 7), (2, 5), (3, 0)])) (fun t => t.h.getX 5 = 5) = true := by decide
/-- R145: the example of LI and LIH. -/
theorem test_lih : next? (exec (.lih ⟨13, 13, 0, 0xFFFFFF80⟩) (regs State.reset [(13, 0x4000)]))
    (fun t => t.h.getX 13 = 0xFFFFFF8000004000) = true := by decide
theorem test_addi_negative : next? (exec (.addi ⟨5, 1, 0, 0xFFFFFFFF⟩) (regs State.reset [(1, 0)]))
    (fun t => t.h.getX 5 = BitVec.allOnes 64) = true := by decide
/-- R146: a byte loads sign-extended or zero-extended, and a store writes its lowest byte first. -/
theorem test_ldb_sign : next? (exec (.ldb ⟨5, 1, 0, 0, 0, 0⟩) (bytes stack 0x2000 [0x80]))
    (fun t => t.h.getX 5 = 0xFFFFFFFFFFFFFF80) = true := by decide
theorem test_ldhz : next? (exec (.ldhz ⟨5, 1, 0, 0, 0, 0⟩) (bytes stack 0x2000 [0x80, 0xFF])) (fun t => t.h.getX 5 = 0xFF80) = true := by
  decide
theorem test_sth : next? (exec (.sth ⟨3, 1, 0, 0, 0, 15⟩) stack) (fun t => t.bytesAt 0x200F 3 = [0x81, 0x22, 0]) = true := by decide
/-- R88: the index is scaled by 2^SC. -/
theorem test_ldd_index : next? (exec (.ldd ⟨5, 1, 4, 3, 0, 0⟩) (regs (bytes stack 0x2010 [7]) [(4, 2)])) (fun t => t.h.getX 5 = 7) = true := by
  decide
/-- R153: a taken branch goes 8 * OFS on, backward too; BLT compares signed values. -/
theorem test_blt_taken : next? (exec (.blt ⟨1, 2, BitVec.ofInt 42 (-2)⟩) (regs placed [(1, 2 ^ 64 - 1), (2, 0)])) (fun t => t.h.pc = 0xFF0) = true := by
  decide
theorem test_blo_not_taken : next? (exec (.blo ⟨1, 2, 4⟩) (regs placed [(1, 2 ^ 64 - 1), (2, 0)])) (fun t => t.h.pc = 0x1008) = true := by
  decide
theorem test_jalr_same : next? (exec (.jalr ⟨1, 1, 0, 5⟩) (regs placed [(1, 0x2000)])) (fun t => t.h.pc = 0x2000 && t.h.getX 1 = 0x1008) = true := by
  decide

/-! ## Calls, gates, traps, levels -/

/-- A strip with a trap stack at 0x3000, a handler at 0x1800, and a gate table of one entry at 0x2800. -/
def exec0 : State := onHart stack fun h =>
  { h with sys := { h.sys with tsp := 0x3000, tvec := 0x1800, gtbase := 0x0010000000002800 } }

/-- The words of a gate entry to 0x1C00 at a level. -/
def gated (lvl : Nat) : State := bytes exec0 0x2800 (toBytes 8 0x1C00 ++ toBytes 8 (2 ^ 63 + lvl * 2 ^ 56))

theorem witness_Calls : (stack.h.getX 2).toNat % 16 = 0 ∧
    ∃ ps, stack.canAccess { wr := true } false (stack.h.getX 2 - 16).toNat 16 ps := ⟨by decide, canAccess_of (by decide)⟩

/-- A stack frame whose vector-state word has type f32, VL 5 and a row more than fits. -/
def framed : State := bytes stack 0x3000 (toBytes 8 0x1C04 ++ toBytes 8 (9 * 2 ^ 28 + 63 * 2 ^ 22 + 5))

theorem witness_Returns : (framed.h.getX 2).toNat % 16 = 0 ∧
    (∃ ps, framed.canAccess { rd := true } false (framed.h.getX 2).toNat 16 ps) ∧
    Fmt.ofCode (bits (ofBytes (framed.bytesAt 0x3008 8)) 28 4) = some .f32 := ⟨by decide, canAccess_of (by decide), by decide⟩
theorem witness_VectorStateWord : State.reset.h.cfg.vl < 2 ^ 16 ∧ 1 ≤ State.reset.h.cfg.vrows ∧ State.reset.h.cfg.vrows ≤ 64 := by
  decide
/-- R156: RET clears the low bits of the pc. -/
theorem test_ret : next? (exec (.ret ⟨0, 0, 0, 0⟩) framed) (fun t => t.h.pc = 0x1C00 && t.h.cfg.vl = 5 && t.h.getX 2 = 0x3010) = true := by
  decide
/-- R155: the example of CALL: the return address lies below the vector-state word. -/
theorem test_call : next? (exec (.call ⟨0, 0, 88⟩) stack) (fun t => ofBytes (t.bytesAt 0x2FF0 8) = 0x1008 && t.h.pc = 0x12C0) = true := by
  decide

theorem witness_Gate : ∀ lvl ∈ [1, 2],
    let s := gated lvl
    let bs := s.bytesAt 0x2800 16
    let w0 := ofBytes (bs.take 8)
    let w1 := ofBytes ((bs.drop 8).take 8)
    0 < bits s.h.sys.gtbase.toNat 52 12 ∧ bits s.h.sys.gtbase.toNat 4 48 * 16 = 0x2800 ∧
      (match s.readPhys 0 0x2800 16 with | .ok b => b == bs | .error _ => false) = true ∧ bit w1 63 = true ∧
      (bits w1 56 2 = 1 ∨ bits w1 56 2 = 2) ∧ s.h.plv.rank < bits w1 56 2 ∧ bits w0 0 3 = 0 ∧ bits w0 57 7 = 0 ∧ bits w1 58 5 = 0 ∧
      bits w1 7 49 = 0 := by decide
theorem witness_Gret : (onHart exec0 fun h => { h with plv := .lib }).h.plv ≠ .app ∧ exec0.h.sys.gstatPlv.toNat = Priv.app.rank := by
  decide
/-- R161: the level field of GSTAT holds what is written, and GRET takes the level exec from 0b10. -/
theorem test_gret : next? (exec (.gret ⟨0, 0, 0, 0⟩)
    (onHart exec0 fun h => { h with plv := .lib, sys := { h.sys with gepc := 0x1C00, gstatPlv := 2 } }))
    (fun t => t.h.plv = .exec && t.h.pc = 0x1C00) = true := by decide
theorem test_gate : next? (exec (.gate ⟨0, 0, 0, 0⟩) (gated 2)) (fun t => t.h.plv = .exec && t.h.pc = 0x1C00 && t.h.sys.gepc = 0x1008) = true := by
  decide

/-- An access at a level can be performed. -/
def canAt? (s : State) (plv : Priv) (a : Acc) (addr n : Nat) : Bool :=
  match resolveAccess s s.h plv a false addr n with
  | .ok ps => (performFaults s s.h a (addr % 2 ^ 64) ps).isNone
  | .error _ => false

theorem canAt_of {s : State} {plv : Priv} {a : Acc} {addr n : Nat} (h : canAt? s plv a addr n = true) :
    ∃ ps, resolveAccess s s.h plv a false addr n = .ok ps ∧ performFaults s s.h a (addr % 2 ^ 64) ps = none := by
  unfold canAt? at h
  split at h
  · next ps e => exact ⟨ps, e, by simpa using h⟩
  · exact absurd h (by decide)

theorem witness_TrapEntry : ∃ ps,
    resolveAccess exec0 exec0.h .exec { wr := true } false (exec0.h.sys.tsp - 128).toNat 128 = .ok ps ∧
    performFaults exec0 exec0.h { wr := true } ((exec0.h.sys.tsp - 128).toNat % 2 ^ 64) ps = none := canAt_of (by decide)
theorem witness_Chrunx_and_Illegal : exec0.h.queueBusy = false := by decide
theorem witness_FetchFault : (match fetchWord State.reset State.reset.h.pc with | .error e => e.1.code != 0x72 | .ok _ => false) = true ∧
    (let s : State := { placed with launches := placed.launches.map fun x => { x with keyid := 5 }, tlb := [] }
     (match fetchWord s s.h.pc with | .error e => e.1.code == 0x72 | .ok _ => false) = true) := by decide
theorem test_trap : next? (exec (.trap ⟨0, 0, 0, 7⟩) exec0) (fun t =>
    t.h.pc = 0x1800 && t.h.plv = .exec && t.h.sys.tpc = 0x1008 && t.h.sys.tcause = 0x70 && t.h.sys.tval = 7 && t.h.sys.tsp = 0x2F80 &&
      t.h.getX 2 = 0x2F80 && ofBytes (t.bytesAt 0x2FD8 8) = 0x3000) = true := by decide
theorem test_illegal : next? (exec (.illegalWord 3 none 0x3FC0000000000000) exec0)
    (fun t => t.h.sys.tcause = 0x300 && t.h.sys.tpc = 0x1000 && t.h.sys.tval = 0x3FC0000000000000) = true := by decide

/-- A trap frame at 0x2F80 whose level is lib, whose vector-state word has type f32, and whose pc is 0x1C00. -/
def trapped : State := onHart
  (bytes exec0 0x2F80 (wordsBytes [0x1C00, 0, 0, 0x100, 9 * 2 ^ 28 + 5, 0, 0, 0, 0, 0, 11, 12, 15, 16, 113, 114]))
  fun h => { h with plv := .exec, sys := { h.sys with tsp := 0x2F80 } }

/-- The frame can be read after the wait of XRET has been noted. -/
def frame? (s : State) : Bool :=
  match resolveAccess s.recordWait s.h .exec { rd := true } false s.h.sys.tsp.toNat 128 with
  | .ok ps => (performFaults s.recordWait s.h { rd := true } (s.h.sys.tsp.toNat % 2 ^ 64) ps).isNone &&
      (Fmt.ofCode (bits (ofBytes (((readPieces s.recordWait s.h { rd := true } ps).1.drop 32).take 8)) 28 4)).isSome
  | .error _ => false

theorem witness_TrapReturn : bits (0x100 : Nat) 8 2 = Priv.lib.rank ∧ trapped.h.plv = .exec ∧ frame? trapped = true := by decide
theorem test_xret : next? (exec (.xret ⟨0, 0, 0, 0⟩) trapped) (fun t => t.h.pc = 0x1C00 && t.h.plv = .lib && t.h.getX 13 = 113 &&
    t.h.getX 3 = 0x8877665544332281 && t.h.sys.tsp = 0x3000 && t.h.cfg.vl = 5) = true := by decide

theorem witness_PrivilegeTraps : exec0.h.plv = .app ∧ exec0.h.plv ≠ .exec ∧ (3#32).toNat < 64 ∧
    bit exec0.h.sys.lqmask.toNat 3 = false ∧ (exec0.x 1).toNat % 256 = 0 ∧ csrLevels 0x100 = some (1, some 1) ∧
    exec0.h.plv.rank < 1 ∧ csrLevels 0x200 = some (2, some 2) ∧ csrLevels 0x210 = some (0, some 2) := by decide
/-- R411: a write of VMROOT at app is PRIVILEGE with the number of the register. -/
theorem test_csrw_app : next? (exec (.csrw ⟨5, 1, 0, 0x210, 0⟩) exec0) (fun t => t.h.sys.tcause = 0x203 && t.h.sys.tval = 0x210) = true := by
  decide

theorem witness_ControlRegisters : csrLevels 0x002 = some (0, some 0) ∧ 0 ≤ exec0.h.plv.rank ∧
    (let s := onHart exec0 fun h => { h with plv := .exec }
     csrLevels 0x211 = some (2, some 2) ∧ csrLevels 0x213 = some (2, some 2) ∧ csrLevels 0x214 = some (0, some 2) ∧
       2 ≤ s.h.plv.rank ∧ s.tableUsers (htBase s.h.sys.htbase) = [] ∧ psplitOk 0xE0 = true) := by
  decide
theorem witness_PsplitRefused : psplitOk 0xA0A0 = false ∧ psplitOk (BitVec.ofNat 64 0xE0) = true := by decide
theorem witness_HtsyncWait :
    let s := onHart exec0 fun h => { h with wait := some (.htsync 5 [3]) }
    s.input.who = s.h.key ∧ s.h.wait = some (.htsync 5 [3]) ∧ ∀ k ∈ [3], k ∉ s.tableUsers (htBase s.h.sys.htbase) := by decide
/-- HTSYNC waits for a command that read the hart's handle table. -/
theorem witness_HtsyncWaits :
    let c : Cmd := { op := 1, id := 3, htbase := some 0, hart := 0, launch := 0, strip := 0, pc := 0, scope := 0, dst := {}, src := {}, dstWord := 0,
                        srcWord := 0, len := 0 }
    let s : State := { onHart exec0 fun h => { h with wait := some (.htsync 5 [3]) } with cores := [(0, { eng := [(0, some c)] })] }
    (∃ k ∈ [3], k ∈ s.tableUsers (htBase s.h.sys.htbase)) ∧ s.tableUsers (htBase s.h.sys.htbase) ≠ [] := by decide
theorem test_csrs : next? (exec (.csrs ⟨5, 0, 1, 0x002, 6⟩) (onHart exec0 fun h => { h with ar := { h.ar with srseed := 9 } }))
    (fun t => t.h.getX 5 = 9 && t.h.ar.srseed = 15) = true := by decide
theorem test_csrc_frm_zero : next? (exec (.csrc ⟨5, 0, 1, 0x001, 7⟩) exec0) (fun t => t.h.getX 5 = 1 && t.h.ar.frm = .rne) = true := by
  decide
/-- R31, R129: PSPLIT reads as the CSRW left it. -/
theorem test_csrw_psplit : next? (exec (.csrw ⟨0, 1, 0, 0x214, 0⟩) (onHart (regs exec0 [(1, 0xE0)]) fun h => { h with plv := .exec }))
    (fun t => t.csrRead 0x214 = 0xE0) = true := by decide
theorem witness_FrmReads : 1 ≤ (6#64).toNat % 8 ∧ (6#64).toNat % 8 ≤ 6 ∧ bits (0x80#64).toNat 6 2 ≠ 3 := by decide

/-! ## Fences, waits, the end of a strip, launches -/

theorem witness_Fences : (1#6).toNat < 2 ∧ (5#32).toNat < 6 := by decide
/-- A VWAIT waits in the vector queue, and the record of races holds an access. -/
def vwaiting : State := onHart
  { placed with trace := [{ agent := placed.h.agent, place := 0, rd := true, lo := 0x2000, hi := 0x2008 }] }
  fun h => { h with vq := some { instr := .vwait ⟨0, 0, 0, 0, 0, 0, 0, 0⟩, pc := 0, xs := [], vs := [], mask := 0, sat := 0, vl := 0,
                                 vrows := 0, plv := .app, po := 0 } }
theorem witness_FenceHolds : vwaiting.h.queueClasses &&& fencePred ⟨0, 0, 0x1FF, 3⟩ ≠ 0 ∧ vwaiting.trace ≠ [] ∧
    placed.h.queueClasses &&& fencePred ⟨0, 0, 0x1FF, 3⟩ = 0 := by decide
theorem witness_WfiWait :
    let s := onHart placed fun h => { h with wait := some (.wfi ⟨5, 0, 0, 9⟩) }
    s.input.who = s.h.key ∧ s.h.live = true ∧ s.h.wait = some (.wfi ⟨5, 0, 0, 9⟩) ∧ (9#32) ≠ 0 := by decide
theorem witness_Yield :
    let s : State := { placed with launches := placed.launches.map fun x => { x with placedCount := 1 } }
    s.h.queueBusy = false ∧ (s.recordWait.advance 8).yieldsTo = false := by decide
/-- A strip of equal priority waits for the core of the placed strip, whose launch has a strip more. -/
def pressed : State := { onHart { placed with launches := placed.launches.map fun x => { x with nstrip := 2, placedCount := 1 } } fun h =>
  { h with part := 0xE0 } with cores := [(0, { psplit := 0xE0 })], dies := [(0, { up := true })] }
theorem witness_YieldAsks : pressed.h.queueBusy = false ∧ (pressed.recordWait.advance 8).yieldsTo = true ∧ pressed.h.key ≠ 2 ^ 64 ∧
    ∀ b, Config.yields pressed.time = b → ((pressed.recordWait.advance 8).yieldsTo && Config.yields pressed.time) = b := by
  refine ⟨by decide, by decide, by decide, fun b hb => ?_⟩
  rw [show (pressed.recordWait.advance 8).yieldsTo = true by decide, hb]; rfl
/-- The launch of the placed strip may retire early and has two strips. -/
def early : State := { placed with launches := placed.launches.map fun x => { x with erl := true, nstrip := 2 } }
/-- The placed strip is the last of such a launch. -/
def last : State := { placed with launches := placed.launches.map fun x => { x with erl := true } }
theorem witness_Release : early.h.queueBusy = false ∧ early.h.launch = some 0 ∧ early.h.released = false ∧
    (match early.launches[0]? with | some x => x.erl && decide (x.releasedCount + 1 ≠ x.nstrip) | none => false) = true ∧
    (match placed.launches[0]? with | some x => !x.erl | none => false) = true ∧
    (match last.launches[0]? with | some x => x.erl && decide (x.releasedCount + 1 = x.nstrip) && x.state == .running | none => false)
      = true := by decide
theorem witness_End : placed.h.queueBusy = false ∧ placed.h.launch = some 0 ∧ placed.ownSession = none ∧
    (match placed.unit with | some u => !u.joined | none => true) = true := by decide
theorem witness_QueueBusy : (onHart placed fun h => { h with muSaved := some {} }).h.queueBusy = true := by decide
theorem test_wfi_timeout : next? (exec .waitTimeout (onHart placed fun h => { h with wait := some (.wfi ⟨5, 0, 0, 9⟩) }))
    (fun t => t.h.getX 5 = 1 && t.h.wait.isNone && t.h.pc = 0x1008) = true := by decide
/-- R41: the last release makes the launch RELEASED, at END too. -/
theorem test_end_releases : next? (exec (.endStrip ⟨0, 0, 0, 0⟩) last)
    (fun t => match t.launches[0]? with | some x => x.state == .released && x.nexit == 1 | none => false) = true := by decide
/-- R382, R383: the registers of a strip that has ended stand as they were. -/
theorem test_end : next? (exec (.endStrip ⟨0, 0, 0, 0⟩) (regs placed [(5, 9)])) (fun t => t.h.launch.isNone && t.h.getX 5 == 9) = true := by decide
theorem test_release : next? (exec (.release ⟨0, 0, 0, 0⟩) early)
    (fun t => t.h.released && (match t.launches[0]? with | some x => x.releasedCount == 1 | none => false)) = true := by decide

/-- Queue 3 is enabled with its ring at 0x2000 and the tables of the page at 0, and the strip may use it. -/
def queued : State := onHart (placed.updQueue 3 fun x => { x with en := true, qbase := 0x2000, qroot := 0x4000 })
  fun h => { h with sys := { h.sys with lqmask := 8 } }
/-- Ring entry 0 names the record at an address, valid or with further bits set. -/
def entered (e : Nat) : State := { bytes queued 0x2000 (toBytes 8 e) with input := { who := 3 } }
theorem witness_Launch : (3#32).toNat < 64 ∧ bit queued.h.sys.lqmask.toNat 3 = true ∧ ((regs queued [(1, 0x2100)]).x 1).toNat % 256 = 0 ∧
    (queued.queue 3).en = true ∧ (queued.queue 3).side.length < 16 ∧ (placed.queue 3).en = false := by decide
/-- What a ring entry holds, and the record it names. -/
def ring? (s : State) (p : Nat → Bool) : Bool :=
  match s.readPhys 0 0x2000 64 with
  | .ok bs => p (bytesWord bs 0)
  | .error _ => false
/-- A record that LAUNCH submitted waits in queue 3. -/
def submitted (a : Nat) : State := { queued.updQueue 3 (fun x => { x with
  side := [{ addr := a, hart := 0, strip := 0, vmroot := 0x4000, htbase := 0, gtbase := 0, lqmask := 0, tenant := 0, keyid := 0,
             syncs := [] }] }) with input := { who := 3 } }
theorem witness_RingEntry : (entered 0).input.who = 3 ∧ ((entered 0).queue 3).en = true ∧ ((entered 0).queue 3).qbase = 0x2000 ∧
    ((entered 0).queue 3).side = [] ∧ ((submitted 0x2100).queue 3).side ≠ [] ∧ homeOf 0x2000 ≠ .hub ∧
    ring? (entered 0) (fun e => !bit e 63) = true ∧
    ring? (entered (2 ^ 63 + 0x2100)) (fun e => bit e 63 && bits e 57 6 == 0 && bits e 0 57 % 256 == 0) = true ∧
    (match (entered (2 ^ 63 + 0x2100)).hubFetch 0x4000 0 0x2100 256 with | .ok _ => true | .error _ => false) = true ∧
    ring? (entered (2 ^ 63 + 0x2101)) (fun e => bit e 63 && bits e 0 57 % 256 != 0) = true := by decide +kernel
theorem witness_SideBuffer : ((submitted 0x2100).queue 3).en = true ∧ ((submitted 0x2100).queue 3).side.length = 1 ∧
    (match (submitted 0x2100).hubFetch 0x4000 0 0x2100 256 with | .ok _ => true | .error _ => false) = true ∧
    (match (submitted (2 ^ 50)).hubFetch 0x4000 0 (2 ^ 50) 256 with | .ok _ => false | .error _ => true) = true := by decide +kernel
theorem test_launch : next? (exec (.launch ⟨5, 1, 0, 3⟩) (regs queued [(1, 0x2100), (5, 9)]))
    (fun t => t.h.getX 5 = 0 && ((t.queue 3).side.map (·.addr)) == [0x2100]) = true := by decide
/-- R33: the words of a record whose reserved bits are zero, and of one with a reserved bit of its code address set. -/
theorem test_record_reserved : recordReserved ([0x1100, 2 ^ 48] ++ List.replicate 30 0) = false ∧
    recordReserved ([2 ^ 57 + 0x1100, 2 ^ 48] ++ List.replicate 30 0) = true := by decide

/-! ## Vector instructions -/

/-- A strip whose tile is one row of four f32 elements in 768-byte registers. -/
def tile4 : State := onHart placed fun h => { h with part := 0xE0, cfg := { h.cfg with vl := 4 } }

/-- The state with a vector register holding f32 elements of one row. -/
def vreg (s : State) (n : Nat) (es : List Nat) : State :=
  onHart s fun h => { h with vec := { h.vec with v := Sparse.set 0 h.vec.v n (ofBytes (es.map (toBytes 4)).flatten) } }

/-- The elements of one row of a register. -/
def row0 (s : State) (n : Nat) : List Nat := (List.range s.h.cfg.vl).map fun e => s.h.elem s.h.cfg.vtype (s.h.img n) 0 e

theorem elemAllowed_of {s : State} {o : VHalf} {c : CUse} {srcs : List Nat} {op : ElemOp} (h1 : fieldsUnused o c (srcs.length ≤ 1))
    (h2 : op.accept = true) (h3 : s.h.fits (op.dst :: op.srcs) [o.d.toNat] srcs) (h4 : s.h.maskFine (s.h.halfMask o)) :
    elemAllowed s o c srcs op := ⟨h1, h2, h3, h4⟩

theorem witness_ElementwiseHalves :
    elementHalf tile4 (.vadd ⟨3, 1, 2, 0, none⟩) = some (⟨3, 1, 2, 0, none⟩, .unused, [1, 2], opVadd .f32) ∧
    elemAllowed tile4 ⟨3, 1, 2, 0, none⟩ .unused [1, 2] (opVadd .f32) ∧
    ∀ row e, row < tile4.h.cfg.vrows → e < tile4.h.cfg.vl → (tile4.h.halfMask ⟨3, 1, 2, 0, none⟩).sel tile4.h row e = true →
      (elemResult tile4 ⟨3, 1, 2, 0, none⟩ [1, 2] (opVadd .f32) row e).2 &&& tile4.h.ar.ftrap = 0 :=
  ⟨rfl, elemAllowed_of (by unfold fieldsUnused; decide) (by decide) (by unfold Hart.fits; decide) (by unfold Hart.maskFine; decide),
    fun _ _ _ _ _ => BitVec.and_zero⟩
theorem witness_ElementwiseHalves_fourth :
    elementHalf tile4 (.vma ⟨3, 1, 2, 4, none⟩) = some (⟨3, 1, 2, 4, none⟩, .reg, [1, 2, 4], opVma .f32) ∧
    elemAllowed tile4 ⟨3, 1, 2, 4, none⟩ .reg [1, 2, 4] (opVma .f32) :=
  ⟨rfl, elemAllowed_of (by unfold fieldsUnused; decide) (by decide) (by unfold Hart.fits; decide) (by unfold Hart.maskFine; decide)⟩
theorem witness_ElementwiseHalves_field :
    elementHalf tile4 (.vcvt ⟨3, 1, 0, 3, none⟩) = some (⟨3, 1, 0, 3, none⟩, .field, [1], opVcvt .f32 (Fmt.ofCode 3) false) ∧
    elemAllowed tile4 ⟨3, 1, 0, 3, none⟩ .field [1] (opVcvt .f32 (Fmt.ofCode 3) false) :=
  ⟨rfl, elemAllowed_of (by unfold fieldsUnused; decide) (by decide) (by unfold Hart.fits; decide) (by unfold Hart.maskFine; decide)⟩
theorem witness_IntegerOperations : Fmt.s8.isInt = true ∧ 0xFF < 2 ^ Fmt.s8.width ∧ Fmt.s8.wide = some .s16 ∧ Fmt.e2m1.width = 4 := by
  decide
theorem witness_Moves : (∃ p, moveHalf tile4 (.vsldn ⟨3, 1, 2, 0, none⟩) = some p ∧ p.1 = ⟨3, 1, 2, 0, none⟩ ∧ p.2.2.1 = [1] ∧ p.2.2.2.1 = []) ∧
    fieldsUnused ⟨3, 1, 2, 0, none⟩ .unused False ∧ tile4.h.fits [.f32] [3] [1] ∧ tile4.h.maskFine (tile4.h.halfMask ⟨3, 1, 2, 0, none⟩) :=
  ⟨⟨_, rfl, rfl, rfl, rfl⟩, by unfold fieldsUnused; decide, by unfold Hart.fits; decide, by unfold Hart.maskFine; decide⟩
theorem witness_Reductions : fieldsUnused ⟨3, 1, 0, 0, none⟩ .unused True ∧ (tile4.h.halfFmt ⟨3, 1, 0, 0, none⟩).isArith = true ∧
    tile4.h.fits [.f32] [3] [1] ∧ tile4.h.ar.ftrap = 0 ∧ fieldsUnused ⟨3, 1, 0, 4, none⟩ .field True ∧ bits (4#6).toNat 3 2 = 0 ∧
    (4#6).toNat % 4 ≠ 3 ∧ fieldsUnused ⟨3, 1, 2, 0, none⟩ .unused False ∧ evOf ⟨3, 1, 0, 0, none⟩ = false := by
  unfold fieldsUnused Hart.fits; decide
theorem witness_Comparisons : evOf ⟨3, 1, 2, 2, none⟩ = false ∧ (2#6).toNat % 32 < 8 ∧ (tile4.h.halfFmt ⟨3, 1, 2, 2, none⟩).isArith = true ∧
    tile4.h.fits [.f32] [] [1, 2] ∧ (3#6).toNat < 8 ∧ tile4.h.ar.ftrap = 0 ∧ Sparse.get false tile4.h.vec.merr 1 = false := by
  unfold Hart.fits; decide
theorem witness_MaskHalves : (∃ g, maskHalf (.mand ⟨3, 1, 2, 0, none⟩) = some (⟨3, 1, 2, 0, none⟩, 2, g)) ∧
    (∃ g, maskHalf (.mset ⟨3, 0, 0, 0, none⟩) = some (⟨3, 0, 0, 0, none⟩, 0, g)) := ⟨⟨_, rfl⟩, ⟨_, rfl⟩⟩

theorem witness_FloatOperations : Fmt.f32.isFloat = true ∧ 0x3F800000 < 2 ^ Fmt.f32.width ∧ Fmt.bf16.wide = some .f32 ∧ Fmt.bf16.isFloat = true ∧
    (Fmt.f32.units 0x3F800000).any (fun u => decide (0 < u)) = true ∧ Fmt.e4m3 ≠ Fmt.f32 ∧ ¬(Fmt.s8.isInt = true ∧ Fmt.f32.isInt = true) ∧
    (∀ a ∈ [0x3F800000, 0xFF800000], a < 2 ^ Fmt.f32.width ∧ Fmt.f32.notNumber a = false) ∧ Fmt.f32.notNumber 0x7FC00000 = true ∧
    (∀ a ∈ [1, 0xFF], a < 2 ^ Fmt.s8.width) ∧ 7 < (if Fmt.f32.isInt then 6 else 8) ∧ 5 < (if Fmt.s8.isInt then 6 else 8) ∧ Fmt.s8.isArith = true := by
  decide
/-- R60: the quotient of 1 by 3, the root of 2 and 1 by 3 times itself less are rounded once. -/
theorem test_vdiv : next? (exec (.vdiv ⟨3, 1, 2, 0, none⟩) (vreg (vreg tile4 1 [0x3F800000, 0xBF800000, 0, 0x7F800000]) 2 [0x40400000, 0, 0, 0x3F800000]))
    (fun t => row0 t 3 == [0x3EAAAAAB, 0xFF800000, 0x7FC00000, 0x7F800000] && t.h.ar.fflags == 0x19) = true := by decide
theorem test_vsqrt : next? (exec (.vsqrt ⟨3, 1, 0, 0, none⟩) (vreg tile4 1 [0x40000000, 0x80000000, 0xBF800000, 0x40800000]))
    (fun t => row0 t 3 == [0x3FB504F3, 0x80000000, 0x7FC00000, 0x40000000]) = true := by decide
/-- R191: an unordered pair is un and ne, and raises NV under lt. -/
theorem test_compare_unordered : ((List.range 8).map fun k => (compareRes .f32 k 0x7FC00000 0).1) = [false, true, false, false, false, false, true, false] ∧
    (compareRes .f32 2 0x7FC00000 0).2 = Flag.nv ∧ (compareRes .f32 0 0x7FC00000 0).2 = 0 := by decide
/-- R184: the sum of two f32 elements, one of them rounding. -/
theorem test_vadd : next? (exec (.vadd ⟨3, 1, 2, 0, none⟩) (vreg (vreg tile4 1 [0x3F800000, 0x4B800000, 0, 0x7F800000]) 2 [0x40000000, 0x3F800000, 0x80000000, 0xFF800000]))
    (fun t => row0 t 3 == [0x40400000, 0x4B800000, 0, 0x7FC00000] && t.h.ar.fflags == 0x9) = true := by decide
/-- R185: 1/4 is exact, and 1/0 is an infinity with DZ. -/
theorem test_vrcp : next? (exec (.vrcp ⟨3, 1, 0, 0, none⟩) (vreg tile4 1 [0x40800000, 0, 0x3F800000, 0x3F800000]))
    (fun t => row0 t 3 == [0x3E800000, 0x7F800000, 0x3F800000, 0x3F800000] && t.h.ar.fflags == 0x10) = true := by decide
/-- R199: positions below the slide keep their values. -/
theorem test_vslup : next? (exec (.vslup ⟨3, 1, 2, 0, none⟩) (regs (vreg (vreg tile4 1 [1, 2, 3, 4]) 3 [9, 8, 7, 6]) [(2, 2)]))
    (fun t => row0 t 3 == [9, 8, 1, 2]) = true := by decide
/-- R199: they keep them even where a zeroing mask does not select them. -/
theorem test_vslup_masked : next? (exec (.vslup ⟨3, 1, 2, 32, some ⟨1, 0, 1, 0, 0, 0, 0⟩⟩)
    (onHart (regs (vreg (vreg tile4 1 [1, 2, 3, 4]) 3 [9, 8, 7, 6]) [(2, 2)]) fun h => { h with vec := { h.vec with m := [(1, 0b0100)] } }))
    (fun t => row0 t 3 == [9, 8, 1, 0]) = true := by decide
theorem test_vsldn : next? (exec (.vsldn ⟨3, 1, 2, 0, none⟩) (regs (vreg (vreg tile4 1 [1, 2, 3, 4]) 3 [9, 8, 7, 6]) [(2, 3)]))
    (fun t => row0 t 3 == [4, 0, 0, 0]) = true := by decide
/-- R201's example: the mask selects e = 1 and e = 3. -/
theorem test_vcmpr : next? (exec (.vcmpr ⟨3, 1, 0, 32, some ⟨2, 0, 0, 0, 0, 0, 0⟩⟩)
    (onHart (vreg tile4 1 [10, 20, 30, 40]) fun h => { h with vec := { h.vec with m := [(2, 0b1010)] } }))
    (fun t => row0 t 3 == [20, 40, 0, 0]) = true := by decide
theorem test_vrsum : next? (exec (.vrsum ⟨3, 1, 0, 0, none⟩) (vreg (vreg tile4 1 [0x3F800000, 0x40000000, 0x40400000, 0x40800000]) 3 [9, 8, 7, 6]))
    (fun t => row0 t 3 == [0x41200000, 8, 7, 6]) = true := by decide
theorem test_vmvx_outside : next? (exec (.vmvx ⟨5, 1, 2, 0, none⟩) (regs (vreg tile4 1 [1, 2, 3, 4]) [(2, 4), (5, 9)]))
    (fun t => t.h.getX 5 = 0) = true := by decide
theorem test_mfrst : next? (exec (.mfrst ⟨5, 1, 0, 0, none⟩) (onHart tile4 fun h => { h with vec := { h.vec with m := [(1, 0b10100)] } }))
    (fun t => t.h.getX 5 = 2) = true := by decide
theorem test_mpop_outside : next? (exec (.mpop ⟨5, 1, 0, 0, none⟩) (onHart tile4 fun h => { h with vec := { h.vec with m := [(1, 0b10100)] } }))
    (fun t => t.h.getX 5 = 1) = true := by decide
theorem test_vcmp : next? (exec (.vcmp ⟨3, 1, 2, 2, none⟩) (vreg (vreg tile4 1 [0x3F800000, 0x40000000, 0x80000000, 0]) 2 [0x40000000, 0x3F800000, 0, 0]))
    (fun t => Sparse.get 0 t.h.vec.m 3 = 1) = true := by decide

/-! ## Vector shape, memory, tensors, quantisation -/

/-- A computation that gives a value. -/
def ok? {ε α : Type} (r : Except ε α) : Bool :=
  match r with
  | .ok _ => true
  | .error _ => false

theorem ok_of {ε α : Type} {r : Except ε α} (h : ok? r = true) : ∃ a, r = .ok a := by
  cases r with
  | ok a => exact ⟨a, rfl⟩
  | error e => exact absurd h (by simp [ok?])

/-- A hart that has given up its lane groups, all of which another hart of its core holds. -/
def shared : State :=
  { onHart tile4 fun h => { h with groupless := true } with harts := [(1, { slot := 1, launch := some 0, part := 0xE0 })] }
theorem witness_VectorConfiguration : (2#32).toNat < 4 ∧ psplitEntry tile4.core.psplit tile4.h.slot = tile4.h.part ∧
    (let s := onHart tile4 fun h => { h with part := 0 }
     psplitEntry s.core.psplit s.h.slot ≠ s.h.part ∧ entryOn (psplitEntry s.core.psplit s.h.slot) = true ∧
       s.heldGroups &&& entryGroups (psplitEntry s.core.psplit s.h.slot) = 0) ∧
    (let s : State := { onHart tile4 fun h => { h with part := 0xE0 } with cores := [(0, { psplit := 0 })] }
     psplitEntry s.core.psplit s.h.slot ≠ s.h.part ∧ entryOn (psplitEntry s.core.psplit s.h.slot) = false ∧ s.h.frozen = false ∧
       s.isGang s.h = false) ∧
    (let s := shared
     s.h.groupless = true ∧ entryOn (psplitEntry s.core.psplit s.h.slot) = true ∧
       s.heldGroups &&& entryGroups (psplitEntry s.core.psplit s.h.slot) ≠ 0) ∧
    (let s : State := { onHart placed fun h => { h with part := 0xE0 } with
       cores := [(0, { psplit := 0 })], launches := placed.launches.map fun x => { x with gang := true } }
     psplitEntry s.core.psplit s.h.slot ≠ s.h.part ∧ entryOn (psplitEntry s.core.psplit s.h.slot) = false ∧
       s.h.launch = some 0 ∧ s.isGang s.h = true ∧ s.h.key ≠ 2 ^ 64) ∧
    Fmt.ofCode ((0x10A#32).toNat % 16) = some .bf16 ∧ bits (0x10A#32).toNat 4 4 = 0 ∧ bits (0x10A#32).toNat 15 17 = 0 := by
  decide
/-- R180: VSETL grants no more than VLMAX; with VNR 8 and eight lane groups a register has 16,384 bytes, 4,096 f32 elements. -/
theorem test_vsetl : next? (exec (.vsetl ⟨5, 1, 0, 0⟩) (regs tile4 [(1, 2 ^ 40)])) (fun t => t.h.getX 5 = 4096) = true := by decide
/-- R32: the hart waits, without lane groups, for groups that another hart holds. -/
theorem test_vsetl_waits : next? (exec (.vsetl ⟨5, 1, 0, 0⟩) shared) (fun t => t.h.groupless && t.h.pc == shared.h.pc) = true := by decide
theorem test_vsett : next? (exec (.vsett ⟨5, 0, 1, 0x40A⟩) tile4) (fun t => t.h.cfg.vtype = .bf16 && t.h.cfg.vrows = 4 && t.h.getX 5 = 4) = true := by
  decide
theorem test_vcfg : next? (exec (.vcfg ⟨0, 0, 0, 3⟩) (vreg tile4 1 [1, 2, 3, 4])) (fun t => t.h.cfg.vnr = 64 && t.h.cfg.vl = 0 && t.h.img 1 = 0) = true := by
  decide

/-- A tile of four elements at 0x2000, with indices in v2 and values in v3. -/
def vmem : State := vreg (vreg (regs tile4 [(1, 0x2000), (2, 8)]) 2 [3, 2, 1, 0]) 3 [0x11, 0x22, 0x33, 0x44]

theorem witness_VectorLoads_unit : let m : TileMove := { d := 3, mask := vmem.h.fmMask, fmt := .f32, tile := false,
                                                         place := fun r e => some (unitPlace vmem.h .f32 (vmem.fmVecLoc ⟨3, 1, 0, 0, 0, 0⟩) r e) }
    tileLoad vmem (.vld ⟨3, 1, 0, 0, 0, 0⟩) m ∧
      ∃ r, vecRead vmem vmem.h { rd := true, cls := .vector } m.tile (fun _ => []) (m.elts vmem) = .ok r :=
  ⟨.inl ⟨_, rfl, by unfold fmAllowed Hart.fits Hart.maskFine; decide, rfl⟩, ok_of (by decide)⟩
theorem witness_VectorLoads_stride : let o : FM := ⟨3, 1, 2, 0, 0, 0⟩
    fmAllowed o vmem true [3] [] ∧ vmem.h.cfg.vtype ≠ .e2m1 ∧
    ∃ r, vecRead vmem vmem.h { rd := true, cls := .vector } (vmem.fmVecBase o).1 (fun _ => [])
      ((vmem.h.spots vmem.h.fmMask fun r e => some (stridePlace .f32 (vmem.fmVecStrideLoc o) (vmem.x o.b).toNat r e)).map
        (vmem.h.eltOf .f32)) = .ok r :=
  ⟨by unfold fmAllowed Hart.fits Hart.maskFine; decide, by decide, ok_of (by decide)⟩
theorem witness_VectorLoads_index : let o : FX := ⟨3, 1, 2, 0, 0, 0, 0x009, 0⟩
    indexAllowed o vmem true false [3] [2] ∧
    ∃ r, vecRead vmem vmem.h { rd := true, cls := .vector } false (fun _ => [])
      ((vmem.h.spots (vmem.h.fxMask o) fun r e => some (indexedPlace o vmem r e)).map (vmem.h.eltOf .f32)) = .ok r :=
  ⟨by unfold indexAllowed Hart.fits Hart.maskFine; decide, ok_of (by decide)⟩
theorem witness_VectorStores_unit : let m : TileMove := { d := 3, mask := vmem.h.fmMask, fmt := .f32, tile := false,
                                                          place := fun r e => some (unitPlace vmem.h .f32 (vmem.fmVecLoc ⟨3, 1, 0, 0, 0, 0⟩) r e)
                                                          last := fun r e => decide (r + 1 = vmem.h.cfg.vrows) && decide (e + 1 = vmem.h.cfg.vl) }
    tileStore vmem (.vst ⟨3, 1, 0, 0, 0, 0⟩) m ∧
      ∃ t, vecWrite vmem vmem.h { wr := true, cls := .vector } m.tile (fun _ => []) (m.elts vmem) (m.values vmem) = .ok t :=
  ⟨.inl ⟨_, rfl, by unfold fmAllowed Hart.fits Hart.maskFine; decide, rfl⟩, ok_of (by decide)⟩
theorem witness_VectorStores_scatter : let o : FX := ⟨3, 1, 2, 0, 0, 0, 0x009, 0⟩
    indexAllowed o vmem false true [] [3, 2] ∧ vmem.h.cfg.vtype ∈ [.s32, .z32, .s64, .z64, .f32, .bf16, .f16] ∧
    let ps := vmem.h.spots (vmem.h.fxMask o) fun r e => some (indexedPlace o vmem r e)
    ∃ t, vecModify vmem vmem.h { rd := true, wr := true, cls := .vector, atomic := true } false (scatterOp 0 .f32)
      (ps.map (vmem.h.eltOf .f32)) (ps.map fun p => vmem.h.elem .f32 (vmem.h.img 3) p.row p.e) = .ok t :=
  ⟨by unfold indexAllowed Hart.fits Hart.maskFine; decide, by decide, ok_of (by decide)⟩
theorem witness_ScatterFrame : let o : FX := ⟨3, 1, 2, 0, 0, 0, 0x009, 0⟩
    let ps := vmem.h.spots (vmem.h.fxMask o) fun r e => some (indexedPlace o vmem r e)
    (match resolveElts vmem vmem.h { rd := true, wr := true, cls := .vector, atomic := true } (bit o.f.toNat 5) (fun _ => []) (ps.map (vmem.h.eltOf .f32)) with
      | .ok rs => ((rs.map (·.2)).flatten.all fun r => homeOf r.pa = .dram 0) && apart? (rs.map (·.2)).flatten
      | .error _ => false) = true ∧
    next? (exec (.vstxa o) vmem) (fun t => ofBytes (t.bytesAt 0x2000 4) = 0x44) = true := ⟨by decide, by decide⟩
theorem witness_VectorStoreFrame : let m : TileMove := { d := 3, mask := vmem.h.fmMask, fmt := .f32, tile := false,
                                                         place := fun r e => some (unitPlace vmem.h .f32 (vmem.fmVecLoc ⟨3, 1, 0, 0, 0, 0⟩) r e)
                                                         last := fun r e => decide (r + 1 = vmem.h.cfg.vrows) && decide (e + 1 = vmem.h.cfg.vl) }
    (match resolveElts vmem vmem.h { wr := true, cls := .vector } m.tile (fun _ => []) (m.elts vmem) with
      | .ok rs => ((rs.map (·.2)).flatten.all fun r => homeOf r.pa = .dram 0) && apart? (rs.map (·.2)).flatten
      | .error _ => false) = true ∧
    next? (exec (.vst ⟨3, 1, 0, 0, 0, 0⟩) vmem) (fun t => ofBytes (t.bytesAt 0x200C 4) = 0x44) = true := ⟨by decide, by decide⟩
theorem test_vldx : next? (exec (.vldx ⟨4, 1, 2, 0, 0, 0, 0x009, 0⟩) (bytes vmem 0x2000 ((wordsBytes [0x200000001, 0x400000003]))))
    (fun t => row0 t 4 == [4, 3, 2, 1]) = true := by decide
/-- R203: of two elements of one store that meet, the one of the higher index wins. -/
theorem test_vstx_overlap : next? (exec (.vstx ⟨3, 1, 5, 0, 0, 0, 0x009, 0⟩) vmem) (fun t => ofBytes (t.bytesAt 0x2000 4) = 0x44) = true := by decide

theorem witness_TensorTable : (vmem.x 1).toNat % 64 = 0 ∧ (∃ ps, vmem.canAccess { rd := true, cls := .vector } false (vmem.x 1).toNat 64 ps) ∧
    ∃ ps, vmem.canAccess { wr := true, cls := .vector } false (vmem.x 1).toNat 64 ps :=
  ⟨by decide, canAccess_of (by decide), canAccess_of (by decide)⟩
theorem witness_Quantisation : Fmt.ofCode (bits (0x09C#10).toNat 0 4) = some .e4m3 ∧ Fmt.ofCode (bits (0x09C#10).toNat 4 4) = some .f32 ∧
    Fmt.f32.isFloat = true ∧ Fmt.e4m3.isSmall = true ∧ tile4.h.fits [.f32, .e4m3, .z8] [4, 2] [1] ∧ tile4.h.fits [.f32, .e4m3, .z8] [4] [1, 2] ∧
    tile4.h.ar.ftrap = 0 ∧ (0#16).toNat < 7 ∧ bits (0x09C#10).toNat 8 2 = 0 ∧ (4#6) ≠ 2 := by
  unfold Hart.fits; decide
theorem witness_BlockScale : Fmt.f32.isFloat = true ∧ Fmt.e4m3.isSmall = true ∧ 0x42C80000 ∈ [0x42C80000, 0xBF400000] ∧
    (∀ v ∈ [0x42C80000, 0xBF400000], v < 2 ^ Fmt.f32.width) ∧ ([0x42C80000, 0xBF400000].any fun v => Fmt.f32.units v == none) = false ∧
    ([0x7F800000].any fun v => Fmt.f32.units v == none) = true ∧ 0x7C < 2 ^ Fmt.e4m3.width ∧ 0x7D < 256 ∧ (Fmt.e4m3.units 0x7C).isSome = true := by
  decide
theorem witness_Dot : tile4.h.cfg.vtype.isArith = true ∧ tile4.h.fits [.f32] [4] [1, 2] ∧ tile4.h.maskFine (tile4.h.fxMask ⟨4, 1, 2, 0, 0, 0, 0, 0⟩) := by
  unfold Hart.fits Hart.maskFine; decide
/-- R195's example: the scale byte of a row whose largest magnitude is 100, and the codes of 100 and -0.75. -/
theorem test_vqnt : next? (exec (.vqnt ⟨4, 1, 2, 0, 0, 0, 0x09C, 0⟩) (vreg tile4 1 [0x42C80000, 0xBF400000, 0x40466666, 0]))
    (fun t => t.h.elem .z8 (t.h.img 2) 0 0 == 0x7D && ((List.range 4).map fun e => t.h.elem .e4m3 (t.h.img 4) 0 e) == [0x7C, 0xC4, 0x54, 0]
      && t.h.ar.fflags == 1) = true := by decide
/-- R126, R128: VDOT counts in RETCNT. -/
theorem test_vdot : next? (exec (.vdot ⟨4, 1, 2, 0, 0, 0, 0, 0⟩) (vreg (vreg tile4 1 [0x3F800000, 0x40000000, 0x40400000, 0]) 2 [0x3F800000, 0x3F800000, 0x3F800000, 0]))
    (fun t => t.h.elem .f32 (t.h.img 4) 0 0 == 0x40C00000 && t.h.sys.retcnt == 1) = true := by decide

/-! ## The matrix unit -/

/-- The matrix unit of a core that a hart owns: A in k8 and B in bf16, dense, A with block scales where asked. -/
def unitOf (asc : Bool) : MatrixUnit := { owner := some 0, afmt := 15, bfmt := 10, asc := asc }

/-- A strip whose core has a given matrix unit. -/
def mat (u : MatrixUnit) : State := { tile4 with cores := [(0, { mu := u })] }

theorem witness_Mcfg : (0x4AF#16).toNat < 4096 ∧ pairAccepted (0x4AF#16).toNat = true ∧ bit (2#10).toNat 0 = false ∧ bit (1#10).toNat 0 = true ∧
    isBandwidth (mat {}).h.die = false ∧ (mat {}).core.mu = {} ∧ (mat (unitOf true)).core.mu.owner = some (mat {}).h.key ∧
    (mat { owner := some 8 }).core.mu.owner ≠ some (mat {}).h.key ∧ (mat { owner := some 8 }).core.mu.owner ≠ none := by decide
theorem witness_Mstat : fxPlain ⟨17, 0, 0, 0, 0, 0, 0, 1⟩ ∧ (1#16).toNat < 3 := by unfold fxPlain; decide
/-- A hart that waits for the unit with its MCFG, and one that waits with the unit its strip brought. -/
theorem witness_MatrixUnitGrant :
    let p : Pending := { instr := .mcfg ⟨0, 0, 0, 0, 0, 0, 0, 0x4AF⟩, pc := 0, xs := [], vs := [], mask := 0, sat := 0, vl := 0, vrows := 0, plv := .app, po := 0 }
    let s : State := onHart (mat { waiters := [0] }) fun h => { h with vq := some p }
    let t : State := onHart (mat { waiters := [0] }) fun h => { h with muSaved := some (unitOf true) }
    (s.coreAt s.input.who).mu.owner = none ∧ (s.coreAt s.input.who).mu.waiters = [0] ∧ (s.hartAt 0).muSaved = none ∧
      (s.hartAt 0).vq = some p ∧ (t.hartAt 0).muSaved = some (unitOf true) ∧ (unitOf true).joined = false := by decide
/-- MCFG k8, bf16, dense :ascl :clr of the spec's matrix program. -/
theorem test_mcfg : next? (exec (.mcfg ⟨0, 0, 0, 0, 0, 0, 2, 0x4AF⟩) (mat {}))
    (fun t => t.core.mu.owner == some 0 && t.core.mu.asc && t.core.mu.bfmt == 10 && t.core.mu.afmt == 15) = true := by decide
theorem test_mstat_other : next? (exec (.mstat ⟨17, 0, 0, 0, 0, 0, 0, 1⟩) (mat { owner := some 8, rowcnt := 7 })) (fun t => t.h.getX 17 = 0) = true := by
  decide

theorem witness_Mldb : (mat (unitOf false)).ownsUnit (unitOf false) ∧ (unitOf false).spar = 0 ∧ (8#6).toNat % 8 = 0 ∧
    (onHart (mat (unitOf false)) fun h => { h with cfg := { h.cfg with vnr := 64 } }).h.cap = 2048 ∧
    (mat (unitOf false)).loadWaits (mat (unitOf false)).h.coreKey = false := by unfold State.ownsUnit; decide
theorem witness_MldbReadable : groupReadable tile4.h 0 (16 * (unitOf false).depth * (mfmt (unitOf false).bfmt).width) := by
  unfold groupReadable; decide
theorem witness_Mscl : (mat { unitOf false with tv := true, bsc := true, k := 96 }).core.mu.tv = true ∧
    groupReadable tile4.h 2 (128 * ceilDiv 96 32) := by unfold groupReadable; decide
theorem witness_Mrow : let u := { unitOf false with tv := true, k := 4 }
    (mat u).ownsUnit u ∧ u.takesRows ∧ (0#6).toNat % 32 = 0 ∧ matrixPfx ⟨13, 1, 0, 0, none⟩ = false ∧
    (mat u).h.maskFine ((mat u).h.halfMask ⟨13, 1, 0, 0, none⟩) ∧ (mat u).h.fits [mfmt u.afmt] [] [1] ∧
    ((mat u).x 13).toNat + (mat u).h.cfg.vrows ≤ 256 ∧ ∀ r, r < 16 → Sparse.get false u.accErr r = false := by
  unfold State.ownsUnit MatrixUnit.takesRows Hart.maskFine Hart.fits; decide
theorem witness_Mrow_scaled : let u := { unitOf true with tv := true, k := 4 }
    (mat u).ownsUnit u ∧ u.takesRows ∧ (mat u).h.fits [mfmt u.afmt, .z8] [] [1, 2] := by
  unfold State.ownsUnit MatrixUnit.takesRows Hart.fits; decide
theorem witness_Mrowsl : isBandwidth (mat (unitOf false)).h.die = false ∧ ((mat (unitOf false)).x 13).toNat + ((mat (unitOf false)).x 14).toNat ≤ 256 := by
  decide
/-- R220's smallest case: 1.0 in k8 times 2.0 in bf16 in column 0, added once. -/
theorem test_mrow : next? (exec (.mrow ⟨13, 1, 0, 0, none⟩)
    (onHart (mat { unitOf false with tv := true, k := 1, tile := 0x4000 })
      fun h => { h with cfg := { h.cfg with vl := 1, vtype := .k8 }, vec := { h.vec with v := [(1, 0x40)] } }))
    (fun t => t.core.mu.accAt 0 0 == 0x40000000 && t.core.mu.rowcnt == 1) = true := by decide

theorem witness_MatrixElement : let u := { unitOf false with k := 1 }
    u.afmt < 16 ∧ u.bfmt < 16 ∧ pairAccepted (u.afmt + 16 * u.bfmt) = true ∧ ∀ p, some p ∈ [some (0x40, 0)] → p.1 < 2 ^ (mfmt u.afmt).width ∧ p.2 < 256 := by
  refine ⟨by decide, by decide, by decide, fun p h => ?_⟩
  simp only [List.mem_singleton, Option.some.injEq] at h
  subst h; decide
theorem witness_Mzero : (mat (unitOf false)).ownsUnit (unitOf false) ∧ matrixPfx ⟨13, 14, 0, 0, none⟩ = false ∧
    ((regs (mat (unitOf false)) [(13, 240), (14, 16)]).x 13).toNat + ((regs (mat (unitOf false)) [(13, 240), (14, 16)]).x 14).toNat ≤ 256 := by
  unfold State.ownsUnit; decide
theorem witness_MrdMwr : (mat (unitOf false)).ownsUnit (unitOf false) ∧ (1#10).toNat < 8 ∧ (1#10).toNat % 8 ≠ 7 ∧ (255#16).toNat < 256 ∧
    (mat (unitOf false)).h.maskFine ((mat (unitOf false)).h.fxMask ⟨2, 13, 14, 0, 0, 0, 1, 255⟩) ∧
    ((regs (mat (unitOf false)) [(13, 255), (14, 124)]).x 13).toNat + tile4.h.cfg.vrows ≤ 256 ∧
    ((regs (mat (unitOf false)) [(13, 255), (14, 124)]).x 14).toNat + tile4.h.cfg.vl ≤ 128 ∧
    tile4.h.fits [.f32] [2] [] ∧ tile4.h.fits [.f32] [] [2] ∧ tile4.h.ar.ftrap = 0 ∧ (unitOf false).accErr = [] := by
  unfold State.ownsUnit Hart.maskFine Hart.fits; decide
theorem test_mwr_mrd : next? (exec (.mwr ⟨2, 13, 14, 0, 0, 0, 0, 1⟩) (vreg (mat (unitOf false)) 2 [0x3F800000, 0, 0, 0x40000000]))
    (fun t => t.core.mu.accAt 0 0 == 0x40000000 && t.core.mu.dirty == 1 &&
      next? (exec (.mrd ⟨3, 13, 14, 0, 0, 0, 0, 0xFF⟩) t) fun u => row0 u 3 == [0x3F800000, 0, 0, 0x40000000]) = true := by decide
/-- A gang whose launch is the placed strip's. -/
def gang (s : State) : State := { s with launches := s.launches.map fun x => { x with gang := true } }
theorem witness_Mjoin : let s := gang (mat (unitOf false))
    isBandwidth s.h.die = false ∧ s.isGang s.h = true ∧ bits (2#16).toNat 0 2 = 2 ∧ bits (2#16).toNat 2 2 = 0 ∧ s.h.core = 0 ∧
    (s.h.core - 0) / 4 = (s.h.core - 0 + 2 - 1) / 4 ∧ (∀ i, i < 2 → i ≠ 0 → (s.coreAt (s.h.coreKey - 0 + i)).mu.joinReq = none) := by
  decide
theorem witness_MjoinLeave : ({ unitOf false with joined := true } : MatrixUnit).joined = true ∧ bits (0#16).toNat 0 2 = 0 := by decide
theorem witness_JoinComplete : let s : State := { tile4 with cores := [(0, { mu := { unitOf false with joinReq := some (2, 0) } }),
                                                                      (1, { mu := { joinReq := some (2, 1) } })] }
    ∀ i, i < 2 → (s.coreAt (0 + i)).mu.joined = false ∧ (s.coreAt (0 + i)).mu.joinReq = some (2, i) := by decide
theorem witness_JoinLeave : let s : State := { tile4 with cores := [(0, { mu := { joined := true, jn := 2, leaveReq := true } }),
                                                                   (1, { mu := { joined := true, jn := 2, jp := 1, leaveReq := true } })] }
    ∀ i, i < 2 → (s.coreAt (0 + i)).mu.joined = true ∧ (s.coreAt (0 + i)).mu.jn = 2 ∧ (s.coreAt (0 + i)).mu.jp = i ∧
      (s.coreAt (0 + i)).mu.leaveReq = true ∧ (s.coreAt (0 + i)).mu.rows = [] := by decide

/-- A bit of a byte string read as a number. -/
theorem testBit_ofBytes (bs : List Byte) : ∀ k, (ofBytes bs).testBit k = (bs.getD (k / 8) 0).getLsbD (k % 8) := by
  induction bs with
  | nil => intro k; simp [ofBytes]
  | cons b bs ih =>
    intro k
    have e : b.toNat + 256 * ofBytes bs = 2 ^ 8 * ofBytes bs + b.toNat := by omega
    rw [ofBytes, e, Nat.testBit_two_pow_mul_add _ b.isLt]
    split
    · next h => simp [Nat.div_eq_of_lt h, Nat.mod_eq_of_lt h, BitVec.testBit_toNat]
    · next h =>
      rw [ih, show k / 8 = (k - 8) / 8 + 1 by omega, show k % 8 = (k - 8) % 8 by omega]
      rfl

/-- The metadata of a 16-bit sparse tile that keeps the first three positions of every twelve: byte p of each register holds the
nibble of its kept row twice. -/
def rising (p : Nat) : Byte := BitVec.ofNat 8 (17 * ((p % 768 / 64 * 4 + p / 768) % 3))
/-- A 16-bit sparse unit whose metadata lies in v0 and v1. -/
def sparseMat : State := onHart (mat { owner := some 0, afmt := 10, bfmt := 10, spar := 1 })
  fun h => { h with
    cfg := { h.cfg with vnr := 16 }
    vec := { h.vec with v := [(0, ofBytes ((List.range 3072).map rising)), (1, ofBytes ((List.range 3072).map rising))] } }

theorem rising_nibble : ∀ r, r < 3 → ∀ h, h < 2 → ∀ i, i < 4 →
    (BitVec.ofNat 8 (17 * r)).getLsbD (4 * h + i) = r.testBit i := by decide

theorem sparseMat_bit (kk n i : Nat) (hk : kk < 96) (hn : n < 128) (hi : i < 4) :
    groupBit sparseMat.h 0 (4 * (kk * 128 + n) + i) = (kk % 3).testBit i := by
  have hv : ∀ j, j < 2 → sparseMat.h.img j = ofBytes ((List.range 3072).map rising) := by
    intro j hj
    rcases (show j = 0 ∨ j = 1 by omega) with rfl | rfl <;> rfl
  simp only [groupBit]
  rw [hv _ (by omega), testBit_ofBytes]
  generalize hb : (4 * (kk * 128 + n) + i) / 8 % 3072 = b
  generalize hp : b % 256 / 64 * 768 + b / 256 * 64 + b % 64 = p
  have hp' : p < 3072 := by omega
  rw [show (8 * p + (4 * (kk * 128 + n) + i) % 8) / 8 = p by omega,
    show (8 * p + (4 * (kk * 128 + n) + i) % 8) % 8 = 4 * (n % 2) + i by omega, show ((List.range 3072).map rising).getD p 0 = rising p by simp [List.getD, hp']]
  simp only [rising]
  rw [rising_nibble _ (Nat.mod_lt _ (by decide)) _ (Nat.mod_lt _ (by decide)) i hi]
  have e1 : b = kk % 48 * 64 + n / 2 := by omega
  have e2 : b % 256 / 64 = kk % 48 % 4 := by omega
  have e3 : b / 256 = kk % 48 / 4 := by omega
  have e4 : p / 768 = kk % 48 % 4 := by omega
  have e5 : p % 768 / 64 = kk % 48 / 4 := by omega
  rw [e4, e5, show kk % 48 / 4 * 4 + kk % 48 % 4 = kk % 48 by omega, Nat.mod_mod_of_dvd _ (by decide)]

theorem witness_Mldbs_nibbles (kk n : Nat) (hk : kk < 96) (hn : n < 128) : groupNibble sparseMat.h 0 (kk * 128 + n) = kk % 3 := by
  have h := sparseMat_bit kk n
  simp only [groupNibble]
  rw [show 4 * (kk * 128 + n) = 4 * (kk * 128 + n) + 0 by omega, h 0 hk hn (by decide), h 1 hk hn (by decide), h 2 hk hn (by decide),
    h 3 hk hn (by decide)]
  have : kk % 3 < 3 := Nat.mod_lt _ (by decide)
  clear h
  generalize kk % 3 = r at *
  revert r; decide
theorem witness_Mldbs : sparseMat.ownsUnit { owner := some 0, afmt := 10, bfmt := 10, spar := 1 } ∧
    ({ spar := 1, bfmt := 10 } : MatrixUnit).keptRows = 96 ∧ ({ spar := 1 } : MatrixUnit).keep = 3 ∧ 3072 ≤ sparseMat.h.cap ∧
    groupReadable sparseMat.h 8 (16 * 96 * 16) ∧ groupReadable sparseMat.h 0 (64 * 96) ∧
    sparseMat.loadWaits sparseMat.h.coreKey = false ∧
    (∀ kk n, kk < 96 → n < 128 → groupNibble sparseMat.h 0 (kk * 128 + n) < 12 ∧
      (kk % 3 ≠ 0 → groupNibble sparseMat.h 0 ((kk - 1) * 128 + n) < groupNibble sparseMat.h 0 (kk * 128 + n))) := by
  refine ⟨⟨rfl, rfl⟩, by decide, by decide, by decide, by unfold groupReadable; decide, by unfold groupReadable; decide, by decide, ?_⟩
  intro kk n hk hn
  rw [witness_Mldbs_nibbles kk n hk hn]
  refine ⟨by omega, fun h => ?_⟩
  rw [witness_Mldbs_nibbles (kk - 1) n (by omega) hn]
  omega

/-! ## Atomics, Sorrel, arrival words, barriers -/

theorem witness_JoinRowCommit : let u : MatrixUnit := { unitOf false with tv := true, k := 1, tile := 0x4000, joined := true, jn := 2, rows := [⟨0, 3, [some (0x40, 0)], 8⟩] }
    ((mat u).coreAt (mat u).input.who).mu = u ∧ (u.rows.map (·.tag)) = [u.step] ∧ u.bsc = false := by decide
theorem test_join_row : let u : MatrixUnit := { unitOf false with tv := true, k := 1, tile := 0x4000, joined := true, jn := 2, rows := [⟨0, 3, [some (0x40, 0)], 8⟩] }
    next? (exec .joinRowCommit (mat u)) (fun t => t.core.mu.accAt 3 0 == 0x40000000 && t.core.mu.rows == [] && t.core.mu.rowcnt == 1) = true := by
  decide

theorem witness_MemoryAtomics : amoForm 32 (.amoadd ⟨5, 1, 3, 0, 0, 0, 0x074, 8⟩) ≠ none ∧ bits (0x074#10).toNat 0 2 = 0 ∧
    bits (0x074#10).toNat 7 3 = 0 ∧ bits (0x074#10).toNat 2 3 < 6 ∧ stack.fxAddr ⟨5, 1, 3, 0, 0, 0, 0x074, 8⟩ % 4 = 0 ∧
    ∃ ps, stack.canAccess (atomicAcc ⟨5, 1, 3, 0, 0, 0, 0x074, 8⟩) false (stack.fxAddr ⟨5, 1, 3, 0, 0, 0, 0x074, 8⟩) 4 ps :=
  ⟨by simp [amoForm], by decide, by decide, by decide, by decide, canAccess_of (by decide)⟩
theorem witness_Amocasq : bits (2#10).toNat 0 2 = 2 ∧ (30#6).toNat % 2 = 0 ∧ (30#6).toNat ≤ 30 ∧
    stack.fxAddr ⟨30, 1, 4, 6, 0, 0, 2, 0⟩ % 16 = 0 ∧
    ∃ ps, stack.canAccess (atomicAcc ⟨30, 1, 4, 6, 0, 0, 2, 0⟩) false (stack.fxAddr ⟨30, 1, 4, 6, 0, 0, 2, 0⟩) 16 ps :=
  ⟨by decide, by decide, by decide, by decide, canAccess_of (by decide)⟩
/-- R280: the unsigned maximum of words zero-extends the old value. -/
theorem test_amomaxz : next? (exec (.amomaxz ⟨5, 1, 3, 0, 0, 0, 0, 0⟩) (regs (bytes stack 0x2000 (toBytes 4 0x80000000)) [(3, 5)]))
    (fun t => t.h.getX 5 = 0x80000000 && ofBytes (t.bytesAt 0x2000 4) = 0x80000000) = true := by decide
theorem test_amoadd_sign : next? (exec (.amoadd ⟨5, 1, 3, 0, 0, 0, 0, 0⟩) (regs (bytes stack 0x2000 (toBytes 4 0xFFFFFFFF)) [(3, 2)]))
    (fun t => t.h.getX 5 = BitVec.allOnes 64 && ofBytes (t.bytesAt 0x2000 8) = 1) = true := by decide
theorem test_amocas_keeps : next? (exec (.amocas ⟨5, 1, 3, 4, 0, 0, 1, 0⟩) (regs (bytes stack 0x2000 (toBytes 8 7)) [(3, 6), (4, 9)]))
    (fun t => t.h.getX 5 = 7 && ofBytes (t.bytesAt 0x2000 8) = 7) = true := by decide
theorem test_amocasq : next? (exec (.amocasq ⟨10, 1, 4, 6, 0, 0, 2, 0⟩)
    (regs (bytes stack 0x2000 (toBytes 8 7 ++ toBytes 8 8)) [(4, 7), (5, 8), (6, 1), (7, 2)]))
    (fun t => t.h.getX 10 = 7 && t.h.getX 11 = 8 && ofBytes (t.bytesAt 0x2000 16) = 2 ^ 65 + 1) = true := by decide

/-- A second entry of the table maps the Sorrel registers at 0x1000000000; x1 names register 5. -/
def sorrels : State := { regs (bytes placed 0x8008 (toBytes 8 0x06F00000061D)) [(1, 0x1000000028), (2, 3), (3, 1)] with sorrel := [(5, 4)] }

/-- The address of an FX word translates to a Sorrel register. -/
def sorrel? (s : State) (o : FX) (wr : Bool) (n : Nat) : Bool :=
  match translate s s.h.sys.vmroot s.h.plv { rd := true, wr := wr, scope := 4 } (s.fxAddr o) with
  | .ok t => (s.fxAddr o) % 8 = 0 && homeOf t.pa = .sorrel && n = (t.pa - sorrelBase) / 8
  | .error _ => false

theorem sorrel_of {s : State} {o : FX} {wr : Bool} {n : Nat} (h : sorrel? s o wr n = true) : s.reachesSorrel o wr n := by
  unfold sorrel? at h
  split at h
  · next t e =>
    simp only [Bool.and_eq_true, decide_eq_true_eq] at h
    exact ⟨t, h.1.1, e, h.1.2, h.2⟩
  · exact absurd h (by decide)

theorem witness_Sorrel : sorrels.reachesSorrel ⟨5, 1, 2, 0, 0, 0, 0, 0⟩ true 5 ∧ sorrels.reachesSorrel ⟨5, 1, 2, 3, 0, 0, 0, 0⟩ false 5 ∧
    sorrelForm sorrels (.syfad ⟨5, 1, 2, 0, 0, 0, 0, 0⟩) ≠ none := ⟨sorrel_of (by decide), sorrel_of (by decide), by simp [sorrelForm]⟩
theorem witness_SywtConditions : holdsCond (3#10).toNat (sorrels.sorrelValue 5) (sorrels.x 2) ∧
    ¬ holdsCond (0#10).toNat (sorrels.sorrelValue 5) (sorrels.x 2) ∧ sorrels.x 3 ≠ 0 :=
  ⟨(by decide : sorrels.x 2 ≤ sorrels.sorrelValue 5), (by decide : ¬ sorrels.sorrelValue 5 = sorrels.x 2), by decide⟩
theorem witness_SywtWait : let s := onHart sorrels fun h => { h with wait := some (.sywt ⟨5, 1, 2, 3, 0, 0, 0, 0⟩) }
    s.input.who = s.h.key ∧ s.h.live = true ∧ s.h.wait = some (.sywt ⟨5, 1, 2, 3, 0, 0, 0, 0⟩) ∧ s.reachesSorrel ⟨5, 1, 2, 3, 0, 0, 0, 0⟩ false 5 :=
  ⟨by decide, by decide, rfl, sorrel_of (by decide)⟩
theorem test_syfad : next? (exec (.syfad ⟨5, 1, 2, 0, 0, 0, 0, 0⟩) sorrels) (fun t => t.h.getX 5 = 4 && t.sorrelValue 5 = 7) = true := by
  decide
theorem test_sytas_held : next? (exec (.sytas ⟨5, 1, 0, 0, 0, 0, 0, 0⟩) sorrels) (fun t => t.h.getX 5 = 4 && t.sorrelValue 5 = 4) = true := by
  decide
theorem test_sywt_waits : next? (exec (.sywt ⟨5, 1, 2, 0, 0, 0, 2, 0⟩) sorrels) (fun t => t.h.wait.isSome && t.h.pc = 0x1000) = true := by
  decide

/-- A window with an arrival word at 32: target 100, count 90, GEN 7. -/
def arrivals : State := regs (bytes windowed (windowed.h.winBase + 32) (toBytes 8 (90 * 2 ^ 32 + 100) ++ toBytes 8 7)) [(1, 32), (4, 7), (5, 6)]

theorem witness_Arrival : arrivals.h.windowOk ∧ (∃ ps, arrivals.canAccess
      { rd := true, wr := true, atomic := true, cls := .vector, rel := true, scope := 5, advance := some true } true (arrivals.x 1).toNat 16 ps) ∧
    (∃ ps, arrivals.canAccess { rd := true, wr := true, atomic := true, cls := .vector, advance := some false } true (arrivals.x 1).toNat 16 ps) ∧
    (∃ ps, arrivals.canAccess { rd := true, cls := .vector, acq := true, scope := 5, advance := some false } true (arrivals.x 1).toNat 16 ps) ∧
    word (arrivals.arrivalAt (arrivals.h.winBase + 32)).gen ≠ arrivals.x 5 ∧
    word (arrivals.arrivalAt (arrivals.h.winBase + 32)).gen = arrivals.x 4 ∧ (0#64).toNat % 16 = 0 := by
  refine ⟨?_, canAccess_of (by decide), canAccess_of (by decide), canAccess_of (by decide), by decide, by decide, by decide⟩
  unfold Hart.windowOk; decide
theorem witness_AwaitWait : let s := onHart arrivals fun h => { h with vq := some ⟨.await ⟨4, 1, 0, 9⟩, 0x1000, [7, 32], [], 0, 0, 0, 1, .app, 0⟩ }
    s.input.who = s.h.key ∧ (s.h.vq.map (·.xs)) = some [7, 32] ∧ s.h.wait = none ∧ s.h.live = true ∧
      ∃ ps, (s.backTo ⟨.await ⟨4, 1, 0, 9⟩, 0x1000, [7, 32], [], 0, 0, 0, 1, .app, 0⟩).canAccess { rd := true, cls := .vector, acq := true, scope := 5, advance := some false } true 32 16 ps :=
  ⟨by decide, by decide, by decide, by decide, canAccess_of (by decide)⟩
/-- R98: 90 and 10 reach the target of 100. -/
theorem test_awadd : next? (exec (.awadd ⟨5, 1, 0, 10⟩) arrivals)
    (fun t => t.h.getX 5 = 8 && (t.arrivalAt (t.h.winBase + 32)).count = 0 && (t.arrivalAt (t.h.winBase + 32)).gen = 8) = true := by decide
theorem test_await_waits : next? (exec (.await ⟨4, 1, 0, 0⟩) arrivals) (fun t => t.h.vq.isSome) = true := by decide

/-- Barrier 3 expects two arrivals of the placed strip's launch and has one, in phase 4. -/
def barred : State := { regs placed [(4, 4), (6, 9)] with cores := [(0, { bars := [(3, { exp := 2, arr := 1, ph := 4, holder := some 0 })] })] }
theorem witness_Barriers : barred.h.launch = some 0 ∧ (barred.barrier 3).holder = some 0 ∧ (barred.barrier 3).exp ≠ 0 ∧
    (∀ c ∈ barred.cores, ∀ p ∈ c.2.bars, ¬ (c.1 = barred.h.coreKey ∧ p.1 = 3) → p.2.acts = []) ∧ (barred.barrier 3).acts = [] ∧
    (barred.barrier 3).ph.setWidth 64 = barred.x 4 ∧ (barred.barrier 3).ph.setWidth 64 ≠ barred.x 6 ∧ (barred.barrier 2).holder = none := by
  decide
theorem witness_BwaitWait : let s := onHart barred fun h => { h with wait := some (.bwait ⟨6, 3, 0, 5⟩) }
    s.input.who = s.h.key ∧ s.h.live = true ∧ s.h.wait = some (.bwait ⟨6, 3, 0, 5⟩) := by decide
theorem test_binit : next? (exec (.binit ⟨0, 2, 1, 8⟩) barred) (fun t => (t.closeCycle.barrier 2).exp = 8 && (t.closeCycle.barrier 2).holder = some 0) = true := by decide
/-- R273: the last arrival advances the phase. -/
theorem test_barv : next? (exec (.barv ⟨5, 3, 0, 0⟩) barred)
    (fun t => t.h.getX 5 = 4 && (t.closeCycle.barrier 3).arr = 0 && (t.closeCycle.barrier 3).ph = 5) = true := by decide
/-- R275: two arrivals of one cycle advance it once, and both see the phase before. -/
theorem test_barv_same_cycle : next? (exec (.barv ⟨5, 3, 0, 0⟩) { barred with cores := [(0, { bars := [(3, { exp := 1, ph := 4, holder := some 0 })] })] })
    (fun t => next? (exec (.barv ⟨7, 3, 0, 0⟩) t) fun u => u.h.getX 5 = 4 && u.h.getX 7 = 4 && (u.closeCycle.barrier 3).ph = 5) = true := by
  decide
theorem test_bdrop : next? (exec (.bdrop ⟨5, 3, 0, 0⟩) barred)
    (fun t => t.h.getX 5 = 4 && (t.closeCycle.barrier 3).exp = 1 && (t.closeCycle.barrier 3).ph = 5) = true := by decide

/-- One element to look at, at an address in v1, against the value in v2. -/
def looked : State := onHart (regs placed [(3, 9)]) fun h =>
  { h with part := 0xE0, cfg := { h.cfg with vl := 1 }, vec := { h.vec with v := [(1, 0x2000), (2, 5)] } }
/-- VWAIT's elements can be found and looked at. -/
def look? (o : FX) (s : State) (h : Hart) (addrs comps which active sat : Nat) (p : Nat → Bool) : Bool :=
  match resolveElts s h { rd := true, cls := .vector, scope := bits o.f.toNat 4 3 } false (vwaitAlign o)
      (vwaitElts o h addrs active) with
  | .ok es => match vwaitPoll o s h comps which es sat with
    | .ok (n, _) => p n
    | .error _ => false
  | .error _ => false
theorem witness_VectorWait : looked.h.live = true ∧ looked.h.fits [.z64] [] [1, 2] ∧ looked.h.maskFine (looked.h.fxMask ⟨3, 1, 2, 3, 0, 0, 0, 0⟩) ∧
    look? ⟨3, 1, 2, 3, 0, 0, 0, 0⟩ looked looked.h 0x2000 5 1 (vwaitActive ⟨3, 1, 2, 3, 0, 0, 0, 0⟩ looked.h) 0 (· == 0) = true ∧
    look? ⟨3, 1, 2, 3, 0, 0, 1, 0⟩ looked looked.h 0x2000 5 1 (vwaitActive ⟨3, 1, 2, 3, 0, 0, 1, 0⟩ looked.h) 0 (· == 1) = true ∧
    (∃ ps, looked.canAccess { rd := true, cls := .vector, scope := 0 } false 0x2000 8 ps) ∧
    (∃ ps, looked.canAccess { rd := true, cls := .vector, scope := 0, acq := true } false 0x2000 8 ps) := by
  refine ⟨by decide, by unfold Hart.fits; decide, by unfold Hart.maskFine; decide, by decide, by decide, canAccess_of (by decide), canAccess_of (by decide)⟩
theorem witness_VwaitEnd :
    let p : Pending := ⟨.vwait ⟨3, 1, 2, 3, 0, 0, 1, 0⟩, 0x1000, [9], [0x2000, 5], 1, 0, 1, 1, .app, 0⟩
    let s : State := { onHart looked fun h => { h with vq := some p } with input := { who := 0, value := 1 } }
    s.input.who = s.h.key ∧ s.h.vq = some p ∧ s.h.wait = none ∧
      look? ⟨3, 1, 2, 3, 0, 0, 1, 0⟩ (s.backTo p) { (s.backTo p).h with cfg := { (s.backTo p).h.cfg with vl := 1, vrows := 1 } } 0x2000 5 1 1 0
        (· == 1) = true ∧
      look? ⟨3, 1, 2, 3, 0, 0, 1, 0⟩ (s.backTo p) { (s.backTo p).h with cfg := { (s.backTo p).h.cfg with vl := 1, vrows := 1 } } 0x2000 5 0 1 0
        (· == 0) = true := by decide
theorem test_vwait_goes_on : next? (exec (.vwait ⟨3, 1, 2, 3, 0, 0, 1, 0⟩) looked) (fun t => t.h.vq.isNone && t.h.pc = 0x1008) = true := by
  decide

/-! ## Chains -/

/-- The state that an outcome gives. -/
def after (o : Out) (s : State) : State :=
  match o with
  | .next t => t
  | _ => s

/-- The body VLD q0, x1; VADD q1, q0, q0; VST q1, x3 behind the pc. -/
def bodyWords : List Word :=
  [Instr.vld ⟨48, 1, 0, 0, 0, 0⟩, .vadd ⟨49, 48, 48, 0, none⟩, .vst ⟨49, 3, 0, 0, 0, 0⟩].filterMap encode
/-- A strip before a CHCFG of three units with SB = 2, its data 1, 2, 3, 4 in f32 at 0x2000 and its results for 0x3000. -/
def chained : State := regs (bytes (bytes tile4 0x1008 (wordsBytes (bodyWords.map (·.toNat)))) 0x2000
  (wordsBytes [0x400000003F800000, 0x4080000040400000])) [(1, 0x2000), (3, 0x3000)]
/-- The body is fetched and made. -/
def body? (s : State) (n sb : Nat) (p : Body → Bool) : Bool :=
  let f := fetchBody s (s.codeEnd s.h.pc.toNat) (s.h.pc + 8) 0 n
  f.stop.isNone && (unitFault s f.units false).isNone && match makeBody f.state f.units sb false 0 with
    | .ok b => p b
    | .error _ => false
theorem witness_Chcfg : bits (0x22#16).toNat 11 3 ≤ 4 ∧ chained.h.parked = false ∧ body? chained 3 2 (fun b => b.nodes.length == 3) = true := by
  decide +kernel
theorem test_chcfg : next? (exec (.chcfg ⟨0, 0, 0, 0, 0, 0, 0, 0x22⟩) chained)
    (fun t => t.h.chr.inst = true && t.h.chr.nn = 3 && t.h.pc = 0x1020) = true := by decide +kernel
/-- The strip with its body, before a CHRUN. -/
def bodied : State := onHart chained fun h => { h with
  chain := { body := some ⟨[.vld ⟨48, 1, 0, 0, 0, 0⟩, .vadd ⟨49, 48, 48, 0, none⟩, .vst ⟨49, 3, 0, 0, 0, 0⟩], [0, 1, 2], 2, false, 0⟩ }
  chr := { h.chr with inst := true, nn := 3 }
  pc := 0x1020 }
theorem witness_Chend : bodied.h.parked = false ∧ bodied.h.chain.run = none := by decide +kernel
/-- A body that stores what its inbound queue brings. -/
def linked (links : List LinkBind) (ports : Sparse LinkPort) : State :=
  { onHart chained fun h => { h with chain := { body := some ⟨[.vst ⟨48, 3, 0, 0, 0, 0⟩], [0], 2, false, 0⟩, links := links }, chr := { h.chr with inst := true, nn := 1 } }
    with cores := [(0, { ports := ports })] }
theorem witness_Chlnk : (linked [] []).h.parked = false ∧ 0 ∈ (linked [] []).bodyQueues.2 ∧ 0 ∉ (linked [] []).bodyQueues.1 ∧
    ((linked [] []).port 0 2).holder = none ∧ ((linked [] []).port 0 2).waiters = [] ∧
    ((linked [] [(2, { holder := some 8 })]).port 0 (portOf false true)).holder ≠ none := by decide +kernel
theorem witness_PortGrant :
    let v : Pending := ⟨.chlnk ⟨0, 0, 0, 0x20⟩, 0x1000, [], [], 0, 0, 4, 1, .app, 0⟩
    let s : State := { onHart (linked [] [(2, { waiters := [0] })]) fun h => { h with vq := some v } with input := { who := 0, which := 2 } }
    (s.port s.input.who s.input.which).holder = none ∧ (s.port s.input.who s.input.which).waiters = [0] ∧ (s.hartAt 0).key = 0 ∧
      (s.hartAt 0).vq = some v ∧ s.input.who = (s.hartAt 0).coreKey ∧
      s.input.which = portOf (bit (0x20#32).toNat 4) (bit (0x20#32).toNat 5) := by decide +kernel
/-- The strip with its run of four elements open. -/
def running : State := after (exec (.chrun ⟨0, 0, 1, 4⟩) bodied) bodied
theorem witness_Chrun : (match bodied.h.chain.body with
    | some b => bodyLacks bodied.h b == none && (chrunFields ⟨0, 0, 1, 4⟩).isEmpty && (bindCauses bodied b (some 4) false).isEmpty
        && (bindCauses bodied b (some 0) false).isEmpty
    | none => false) = true ∧ bodied.h.parked = false ∧ bodied.h.chain.links = [] := by decide +kernel
theorem witness_Chend_run : running.h.parked = false ∧ running.h.chain.run ≠ none := by decide +kernel
theorem witness_Chwait : running.h.live = true ∧ (running.h.chain.run.isSome && !running.h.parked) = true ∧ (bodied.h.chain.run.isSome && !bodied.h.parked) = false ∧
    (onHart running fun h => { h with wait := some (.chwait ⟨5, 0, 0, 9⟩) }).h.wait = some (.chwait ⟨5, 0, 0, 9⟩) := by decide +kernel
/-- A fact of the run of hart 0. -/
def run? (s : State) (p : Run → Bool) : Bool := match s.runOf 0 with | some r => p r | none => false
/-- The state with the run of hart 0 changed. -/
def onRun (s : State) (f : Run → Run) : State :=
  onHart s fun h => { h with chain := { h.chain with run := h.chain.run.map f } }
theorem witness_ChrunParked : let s := onHart (onRun running fun r => { r with mode := .parked }) fun h => { h with pc := 0x1020 }
    run? s (fun r => r.mode == .parked && r.pc == s.h.pc) = true ∧
      (match s.h.chain.body with | some b => bodyLacks s.h b == none | none => false) = true := by decide +kernel
theorem witness_ChainBeat : running.input.who = 0 ∧ run? running (fun r => r.mode == .chained) = true ∧ (running.hartAt 0).launch ≠ none ∧
    (running.hartAt 0).frozen = false := by decide +kernel
/-- A run of the body VLD q0; VABS q1, q0; VST q1 whose node VABS has -1.0 in its queue. -/
def nodeRun : State :=
  let s := onHart bodied fun h => { h with
    chain := { body := some ⟨[.vld ⟨48, 1, 0, 0, 0, 0⟩, .vabs ⟨49, 48, 0, 0, none⟩, .vst ⟨49, 3, 0, 0, 0, 0⟩], [0, 1, 2], 2, false, 0⟩ } }
  { onRun (after (exec (.chrun ⟨0, 0, 1, 4⟩) s) s) fun r => r.updQueue 0 fun q => { q with toks := [.beat 0 0 [0xBF800000]] } with
    input := { which := 1 } }
theorem witness_ElementBeat : (nodeRun.hartAt 0).live = true ∧ run? nodeRun (fun r =>
    let c := nodeRun.segment 0 r
    r.mode == .chained && r.breaks.isEmpty && r.queues.length == 16 && (match c.ns[1]? with
      | some n => (match n.role with | .elem _ => true | _ => false) && n.srcs == [(48, .f32)] && n.writes == [1] && !n.mask.on
      | none => false) &&
    c.readers .chained 0 == [1] && (c.queueFmt 0).width == 32 && !(r.nodes.getD 1 {}).ended &&
      (r.queue 0).toks == [.beat 0 0 [0xBF800000]] && (r.queue 0).taken == [] && decide ((r.queue 1).occ < 8)) = true := by decide +kernel
/-- R244, R258: the node takes the beat and puts its absolute value on. -/
theorem test_element_beat : ∀ i ∈ [Instr.chainBeat, .gatedUnitResume], next? (exec i nodeRun) (fun t => run? t fun r =>
    (r.queue 0).toks == [] && (r.queue 1).toks == [.beat 0 0 [0x3F800000]]) = true := by decide +kernel
/-- A run whose one sink holds the store of element 0. -/
def heldRun : State :=
  { onRun nodeRun fun r => { r with
      nodes := [{}, {}, { held := 1 }], stores := [⟨0, 0, 2, 0x3000, false, false, 0x3F800000, .f32, 0, none⟩] } with input := { which := 16 } }
theorem witness_BeatRelease : heldRun.chainOf 0 = ([0], true) ∧ (heldRun.hartAt 0).chain.links = [] ∧ run? heldRun (fun r =>
    let c := heldRun.segment 0 r
    let x : HeldStore := ⟨0, 0, 2, 0x3000, false, false, 0x3F800000, .f32, 0, none⟩
    r.mode == .chained && r.breaks.isEmpty && c.held r == [1] && r.cur == 0 && !c.mergeStops heldRun && r.rows.isEmpty &&
      r.pushes.isEmpty && r.pulled.isEmpty && r.stores == [x] && (storesFault heldRun c.h r.id [x]).isNone &&
      ok? (vecWrite heldRun c.h { wr := true, cls := .vector, port := some (r.id, 0) } false (fun _ => []) [⟨0, 0x3000, 4⟩]
        [x.put (r.n = some 1)])) = true := by decide +kernel
/-- R246: the element is released: the cursor moves on, and the store is performed. -/
theorem test_beat_release : ∀ i ∈ [Instr.chainBeat, .gatedUnitResume], next? (exec i heldRun) (fun t =>
    run? t (fun r => r.cur == 1 && r.stores.isEmpty) && t.h.chr.chcur == 1 && t.bytesAt 0x3000 4 == toBytes 4 0x3F800000) = true := by
  decide +kernel
/-- The run goes on temporally. -/
def temporal : State := onRun running fun r => r.restart .temporal
theorem witness_TemporalStrip : temporal.chainOf 0 = ([0], true) ∧
    run? temporal (fun r => r.mode == .temporal && r.breaks.isEmpty && r.n == some 4 && decide (r.cur < 4)) = true ∧
    run? temporal (fun r =>
      let r1 : Run := { r.restart .temporal with n := some 4 }
      let s1 := (temporal.setRun 0 r1).emptyPorts 0
      let tl := max 1 ((temporal.segment 0 r).stripLen r)
      let n := (s1.segment 0 r1).pullable s1 r1 (min (tl - r.cur % tl) (4 - r.cur))
      n != 0 && (s1.runStrip [0] r.cur 4 tl 5 n).isSome) = true ∧
    ((onHart temporal fun h => { h with chr := { h.chr with pol := true } }).hartAt 0).chr.pol = true := by decide +kernel
theorem witness_RunComplete : let s := onRun temporal fun r => { r with cur := 4 }
    let t := onRun running fun r => { r with cur := 4, nodes := r.nodes.map fun x => { x with ended := true } }
    s.input.who = 0 ∧ (s.hartAt 0).key = 0 ∧ s.chainOf 0 = ([0], true) ∧ (s.hartAt 0).launch ≠ none ∧ (s.hartAt 0).frozen = false ∧
      run? s (fun r => r.n == some r.cur && r.mode == .temporal) = true ∧
      run? t (fun r => r.n == some r.cur && r.mode == .chained && r.nodes.all (·.ended)) = true := by
  decide +kernel
theorem test_temporal_strip : next? (exec .temporalStrip temporal)
    (fun t => t.h.chr.chcur = 4 && t.bytesAt 0x3000 16 = toBytes 8 0x4080000040000000 ++ toBytes 8 0x4100000040C00000) = true := by decide +kernel

/-- A port found SUB 1 of a page fault at element 0. -/
def broken : State := onRun temporal fun r => { r with breaks := [⟨0x20, 0, 0x2000, 2, true, false, 0⟩] }
/-- A port of a run that streams found it. -/
def brokenBeat : State := onRun running fun r => { r with breaks := [⟨0x20, 0, 0x2000, 2, true, false, 0⟩] }
theorem witness_StreamBreak_beat : brokenBeat.chainOf 0 = ([0], true) ∧ (brokenBeat.hartAt 0).key = 0 ∧
    run? brokenBeat (fun r => r.mode == .chained && r.faultAt == some 0) = true ∧
    run? (brokenBeat.drainTo [0] 0) (fun r => r.faultAt == some r.cur && (streamCause r.breaks r.cur).isSome) = true := by decide +kernel
theorem witness_StreamBreak : broken.chainOf 0 = ([0], true) ∧ run? broken (fun r => r.faultAt == some 0 && r.faultAt == some r.cur &&
    (streamCause r.breaks r.cur).isSome && r.breaks.all (fun b => b.code != 0x72)) = true := by decide +kernel
/-- A resident run whose queue 0 is fed from the east, with a record at its port. -/
def fed (ew : Nat) : State :=
  let s := linked [⟨0, false, true⟩] [(2, { holder := some 0, fifo := [⟨.beat 0 0 [7], ew⟩] })]
  { after (exec (.chrun ⟨0, 0, 2, 0⟩) s) s with input := { who := 0, which := 2 } }
theorem witness_LinkRecord : ∀ ew ∈ [3, 2], (fed ew).port 0 2 = { holder := some 0, fifo := [⟨.beat 0 0 [7], ew⟩] } ∧
    run? (fed ew) (fun r => r.mode == .chained && r.canArrive 0 (.beat 0 0 [7]) false &&
      widthCode (((fed ew).segment 0 r).queueFmt 0).width == 3) = true ∧
    ((fed ew).hartAt 0).coreKey = 0 ∧ ((fed ew).hartAt 0).queueAt 2 = some 0 ∧ ((fed ew).hartAt 0).launch ≠ none := by decide +kernel
theorem witness_PortTimeout : run? (fed 3) (fun r => r.mode != .parked && (fed 3).h.chain.links.any fun b =>
    { fed 3 with cores := [(0, { ports := [(2, { holder := some 0 })] })] }.portWaits ((fed 3).hartAt 0) r b) = true := by decide +kernel
/-- A run on the last core of its die whose queue 1 feeds the next die across the east edge. -/
def crossing : State :=
  let s := linked [⟨1, false, false⟩] [(0, { holder := some 0 })]
  let s := onHart s fun h => { h with
    core := coreCount 0 - 1
    chain := { h.chain with body := some ⟨[.vsplat ⟨49, 1, 0, 0, none⟩], [0], 2, false, 0⟩ } }
  let s := after (exec (.chrun ⟨0, 0, 1, 4⟩) s) s
  onRun { s with dies := [(1, { park := true })], input := { who := s.h.key } }
    fun r => r.updQueue 1 fun q => { q with toks := [.beat 0 0 [7]] }
theorem witness_PeerParked :
    let k := crossing.h.key
    let die := ((crossing.hartAt k).farPort false false).1 / 64
    (match crossing.runOf k with | some r => r.mode == .chained && ((r.queue 1).head 16).isSome | none => false) = true ∧
      (crossing.hartAt k).chain.links = [⟨1, false, false⟩] ∧ die ≠ (crossing.hartAt k).die ∧ crossing.dieParked die = true ∧
      (match (onRun crossing fun r => r.restart .temporal).runOf k with | some r => r.mode == .temporal && r.n != some r.cur | none => false) = true := by
  decide +kernel
theorem witness_LinkCut : let s : State := { crossing with hub := { crossing.hub with links := [(3, { up := false })] } }
    (∃ j ∈ (s.chainOf s.h.key).1, ∃ b ∈ (s.hartAt j).chain.links, s.linkCut (s.hartAt j) b.west = true) := by decide +kernel
theorem witness_BodyError : (bodied.hartAt 0).chain.body.isSome = true ∧ (bodied.runOf 0).isNone = true ∧
    (running.hartAt 0).chain.body.isSome = true ∧ (running.runOf 0).isSome = true ∧ (running.hartAt 0).key = 0 ∧
    0 ∈ (running.chainOf 0).1 := by decide +kernel
theorem test_body_error : next? (exec .bodyErrorBreak (onHart running fun h => { h with sys := { h.sys with tsp := 0x3800, tvec := 0x1800 } }))
    (fun t => (t.runOf 0).isNone && t.h.chr.brk = 6 && t.h.sys.tcause = 0x233) = true := by decide +kernel

/-! ## Engines -/

/-- The words of a copy of 16 bytes of the window from offset 0 to offset 0x100. -/
def copyWords : List Nat := [2 ^ 60, 0x100, 0, 16, 0, 0, 0, 0]
/-- A strip with its window and the command at 0x2000, in memory and in v1. -/
def copier : State := onHart (regs (bytes windowed 0x2000 (wordsBytes copyWords)) [(1, 0x2000), (2, 1)]) fun h =>
  { h with cfg := { h.cfg with vl := 8, vtype := .z64 }, part := 0xE0, vec := { h.vec with v := [(1, ofBytes (wordsBytes copyWords))] } }
/-- A fact of what an attempt gives. -/
def okAnd {ε α : Type} (r : Except ε α) (p : α → Bool) : Bool :=
  match r with
  | .ok a => p a
  | .error _ => false
/-- The core's queue holds a command of each of 128 entries. -/
def fullQueue (s : State) (c : Cmd) : State :=
  { s with cores := [(s.h.coreKey, { eng := (List.range 128).map fun e => (e, some c) })] }
theorem witness_Ecp : (copier.x 1).toNat % 64 = 0 ∧ (∃ ps, copier.canAccess { rd := true, cls := .vector } false (copier.x 1).toNat 64 ps) ∧
    okAnd (resolveAccess copier copier.h copier.h.plv { rd := true, cls := .vector } false (copier.x 1).toNat 64) (fun ps =>
      let r := readPieces copier copier.h { rd := true, cls := .vector } ps
      okAnd (r.2.buildCmd 0 ((List.range 8).map (bytesWord r.1))) fun c => c.op == 1 && r.2.freeEntry == some 0) = true :=
  ⟨by decide, canAccess_of (by decide), by decide⟩
/-- A command of the hart with its number. -/
def cmd0 : Cmd :=
  { id := 0, op := 1, hart := 0, launch := 0, strip := 0, pc := 0, scope := 0, dst := ⟨0x2100, 0⟩, src := ⟨0x2000, 0⟩, dstWord := 0x100,
    srcWord := 0, len := 16 }
theorem witness_FullShare : (fullQueue copier cmd0).freeEntry = none := by decide +kernel
theorem test_ecp : next? (exec (.ecp ⟨5, 1, 0, 0, 0, 0, 0, 0⟩) copier) (fun t => t.h.getX 5 = 0 &&
    (match t.cmdAt 0 0 with | some c => c.op == 1 && c.len == 16 && c.dst.pa == t.h.winBase + 0x100 | none => false)) = true := by decide
theorem witness_Tcopy : (tcopyFields ⟨1, 2, 0, 0, 0, 0, 0, 0⟩).isEmpty = true ∧
    (let e : BitVec 512 := BitVec.ofNat 512 (ofBytes (wordsBytes [2 ^ 62 + 0x200, 2 ^ 63 + 5, 32, 0, 0, 0, 0, 0]))
     let s := onHart copier fun h => { h with tensors := [(1, e), (2, e)] }
     ok? (s.buildCmd 0 (tcopyWords ⟨1, 2, 0, 0, 0, 0, 0, 0⟩ 0)) = true ∧ s.freeEntry = some 0) := by decide
theorem witness_Trot : (trotFields ⟨0, 1, 2, 3, 0, 0, 0, 0⟩).isEmpty = true ∧
    (let s := gang (regs copier [(1, 0), (2, 0x200), (3, 64)])
     (s.x 1).toNat + (s.x 3).toNat ≤ s.h.winBytes ∧ ok? (s.buildCmd 0 (trotWords ⟨0, 1, 2, 3, 0, 0, 0, 0⟩ (s.x 1) (s.x 2) (s.x 3))) = true) := by
  decide
theorem witness_Engq : (copier.x 2).toNat ≤ 256 ∧ 1 < copier.h.cfg.vnr ∧ Sparse.get false copier.h.vec.verr 1 = false ∧
    okAnd (copier.buildAll (copier.engqCommands ⟨3, 1, 2, 0, 0, 0, 0, 0⟩ 1)) (fun l => l.map (·.1) == [0]) = true := by decide
theorem test_engq : next? (exec (.engq ⟨3, 1, 2, 0, 0, 0, 0, 0⟩) copier)
    (fun t => Sparse.get 0 t.h.vec.m 3 = 1 && (t.cmdAt 0 0).isSome) = true := by decide

/-- The core's queue holds a command in entry 0; eight bytes lie at its source, and an arrival word at 0x2400. -/
def working (c : Cmd) : State :=
  { bytes (bytes placed 0x2000 (toBytes 8 0x1122334455667788)) 0x2400 (toBytes 8 100 ++ toBytes 8 7) with cores := [(0, { eng := [(0, some c)] })] }
/-- The command with its bytes read. -/
def cmd1 : Cmd := { cmd0 with readDone := true, bytes := (List.range 16).map fun i => BitVec.ofNat 8 i }
/-- Where no strip that runs has its window checked, no access of a device to tile memory is. -/
theorem unchecked {s : State} (h : (s.running.all fun p => !p.2.sys.rchk) = true) (pa : Nat) : s.windowChecked pa = false := by
  unfold State.windowChecked
  split
  · rw [List.any_eq_false]
    intro p hp
    have := List.all_eq_true.1 h p hp
    simp_all
  · rfl
/-- A range that no access of a device to it fails in, by its parts. -/
theorem fine_of {s : State} {a : Agent} {place key lo len : Nat} {chk : Nat → Bool} {wr : Bool}
    (h : ∀ d, d < len + 1 → ∀ n, n < len + 1 → d + n ≤ len → (s.deviceFault a place chk wr key (lo + d) n).isNone = true) :
    ∀ pa n, lo ≤ pa → pa + n ≤ lo + len → s.deviceFault a place chk wr key pa n = none := by
  intro pa n h1 h2
  have := h (pa - lo) (by omega) n (by omega) (by omega)
  rwa [show lo + (pa - lo) = pa by omega, Option.isNone_iff_eq_none] at this
/-- The fault of a command of the strip. -/
def fault0 : CmdFault := { code := 0x40, sub := 1, addr := 0, rd := true, by_ := ⟨0, 0, 0, 0, 0x1000, 0⟩ }
theorem witness_Engine : (working cmd0).cmdAt 0 0 = some cmd0 ∧ cmd0.frozen = false ∧ cmd0.readDone = false ∧
    Sparse.wf 0#8 cmd0.stage = true ∧ ((working cmd0).partFault cmd0 0 false 0 16).isNone = true ∧
    ((working cmd1).partFault cmd1 0 true 0 16).isNone = true ∧ cmd1.done < cmd1.bytes.length ∧
    (let c := { cmd1 with aw := some 0x2400 }
     let t := ((working c).landPart c 0 16).clearPoison ((List.range 16).map fun j => c.byteAddr true j)
     t.rangePoisoned 0x2400 16 = false ∧ (raceOf t (c.awEvent t 0 0x2400 true false)).isNone = true) ∧
    (raceOf (working cmd1) (cmd1.awEvent (working cmd1) 0 0x2400 false false)).isNone = true ∧
    cmd0.block false 0 16 = 16 ∧ cmd1.block true 0 16 = 16 ∧ cmd0.lastPart false 0 16 = true ∧ cmd1.lastPart true 0 16 = true ∧
    ({ cmd1 with done := 16 } : Cmd).done = cmd1.bytes.length ∧
    ({ cmd1 with done := 16, fault := some fault0 } : Cmd).fault.isSome = true := by decide
/-- A copy of 24 bytes, whose block has a second granule. -/
def cmd2 : Cmd := { cmd0 with len := 24 }
theorem witness_Granules : cmd2.block false 0 24 = 24 ∧ cmd2.lastPart false 0 24 = false ∧ cmd2.nextPart false 0 24 = List.range 16 ∧
    ((working cmd2).partFault cmd2 0 false 0 24).isNone = true ∧
    (let c := { cmd1 with len := 24, bytes := (List.range 24).map fun i => BitVec.ofNat 8 i }
     c.block true 0 24 = 24 ∧ c.lastPart true 0 24 = false ∧ ((working c).partFault c 0 true 0 24).isNone = true) ∧
    (let c := { cmd2 with part := 1 }
     c.lastPart false 0 24 = true ∧ c.nextPart false 0 24 = (List.range 8).map (16 + ·) ∧
       ((working c).partFault c 0 false 0 24).isNone = true) := by decide
theorem test_copy_reads : next? (exec .copy (working cmd0)) (fun t => (t.cmdAt 0 0).map (fun c => (c.bytes.take 2, c.readDone)) = some ([0x88, 0x77], true)) = true := by
  decide
/-- R324: the first granule is read, and no byte has joined the bytes of the copy yet. -/
theorem test_copy_granule : next? (exec .copy (working cmd2)) (fun t => (t.cmdAt 0 0).map (fun c => (c.bytes.length, c.part, Sparse.get 0 c.stage 0, c.readDone)) =
    some (0, 1, 0x88, false)) = true := by decide
/-- R99: the arrival word counts the 16 bytes that land. -/
theorem test_block_lands : next? (exec .engineBlockLand (working { cmd1 with aw := some 0x2400 }))
    (fun t => t.bytesAt 0x2100 3 = [0, 1, 2] && (t.arrivalAt 0x2400).count = 16) = true := by decide
/-- The rotation of core j of a cluster, whose block is the byte that its number gives. -/
def turned (j : Nat) : Cmd := { cmd0 with op := 3, len := 1, src := ⟨0x2000 + 64 * j, 0⟩, id := j }
/-- The four cores of a cluster, each with its rotation as f leaves it. -/
def rotating (f : Cmd → Cmd) : State :=
  (List.range 4).foldl (fun s j => bytes s (0x2000 + 64 * j) [BitVec.ofNat 8 (j + 1)])
    { placed with cores := (List.range 4).map fun j => (j, { eng := [(0, some (f (turned j)))], rots := [0] }) }
/-- The rotation has begun, with core 3 before it. -/
def begun (c : Cmd) : Cmd := { c with peer := some ((turned 3).issuer 0) }
/-- Its block has been read. -/
def sentOff (c : Cmd) : Cmd := { begun c with bytes := [BitVec.ofNat 8 (c.id + 1)], sent := true }
theorem witness_Rotation : ∀ f ∈ [id, begun, sentOff], ∀ j : Fin 4,
    (rotating f).rotation ((rotating f).input.who / 16 * 64 + (rotating f).input.who % 16 * 4 + j.val) = some (0, f (turned j.val)) := by
  decide
theorem witness_Rotation_reads : (turned 0).peer = none ∧ (begun (turned 0)).sent = false ∧ (begun (turned 0)).peer ≠ none ∧
    ((rotating begun).partFault (begun (turned 0)) 0 false 0 1).isNone = true ∧ (begun (turned 0)).block false 0 1 = 1 ∧
    (sentOff (turned 0)).sent = true ∧ (sentOff (turned 0)).readDone = false := by decide
/-- R101: core 0 receives from core 3. -/
theorem test_rotation : next? (exec .rotation (rotating sentOff)) (fun t => ((List.range 4).map fun j => (t.cmdAt j 0).map (·.bytes)) =
    [some [4], some [1], some [2], some [3]]) = true := by decide

/-! ## Merge sessions -/

/-- A strip on a bandwidth die whose tile holds two coordinates in v1 and two values in v2, with tensors of coordinates and values. -/
def merging : State :=
  let s := (onHart State.reset fun h => { h with die := 4 }).withFetchWord 64 0
  let k := fun (base fmt : Nat) => BitVec.ofNat 512 (ofBytes (wordsBytes [2 ^ 62 + base, 2 ^ 63 + fmt, 4, 0, 0, 0, 0, 0]))
  onHart (regs (bytes s 0x2000 (wordsBytes [2 * 2 ^ 49, 0, 0, 0, 0, 0, 0, 0])) [(1, 0x2000), (6, 256), (7, 2 * 2 ^ 32)]) fun h =>
    { h with part := 0xE0, winPages := 1, cfg := { h.cfg with vl := 2, vtype := .z64 }, vec := { h.vec with v := [(1, 5 + 9 * 2 ^ 64), (2, 7 + 8 * 2 ^ 32)] }, tensors := [(1, k 0 8), (2, k 0x100 9)] }
/-- A session of the strip on network 0, in pull mode, whose word is 256. -/
def sess (f : Session → Session) : State :=
  { merging with nets := [(16, ⟨1, some (f { id := 0, die := 4, net := 0, launch := 0, strip := 0, hart := merging.h.key, ctl := 2 * 2 ^ 49, outc := {},
                                               outv := {}, outr := {}, spill := {}, locs := [0, 0, 0, 0], nrows := 0, kmax := 0, outmax := 0, splen := 0,
                                               tables := [], ranges := [] })⟩)] }
theorem witness_Mgcfg : isBandwidth merging.h.die = true ∧ (merging.x 1).toNat % 64 = 0 ∧
    (∃ ps, merging.canAccess { rd := true, cls := .vector } false (merging.x 1).toNat 64 ps) ∧
    okAnd (resolveAccess merging merging.h merging.h.plv { rd := true, cls := .vector } false (merging.x 1).toNat 64) (fun ps =>
      let r := readPieces merging merging.h { rd := true, cls := .vector } ps
      let ws := (List.range 8).map (bytesWord r.1)
      (descCauses ws).isEmpty && r.2.freeNet 4 == some 0 && ((r.2.sessionPlaces ws).map errs).flatten.isEmpty &&
        (r.2.spillCauses ws).isEmpty) = true ∧
    (let s : State := { merging with nets := (List.range 4).map fun n => (16 + n, ⟨1, (Sparse.get {} (sess id).nets 16).sess⟩) }
     s.freeNet 4 = none) := by
  refine ⟨by decide, by decide, canAccess_of (by decide), by decide, by decide⟩
theorem witness_NetworkGrant :
    let p : Pending := ⟨.mgcfg ⟨5, 1, 0, 0, 0, 0, 0, 0⟩, 0x1000, [0x2000], [2 * 2 ^ 49, 0, 0, 0, 0, 0, 0, 0], 0, 0, 2, 1, .app, 0⟩
    let s : State := { onHart merging fun h => { h with vq := some p } with netWait := [(4, [merging.h.key])], input := { who := 4 } }
    s.freeNet s.input.who = some 0 ∧ Sparse.get [] s.netWait 4 = [s.h.key] ∧ (s.hartAt s.h.key).live = true ∧ (s.hartAt s.h.key).vq = some p ∧
      (let t := ({ s with netWait := Sparse.set [] s.netWait 4 [] }).select s.h.key
       ok? ((t.backTo p).openSession 5 p.vs 0) = true) := by decide
theorem witness_Mgfeed : (mgfeedFields ⟨7, 6, 1, 2, 0, 0, 0, 0⟩).isEmpty = true ∧
    (match (sess id).liveSession ((sess id).x 6) with
      | some (key, x) => key == 16 && !x.frozen && !x.failed && decide (x.pend < 32) && ((sess id).streamCauses x 0).isEmpty &&
          ok? ((sess id).buildFeed ⟨7, 6, 1, 2, 0, 0, 0, 0⟩ x ((sess id).x 7))
      | none => false) = true := by decide
theorem witness_MgfeedAccept :
    let p : Pending := ⟨.mgfeed ⟨7, 6, 1, 2, 0, 0, 0, 0⟩, 0x1000, [256, 2 * 2 ^ 32], [], 0, 0, 2, 1, .app, 0⟩
    let s : State := { onHart (sess id) fun h => { h with vq := some p } with input := { who := merging.h.key } }
    let u := s.backTo p
    s.input.who = s.h.key ∧ s.h.live = true ∧ s.h.vq = some p ∧
      (match u.liveSession 256 with
        | some (_, x) => (u.streamCauses x 0).isEmpty && ok? (u.buildFeed ⟨7, 6, 1, 2, 0, 0, 0, 0⟩ x (2 * 2 ^ 32)) && decide (x.pend < 32)
        | none => false) = true := by decide
/-- A feed of two tokens from 0x2000 and 0x2100 for stream 0. -/
def feed0 : Feed := { stream := 0, launch := 0, strip := 0, id := some 0, n := 2, lb := ⟨0x2000, 0⟩, lc := ⟨0x2100, 0⟩ }
theorem witness_FeedQueueFull : (match (sess fun x => { x with feeds := List.replicate 32 feed0 }).sessionAt 16 with | some x => decide (32 ≤ x.pend) | none => false) = true := by
  decide
theorem witness_MgpushMgpull : merging.h.fits [.z64] [] [1, 2] ∧ merging.h.fits [.z64] [3, 4] [] ∧
    merging.h.maskFine (merging.h.fxMask ⟨3, 6, 5, 0, 0, 0, 0, 0⟩) ∧
    (match (sess fun x => { x with outq := [(3, 4), (5, 6)] }).liveSession 256 with
      | some (_, x) => x.out == 2 && decide (2 ≤ x.outq.length) && (sess id).owns x
      | none => false) = true := by
  refine ⟨by unfold Hart.fits; decide, by unfold Hart.fits; decide, by unfold Hart.maskFine; decide, by decide⟩
theorem test_mgpush : next? (exec (.mgpush ⟨0, 6, 1, 2, 0, 0, 0, 0⟩) (sess id))
    (fun t => ((t.sessionAt 16).map fun x => x.feeds.map (·.staged)) = some [[(5, 7), (9, 8)]]) = true := by decide
theorem test_mgpull : next? (exec (.mgpull ⟨3, 6, 5, 0, 0, 0, 0, 0⟩) (sess fun x => { x with outq := [(3, 4), (5, 6)] }))
    (fun t => t.h.getX 5 = 2 && t.h.img 3 = 3 + 5 * 2 ^ 64 && t.h.img 4 = 4 + 6 * 2 ^ 32) = true := by decide
theorem witness_MgcloseComplete :
    let p : Pending := ⟨.mgclose ⟨5, 6, 0, 0, 0, 0, 0, 0⟩, 0x1000, [256], [], 0, 0, 2, 1, .app, 0⟩
    let s : State := { onHart (sess fun x => { x with closing := true }) fun h => { h with vq := some p } with input := { who := 16 } }
    (match s.sessionAt 16 with
      | some x => x.closing && !x.stopped && x.feeds.isEmpty && s.hartOf x.launch x.strip == some s.h.key && !(Session.finish (s, x)).2.failing
      | none => false) = true ∧ (s.hartAt s.h.key).vq = some p ∧ (256#64).toNat = (Sparse.get {} s.nets 16).seq % 256 * 256 + 16 % 4 := by
  decide
/-- R301: MGSTAT of field 1 counts the tokens that entered. -/
theorem test_mgstat : next? (exec (.mgstat ⟨5, 6, 0, 0, 0, 0, 0, 1⟩) (sess fun x => { x with inCount := 12 })) (fun t => t.h.getX 5 = 12) = true := by
  decide
/-- The session with that feed. -/
def feeding : State := { sess fun x => { x with feeds := [feed0] } with input := { who := 16 } }
theorem witness_FeedRead : (match feeding.sessionAt 16 with | some x => x.nextFeed 0 == some 0 && !x.stopped | none => false) = true ∧
    feed0.grans = [] ∧ (∀ pa, feeding.windowChecked pa = false) ∧
    ∀ x, feeding.sessionAt 16 = some x → ∀ src pa n, src < 2 → (feed0.source src).1.pa ≤ pa →
      pa + n ≤ (feed0.source src).1.pa + (feed0.source src).2.2 →
      feeding.deviceFault x.agent x.place feeding.windowChecked false (feed0.source src).1.key pa n = none := by
  refine ⟨by decide, rfl, unchecked (by decide), fun x hx src pa n hs => ?_⟩
  obtain ⟨y, hy⟩ : ∃ y, feeding.sessionAt 16 = some y := Option.isSome_iff_exists.1 (by decide)
  rcases (show src = 0 ∨ src = 1 by omega) with rfl | rfl
  all_goals
    cases hx
    exact fine_of (by decide +kernel) pa n
theorem witness_TokenEnter :
    let s : State := { sess fun x => { x with feeds := [{ feed0 with staged := [(4, 1)] }], buf := [⟨3, 0, 1⟩, ⟨4, 0, 1⟩], last := [(0, 2)] } with input := { who := 16 } }
    (match s.sessionAt 16 with
      | some x => (x.feeds.findIdx? fun g => g.stream = 0) == some 0 && decide (Sparse.get 0 x.last 0 ≤ 4 + 1) && decide (x.buf.length < 65536) &&
          !x.stopped && !x.failed && x.fault.isNone && x.buf.map (fun b => (b.c, b.s)) == [(3, 1), (4, 1)]
      | none => false) = true := by decide
/-- R287: of two tokens with one coordinate, the one of the lower stream comes first. -/
theorem test_token_enter : next? (exec .mergeTokenEnter { sess fun x => { x with feeds := [{ feed0 with staged := [(4, 1)] }], buf := [⟨3, 0, 1⟩, ⟨4, 0, 1⟩], last := [(0, 2)] } with input := { who := 16 } })
    (fun t => ((t.sessionAt 16).map fun x => x.buf.map fun b => (b.c, b.s)) = some [(3, 1), (4, 0), (4, 1)]) = true := by decide
theorem witness_MergePass :
    let s : State := { sess fun x => { x with closing := true, spilled := true } with input := { who := 16 } }
    (match s.sessionAt 16 with
      | some x => !x.stopped && !x.failed && x.closing && x.spilled && !x.merged && x.feeds.isEmpty && x.buf.isEmpty &&
          decide (x.runs.length ≤ 16) && (Session.passStep (s, x)).2.fault.isNone
      | none => false) = true := by decide
theorem witness_MergeFail :
    let s : State := { sess fun x => { x with fault := some { code := 0x41, sub := 1, addr := 5, pc := 0x1000, scope := 0 } } with input := { who := 16 } }
    (match s.sessionAt 16 with | some x => !x.frozen && !x.failed && x.fault.isSome && s.hartOf x.launch x.strip == some s.h.key | none => false) = true ∧
      (s.hartAt s.h.key).launch ≠ none ∧ (s.hartAt s.h.key).held.length < 4 := by decide

/-! ## Walks -/

/-- A walk of a strip's command, in a region of 64 bytes at 0x2000 that begins with 0x80 and 5. -/
def walking : State :=
  let s := bytes placed 0x2000 (toBytes 8 0x80 ++ toBytes 8 5)
  { s with
    cores := [(0, { eng := [(0, some { cmd0 with op := 4, len := 32, dst := ⟨0x2400, 0⟩, walk := some 0 })] })]
    h := { s.h with walks := { s.h.walks with outst := 1 } }
    wk := { active := true, base := 0x2000, len := 64, rd := true, prog := [0], w := (Vector.replicate 8 (0 : Word)).set 1 3 } }
theorem witness_WalkRules : walking.wk.active = true ∧ walking.wk.frozen = false ∧ walking.wk.ended = none ∧
    (walking.wk.after (.walkAddi 2 1 5)).isSome = true ∧ ({ walking.wk with steps := 64 } : Walk).limit ≤ ({ walking.wk with steps := 64 } : Walk).steps ∧
    (walking.wk.w[(0#3).toNat] + (8#15).setWidth 64).toNat + 8 ≤ walking.wk.len ∧
    (walking.deviceFault walking.wk.agent walking.wk.core (walking.walkChecked walking.wk) false walking.wk.key (walking.wk.base + 8) 8).isNone = true ∧
    walking.wk.len < (walking.wk.w[(0#3).toNat] + (60#15).setWidth 64).toNat + 8 ∧
    0 + 8 * (3#2).toNat ≤ walking.wk.len ∧ ({ walking.wk with np := 3 } : Walk).np = 3 ∧ walking.wk.rd = true ∧
    (walking.deviceFault walking.wk.agent walking.wk.core (walking.walkChecked walking.wk) false walking.wk.key
      (walking.wk.base + 0) (8 * (3#2).toNat)).isNone = true ∧
    walking.wk.len < (walking.wk.w[(0#3).toNat] + (60#15).setWidth 64).toNat + 8 * (3#2).toNat := by decide
/-- R312: LDF of a byte sign-extends it where X is 1. -/
theorem test_ldf : next? (exec (.walkLdf 2 0 0 1 0) walking) (fun t => t.wk.w[2] = 0xFFFFFFFFFFFFFF80 && t.wk.rpc = 1) = true := by decide
theorem test_hash : next? (exec (.walkHash 2 1 8) walking) (fun t => t.wk.w[2] = 0xDA) = true := by decide
theorem test_cmpi : next? (exec (.walkCmpi 1 2 (BitVec.ofInt 15 (-1))) walking) (fun t => t.wk.c = false) = true := by decide
theorem test_emitr : next? (exec (.walkEmitr 0 2 0) walking) (fun t => t.wk.np = 2 && t.wk.pay[1] = 5) = true := by decide
/-- A walk command accepted, its home engine's die up. -/
def walkWaits : State :=
  { (working { cmd0 with op := 4, len := 32, dst := ⟨0x2400, 0⟩, srcWord := 2 ^ 62 + 24, words := [0, 0, 0, 0, 0, 11, 12, 13], rules := [0] }) with dies := [(0, { up := true }), (4, { up := true })] }
theorem witness_Walk : homeEngine 0x2000 = 16 ∧ (walkWaits.cmdAt 0 0).isSome = true ∧ walkWaits.engineLoad 16 < 1024 ∧
    (walkWaits.dieAt 4).pkd = false ∧ (walkWaits.dieAt 4).busy = false ∧ (walkWaits.dieAt 4).up = true := by decide
theorem test_walk_starts : next? (exec .walk walkWaits) (fun t => (t.walkAt 0).w[1] = 11 && (t.walkAt 0).active) = true := by decide
theorem witness_WalkEnds : (walking.walkAt 0).active = true ∧ ((walking.walkCmd walking.wk).map fun c => (c.aw, c.dst)) = some (none, ⟨0x2400, 0⟩) ∧
    ((walking.walkCmd walking.wk).map fun c => (walking.deviceFault walking.wk.agent walking.wk.core (walking.cmdChecked c) true 0 0x2400 32).isNone) = some true ∧ walking.hartOf 0 0 = some 0 ∧
    (walking.hartAt 0).held.length < 4 ∧ ({ walking.wk with rpc := 1 } : Walk).ending.isSome = true ∧
    ({ walking.wk with executed := 1040 } : Walk).ending.isSome = true ∧ homeOf 0x2400 = .dram 0 := by decide
/-- The walk with the first granule of its record written, its command with or without an arrival word in tile memory. -/
def ending (aw : Option Nat) : State :=
  { walking with
    cores := [(0, { eng := [(0, some { cmd0 with op := 4, len := 32, dst := ⟨0x2400, 0⟩, walk := some 0, aw := aw })] })]
    wk := { walking.wk with half := true } }
theorem witness_WalkRecord : ∀ aw ∈ [none, some (tileBase 0 0)], (ending aw).walkAt 0 = { walking.wk with half := true } ∧
    (((ending aw).walkCmd (ending aw).wk).map fun c =>
      (((ending aw).deviceFault walking.wk.agent 0 (fun _ => false) true 0 0x2410 16).isNone,
        (let u := ((ending aw).store 0 0x2410 ((walking.wk.result 1).drop 16)).clearPoisonRange 0x2400 32
         aw.all fun pa => decide (pa % 16 = 0) && isTile pa && ((ending aw).reachRange 0 pa 16).isNone && !u.rangePoisoned pa 16 &&
          (raceOf u (c.awEvent u 0 pa true (decide (((u.arrivalAt pa).add 32).gen ≠ (u.arrivalAt pa).gen)))).isNone))) =
      some (true, true) ∧ ((ending aw).coreAt 0).windows = [] := by decide
/-- The walk whose record has no place in the package. -/
def unwritten (aw : Option Nat) : State :=
  { walking with
    cores := [(0, { eng := [(0, some { cmd0 with op := 4, len := 32, dst := ⟨0x070000000000, 0⟩, walk := some 0, aw := aw })] })] }
theorem witness_WalkLost : ∀ aw ∈ [none, some (tileBase 0 0)], ((unwritten aw).walkCmd (unwritten aw).wk).map (fun c =>
    (match (unwritten aw).deviceFault walking.wk.agent 0 ((unwritten aw).cmdChecked c) true 0 c.dst.pa 32 with
      | some (some sub, u) => sub == 0x20 && aw.all fun pa => !u.rangePoisoned pa 16 && (raceOf u (c.awEvent u 0 pa false false)).isNone
      | _ => false)) = some true := by decide
/-- R314: the first step of a miss writes OUTC 1 and the walk goes on ending. -/
theorem test_walk_miss : next? (exec .walkMiss walking) (fun t => t.wk.half && t.h.walks.outst = 1 && t.bytesAt 0x2400 2 = [1, 0]) = true := by
  decide
/-- R315, R319: the second counts the miss, and the arrival word gains 32. -/
theorem test_walk_ends : next? (exec .walkMiss (ending (some (tileBase 0 0))))
    (fun t => t.h.walks.missed = 1 && t.h.walks.outst = 0 && !t.wk.active && (t.arrivalAt (tileBase 0 0)).count = 32) = true := by decide
/-- R450: a record that cannot be written is reported, and FLT is set. -/
theorem test_walk_lost : next? (exec .walkMiss (unwritten (some (tileBase 0 0)))) (fun t => t.h.walks.missed = 1 &&
    t.h.held.map (fun r => (r.code, r.sub)) = [(0x44, 0x20)] && (t.arrivalAt (tileBase 0 0)).flt) = true := by decide
/-- The program JMP 0 at 0x2000. -/
def program : State := regs (bytes placed 0x2000 (toBytes 4 0xA0000000)) [(1, 0x2000)]
theorem witness_Tvld : (program.x 1).toNat % 64 = 0 ∧ (∃ ps, program.canAccess { rd := true, cls := .vector } false (program.x 1).toNat 4 ps) ∧
    ruleOk 1 0xA0000000 = true ∧ program.h.launch = some 0 ∧ (program.launches[0]?).isSome = true :=
  ⟨by decide, canAccess_of (by decide), by decide, by decide, by decide⟩
theorem test_tvld : next? (exec (.tvld ⟨0, 1, 0, 0, 0, 0, 9, 1⟩) program)
    (fun t => (t.launches[0]?.map fun x => Sparse.get [] x.slots 9) = some [0xA0000000]) = true := by decide
theorem test_tvstat : next? (exec (.tvstat ⟨5, 0, 0, 0, 0, 0, 0, 0⟩) walking) (fun t => t.h.getX 5 = 1) = true := by decide

/-! ## Launches, placement, swapping -/

/-- The launch of the placed strip changed, with an input that names launch 0. -/
def launched (f : Launch → Launch) : State := { placed with launches := placed.launches.map f }
/-- A launch that waits for the record at 0x2000. -/
def waits : State := bytes (launched fun x => { x with state := .waiting, preds := [0x2000] }) 0x2048 [5]
theorem witness_LaunchStates : (waits.launches[0]?.map fun x => okAnd (waits.predSatisfied x 0x2000) id) = some true ∧
    ((launched fun x => { x with state := .waiting, preds := [2 ^ 40] }).launches[0]?.map fun x => (waits.predFault { x with preds := [2 ^ 40] }).isSome) = some true ∧
    (let s := onHart (launched fun x => { x with nexit := 1 }) fun h => { h with launch := none }
     s.launchBusy 0 = false ∧ (s.launches[0]?.map fun x => (x.state, x.nexit == x.nstrip)) = some (.running, true)) := by decide +kernel
/-- Requests of launch control for the record at 0 of queue 0. -/
def requested (r : Request) (st : LState) : State :=
  let s := launched fun x => { x with state := st }
  { s with hub := { s.hub with requests := [r] } }
theorem witness_LaunchControl : (((requested (.suspend 0 0) .running).takeRequest fun r => match r with | .suspend q a => some (q, a) | _ => none).map (·.1)) = some (0, 0) ∧
    (((requested (.resume 0 0) .suspended).takeRequest fun r => match r with | .resume q a => some (q, a) | _ => none).map (·.1)) = some (0, 0) ∧
    (((requested (.abort 0 0) .running).takeRequest fun r => match r with | .abort q a => some (q, a) | _ => none).map (·.1)) = some (0, 0) ∧
    ((placed.controlled 0 0).map (·.1)) = some 0 := by decide
theorem test_retire : next? (exec .launchRetire (onHart (launched fun x => { x with nexit := 1 }) fun h => { h with launch := none }))
    (fun t => (t.launches[0]?.map (·.state)) = some .retired) = true := by decide
theorem test_suspend : next? (exec .launchSuspend (requested (.suspend 0 0) .running))
    (fun t => t.h.preempt && (t.launches[0]?.map (·.state)) = some .suspended) = true := by decide

/-- A ready launch of one strip with a window of two pages, and no strip on a hart. -/
def ready : State := onHart (launched fun x => { x with state := .ready, tmem := 2, stksz := 1, stkb := 0x9000, argx := 77 }) fun h => { h with launch := none }
theorem witness_Placement : ∃ w g ps x, ready.chosen ready.input.at_ = some (w, g, ps) ∧ w.context = none ∧ ready.launches[w.launch]? = some x ∧
    (ps.map fun p => p.2.1).Nodup := ⟨_, _, _, _, rfl, rfl, rfl, by decide⟩
theorem test_place : ∃ t, exec .stripPlace ready = .next t ∧ (t.hartAt 0).pc = 0x1000 ∧ (t.hartAt 0).getX 2 = 0xA000 ∧ (t.hartAt 0).getX 6 = 77 :=
  ⟨_, rfl, rfl, rfl, rfl⟩
/-- A waiting launch of a high priority for whose tenant no core stands open: a strip of a lower one runs on each. -/
def crowded : State :=
  let s := (List.range 6).foldl (fun s d => s.updDie d fun x => { x with up := decide (d = 0), tenants := (List.range 48).map fun c => (c, 7) }) placed
  { s with launches := placedLaunch :: [{ placedLaunch with recAddr := 0x3000, state := .ready, prio := 7, pw := 3 }] }
/-- The strip that runs is a victim of a higher priority where it has stood long enough, which no value says (log entry 6). -/
theorem crowded_victim (h : 2 ≤ Config.elapsed (crowded.placedTime crowded.h) crowded.time) (n : Nat) (ds : List Nat)
    (hd : ds.contains crowded.h.die = true) :
    crowded.isVictim (min 8 (7 + n)) [3] crowded.h = true ∧
      crowded.firstVictim (crowded.running.filter fun p => crowded.isVictim (min 8 (7 + n)) [3] p.2 && ds.contains p.2.die) =
        some (0, crowded.h) := by
  have v : crowded.isVictim (min 8 (7 + n)) [3] crowded.h = true := by
    have p : crowded.prioOf crowded.h = 0 := rfl
    simp only [State.isVictim, Bool.and_eq_true, decide_eq_true_eq]
    exact ⟨⟨by decide, by omega⟩, h⟩
  have r : crowded.running = [(0, crowded.h)] := rfl
  refine ⟨v, ?_⟩
  rw [r, List.filter_cons_of_pos (by simp only [v, hd, Bool.and_true])]
  rfl
theorem witness_PreemptVictim : ∃ w x, (crowded.waiters.find? fun w => w.launch = 1 && w.strip = 0) = some w ∧
    crowded.launches[w.launch]? = some x ∧ x.gang = false ∧ w.context = none ∧ crowded.placesFor w 0 = none ∧ x.pw = 3 ∧
    w.ep = min 8 (7 + Config.elapsed w.eligible crowded.time) ∧
    (crowded.eligibleDies x (x.needClass.getD 0)).contains crowded.h.die = true :=
  ⟨_, _, rfl, rfl, rfl, rfl, rfl, rfl, rfl, by decide⟩

/-- A strip asked to leave, its die with a save slot at 0x100000. -/
def leaving : State := onHart ({ placed with dies := [(0, { up := true, poolBase := 0x100000, nslot := 4 })] }) fun h => { h with preempt := true }
theorem witness_SwapOut : leaving.input.who = 0 ∧ (leaving.hartAt 0).key = 0 ∧ (leaving.hartAt 0).launch = some 0 ∧ leaving.swapReady 0 = true ∧ leaving.wakeNow 0 = none ∧
    (leaving.hartAt 0).chain.run.isNone = true := by decide +kernel
/-- A strip asked to leave waits at a barrier whose phase has moved on. -/
def waitOver : State := { onHart barred fun h => { h with preempt := true, wait := some (.bwait ⟨6, 3, 0, 0⟩) } with
  dies := [(0, { up := true, poolBase := 0x100000, nslot := 4 })] }
theorem witness_SwapOut_waitOver : waitOver.swapReady 0 = true ∧ (waitOver.wakeNow 0).isSome = true := by decide +kernel
/-- R46: the wait completes before the strip leaves. -/
theorem test_swap_out_waitOver : next? (exec .swapOut waitOver) (fun t => t.h.launch == some 0 && t.h.wait.isNone && t.h.getX 6 == 4) = true := by
  decide +kernel
theorem witness_Requeue : let s := onHart leaving fun h => { h with lacks := some (2, 0) }
    (s.hartAt 0).lacks = some (2, 0) ∧ (s.select 0).canSave = true ∧ (s.select 0).requeueSubs 2 0 = [] ∧
      (s.select 0).requeueSubs 2 2 = [2] := by decide +kernel
theorem test_swap_out : next? (exec .swapOut leaving) (fun t => t.h.launch.isNone && (t.contexts.map fun c => (c.live, c.launch, c.hart.pc)) = [(true, 0, 0x1000)]) = true := by
  decide +kernel
/-- The strip as a context whose slot at 0x100000 has its header. -/
def swapped : State :=
  let s := bytes { leaving with h := {}, launches := leaving.launches.map fun x => { x with placedCount := 1 } } 0x100000 (wordsBytes [0, 0, 0, 2 ^ 63 + 12])
  { s with contexts := [{ hart := placed.h, mu := none, die := 0, slotNo := 0, launch := 0, strip := 0, bars := [], cls := 0, base := 0x100000 }] }
theorem witness_StripResume : (match swapped.chosen swapped.input.at_, swapped.contexts[0]? with
    | some (w, _, [(i, _, _)]), some c => (match swapped.launches[w.launch]? with
      | some x => w.context == some 0 && swapped.contextOf w.launch i == some 0 && c.launch == w.launch && x.placeable &&
          (swapped.restoreFault c x).isNone
      | none => false)
    | _, _ => false) = true := by decide +kernel

theorem witness_Freeze : placed.input.which = 0 ∧ placed.input.who = placed.h.key ∧ placed.h.launch = some 0 ∧ placed.h.frozen = false ∧
    (placed.launches[0]?.map (·.state)) = some .running ∧ ((working cmd0).cmdAt 0 0) = some cmd0 ∧
    ({ which := 1 } : Input).which = 1 ∧ placed.hub.hostFrozen = false := by decide
theorem witness_Watchdog :
    let s : State := { onHart placed fun h => { h with wait := some (.wfi ⟨5, 0, 0, 0⟩) } with hub := { placed.hub with wdog := 5 } }
    (s.hartAt s.input.who).endlessWait.isSome = true ∧ s.hub.wdog ≠ 0 ∧ (s.hartAt 0).stalled = false ∧ (s.hartAt 0).held.length < 4 := by decide
theorem witness_HeldTrap :
    let s := onHart exec0 fun h => { h with held := [{ code := 0x40 }] }
    s.input.who = s.h.key ∧ s.h.takesHeld = true ∧ (s.h.held.map (·.code)) = [0x40] := by decide
theorem test_freeze : next? (exec .freeze placed) (fun t => t.h.frozen && (t.launches[0]?.map (·.state)) = some .faulted) = true := by decide
/-- A master reaches a range of the address 0x123 in writing. -/
def reaching (s : State) (which who : Nat) : State := { s with input := { which := which, who := who, addr := 0x123, value := 2 } }
theorem witness_FreezeWalk : (walking.walkAt 0).active = true ∧ (walking.walkAt 0).frozen = false ∧ (walking.walkCmd walking.wk).isSome = true ∧
    (walking.launches[0]?.map (·.state)) = some .running ∧
    ((sess id).sessionAt 16).map (fun y => (y.frozen, (((sess id).launches[y.launch]?).map (·.state)))) = some (false, some .running) := by decide
/-- R396: a walk and its command are frozen, and so is a session. -/
theorem test_freeze_walk : next? (exec .freeze (reaching walking 2 0)) (fun t => t.wk.frozen && (t.cmdAt 0 0).any (·.frozen) &&
    (t.launches[0]?.map (·.state)) = some .faulted) = true := by decide
theorem test_freeze_session : next? (exec .freeze (reaching (sess id) 3 16)) (fun t => (t.sessionAt 16).any (·.frozen) &&
    (t.launches[0]?.map (·.state)) = some .faulted) = true := by decide
/-- R392: the record of a write that no table grants: VIOLATION with FRZ, the address, and WR. -/
theorem test_violation : (violation { code := 0 } (reaching walking 2 0).input).words.map (· % 2 ^ 62) =
    [0x0140000000000073, 0xFF0000, 0, 0, 0x123, 0x2000000000000000, 0, 0] := by decide
theorem test_held_trap : next? (exec .impreciseTrap (onHart exec0 fun h => { h with held := [{ code := 0x40, sub := 1, addr := 9 }] }))
    (fun t => t.h.pc = 0x1800 && t.h.sys.tcause = 0x140 && t.h.sys.tval = 9 && t.h.held.isEmpty) = true := by decide

/-! ## The hub and the host -/

/-- The state after reset with an input. -/
def asked (i : Input) : State := { State.reset with input := i }
theorem witness_HubRegisters : homeOf (asked { addr := 0x060000040000, value := 2000 }).input.addr = .hub ∧
    (asked { addr := 0x060000040000 }).input.addr % 8 = 0 ∧ (2 ^ 63 : Nat) < 2 ^ 64 ∧ (asked { who := 5 }).input.who < 6 := by decide
/-- R371: CEIL is held at 1,100 at most. -/
theorem test_ceil : next? (exec .ceilWrite (asked { value := 2000 })) (fun t => t.hub.power.ceil = 1100) = true := by decide
theorem test_ring_config : next? (exec .faultRingConfigWrite (asked { who := 64, value := 0x2000000000010001 }))
    (fun t => (t.ring 64).logn = 2 && (t.ring 64).base = 0x10000 && (t.ring 64).en) = true := by decide
/-- R358: memory that stays in its channel is kept, whatever the commit changes elsewhere. -/
theorem witness_RegionCommit : inDram 2 0x2000 = false ∧ channelOf (State.reset.dieAt 0).active 0x2000 = channelOf (State.reset.dieAt 0).shadow 0x2000 := by
  decide
theorem test_region_commit : next? (exec .regionTableCommit (asked { who := 2 })) (fun t => (t.dieAt 2).ver = 1) = true := by decide
/-- The keys of slot 5 are written, and its commit or clear asked for. -/
def keyed (r : Request) : State :=
  { State.reset with hub := { State.reset.hub with keys := [(0, { key := some 0 }), (5, { kd := 7, kt := 8 })], requests := [r] } }
theorem witness_Keys : (((keyed (.keyCommit 5)).takeRequest fun r => match r with | .keyCommit n => some n | _ => none).map (·.1)) = some 5 ∧
    (((keyed (.keyClear 5)).takeRequest fun r => match r with | .keyClear n => some n | _ => none).map (·.1)) = some 5 ∧
    bit 2 1 = true ∧ bit 1 1 = false ∧ bit 1 0 = true ∧ bit 0 0 = false := by decide
theorem test_key_commit : next? (exec .keyCommit (keyed (.keyCommit 5))) (fun t => (t.keySlot 5).key = some 1 && t.keyPair 1 = (7, 8)) = true := by
  decide
/-- A host window of the whole package, with a request of eight bytes at 0x2000. -/
def hosted (wr frozen : Bool) : State :=
  { bytes State.reset 0x2000 [1, 2, 3] with
    hub := { State.reset.hub with hen := true, hbar := 1, hostFrozen := frozen }
    input := { addr := 2 ^ 44 + 0x2000, value := 8, flag := wr, data := List.replicate 8 0xAB } }
/-- The same request of 24 bytes, of which a first granule may be done. -/
def hostedLong (wr : Bool) (job : Option HostJob) : State :=
  { hosted wr false with
    input := { addr := 2 ^ 44 + 0x2000, value := 24, flag := wr, data := List.replicate 24 0xAB }
    hub := { (hosted wr false).hub with hostJob := job } }
theorem witness_HostAccess : (hosted false false).hub.hostJob = none ∧ (hosted false false).rangePoisoned 0x2000 8 = false ∧
    (hosted false false).hub.hen = true ∧ (hosted false false).input.addr = (hosted false false).hub.hbar * 2 ^ 44 + 0x2000 ∧
    (hosted false false).linkUp 100 = true ∧ 0x2000 % 64 + 8 ≤ 64 ∧ ok? ((hosted false false).readPhys 0 0x2000 8) = true ∧
    (hosted true false).reachRange 0 0x2000 8 = none ∧ homeOf 0x2000 ≠ .hub ∧ (hosted true true).hub.hostFrozen = true ∧
    (let s : State := { hosted true false with hub := { (hosted true false).hub with hkey := 9 } }
     s.reachRange s.hub.hkey 0x2000 8 = some .key) ∧ State.reset.hub.hen = false := by decide
/-- The access whose last eight bytes remain. -/
def lastGranule (wr own : Bool) : HostJob :=
  { pa := 0x2000, len := 24, at_ := 16, bytes := if wr then List.replicate 8 0xAB else List.replicate 16 1, wr := wr, own := own }
theorem witness_HostGranules :
    (∀ own, (hostedLong true (some (lastGranule true own))).hub.hostJob = some (lastGranule true own)) ∧
    (hostedLong true (some (lastGranule true false))).linkUp 100 = true ∧ (lastGranule true true).at_ < (lastGranule true true).len ∧
    (lastGranule true true).pa % 64 + (lastGranule true true).len ≤ 64 ∧
    (lastGranule true true).bytes.length = (lastGranule true true).len - (lastGranule true true).at_ ∧
    (hostedLong true none).reachRange 0 0x2010 8 = none ∧ ok? ((hostedLong false none).readPhys 0 0x2010 8) = true := by decide
/-- R324: an access of 24 bytes is two granules, and its answer comes with the second. -/
theorem test_host_granules :
    next? (exec .hostAccess (hostedLong true none)) (fun t => t.hub.hostReply = none && t.bytesAt 0x2000 17 = List.replicate 16 0xAB ++ [0] &&
      next? (exec .hostAccess t) fun u => u.hub.hostReply = some [] && u.bytesAt 0x2010 9 = List.replicate 8 0xAB ++ [0]) = true := by decide
theorem test_host_last_read : next? (exec .hostAccess (hostedLong false (some (lastGranule false false))))
    (fun t => t.hub.hostReply = some (List.replicate 16 1 ++ List.replicate 8 0) && t.hub.hostJob.isNone) = true := by decide
theorem test_host_read : next? (exec .hostAccess (hosted false false)) (fun t => t.hub.hostReply = some [1, 2, 3, 0, 0, 0, 0, 0]) = true := by decide
theorem test_host_write : next? (exec .hostAccess (hosted true false)) (fun t => t.bytesAt 0x2000 9 = List.replicate 8 0xAB ++ [0]) = true := by decide
/-- A snoop of the host line at offset 0x2000, which a core is listed for, with eight bytes of the host. -/
def snooped (takes : Bool) : State :=
  let s := hosted true false
  { s with hub := { s.hub with filter := [((2 ^ 51 + 0x2000) / 64, 3), (4, 3)] }
           input := { addr := 0x2000, flag := takes, data := List.replicate 8 0xAB } }
theorem witness_Snoop : (snooped true).hub.hostJob = none ∧ (snooped true).linkUp 100 = true ∧ homeOf (0x8000000000000 + 0x2000) = .host ∧
    (0x8000000000000 + 0x2000) % 64 + (snooped true).input.data.length ≤ 64 := by decide
/-- R364: the snoop is answered with the line, is stored, and no core is listed. -/
theorem test_snoop : next? (exec .hostSnoop (snooped true)) (fun t => t.hub.filter = [(4, 3)] && t.hub.hostReply.map List.length = some 64 &&
    t.bytesAt (2 ^ 51 + 0x2000) 9 = List.replicate 8 0xAB ++ [0]) = true := by decide
theorem test_snoop_shared : next? (exec .hostSnoop (snooped false)) (fun t => t.hub.filter = (snooped false).hub.filter) = true := by decide

/-! ## Power, parking, links -/

/-- A die that is out of reset and turns, with an input. -/
def turning (i : Input) : State :=
  { State.reset with dies := [(2, { up := true, trn := true, target := 3, latest := some 4 })], input := i }
/-- An interval after `n` windows whose average is 25 W, with a step of 3 of the bandwidth dies and 1 of the throttle. -/
def windows (n : Nat) : State :=
  { asked {} with hub := { State.reset.hub with power := { g := 3, thr := 1, wins := n, sum := 100 * n } } }
theorem witness_Governor : ((turning { who := 2 }).dieAt 2).trn = true ∧ (asked {}).hub.power.g ≤ 7 ∧ (asked {}).hub.power.gl ≤ 7 ∧
    (asked {}).hub.power.thr ≤ 7 ∧ (asked {}).hub.power.wins < 100 ∧ 100 ≤ (windows 100).hub.power.wins ∧ (windows 99).hub.power.wins < 100 := by decide
theorem test_transition : next? (exec .pstateTransitionEnd (turning { who := 2 })) (fun t => (t.dieAt 2).cur = 3 && (t.dieAt 2).target = 4 && (t.dieAt 2).trn) = true := by
  decide
/-- R372: 450 W against a ceiling of 350 W: E is 100 W of a window, D is 10 W times ten, and two steps follow. -/
theorem test_window : next? (exec .governorWindow (asked { value := 1800 })) (fun t => t.hub.power.e = 400 && t.hub.power.g = 2) = true := by decide
theorem test_interval : next? (exec .governorInterval (windows 100)) (fun t => t.hub.power.thr = 0 && t.hub.power.g = 3 && t.hub.power.pa = 100) = true ∧
    next? (exec .governorInterval (windows 99)) (fun t => t.hub.power.thr = 1) = true := by decide
/-- A die with its parking word. -/
def parking (park pkd un : Bool) (i : Input) : State :=
  { placed with h := { placed.h with launch := none }, dies := [(0, { up := true, park := park, pkd := pkd, unparking := un })], input := i }
/-- A strip that owns a session on a network of its die. -/
def owned : State := { sess id with input := { who := 4 } }
theorem witness_Parking : (∀ p ∈ placed.running, placed.hartAt p.1 = p.2 ∧ p.2.key = p.1 ∧ p.1 < 2 ^ 64) ∧ (placed.hartAt 0).frozen = false ∧
    (placed.hartAt 0).die = 0 ∧ placed.nets = [] ∧ owned.nets.any (fun n => n.2.sess.any fun y => some y.launch == (owned.hartAt owned.h.key).launch && y.strip == (owned.hartAt owned.h.key).stripId.toNat) = true ∧
    ((parking false false false {}).dieAt 0).pkd = false ∧ (placed.hartAt 0).launch ≠ none ∧
    placed.mustStay (placed.hartAt 0) = false ∧ ((parking true false false {}).dieAt 0).pkd = false ∧
    ((parking true false false {}).dieAt 0).park = true ∧ (parking true false false {}).dieWorks 0 = false ∧
    ((parking true true false {}).dieAt 0).pkd = true ∧ ((parking false true true {}).dieAt 0).unparking = true ∧
    800 ≤ (asked { at_ := 800 }).input.at_ ∧ 880 ≤ (asked { at_ := 880 }).input.at_ ∧ (asked { at_ := 759 }).input.at_ < 760 := by decide
/-- R373: a strip that owns a live session is not asked to leave. -/
theorem test_park_owner : next? (exec .diePark owned) (fun t => !t.h.preempt && (t.dieAt 4).park) = true := by decide
theorem test_park : next? (exec .diePark placed) (fun t => t.h.preempt && (t.dieAt 0).park) = true := by decide
/-- R375: a parking abandoned takes back what it asked. -/
theorem test_unpark_abandons : next? (exec .diePark placed) (fun t => next? (exec .dieUnpark t) fun u => !u.h.preempt && !(u.dieAt 0).park) = true := by
  decide
theorem test_parked : next? (exec .dieParked (parking true false false {})) (fun t => (t.dieAt 0).pkd) = true := by decide
/-- R459: at 110 degrees the die throttles itself and parks. -/
theorem test_thermal : next? (exec .thermalStep (asked { who := 1, at_ := 880 })) (fun t => (t.dieAt 1).thermal = 1 && (t.dieAt 1).park && (t.dieAt 1).thr = 7) = true := by
  decide

/-- Link module 24, of the hub link of die 0, with messages that wait at its lower end, and an input. -/
def wired (l : Link) (p : LinkPool) (i : Input) : State :=
  { asked { i with who := 24 } with hub := { State.reset.hub with links := [(24, l)], pools := [((LinkKind.hub 0).side 0, p)] } }
/-- A REQ and a SYS wait. -/
def two : LinkPool := { waiting := [⟨1, 5, 0, none⟩, ⟨6, 6, 0, none⟩] }
/-- The flits that have left module 24, with their messages. -/
def sentBy (t : State) : List (Nat × List (Option Nat)) := ((t.link 24).dir 0).held.map fun f => (f.seq.toNat, f.slots.map fun x => x.map (·.cls))
theorem witness_FlitBytes :
    let f : Flit := { seq := 5, rets := [1, 0, 2, 0], slots := [some ⟨6, 6, 0, none⟩, none, none, none] }
    f.rets.length ≤ 4 ∧ (∀ r ∈ f.rets, r < 256) ∧ f.slots.length ≤ 4 ∧ (∀ x ∈ f.slots, x.all fun m => decide (m.cls < 8)) ∧
      f.fill.length ≤ 240 := by decide
theorem witness_FillSlots : (LinkPool.fillSlots (LinkKind.hub 0).pools 4 [] two).1.map (fun x => x.map (·.cls)) = [some 6, some 1, none, none] := by
  decide
theorem witness_Flit : linkKind 24 = some (.hub 0) ∧ ((wired {} two {}).link 24).up = true ∧ (wired {} two {}).input.value = 0 ∧
    (((wired {} two {}).link 24).dir 0).resend = 0 ∧ (((wired {} two {}).link 24).dir 0).held.length < 64 ∧
    ((wired {} {} {}).nextFlit 24 0 (.hub 0)).isSome = true := by decide
/-- R356: SYS goes before REQ; each spends its permit. -/
theorem test_flit : next? (exec .flitReceive (wired {} two {})) (fun t => sentBy t = [(1, [some 6, some 1, none, none])] &&
    ((t.link 24).dir 0).expect = 2 && (t.pool ((LinkKind.hub 0).side 0)).used = #v[1, 0, 0, 0, 0, 1]) = true := by decide
/-- R453: a flit disturbed on its way is held and not received. -/
theorem test_flit_disturbed : next? (exec .flitReceive (wired {} {} { data := List.replicate 100 0 ++ [1] }))
    (fun t => sentBy t = [(1, [none, none, none, none])] && ((t.link 24).dir 0).expect = 1) = true := by decide +kernel
/-- R453: after a replay the flit held goes again. -/
theorem test_replay : next? (exec .flitReplay (wired { out := { seq := 2, held := [{ seq := 1, slots := List.replicate 4 none }] } } {} {}))
    (fun t => ((t.link 24).dir 0).resend = 1 && next? (exec .flitReceive t) fun u => ((u.link 24).dir 0).expect = 2 && (sentBy u).length = 1) = true := by
  decide
theorem test_flit_crc : flitIntact (({ seq := 0 } : Flit).bytes (.chain 0) 0) = true ∧
    flitIntact ((({ seq := 0 } : Flit).bytes (.chain 0) 0).set 100 1) = false := by decide +kernel
/-- A module that must retrain, beside one that is down. -/
def worn : State :=
  let s := wired { forced := true, out := { seq := 2, held := [{ seq := 1, slots := List.replicate 4 none }] } }
    { two with used := #v[32, 0, 0, 0, 0, 0] } { flag := true, value := 1 }
  { s with hub := { s.hub with links := s.hub.links ++ [(25, { up := false })] } }
theorem witness_Retrain : (worn.link 24).up = true ∧ (worn.link 24).retrains = true ∧ ((worn.link 24).dir 0).held ≠ [] ∧
    (LinkKind.hub 0).pools.getD 0 0 ≤ (worn.pool ((LinkKind.hub 0).side 0)).spent 0 ∧ 0 < (LinkKind.hub 0).pools.getD 0 0 ∧
    (∃ x ∈ (worn.pool ((LinkKind.hub 0).side 0)).waiting, x.cls = 1) ∧
    (let s := asked { who := 1, flag := true }
     (s.pool (24 + 1)).waiting = [] ∧ (((s.link 100).dir 1).held.all fun f => f.slots.all Option.isNone) = true) := by decide
theorem test_module_down : next? (exec .linkModuleDown worn) (fun t => t.hub.requests.contains (.dieReset 0)) = true := by decide
theorem test_retrain : next? (exec .linkRetrain worn) (fun t => (t.pool ((LinkKind.hub 0).side 0)).used = Vector.replicate 6 0 &&
    !(t.link 24).retrains) = true := by decide
theorem test_starvation : next? (exec .permitStarvation (worn.updLink 24 fun l => { l with forced := false })) (fun t => (t.link 24).forced) = true := by
  decide

/-! ## Boot, attestation, die resets -/

theorem witness_Boot : State.reset.hub.sec.recovery = false ∧ State.reset.hub.sec.stage < 3 ∧
    (∀ image, Config.imageAccepted image = true ∨ Config.imageAccepted image = false) ∧ 3 ≤ ({ stage := 3 } : Security).stage := by
  refine ⟨by decide, by decide, fun image => ?_, by decide⟩
  cases Config.imageAccepted image <;> decide
theorem witness_Sideband : (asked { addr := 0x060000040000 }).input.addr = 0x060000040000 ∧
    (asked { addr := 0x060000040050 }).input.addr = 0x060000040040 + 0x10 * 1 ∧
    (0x060000040008 ≠ 0x060000040000 ∧ ∀ d, d < 6 → 0x060000040008 ≠ 0x060000040040 + 0x10 * d) := by decide
/-- R381: the sideband reads CEIL. -/
theorem test_sideband_read : next? (exec .sidebandWrite (asked { addr := 0x060000040000, flag := true }))
    (fun t => t.hub.sec.reply = some 350 && !t.hub.sec.refused) = true := by decide
/-- The responder negotiated, and a request. -/
def spdm (data : List Byte) : State :=
  { asked { data := data } with hub := { State.reset.hub with sec := { version := true, caps := true, algs := true } } }
/-- A request is in its form: its length, code and version. -/
def formed (s : State) (code version : Nat) : Bool :=
  decide (4 ≤ s.input.data.length) && (s.input.data.getD 1 0).toNat == code && (s.input.data.getD 0 0).toNat == version && !s.hub.sec.recovery
theorem witness_Spdm : formed (spdm [0x10, 0x84, 0, 0]) 0x84 0x10 = true ∧ formed (spdm [0x12, 0xE1, 0, 0]) 0xE1 0x12 = true ∧
    (let s := spdm ([0x12, 0xE3, 0, 0, 32, 0, 0, 0] ++ toBytes 4 0x10 ++ toBytes 4 1)
     formed s 0xE3 0x12 = true ∧ bit (s.reqField 8 4) 4 = true ∧ bit (s.reqField 12 4) 0 = true) ∧
    formed (spdm [0x12, 0x81, 0, 0]) 0x81 0x12 = true ∧ formed (spdm [0x12, 0x82, 0, 0, 0, 0, 9, 0]) 0x82 0x12 = true ∧
    (let s := spdm [0x12, 0x83, 0, 0xFF]
     formed s 0x83 0x12 = true ∧ s.reqByte 2 = 0 ∧ s.reqByte 3 = 0xFF) ∧
    (let s := spdm [0x12, 0xE0, 0, 4]
     formed s 0xE0 0x12 = true ∧ s.reqByte 3 ≤ 4) ∧ State.reset.hub.sec.version = false ∧ State.reset.hub.sec.caps = false ∧ State.reset.hub.sec.algs = false := by decide
theorem test_version : next? (exec .getVersion (asked { data := [0x10, 0x84, 0, 0] })) (fun t => t.hub.sec.response = [0x10, 0x04, 0, 0, 0, 1, 0, 0x12]) = true := by decide
theorem test_out_of_turn : next? (exec .getDigests (asked { data := [0x12, 0x81, 0, 0] })) (fun t => t.hub.sec.response.getD 1 0 = 0x7F) = true := by decide
/-- R460, DSP0274: a request that the controller does not support is UnsupportedRequest with its code. -/
theorem test_spdm_unsupported : next? (exec .getDigests (spdm [0x12, 0xE4, 0, 0])) (fun t => t.hub.sec.response = [0x12, 0x7F, 0x07, 0xE4]) = true := by
  decide
theorem witness_SpdmUnsupported : (∀ c ∈ [0x81, 0x82, 0x83, 0x84, 0xE0, 0xE1, 0xE3], ((spdm [0x12, 0xE4, 0, 0]).input.data.getD 1 0).toNat ≠ c) ∧
    ((spdm [0x12, 0xE4, 0, 0]).input.data.getD 1 0).toNat ≠ 0x81 ∧ 4 ≤ (spdm [0x12, 0xE4, 0, 0]).input.data.length := by decide
theorem test_sideband_refused : next? (exec .sidebandWrite (asked { addr := 0x060000000000 })) (fun t => t.hub.sec.refused) = true := by decide

/-- A reset of die 0 asked for, its register NSV as given. -/
def resetting (nsv : Nat) : State :=
  { placed with dies := [(0, { up := true, nsv := nsv })], hub := { placed.hub with requests := [.dieReset 0] } }
theorem witness_DieReset : (((resetting 1).takeRequest fun r => match r with | .dieReset d => some d | _ => none).map (·.1)) = some 0 ∧
    ((resetting 1).dieAt 0).busy = false ∧ ((resetting 1).dieAt 0).nsv = 1 ∧ ((resetting 0).dieAt 0).nsv ≠ 1 ∧ ((resetting 0).dieAt 0).up = true ∧
    (let s : State := { placed with dies := [(0, { busy := true })] }
     (s.dieAt s.input.who).busy = true ∧ (onHart s fun h => { h with launch := none }).stripsOn 0 = [] ∧ s.hub.sec.recovery = false) := by decide
theorem witness_HartKeys : ∀ k, (placed.hartAt k).key = k := by
  intro k
  by_cases h : k = 0
  · subst h; rfl
  · have e : placed.hartAt k = idleHart k := if_neg h
    rw [e]
    show k / 512 * 512 + k / 8 % 64 * 8 + k % 8 = k
    omega
theorem test_die_reset_lost : next? (exec .dieReset (resetting 1)) (fun t => t.h.launch.isNone && (t.launches[0]?.map (·.state)) = some .faulted) = true := by
  decide
theorem test_die_reset_saves : next? (exec .dieReset (resetting 0)) (fun t => t.h.preempt && (t.dieAt 0).busy) = true := by decide

/-! ## Whole-machine statements -/

/-- ADDI x5, x1, 9 at the pc of the placed strip. -/
def fetched : State := regs (State.reset.withFetchWord 64 0x0005040000000009) [(1, 4)]
theorem witness_StepRuns : fetched.turns = [] ∧ fetched.h.launch ≠ none ∧ fetched.h.frozen = false ∧ fetched.h.wait.isNone = true ∧
    fetched.h.lacks = none ∧ fetched.h.queueBusy = false ∧ fetched.h.takesHeld = false ∧ fetched.h.preempt = false ∧
    okAnd (resolveAccess fetched fetched.h fetched.h.plv { ex := true } false fetched.h.pc.toNat 8) (fun ps => ps.length == 1) = true ∧
    okAnd (fetchWord fetched fetched.h.pc) (fun p => p.1 == 0x0005040000000009) = true ∧
    okAnd (decodeUnit 0x0005040000000009 none) (· == .full (.addi ⟨5, 1, 0, 9⟩)) = true := by decide
/-- R211: the harts of one cycle act in ascending order of die, core and slot. -/
theorem test_order_cycle : orderCycle [.hart 9, .same 1, .same 520, .hart 0] = [.hart 1, .same 9, .same 520, .hart 0] := by decide
theorem witness_OrderCycle : (∀ m r, [Turn.hart 0] ≠ .same m :: r) ∧ [1, 9, 520].Perm [9, 1, 520] ∧ [1, 9, 520].Pairwise (· ≤ ·) := by
  refine ⟨by simp, by decide, by decide⟩
/-- The turn of a swap-out and of a trap on a record held, the placed strip asked to leave or holding the record. -/
def asking (ev : Instr) (held : Bool) : State :=
  { onHart fetched fun h => { h with plv := .app, preempt := !held, held := if held then [{ code := 0x23, sub := 1 }] else [] } with turns := [.event ev {}] }
theorem witness_StepTurns : (asking .swapOut false).turns = [.event .swapOut {}] ∧ (asking .impreciseTrap true).turns = [.event .impreciseTrap {}] ∧
    boundaryFree (asking .swapOut false) 0 true = true ∧ ((asking .swapOut false).hartAt 0).takesHeld = false ∧
    boundaryFree (asking .impreciseTrap true) 0 false = true ∧ ((asking .impreciseTrap true).hartAt 0).takesHeld = true ∧
    (asking .impreciseTrap true).wakeNow 0 = none ∧ ((asking .impreciseTrap true).select 0).trapBehind = false := by decide
theorem test_step_same : next? (step { fetched with turns := [.same 0] }) (fun t => t.h.getX 5 = 13 && t.time = fetched.time + 1) = true := by decide
theorem test_step : next? (step fetched) (fun t => t.h.getX 5 = 13 && t.h.pc = 0x1008) = true := by decide
theorem witness_StepWords :
    let prefixed := State.reset.withFetchWord 64 0x8000180064C00380
    let add := slotA 0x400A30E019000000
    okAnd (fetchWord prefixed prefixed.h.pc) (fun p => okAnd (fetchWord p.2 (p.2.h.pc + 8)) fun q =>
      okAnd (decodeUnit p.1 (some q.1)) fun u => match u with | .prefixed _ => true | _ => false) = true ∧
    okAnd (decodeUnit (encPair add add) none) (fun u => match u with | .pair _ b => b != .nop | _ => false) = true ∧
    okAnd (decodeUnit 0x400A30E019000000 none) (fun u => match u with | .pair _ b => b == .nop | _ => false) = true ∧
    (match decodeUnit 0xC000000000000000 none with | .error _ => true | .ok _ => false) = true ∧
    (match fetchWord { fetched with h := { fetched.h with pc := 2 ^ 40 } } (2 ^ 40) with | .error _ => true | .ok _ => false) = true := by
  decide
/-- R118: a prefixed half is one word long. -/
theorem test_step_prefixed : next? (step (State.reset.withFetchWord 64 ((encode (.vadd ⟨3, 1, 2, 0, some ⟨0, 0, 0, 0, 0, 0, 9⟩⟩)).getD 0).toNat))
    (fun t => t.h.pc = 0x1008) = true := by decide
theorem witness_StepEvent : let s : State := { State.reset with turns := [.event .ceilWrite { value := 400 }] }
    s.turns = [.event .ceilWrite { value := 400 }] ∧ isDevice .ceilWrite = true := by decide
theorem witness_StepWalk : let s := State.reset.withFetchWord 32 0x50000007
    s.turns = [.walk 0] ∧ (s.selectWalk 0).wk.ending = none ∧ ((s.selectWalk 0).wk.prog[(s.selectWalk 0).wk.rpc]?) = some 0x50000007 ∧
      decodeRule 0x50000007 = some (.walkLi 0 7) := by decide
theorem test_step_walk : next? (step (State.reset.withFetchWord 32 0x50000007)) (fun t => t.wk.w[0] = 7) = true := by decide
/-- R429: a fetch that no page maps is FETCH with the code of the page fault as its SUB. -/
theorem test_step_fetch_fault : next? (step (onHart fetched fun h => { h with pc := 2 ^ 40, sys := { h.sys with tsp := 0x3000, tvec := 0x1800 } }))
    (fun t => t.h.sys.tcause = 0x2026 && t.h.pc = 0x1800) = true := by decide
theorem witness_RoundTrip : WellFormed (.vma ⟨49, 48, 1, 2, none⟩) = true ∧ encode (.vma ⟨49, 48, 1, 2, none⟩) = some 0x51E3802119000000 ∧
    okAnd (decodeUnit 0x0005040000000009 none) (· == .full (.addi ⟨5, 1, 0, 9⟩)) = true ∧ decodeRule 0x50000007 = some (.walkLi 0 7) ∧
    encodeRule (.walkLi 0 7) = some 0x50000007 ∧ okAnd (decodeHalf 0x19000000 none) (· == .nop) = true := by decide
theorem witness_Canonical : State.reset.canonical ∧ placed.canonical ∧ next? (step fetched) (fun _ => true) = true := by
  refine ⟨?_, ?_, by decide⟩ <;> (unfold State.canonical; decide)

/-! ## Ill-formed terms -/

theorem test_wf_scalar_register : WellFormed (.addi ⟨32, 1, 0, 0⟩) = false ∧ illegalSub (.addi ⟨32, 1, 0, 0⟩) = some 0x08 := by decide
theorem test_wf_no_such_csr : illegalSub (.csrr ⟨5, 0, 0, 0x004, 0⟩) = some 0x09 := by decide
theorem test_wf_csr_read_only : illegalSub (.csrw ⟨5, 1, 0, 0x010, 0⟩) = some 0x0A ∧ illegalSub (.csrr ⟨5, 0, 0, 0x010, 0⟩) = none := by decide
theorem test_wf_unused_field : illegalSub (.addi ⟨5, 1, 1, 0⟩) = some 0x0C ∧ illegalSub (.shli ⟨5, 1, 0, 64⟩) = some 0x0C := by decide
theorem test_wf_rounding_mode : WellFormed (.vadd ⟨3, 1, 2, 0, some ⟨0, 0, 0, 7, 0, 0, 0⟩⟩) = false ∧
    WellFormed (.vadd ⟨3, 1, 2, 0, some ⟨0, 0, 0, 6, 0, 0, 0⟩⟩) = true := by decide
theorem test_decode_refuses : decodeTableWord 64 0xC000000000000000 = none ∧ decodeTableWord 64 0x3C80000000000000 = none ∧
    decodeTableWord 64 (0x2800000000000000) = none := by decide

end Sys2Proof.Tests
end

section
/-!
PROOFS. The control registers read as they were written (R7, R166, R168).
-/
namespace Sys2Proof.Machine

/-! ## Control registers (R7, R166, R168) -/

/-- The low bits of a word, as the mask of the field that holds them. -/
theorem word_mod_two_pow (v : Word) (k : Nat) : word (v.toNat % 2 ^ k) = v &&& word (2 ^ k - 1) := by
  refine BitVec.eq_of_getLsbD_eq fun i hi => ?_
  simp only [word, BitVec.getLsbD_and, BitVec.getLsbD_ofNat, Nat.testBit_mod_two_pow, Nat.testBit_two_pow_sub_one,
    BitVec.testBit_toNat, hi, decide_true, Bool.true_and, Bool.and_comm]

theorem zeroExtend_setWidth (v : Word) (k : Nat) : (v.setWidth k).zeroExtend 64 = v &&& word (2 ^ k - 1) := by
  rw [← word_mod_two_pow]
  exact BitVec.eq_of_toNat_eq (by simp [word])

theorem ofBool_bit (v i : Nat) : ofBool (bit v i) = v / 2 ^ i % 2 := by
  rcases Nat.mod_two_eq_zero_or_one (v / 2 ^ i) with h | h <;> simp [ofBool, bit, h]

theorem RMode.ofCode_code {c : Nat} (h1 : 1 ≤ c) (h6 : c ≤ 6) : ∃ m, RMode.ofCode c = some m ∧ m.code = c := by
  obtain rfl | rfl | rfl | rfl | rfl | rfl : c = 1 ∨ c = 2 ∨ c = 3 ∨ c = 4 ∨ c = 5 ∨ c = 6 := by omega
  all_goals exact ⟨_, rfl, rfl⟩

theorem State.csrRead_fcnt_set (s : State) (v : Word) (i m : Nat) (hi : i < 6) (hm : m ≠ 8 + i) :
    ({ s with h := { s.h with ar := { s.h.ar with fcnt := s.h.ar.fcnt.set i v } } } : State).csrRead m = s.csrRead m := by
  unfold State.csrRead
  split <;> first | rfl | exact Vector.getElem_set_ne hi _ (by omega)

/-- A write of a control register leaves what every other one reads: the piece that a register reads is one the write leaves alone
(`rfl`), or the register is the one written, which `hnm` excludes. -/
theorem State.csrRead_csrStore_other (s : State) (v : Word) {n m : Nat} (hnm : n ≠ m) :
    ({ s with h := s.h.csrStore n v } : State).csrRead m = s.csrRead m := by
  unfold Hart.csrStore
  split
  case h_2 =>
    split
    · unfold State.csrRead
      split <;> first | rfl | contradiction
    · rfl
  case h_5 => exact s.csrRead_fcnt_set v 0 m (by decide) hnm.symm
  case h_6 => exact s.csrRead_fcnt_set v 1 m (by decide) hnm.symm
  case h_7 => exact s.csrRead_fcnt_set v 2 m (by decide) hnm.symm
  case h_8 => exact s.csrRead_fcnt_set v 3 m (by decide) hnm.symm
  case h_9 => exact s.csrRead_fcnt_set v 4 m (by decide) hnm.symm
  case h_10 => exact s.csrRead_fcnt_set v 5 m (by decide) hnm.symm
  all_goals
    unfold State.csrRead
    split <;> first | rfl | contradiction

section
variable (s : State) (v : Word)

/-- FRM reads the code it was written with, where that code names a mode (R59, R62). -/
theorem State.csrRead_csrStore_frm (h1 : 1 ≤ v.toNat % 8) (h6 : v.toNat % 8 ≤ 6) :
    ({ s with h := s.h.csrStore 0x001 v } : State).csrRead 0x001 = v &&& 0x7 := by
  obtain ⟨m, hm, hc⟩ := RMode.ofCode_code h1 h6
  have hs : s.h.csrStore 0x001 v = { s.h with ar := { s.h.ar with frm := m } } := by simp [Hart.csrStore, hm]
  calc ({ s with h := s.h.csrStore 0x001 v } : State).csrRead 0x001 = word m.code := by rw [hs]; rfl
    _ = v &&& 0x7 := by rw [hc]; exact word_mod_two_pow v 3

theorem State.csrRead_csrStore_fcnt (n : Nat) (h8 : 0x008 ≤ n) (hD : n ≤ 0x00D) :
    ({ s with h := s.h.csrStore n v } : State).csrRead n = v := by
  obtain rfl | rfl | rfl | rfl | rfl | rfl : n = 8 ∨ n = 9 ∨ n = 10 ∨ n = 11 ∨ n = 12 ∨ n = 13 := by omega
  all_goals exact Vector.getElem_set_self _

theorem State.csrRead_csrStore_chpol :
    ({ s with h := s.h.csrStore 0x022 v } : State).csrRead 0x022 = v &&& 0x3 := by
  have hv : ofBool (bit v.toNat 1) * 2 + ofBool (bit v.toNat 0) = v.toNat % 2 ^ 2 := by
    rw [ofBool_bit, ofBool_bit]; omega
  exact (congrArg word hv).trans (word_mod_two_pow v 2)

theorem State.csrRead_csrStore_rchk :
    ({ s with h := s.h.csrStore 0x051 v } : State).csrRead 0x051 = v &&& 0x1 := by
  have hv : ofBool (bit v.toNat 0) = v.toNat % 2 ^ 1 := by rw [ofBool_bit]; omega
  exact (congrArg word hv).trans (word_mod_two_pow v 1)

theorem State.csrRead_csrStore_gstat :
    ({ s with h := s.h.csrStore 0x101 v } : State).csrRead 0x101 = v &&& 0xFF := by
  have hv : (BitVec.ofNat 2 (bits v.toNat 6 2)).toNat * 2 ^ 6 + (v.setWidth 6).toNat = v.toNat % 2 ^ 8 := by
    simp [bits]; omega
  exact (congrArg word hv).trans (word_mod_two_pow v 8)

end

@[simp] theorem State.setX_core (s : State) (r : Field) (v : Word) : (s.setX r v).core = s.core := by
  simp [State.core, State.coreAt]

@[simp] theorem State.advance_core (s : State) (n : Nat) : (s.advance n).core = s.core := rfl

@[simp] theorem State.setPsplit_core (s : State) (v : Word) : (s.setPsplit s.h.coreKey v).core.psplit = psplitMask v := by
  simp [State.core, State.coreAt, State.setPsplit, Sparse.get_upd]

/-- CSRW of PSPLIT at exec level with a map that R31 allows (R31, R166, R168). -/
theorem execCsrw_psplit (o : FS) (s : State) (hn : o.csr.toNat = 0x214) (hf : o.f = 0) (hp : s.h.plv = .exec)
    (hok : psplitOk (s.x o.a) = true) :
    exec (.csrw o) s = .next (((s.setPsplit s.h.coreKey (s.x o.a)).setX o.d (s.csrRead 0x214)).advance 8) := by
  have hv : csrOperand o s = s.x o.a := by simp [csrOperand, hf]
  have hc : csrCauses o s true = [] := by simp [csrCauses, hn, hp, csrNeeds, csrLevels, Priv.rank, when_]
  change csrWrite o s (csrOperand o s) (csrOperand o s) = _
  simp [csrWrite, hv, hn, hok, hc, when_, orTrap, minCause]

/-- Settles O15: a store reads back through the mask of its fields, and every other register through the piece it left alone. -/
theorem controlRegisterReadAfterWrite : Obligations.ControlRegisterReadAfterWrite := by
  unfold Obligations.ControlRegisterReadAfterWrite
  intro s v after keeps
  refine ⟨zeroExtend_setWidth v 6, s.csrRead_csrStore_frm v, zeroExtend_setWidth v 32, zeroExtend_setWidth v 6,
    s.csrRead_csrStore_fcnt v, zeroExtend_setWidth v 6, s.csrRead_csrStore_chpol v, rfl, s.csrRead_csrStore_rchk v, rfl,
    s.csrRead_csrStore_gstat v, rfl, rfl, rfl, rfl, rfl, rfl, rfl, rfl, rfl, rfl,
    fun _ _ => s.csrRead_csrStore_other v, ?_⟩
  intro hok o hn hf hx hp
  subst hx
  refine ⟨_, execCsrw_psplit o s hn hf hp hok, ?_⟩
  simp [State.csrRead, psplitMask]

end Sys2Proof.Machine
end

section
/-!
PROOFS. The words of the hub window, and the state after reset (R7, R379).
-/
namespace Sys2Proof.Machine

/-! ## The words of the hub window (R85, R337, R371, R378, R393, R457) -/

/-- A queue that nothing has set up reads PMAX 7, and 0 in every other word (R337). -/
theorem hubRead_queue_default {s : State} {q o : Nat} (hs : s.queue q = {}) (hq : q < 64) (ho : o < 0x40) :
    hubRead s (0x40 * q + o) = if o / 8 = 2 then 7 else 0 := by
  have hw : 0x40 * q + o < 0x1000 := by omega
  have hd : (0x40 * q + o) / 0x40 = q := by omega
  have hm : (0x40 * q + o) % 0x40 = o := by omega
  have hi : o / 8 < 8 := by omega
  simp only [hubRead, hw, hd, hm, hs, if_true]
  generalize o / 8 = i at hi
  obtain rfl | rfl | rfl | rfl | rfl | rfl | rfl | rfl :
    i = 0 ∨ i = 1 ∨ i = 2 ∨ i = 3 ∨ i = 4 ∨ i = 5 ∨ i = 6 ∨ i = 7 := by omega
  all_goals rfl

/-- A fault ring that nothing has set up reads 0 in all four words (R393). -/
theorem hubRead_ring_default {s : State} {n o : Nat} (hs : s.ring n = {}) (hn : n < 65) (ho : o < 0x20) :
    hubRead s (0x60000 + 0x20 * n + o) = 0 := by
  have hd : (0x60000 + 0x20 * n + o - 0x60000) / 0x20 = n := by omega
  have hm : (0x60000 + 0x20 * n + o) % 0x20 = o := by omega
  have hi : o / 8 < 4 := by omega
  unfold hubRead
  iterate 8 rw [if_neg (by omega)]
  rw [if_pos (by omega)]
  simp only [hd, hm, hs]
  generalize o / 8 = i at hi
  obtain rfl | rfl | rfl | rfl : i = 0 ∨ i = 1 ∨ i = 2 ∨ i = 3 := by omega
  all_goals rfl

/-- The control word of a key slot reads whether a key is installed (R378). -/
theorem hubRead_key (s : State) {n : Nat} (hn : n < 64) :
    hubRead s (0x50000 + 0x80 * n + 0x40) = ofBool (s.keySlot n).key.isSome * 2 ^ 63 := by
  have hd : (0x50000 + 0x80 * n + 0x40 - 0x50000) / 0x80 = n := by omega
  unfold hubRead
  iterate 7 rw [if_neg (by omega)]
  rw [if_pos (by omega), hd]

/-- The ceiling of the governor (R371). -/
theorem hubRead_ceil (s : State) : hubRead s 0x40000 = s.hub.power.ceil := by simp [hubRead]

/-- The word of measured power and governor steps (R371). -/
theorem hubRead_powerStatus (s : State) : hubRead s 0x40008 = powerStatus s.hub.power := by simp [hubRead]

/-- The word of the host window (R365). -/
theorem hubRead_hostWindow (s : State) :
    hubRead s 0x70000 = s.hub.hbar * 2 ^ 44 + ofBool s.hub.hen * 2 ^ 6 + s.hub.hkey := by simp [hubRead]

/-- The power word of a die (R371). -/
theorem hubRead_die (s : State) {d : Nat} (hd : d < 6) : hubRead s (0x40040 + 0x10 * d) = dieWord (s.dieAt d) := by
  have hk : (0x40040 + 0x10 * d - 0x40040) / 0x10 = d := by omega
  unfold hubRead
  iterate 6 rw [if_neg (by omega)]
  rw [if_pos (by omega), hk]

/-- The reset word of a die (R457). -/
theorem hubRead_dieReset (s : State) {d : Nat} (hd : d < 6) :
    hubRead s (0x80040 + 8 * d) = ofBool (s.dieAt d).busy * 2 ^ 62 + (s.dieAt d).nsv * 2 ^ 61 := by
  have hk : (0x80040 + 8 * d - 0x80040) / 8 = d := by omega
  unfold hubRead
  iterate 12 rw [if_neg (by omega)]
  rw [if_pos (by omega), hk]

/-! ## The state after reset -/

theorem reset_poisoned (a : Nat) : State.reset.poisoned a = false := by
  have hw : State.reset.wipedAt a = false := by unfold State.wipedAt; split <;> rfl
  have hl : State.reset.linkUp skoahLink = true := rfl
  have hp : Sparse.get false State.reset.poison (a / 32) = false := rfl
  simp [State.poisoned, hw, hl, hp]

theorem reset_dieAt (d : Nat) : State.reset.dieAt d = {} := rfl

theorem reset_keySlot {n : Nat} (hn : n ≠ 0) : State.reset.keySlot n = {} := by
  simp [State.keySlot, State.reset, Sparse.get, hn]

theorem reset_ackOf (m w : Nat) : State.reset.ackOf m w = 0 := by
  have hl : State.reset.link m = {} := rfl
  unfold State.ackOf Link.dir
  rw [hl]
  split <;> rfl

theorem reset_getX (r : Nat) : State.reset.h.getX r = 0 := by
  unfold Hart.getX
  split
  · rfl
  · exact Vector.getElem_replicate _

theorem reset_csrRead_zero : ∀ n ∈ [0x000, 0x002, 0x003, 0x008, 0x009, 0x00A, 0x00B, 0x00C, 0x00D, 0x014, 0x020, 0x021, 0x022,
    0x023, 0x030, 0x045, 0x050, 0x051, 0x100, 0x101, 0x200, 0x201, 0x202, 0x203, 0x204, 0x205, 0x206, 0x210, 0x211, 0x212, 0x213,
    0x215, 0x216], State.reset.csrRead n = 0 := by decide

theorem reset_queue_words (q : Nat) (hq : q < 64) : hubRead State.reset (0x40 * q + 0x10) = 7 ∧
    ∀ o ∈ [0x00, 0x08, 0x18, 0x20, 0x28, 0x30, 0x38], hubRead State.reset (0x40 * q + o) = 0 := by
  refine ⟨hubRead_queue_default rfl hq (by decide), fun o ho => ?_⟩
  have hw : o < 0x40 ∧ o / 8 ≠ 2 := by revert o; decide
  rw [hubRead_queue_default rfl hq hw.1, if_neg hw.2]

theorem reset_ring_words (n : Nat) (hn : n < 65) : ∀ o ∈ [0x00, 0x08, 0x10, 0x18],
    hubRead State.reset (0x60000 + 0x20 * n + o) = 0 := by
  intro o ho
  have hw : o < 0x20 := by revert o; decide
  exact hubRead_ring_default rfl hn hw

/-- Slot 0 alone holds a key: the random one (R378). -/
theorem reset_key_words : hubRead State.reset 0x50040 = 2 ^ 63 ∧
    ∀ n, n < 64 → n ≠ 0 → hubRead State.reset (0x50000 + 0x80 * n + 0x40) = 0 := by
  constructor
  · calc hubRead State.reset (0x50000 + 0x80 * 0 + 0x40)
        = ofBool (State.reset.keySlot 0).key.isSome * 2 ^ 63 := hubRead_key State.reset (n := 0) (by decide)
      _ = 2 ^ 63 := Nat.one_mul _
  · intro n hn h0
    rw [hubRead_key _ hn, reset_keySlot h0]
    rfl

theorem reset_power_words : hubRead State.reset 0x40000 = 350 ∧ hubRead State.reset 0x40008 = 0 ∧
    ∀ d, d < 6 → hubRead State.reset (0x40040 + 0x10 * d) = 0x770 := by
  refine ⟨hubRead_ceil _, ?_, fun d hd => ?_⟩
  · rw [hubRead_powerStatus]
    decide
  · rw [hubRead_die _ hd, reset_dieAt]
    decide

theorem reset_die_words (d : Nat) (hd : d < 6) :
    hubRead State.reset (0x80040 + 8 * d) = 0 ∧ (State.reset.dieAt d).up = false := by
  rw [hubRead_dieReset _ hd, reset_dieAt]
  decide

theorem reset_hostWindow_word : hubRead State.reset 0x70000 = 0 := by
  rw [hubRead_hostWindow]
  decide

/-- Settles O55: at reset the state lists nothing but the key of slot 0, so that every piece reads as its default. -/
theorem resetState : Obligations.ResetState := by
  unfold Obligations.ResetState
  intro s
  obtain ⟨hceil, hstatus, hdies⟩ := reset_power_words
  obtain ⟨hkey, hkeys⟩ := reset_key_words
  exact ⟨rfl, rfl, ⟨rfl, rfl, rfl, rfl⟩, reset_csrRead_zero, reset_queue_words, hceil, hstatus, hdies, hkey, hkeys,
    reset_ring_words, reset_hostWindow_word, rfl, reset_die_words, reset_ackOf, fun r _ => reset_getX r, rfl, rfl, rfl,
    fun _ => rfl, reset_poisoned, rfl, rfl, rfl⟩

end Sys2Proof.Machine
end
